-- ==== Sys2Proof/Word.lean ====
section
/-! DEFINITION. The octet, and the saturating arithmetic of counts and times (00 section 6.1: saturating counts and
times stop at the maximum of their range and do not wrap). -/

namespace Sys2Proof

/-- Eight bits (00 section 5). -/
abbrev Octet := BitVec 8

/-- The largest value of an uptime, wall clock or expiry (R76). -/
def maxSeconds : Nat := 4294967295

/-- A sum of seconds, saturating at the largest uptime value. -/
def addSeconds (a b : Nat) : Nat := min (a + b) maxSeconds

/-- One more, saturating at `top`. -/
def bump (top n : Nat) : Nat := min (n + 1) top

end Sys2Proof
end

