-- ==== Sys2Proof/Syntax.lean ====
section
/-! DEFINITION. The commands: one constructor for each row of spec/opcode_table.json, in the table's order, and the
types of their operands. The table gives no operand bits; each constructor says what its operands stand for. -/

namespace Sys2Proof

/-- The two serial links (00 section 3). -/
inductive Link where
  | modem
  | host
  deriving DecidableEq, Repr

/-- The two handset keys (R151). -/
inductive KeyLine where
  | ack
  | silence
  deriving DecidableEq, Repr

/-- R172: the expiry of a WAITING receipt and the start of its handoff may fall together; either may be taken first. -/
inductive SecondOrder where
  | staleFirst
  | handoffFirst
  deriving DecidableEq, Repr

/-- One octet as a link receiver takes it: its value, and whether its stop bit read low (R162). -/
structure RxOctet where
  value : Octet
  badStop : Bool
  deriving DecidableEq, Repr

/-- R34: a slot index, 0 to 15. -/
abbrev SlotIndex := Fin 16

/-- The steps of the part (spec/opcode_table.json). -/
inductive Instr where
  /-- MODEM_FRAME_ARRIVAL: these octets arrive on the modem link, the last of them ending a frame (R2, R175). -/
  | modemFrameArrival (octets : List RxOctet)
  /-- HOST_FRAME_ARRIVAL: these octets arrive on the host link, the last of them ending a frame (R176, R175). -/
  | hostFrameArrival (octets : List RxOctet)
  /-- INTER_OCTET_TIMEOUT: the line stays idle for more than 20 character times (R175). -/
  | interOctetTimeout (link : Link)
  /-- SHEET: the modem port takes a SHEET frame (R4, R8). -/
  | sheet
  /-- CELL: the modem port takes a CELL frame (R9). -/
  | cell
  /-- CHANNEL_STATE: the modem port takes a CHANNEL STATE frame (R10). -/
  | channelState
  /-- UPLINK_RESULT: the modem port takes an UPLINK RESULT frame (R11). -/
  | uplinkResult
  /-- OUTBOUND_TRANSMIT: the idle transmitter begins a staged frame (R13). -/
  | outboundTransmit
  /-- UPLINK_REQUEST_SENT: the last octet of an UPLINK REQUEST is sent (R168). -/
  | uplinkRequestSent
  /-- HANDOFF: the first due WAITING receipt is handed off (R167). -/
  | handoff
  /-- RESULT_WAIT_EXPIRY: the result wait runs out (R170). -/
  | resultWaitExpiry
  /-- RECEIPT_STALE: bulletin expiries of receipts are reached (R172). -/
  | receiptStale
  | status
  | setClock
  | setLocation
  | setProfile
  | setTag
  | setCadence
  | list
  | read
  | ack
  | release
  | events
  | history
  | preview
  | restart
  | unknownRequest
  /-- REPLY_SENT: the last octet of the reply is sent (R177). -/
  | replySent
  /-- HOLD_EXPIRY of one sheet of one slot (R26). -/
  | holdExpiry (slot : SlotIndex) (sheet : Nat)
  /-- GATHERING_TIMEOUT of one slot (R55). -/
  | gatheringTimeout (slot : SlotIndex)
  /-- ASSEMBLY_LIMIT of one slot (R53). -/
  | assemblyLimit (slot : SlotIndex)
  /-- SLOT_EXPIRY: all slot expiries reached, as one step (R86). -/
  | slotExpiry
  | retentionPruning
  | reminderExpiry
  | segmentBoundary
  | pressRecognition (key : KeyLine)
  | releaseRecognition (key : KeyLine)
  | chordFires
  | hardwareReset
  | resetRelease
  | loadDone
  | supplyOkFall
  | supplyOkRise
  /-- PROGRAM_ATTEMPT: the attempt completes; `unset` are the bits that did not take the program (log 9). -/
  | programAttempt (unset : BitVec 64)
  | void
  | prefillProgram
  /-- ERASE_ATTEMPT: the attempt completes; `unerased` lists positions with the bits that did not erase (log 9). -/
  | eraseAttempt (unerased : List (Nat × BitVec 64))
  /-- UPTIME_SECOND: a second ends (R76). -/
  | uptimeSecond (order : SecondOrder)
  /-- KEY_SAMPLE: one sampling instant, with the level of each line: true is low, pressed (R151). -/
  | keySample (ackLow silenceLow : Bool)
  /-- START_OCTET: a start octet reaches a link receiver (R175). -/
  | startOctet (link : Link) (badStop : Bool)
  /-- LISTEN_SET_SENT: the last octet of a LISTEN SET is sent (R13). -/
  | listenSetSent
  deriving DecidableEq, Repr

end Sys2Proof
end

