-- ==== Sys2Proof/Decode.lean ====
section
/-! DEFINITION. Commands spelled by words. spec/opcode_table.json gives bits to none of its rows (98_reader.md:
no row with fixed bits, no row with fields), so no word spells a command. -/

namespace Sys2Proof

/-- The command that a word spells by the table's bits: none, for no row of the table has bits (log 23). -/
def decodeTableWord (_nbits _w : Nat) : Option Instr := none

end Sys2Proof
end

