-- ==== Sys2Proof/Config.lean ====
section
/-! DEFINITION. The capacities the spec fixes, and the free value: what the spec leaves open and no proof can see. -/

namespace Sys2Proof.Config

/-- R3: the intake FIFO holds up to 8 frames. -/
def fifoCapacity : Nat := 8
/-- R176: two places of receive staging on the host link. -/
def stagingCapacity : Nat := 2
/-- R47: the pool holds 48 sheet buffers. -/
def bufferCount : Nat := 48
/-- R93: the history list holds up to 64 entries. -/
def historyCapacity : Nat := 64
/-- R100: the journal has 128 record positions. -/
def journalPositions : Nat := 128
/-- R105: at most 8 program attempts at one position. -/
def programAttempts : Nat := 8
/-- R109: at most 5 erase attempts in one compaction. -/
def eraseAttempts : Nat := 5
/-- R166: the receipt queue holds up to 8 entries. -/
def receiptCapacity : Nat := 8
/-- R170: an entry whose fourth handoff fails is dropped. -/
def handoffAttempts : Nat := 4
/-- R168: the result wait, in seconds. -/
def resultWaitSeconds : Nat := 20

/-- The bits of journal position `position` that a program or erase stopped part way had not yet changed, in the
`draw`-th such stop. R100: "A program or erase that is stopped part way leaves each bit it had still to change at
either value." A free value without a body (log 8). -/
opaque unchangedBits (draw position : Nat) : BitVec 64

end Sys2Proof.Config
end

