-- ==== Sys2Proof/Machine/State.lean ====
section
/-! DEFINITION. The state of the part, block by block as 00 section 2.1 lists them, its values after hardware reset,
and the reasons a step can stop. Plain data: every field can be compared and written out. -/

namespace Sys2Proof.Machine

/-! ## Codes shared by the blocks -/

/-- The pair (issuer, number) identifying a bulletin across its revisions (00 section 5). -/
structure Key where
  issuer : BitVec 9
  number : BitVec 13
  deriving DecidableEq, Repr

/-- R77: every expiry carries its scale. -/
inductive Scale where
  | uptime
  | wall
  deriving DecidableEq, Repr

/-- R77: an expiry, its scale beside its value in seconds. -/
structure Expiry where
  scale : Scale
  value : Nat
  deriving DecidableEq, Repr

/-- R60: a zone code, kept as carried: a level and a path of six digits. -/
structure Zone where
  level : BitVec 3
  digits : Vector (BitVec 3) 6
  deriving DecidableEq, Repr

/-- R93: how a revision was settled. -/
inductive Settled where
  | presented
  | rejected
  | cancelled
  | expired
  | superseded
  deriving DecidableEq, Repr

/-- R163: what a receipt reports. -/
inductive ReceiptKind where
  | presented
  | acknowledged
  deriving DecidableEq, Repr

/-- R36: the lead's receipt mode. -/
inductive ReceiptMode where
  | none
  | onPresent
  | onAck
  deriving DecidableEq, Repr

/-- R126: the source of an acknowledgement. -/
inductive AckSource where
  | key
  | link
  | chord
  deriving DecidableEq, Repr

/-- A frame without its envelope: the kind octet and the payload (R175). -/
structure Frame where
  kind : Octet
  payload : List Octet
  deriving DecidableEq, Repr

/-- R175: a link receiver waits, or is inside a frame: the octets after the start octet so far, and whether an octet
of the frame had a bad stop bit. -/
inductive Receiver where
  | waiting
  | inside (got : List Octet) (badStop : Bool)
  deriving DecidableEq, Repr

/-! ## Modem port (01) -/

/-- R13: an UPLINK REQUEST, with the number that tells its frame apart from others (R168). -/
structure UplinkRequest where
  key : Key
  revision : BitVec 4
  kind : ReceiptKind
  tag : BitVec 32
  cell : BitVec 16
  ackDelay : Nat
  frame : Nat
  deriving DecidableEq, Repr

/-- R13: what the modem-link transmitter is sending; a LISTEN SET holds the wanted set taken at its start (R12). -/
inductive Sending where
  | listenSet (wanted : BitVec 8)
  | uplinkRequest (request : UplinkRequest)
  deriving DecidableEq, Repr

/-- The modem port (R15). -/
structure ModemPort where
  fifo : List Frame
  rx : Receiver
  listenStaged : Bool
  uplinkStaged : Option UplinkRequest
  sending : Option Sending
  broadcast : Bool
  uplink : Bool
  servingCell : Option (BitVec 16)
  frameErrors : Nat
  overflow : Nat
  formatDiscards : Nat
  mutedDiscards : Nat
  knownDiscards : Nat
  noRoomDiscards : Nat
  deriving DecidableEq, Repr

/-- R15: the modem port when RESET returns high. -/
def ModemPort.atReset : ModemPort where
  fifo := []
  rx := .waiting
  listenStaged := false
  uplinkStaged := none
  sending := none
  broadcast := false
  uplink := false
  servingCell := none
  frameErrors := 0
  overflow := 0
  formatDiscards := 0
  mutedDiscards := 0
  knownDiscards := 0
  noRoomDiscards := 0

/-! ## The bulletin table (02, 03) -/

/-- R18: one position of a sheet buffer, value V and score S. -/
structure Position where
  value : Octet
  score : Nat
  deriving DecidableEq, Repr

/-- R18: a sheet buffer holds 48 positions. -/
abbrev Buffer := Vector Position 48

/-- R17: the state of a sheet's assembly. -/
inductive SheetState where
  | empty
  | combining
  | held
  | accepted
  deriving DecidableEq, Repr

/-- R17: a sheet record. -/
structure SheetRecord where
  state : SheetState
  buffer : Option Buffer
  copies : Nat
  margin : Option Nat
  passingCell : Option (BitVec 16)
  holdDeadline : Option Nat
  onHold : Bool
  deriving DecidableEq, Repr

/-- R17: a sheet record at creation. -/
def SheetRecord.atCreation : SheetRecord where
  state := .empty
  buffer := none
  copies := 0
  margin := none
  passingCell := none
  holdDeadline := none
  onHold := false

/-- R36: the lead fields of a slot, after decoding; `zones` holds the first zone-count codes. -/
structure Lead where
  validity : Nat
  mode : ReceiptMode
  cancel : Bool
  language : Octet
  dispersal : Nat
  zones : List Zone
  text : List Octet
  deriving DecidableEq, Repr

/-- R34: the states of an occupied slot. A FREE slot has no record. -/
inductive SlotState where
  | gathering
  | admitted
  | queued
  | sounding
  | shown
  | pending
  | done
  deriving DecidableEq, Repr

/-- R34, R126: the acknowledgement record. -/
structure AckRecord where
  uptime : Nat
  source : AckSource
  delay : Nat
  deriving DecidableEq, Repr

/-- R34, R35: the record of an occupied slot. The sheet count is the length of the sheet list, and the rank is the
rank of the class. -/
structure Slot where
  state : SlotState
  key : Key
  revision : BitVec 4
  cls : BitVec 3
  sheets : List SheetRecord
  lead : Option Lead
  leadCell : Option (BitVec 16)
  firstCopy : Nat
  lastActivity : Nat
  /-- R55: last activity plus the gathering timeout in force when it was set; present while GATHERING. -/
  gatherDeadline : Option Nat
  admission : Option Nat
  /-- R51: the deadline of the assembly limit. -/
  assemblyDeadline : Option Nat
  expiry : Option Expiry
  firstPresentation : Option Nat
  doneTime : Option Nat
  isPartial : Bool
  reminders : Nat
  ack : Option AckRecord
  predecessor : Option SlotIndex
  withdrawal : Option Settled
  deriving DecidableEq, Repr

/-! ## Screening, timebase, history (04, 05, 06) -/

/-- R62: the location record. -/
structure Location where
  hostZones : List Zone
  cellZone : Option Zone
  deriving DecidableEq, Repr

/-- R76: the timebase. -/
structure Timebase where
  uptime : Nat
  wall : Nat
  clockSet : Bool
  deriving DecidableEq, Repr

/-- R93: a history entry. -/
structure HistoryEntry where
  key : Key
  revision : BitVec 4
  outcome : Settled
  expiry : Expiry
  persisted : Bool
  deriving DecidableEq, Repr

/-! ## The journal store (06) -/

/-- R107: the phases of compaction. -/
inductive Phase where
  | prefill
  | erasing
  | rewriting
  deriving DecidableEq, Repr

/-- R101: the operations of the store. A program attempt carries its subject and its number at the position; `replaced`
says that an entry equal to the subject has been added since the first attempt, so that the subject has left history and
the equal entry is another one (R94, R97; log 14). -/
inductive Operation where
  | program (subject : HistoryEntry) (attempt : Nat) (replaced : Bool)
  | void
  | prefill (position : Nat)
  | erase
  deriving DecidableEq, Repr

/-- R101: the store states. `busy none op` is PROGRAMMING, `busy (some phase) op` is COMPACTING; `deferred` keeps the
phase and the operation it notes, `deferred none none` being DEFERRED from IDLE with nothing started (R112). -/
inductive StoreState where
  | loading
  | idle
  | busy (phase : Option Phase) (op : Operation)
  | deferred (phase : Option Phase) (op : Option Operation)
  | failed
  deriving DecidableEq, Repr

/-- R100, R101: the journal and its store. Octet 0 of a position is the most significant octet of its word. -/
structure Store where
  journal : Vector (BitVec 64) 128
  state : StoreState
  writePos : Nat
  /-- R109: erase attempts that have failed in this compaction. -/
  eraseFails : Nat
  deriving DecidableEq, Repr

/-! ## Presentation and attention (07, 08) -/

/-- 07: what presentation holds. -/
structure Presentation where
  queue : List SlotIndex
  pendingList : List SlotIndex
  active : Option SlotIndex
  reminder : Option Nat
  preview : Option Nat
  deriving DecidableEq, Repr

/-- R137. -/
def Presentation.atReset : Presentation where
  queue := []
  pendingList := []
  active := none
  reminder := none
  preview := none

/-- R139: the kind of a segment. -/
inductive SegmentKind where
  | toneA
  | toneB
  | pause
  deriving DecidableEq, Repr

/-- R139: a segment of a cadence; its length is in units of 10 ms. -/
structure Segment where
  kind : SegmentKind
  vibrate : Bool
  length : Nat
  deriving DecidableEq, Repr

/-- R139: the counts of the tone clock for which a tone is high and low. -/
structure Tone where
  high : Nat
  low : Nat
  deriving DecidableEq, Repr

/-- R138: for whom a cycle runs. -/
inductive Owner where
  | slot (index : SlotIndex)
  | preview
  deriving DecidableEq, Repr

/-- R138: the running cycle. `quiet` is the quiet setting as read at the start of the segment (R146), `phase` the
tone clock periods since the segment's start (R141). -/
structure Cycle where
  owner : Owner
  rank : Nat
  segments : List Segment
  toneA : Tone
  toneB : Tone
  attentionTime : Nat
  index : Nat
  counter : Nat
  elapsed : Nat
  quiet : Bool
  phase : Nat
  deriving DecidableEq, Repr

/-! ## Keys (09) -/

/-- R151: a key filter. -/
structure Filter where
  pressed : Bool
  run : Nat
  consumed : Bool
  deriving DecidableEq, Repr

/-- R156. -/
def Filter.atReset : Filter where
  pressed := false
  run := 0
  consumed := false

/-- R154: a running chord timer: elapsed milliseconds, and the chord time in seconds it was started with. -/
structure ChordTimer where
  elapsed : Nat
  chordTime : Nat
  deriving DecidableEq, Repr

/-- The key inputs. -/
structure Keys where
  ack : Filter
  silence : Filter
  chord : Option ChordTimer
  deriving DecidableEq, Repr

/-- R156. -/
def Keys.atReset : Keys where
  ack := .atReset
  silence := .atReset
  chord := none

/-! ## Receipts (10) -/

/-- R163: a receipt entry; `inFlight` is its state, WAITING or IN_FLIGHT. `expiryReached` keeps that the bulletin expiry was
reached by the clock that a SET-CLOCK has since moved: R172 drops the entry all the same, and R80 postpones only the
expiries not yet reached. -/
structure Receipt where
  key : Key
  revision : BitVec 4
  kind : ReceiptKind
  tag : BitVec 32
  cell : BitVec 16
  ackDelay : Nat
  expiry : Expiry
  expiryReached : Bool
  due : Nat
  attempts : Nat
  inFlight : Bool
  order : Nat
  deriving DecidableEq, Repr

/-- The receipt scheduler: its queue, the result wait of the entry in flight and the frame its handoff staged (R168),
the next entry order (R163) and the next frame number. -/
structure Receipts where
  queue : List Receipt
  wait : Option Nat
  frame : Option Nat
  nextOrder : Nat
  nextFrame : Nat
  deriving DecidableEq, Repr

/-- R174; the two counters start at 0 (log 11). -/
def Receipts.atReset : Receipts where
  queue := []
  wait := none
  frame := none
  nextOrder := 0
  nextFrame := 0

/-! ## Host port (08, 11) -/

/-- R65: the unknown-location policy. -/
inductive Policy where
  | presentAll
  | nationwideOnly
  deriving DecidableEq, Repr

/-- R179: the profile. The wake mask has a bit for each of the thirteen event kinds, the mute mask one for each class. -/
structure Profile where
  floor : Nat
  holdTime : Nat
  assemblyLimit : Nat
  gatherTimeout : Nat
  retention : Nat
  attentionTime : Nat
  reminderInterval : Nat
  reminderCount : Nat
  muteMask : BitVec 8
  quiet : Bool
  policy : Policy
  wakeMask : BitVec 13
  checkTime : Nat
  chordTime : Nat
  deriving DecidableEq, Repr

/-- R179: the defaults. The mute mask is {TEST, EXERCISE}; the wake mask is {ACKNOWLEDGED, WITHDRAWN, STORE_FAILED}. -/
def Profile.atReset : Profile where
  floor := 6
  holdTime := 20
  assemblyLimit := 60
  gatherTimeout := 300
  retention := 21600
  attentionTime := 12
  reminderInterval := 120
  reminderCount := 2
  muteMask := 0b11000000
  quiet := false
  policy := .presentAll
  wakeMask := 0b0100001010000
  checkTime := 16
  chordTime := 3

/-- R139: the four cadence tables, one for each rank. -/
structure Cadences where
  rank1 : List Segment
  rank2 : List Segment
  rank3 : List Segment
  rank4 : List Segment
  deriving DecidableEq, Repr

/-- R139: the default cadences. -/
def Cadences.atReset : Cadences where
  rank4 := [⟨.toneA, true, 50⟩, ⟨.toneB, true, 50⟩]
  rank3 := [⟨.toneA, true, 40⟩, ⟨.pause, false, 10⟩, ⟨.toneA, true, 40⟩, ⟨.pause, false, 30⟩]
  rank2 := [⟨.toneB, true, 30⟩, ⟨.pause, false, 20⟩, ⟨.toneB, false, 30⟩, ⟨.pause, false, 70⟩]
  rank1 := [⟨.toneA, true, 20⟩, ⟨.pause, false, 180⟩]

/-- The settings the host port holds: profile, handset tag, cadence tables and tones. -/
structure Settings where
  profile : Profile
  tag : BitVec 32
  cadences : Cadences
  toneA : Tone
  toneB : Tone
  deriving DecidableEq, Repr

/-- R139, R179, R180. -/
def Settings.atReset : Settings where
  profile := .atReset
  tag := 0
  cadences := .atReset
  toneA := ⟨36, 36⟩
  toneB := ⟨30, 30⟩

/-- R176, R177: the host link. `reply` is the reply of the request in hand, until its last octet is sent. -/
structure HostLink where
  rx : Receiver
  staging : List Frame
  reply : Option Frame
  frameErrors : Nat
  overflow : Nat
  deriving DecidableEq, Repr

/-- R176. -/
def HostLink.atReset : HostLink where
  rx := .waiting
  staging := []
  reply := none
  frameErrors := 0
  overflow := 0

/-- R184: the slot event kinds. -/
inductive SlotKind where
  | admitted
  | presenting
  | shown
  | pending
  | acknowledged
  | updated
  | withdrawn
  | rejected
  | abandoned
  deriving DecidableEq, Repr

/-- R184: the device event kinds. -/
inductive DeviceKind where
  | receiptSent
  | receiptDropped
  | storeFailed
  | loadDone
  deriving DecidableEq, Repr

/-- R173: why a receipt was dropped. -/
inductive DropReason where
  | full
  | attempts
  | stale
  deriving DecidableEq, Repr

/-- R173, R184: the detail of a device posting. -/
inductive Detail where
  | entries (count : Nat)
  | sent (key : Key) (revision : BitVec 4) (kind : ReceiptKind) (attempts : Nat)
  | dropped (key : Key) (revision : BitVec 4) (kind : ReceiptKind) (reason : DropReason)
  deriving DecidableEq, Repr

/-- R184: an entry of the event set. `kinds` has a bit for each set position of 11 section 11.6. -/
inductive EventEntry where
  | slot (index : SlotIndex) (key : Key) (revision : BitVec 4) (kinds : BitVec 13)
  | device (kind : DeviceKind) (count : Nat) (detail : Detail)
  deriving DecidableEq, Repr

/-! ## The state -/

/-- R157, R159: the two input lines of the power controller. -/
structure Lines where
  resetLow : Bool
  supplyOk : Bool
  deriving DecidableEq, Repr

/-- The state of the part. The last two fields are the model's own: how many free values have been drawn (log 8), and
the queue of commands waiting. -/
structure State where
  lines : Lines
  modem : ModemPort
  slots : Vector (Option Slot) 16
  location : Location
  time : Timebase
  history : List HistoryEntry
  store : Store
  pres : Presentation
  cycle : Option Cycle
  keys : Keys
  receipts : Receipts
  settings : Settings
  host : HostLink
  events : List EventEntry
  draws : Nat
  pending : List Instr
  deriving DecidableEq, Repr

/-- Why a step stops with a fault: never. No rule of the spec stops the part, so this type has no constructor, and a
value of it cannot exist (safe). -/
inductive Fault where
  deriving DecidableEq, Repr

/-- Why a step is refused. -/
inductive Refusal where
  /-- Raised by an arm of `exec` whose command has no meaning yet: none has it now (safe). -/
  | notModelled (mnemonic : String)
  deriving DecidableEq, Repr

/-- The machine right after hardware reset (R157, "Values after hardware reset"): RESET high again, the store LOADING.
The journal is erased (log 6) and SUPPLY_OK is high (log 7). -/
def State.reset : State where
  lines := ⟨false, true⟩
  modem := .atReset
  slots := Vector.replicate 16 none
  location := ⟨[], none⟩
  time := ⟨0, 0, false⟩
  history := []
  store := ⟨Vector.replicate 128 (BitVec.allOnes 64), .loading, 0, 0⟩
  pres := .atReset
  cycle := none
  keys := .atReset
  receipts := .atReset
  settings := .atReset
  host := .atReset
  events := []
  draws := 0
  pending := []

/-! ## Updates of one block -/

def State.updLines (s : State) (f : Lines → Lines) : State := { s with lines := f s.lines }
def State.updModem (s : State) (f : ModemPort → ModemPort) : State := { s with modem := f s.modem }
def State.updSlots (s : State) (f : Vector (Option Slot) 16 → Vector (Option Slot) 16) : State :=
  { s with slots := f s.slots }
def State.updLocation (s : State) (f : Location → Location) : State := { s with location := f s.location }
def State.updTime (s : State) (f : Timebase → Timebase) : State := { s with time := f s.time }
def State.updHistory (s : State) (f : List HistoryEntry → List HistoryEntry) : State := { s with history := f s.history }
def State.updStore (s : State) (f : Store → Store) : State := { s with store := f s.store }
def State.updPres (s : State) (f : Presentation → Presentation) : State := { s with pres := f s.pres }
def State.updCycle (s : State) (f : Option Cycle → Option Cycle) : State := { s with cycle := f s.cycle }
def State.updKeys (s : State) (f : Keys → Keys) : State := { s with keys := f s.keys }
def State.updReceipts (s : State) (f : Receipts → Receipts) : State := { s with receipts := f s.receipts }
def State.updSettings (s : State) (f : Settings → Settings) : State := { s with settings := f s.settings }
def State.updHost (s : State) (f : HostLink → HostLink) : State := { s with host := f s.host }
def State.updEvents (s : State) (f : List EventEntry → List EventEntry) : State := { s with events := f s.events }
def State.updDraws (s : State) (f : Nat → Nat) : State := { s with draws := f s.draws }
def State.updPending (s : State) (f : List Instr → List Instr) : State := { s with pending := f s.pending }

end Sys2Proof.Machine
end

