-- ==== Sys2Proof/Machine/Operands.lean ====
section
/-! DEFINITION. Operand forms: the fields of every inbound payload, read from its octets (R187, R188), and the writing
of numbers, keys and zone codes into octets. -/

namespace Sys2Proof.Machine

/-! ## Vectors, entry by entry -/

/-- The vector whose entry `i` is `f i`. -/
def tabulate (n : Nat) (f : Nat → α) : Vector α n :=
  ⟨((List.range n).map f).toArray, by simp⟩

/-- Every entry changed by `f`. -/
def mapEntries (f : α → β) (v : Vector α n) : Vector β n :=
  ⟨(v.toList.map f).toArray, by simp⟩

/-- Two vectors folded entry by entry. -/
def zipEntries (f : α → β → γ) (v : Vector α n) (w : Vector β n) : Vector γ n :=
  ⟨(List.zipWith f v.toList w.toList).toArray, by simp⟩

/-! ## Reading octets, high octet first (R187) -/

def octetAt (p : List Octet) (i : Nat) : Octet := p.getD i 0

def natAt (p : List Octet) (i : Nat) : Nat := (octetAt p i).toNat

def word16At (p : List Octet) (i : Nat) : BitVec 16 := octetAt p i ++ octetAt p (i + 1)

def word24At (p : List Octet) (i : Nat) : BitVec 24 := octetAt p i ++ octetAt p (i + 1) ++ octetAt p (i + 2)

def word32At (p : List Octet) (i : Nat) : BitVec 32 := word16At p i ++ word16At p (i + 2)

/-- R188: a zone code, three octets read as one 24-bit number; bits 2 to 0 are unused. -/
def zoneOfWord (w : BitVec 24) : Zone where
  level := w.extractLsb' 21 3
  digits := #v[w.extractLsb' 18 3, w.extractLsb' 15 3, w.extractLsb' 12 3, w.extractLsb' 9 3, w.extractLsb' 6 3,
    w.extractLsb' 3 3]

def zoneAt (p : List Octet) (i : Nat) : Zone := zoneOfWord (word24At p i)

/-- R188: a key outside the sheet frame, three octets read as one 24-bit number; bits 1 to 0 are unused. -/
def keyOfWord (w : BitVec 24) : Key where
  issuer := w.extractLsb' 15 9
  number := w.extractLsb' 2 13

def keyAt (p : List Octet) (i : Nat) : Key := keyOfWord (word24At p i)

/-! ## Writing octets, high octet first (R187) -/

def octet (n : Nat) : Octet := BitVec.ofNat 8 n

def octets16 (n : Nat) : List Octet := [octet (n / 256), octet n]

def octets32 (n : Nat) : List Octet := [octet (n / 16777216), octet (n / 65536), octet (n / 256), octet n]

def octets24 (w : BitVec 24) : List Octet := [w.extractLsb' 16 8, w.extractLsb' 8 8, w.extractLsb' 0 8]

def zoneWord (z : Zone) : BitVec 24 :=
  z.level ++ z.digits[0] ++ z.digits[1] ++ z.digits[2] ++ z.digits[3] ++ z.digits[4] ++ z.digits[5] ++ (0 : BitVec 3)

def keyWord (k : Key) : BitVec 24 := k.issuer ++ k.number ++ (0 : BitVec 2)

def zoneOctets (z : Zone) : List Octet := octets24 (zoneWord z)

def keyOctets (k : Key) : List Octet := octets24 (keyWord k)

def flagOctet (b : Bool) : Octet := if b then 1 else 0

/-! ## Frame kinds and lengths (R188) -/

def kindSheet : Octet := 0x51
def kindCell : Octet := 0x52
def kindChannelState : Octet := 0x53
def kindUplinkResult : Octet := 0x54
def kindListenSet : Octet := 0x61
def kindUplinkRequest : Octet := 0x62

/-- The payload length of an inbound modem frame's kind; absent for a kind that is not one of the four. -/
def modemPayloadLength (kind : Octet) : Option Nat :=
  if kind = kindSheet then some 104
  else if kind = kindCell then some 6
  else if kind = kindChannelState then some 1
  else if kind = kindUplinkResult then some 6
  else none

/-- R177: the request kinds are 0x01 to 0x0E. -/
def namesRequest (kind : Octet) : Bool := decide (1 ≤ kind.toNat) && decide (kind.toNat ≤ 14)

/-! ## The sheet copy (R1) -/

/-- One octet of a copy's body: its value, and its confidence as received, or clamped. -/
structure Pair where
  value : Octet
  confidence : Nat
  deriving DecidableEq, Repr

/-- R1: a sheet copy. -/
structure Copy where
  cell : BitVec 16
  key : Key
  revision : BitVec 4
  cls : BitVec 3
  index : Nat
  count : Nat
  body : Vector Pair 48
  deriving DecidableEq, Repr

/-- R188: the sheet frame payload. -/
def copyOf (p : List Octet) : Copy :=
  let header := word32At p 2
  { cell := word16At p 0
    key := ⟨header.extractLsb' 23 9, header.extractLsb' 10 13⟩
    revision := header.extractLsb' 6 4
    cls := header.extractLsb' 3 3
    index := natAt p 6
    count := natAt p 7
    body := tabulate 48 fun i => ⟨octetAt p (8 + 2 * i), natAt p (9 + 2 * i)⟩ }

/-- R5: every confidence greater than 15 is replaced by 15. -/
def Copy.clamped (c : Copy) : Copy :=
  { c with body := mapEntries (fun q => { q with confidence := min q.confidence 15 }) c.body }

/-- The rank of a class (00 section 5, class table). -/
def rankOfClass (cls : BitVec 3) : Nat :=
  if cls = 0 then 4 else if cls = 1 then 3 else if cls.toNat ≤ 4 then 2 else 1

/-! ## The lead fields (R36) -/

/-- R36: the receipt mode; the fourth carried value is taken as ON_ACK. -/
def modeOf (bits : BitVec 2) : ReceiptMode :=
  if bits = 0 then .none else if bits = 1 then .onPresent else .onAck

/-- R36: the lead fields decoded from the values of sheet 0's buffer. -/
def leadOf (p : List Octet) : Lead :=
  { validity := max 1 (min 4320 (word16At p 0).toNat)
    mode := modeOf ((octetAt p 2).extractLsb' 0 2)
    cancel := (octetAt p 2).getLsbD 2
    language := octetAt p 3
    dispersal := natAt p 4
    zones := (List.range (min 8 (natAt p 5))).map fun i => zoneAt p (6 + 3 * i)
    text := (List.range 16).map fun i => octetAt p (30 + i) }

/-! ## UPLINK RESULT (R11) -/

/-- R11: the modem's answer to an UPLINK REQUEST. -/
inductive ResultCode where
  | sent
  | refused
  | noService
  deriving DecidableEq, Repr

/-- R11: a well-formed UPLINK RESULT. -/
structure UplinkAnswer where
  key : Key
  revision : BitVec 4
  kind : ReceiptKind
  result : ResultCode
  deriving DecidableEq, Repr

def receiptKindOf (o : Octet) : Option ReceiptKind :=
  if o = 0 then some .presented else if o = 1 then some .acknowledged else none

def resultCodeOf (o : Octet) : Option ResultCode :=
  if o = 0 then some .sent else if o = 1 then some .refused else if o = 2 then some .noService else none

/-- R11, R187: absent when the kind octet or the result octet holds any other value. -/
def uplinkAnswerOf (p : List Octet) : Option UplinkAnswer :=
  match receiptKindOf (octetAt p 4), resultCodeOf (octetAt p 5) with
  | some kind, some result => some ⟨keyAt p 0, (octetAt p 3).extractLsb' 0 4, kind, result⟩
  | _, _ => none

/-! ## CELL (R187) -/

/-- R187: the zone code of a CELL frame; a zone-present octet of 0 means it is absent. -/
def cellZoneOf (p : List Octet) : Option Zone :=
  if octetAt p 2 = 0 then none else some (zoneAt p 3)

/-! ## SET-PROFILE (R179) -/

def clampTo (low high n : Nat) : Nat := max low (min high n)

/-- R152: the key check time is one of 0, 8, 16, 32, 64; any other value is taken as the next above, or 64. -/
def takenCheckTime (n : Nat) : Nat :=
  if n = 0 then 0 else if n ≤ 8 then 8 else if n ≤ 16 then 16 else if n ≤ 32 then 32 else 64

/-- R179: the enumerated octets name their values. -/
def profileSensible (p : List Octet) : Bool := decide (natAt p 16 ≤ 1) && decide (natAt p 17 ≤ 1)

/-- R179: the profile given, each numeric setting outside its range at the nearer end. The mute-mask member for class
0 is ignored, and so are the wake-mask positions above the thirteen kinds. That bit n of the mute-mask octet is class n is
the model's reading: the table of R179 does not number the bits (log 38). -/
def profileOf (p : List Octet) : Profile :=
  { floor := clampTo 1 63 (natAt p 1)
    holdTime := clampTo 5 255 (natAt p 2)
    assemblyLimit := clampTo 10 600 (word16At p 3).toNat
    gatherTimeout := clampTo 30 3600 (word16At p 5).toNat
    retention := clampTo 0 86400 (word32At p 7).toNat
    attentionTime := clampTo 4 30 (natAt p 11)
    reminderInterval := clampTo 30 900 (word16At p 12).toNat
    reminderCount := clampTo 0 5 (natAt p 14)
    muteMask := octetAt p 15 &&& 0b11111110
    quiet := decide (octetAt p 16 = 1)
    policy := if octetAt p 17 = 1 then .nationwideOnly else .presentAll
    wakeMask := (word16At p 18).extractLsb' 0 13
    checkTime := takenCheckTime (natAt p 20)
    chordTime := clampTo 1 10 (natAt p 21) }

/-- R179: some value was taken otherwise than given. -/
def profileClamped (p : List Octet) : Bool :=
  let q := profileOf p
  !(q.floor == natAt p 1 && q.holdTime == natAt p 2 && q.assemblyLimit == (word16At p 3).toNat
    && q.gatherTimeout == (word16At p 5).toNat && q.retention == (word32At p 7).toNat
    && q.attentionTime == natAt p 11 && q.reminderInterval == (word16At p 12).toNat
    && q.reminderCount == natAt p 14 && q.checkTime == natAt p 20 && q.chordTime == natAt p 21)

/-! ## SET-CADENCE (R140) -/

def segmentKindOf (o : Octet) : Option SegmentKind :=
  if o = 0 then some .pause else if o = 1 then some .toneA else if o = 2 then some .toneB else none

/-- R140: one segment, from octet `i`; a length of 0 is taken as 1. -/
def segmentAt (p : List Octet) (i : Nat) : Option Segment :=
  match segmentKindOf (octetAt p i) with
  | none => none
  | some kind =>
    if natAt p (i + 1) ≤ 1 then some ⟨kind, decide (octetAt p (i + 1) = 1), max 1 (natAt p (i + 2))⟩ else none

/-- R140: the segments of a request of `n` segments, if every kind and vibrate value is legal. -/
def segmentsAt (p : List Octet) : Nat → Nat → Option (List Segment)
  | _, 0 => some []
  | i, n + 1 =>
    match segmentAt p i, segmentsAt p (i + 3) n with
    | some s, some l => some (s :: l)
    | _, _ => none

/-- R140: the four tone counts of a request of `n` segments; a count of 0 is taken as 1. -/
def tonesAt (p : List Octet) (n : Nat) : Tone × Tone :=
  (⟨max 1 (natAt p (3 + 3 * n)), max 1 (natAt p (4 + 3 * n))⟩,
   ⟨max 1 (natAt p (5 + 3 * n)), max 1 (natAt p (6 + 3 * n))⟩)

/-- R140: some segment length or tone count was taken as 1. -/
def cadenceClamped (p : List Octet) (n : Nat) : Bool :=
  (List.range n).any (fun j => octetAt p (5 + 3 * j) == 0)
    || (List.range 4).any (fun j => octetAt p (3 + 3 * n + j) == 0)

/-- R139: the cadence table of a rank. -/
def Cadences.ofRank (c : Cadences) (rank : Nat) : List Segment :=
  if rank = 4 then c.rank4 else if rank = 3 then c.rank3 else if rank = 2 then c.rank2 else c.rank1

/-- R140: one rank's table replaced whole. -/
def Cadences.withRank (c : Cadences) (rank : Nat) (l : List Segment) : Cadences :=
  if rank = 4 then { c with rank4 := l }
  else if rank = 3 then { c with rank3 := l }
  else if rank = 2 then { c with rank2 := l }
  else { c with rank1 := l }

/-! ## SET-LOCATION (R63) -/

/-- R63: the zone codes of a payload of 1 + 3k octets. -/
def zonesOf (p : List Octet) : List Zone :=
  (List.range ((p.length - 1) / 3)).map fun i => zoneAt p (1 + 3 * i)

/-! ## Slot indexes -/

/-- All slot indexes, lowest first. -/
def allSlots : List SlotIndex := [0, 1, 2, 3, 4, 5, 6, 7, 8, 9, 10, 11, 12, 13, 14, 15]

/-- The slot an octet names; absent outside 0 to 15. -/
def slotIndexOf (n : Nat) : Option SlotIndex := if h : n < 16 then some ⟨n, h⟩ else none

end Sys2Proof.Machine
end

