-- ==== Sys2Proof/Machine/Flags.lean ====
section
/-! DEFINITION. What is computed from data and held nowhere: the CRC and the journal's check octet, the wanted set, the
relations of zone codes, the reaching of expiries, and the levels of the output lines. -/

namespace Sys2Proof.Machine

/-! ## The CRC (R22) -/

/-- One step of the register. -/
def crcStep (c : BitVec 16) : BitVec 16 := if c.msb then (c <<< 1) ^^^ 0x1021#16 else c <<< 1

/-- The register stepped `n` times. -/
def crcSteps : Nat → BitVec 16 → BitVec 16
  | 0, c => c
  | n + 1, c => crcSteps n (crcStep c)

/-- One octet taken into the register. -/
def crcOctet (c : BitVec 16) (o : Octet) : BitVec 16 := crcSteps 8 (c ^^^ (o ++ (0 : BitVec 8)))

/-- R22: the CRC of a list of octets. -/
def crc16 (l : List Octet) : BitVec 16 := l.foldl crcOctet 0xFFFF#16

/-- The combined octets of a buffer, in position order. -/
def Buffer.values (b : Buffer) : List Octet := b.toList.map (·.value)

/-- R22: the sheet check of a buffer. -/
def sheetCheck (b : Buffer) : Bool := crc16 (Buffer.values b |>.take 46) == b[46].value ++ b[47].value

/-- R23: the smallest score over all 48 positions. -/
def smallestScore (b : Buffer) : Nat := b.toList.foldl (fun m q => min m q.score) 63

/-- R175: the octets of a frame on the line. -/
def frameOctets (f : Frame) : List Octet :=
  let body := f.kind :: octet f.payload.length :: f.payload
  let check := crc16 body
  0xC3 :: body ++ [check.extractLsb' 8 8, check.extractLsb' 0 8]

/-! ## Classes and events -/

/-- R6: the wanted set, class 0 always added; bit n is class n. -/
def wantedSet (p : Profile) : BitVec 8 := ~~~p.muteMask ||| 1

/-- R6: a copy of this class is wanted. -/
def classWanted (p : Profile) (cls : BitVec 3) : Bool := (wantedSet p).getLsbD cls.toNat

/-- The set position of a slot event kind (11 section 11.6). -/
def SlotKind.position : SlotKind → Nat
  | .admitted => 0
  | .presenting => 1
  | .shown => 2
  | .pending => 3
  | .acknowledged => 4
  | .updated => 5
  | .withdrawn => 6
  | .rejected => 7
  | .abandoned => 8

/-- The set position of a device event kind (11 section 11.6). -/
def DeviceKind.position : DeviceKind → Nat
  | .receiptSent => 9
  | .receiptDropped => 10
  | .storeFailed => 11
  | .loadDone => 12

/-- The kind set that holds one kind. -/
def SlotKind.bit (k : SlotKind) : BitVec 13 := BitVec.twoPow 13 k.position

/-- R185: this entry holds EVT high under this wake mask. -/
def EventEntry.wakes (wake : BitVec 13) : EventEntry → Bool
  | .slot _ _ _ kinds => kinds.getLsbD SlotKind.presenting.position || (kinds &&& wake != 0)
  | .device kind _ _ => wake.getLsbD kind.position

/-- R161, R185: the level of EVT; it is held low while RESET is low. -/
def State.evt (s : State) : Bool :=
  !s.lines.resetLow && s.events.any (EventEntry.wakes s.settings.profile.wakeMask)

/-! ## TONE and VIB (R141, R145, R146) -/

/-- The segment being played. -/
def Cycle.segment (c : Cycle) : Option Segment := c.segments[c.index]?

/-- R141: the wave is high for H periods of the tone clock, then low for L, from the segment's start. -/
def waveHigh (t : Tone) (phase : Nat) : Bool := decide (phase % (t.high + t.low) < t.high)

/-- R141, R145, R146: the level of TONE in a cycle; it is low at the segment's boundary (log 2). -/
def Cycle.tone (c : Cycle) : Bool :=
  match c.segment with
  | none => false
  | some seg =>
    if c.counter = 0 || (c.quiet && c.rank ≤ 3) then false
    else match seg.kind with
      | .toneA => waveHigh c.toneA c.phase
      | .toneB => waveHigh c.toneB c.phase
      | .pause => false

/-- R145: the level of VIB in a cycle. -/
def Cycle.vib (c : Cycle) : Bool :=
  match c.segment with
  | none => false
  | some seg => seg.vibrate

/-- R160: the level of TONE. -/
def State.tone (s : State) : Bool := !s.lines.resetLow && (s.cycle.map Cycle.tone).getD false

/-- R160: the level of VIB. -/
def State.vib (s : State) : Bool := !s.lines.resetLow && (s.cycle.map Cycle.vib).getD false

/-! ## Zone codes (R60, R61, R64) -/

/-- R60: the significant path: the first effective-level digits, a level of 7 taken as 6. -/
def Zone.path (z : Zone) : List (BitVec 3) := z.digits.toList.take (min 6 z.level.toNat)

/-- R60: equal in normalised form. -/
def Zone.same (a b : Zone) : Bool := a.path == b.path

/-- R61: the significant path of the one is the start of the other's. -/
def Zone.overlaps (a b : Zone) : Bool := a.path.isPrefixOf b.path || b.path.isPrefixOf a.path

/-- R64: the effective location; absent when the location is unknown. -/
def Location.effective (l : Location) : Option (List Zone) :=
  if l.hostZones.isEmpty then l.cellZone.map (fun z => [z]) else some l.hostZones

/-- R64: every code of the one is equal to some code of the other. -/
def zonesWithin (a b : List Zone) : Bool := a.all fun x => b.any fun y => x.same y

/-- R64: two effective locations are the same. -/
def sameLocation : Option (List Zone) → Option (List Zone) → Bool
  | none, none => true
  | some a, some b => zonesWithin a b && zonesWithin b a
  | _, _ => false

/-- R67: screening returns PRESENT. -/
def screensPresent (lead : Lead) (l : Location) (policy : Policy) : Bool :=
  if lead.zones.isEmpty then true
  else match l.effective with
    | some here => lead.zones.any fun z => here.any fun h => z.overlaps h
    | none => match policy with
      | .presentAll => true
      | .nationwideOnly => false

/-! ## Expiries (R77, R81, R96) -/

/-- R77: an expiry is reached. -/
def reached (t : Timebase) (e : Expiry) : Bool :=
  match e.scale with
  | .uptime => decide (e.value ≤ t.uptime)
  | .wall => t.clockSet && decide (e.value ≤ t.wall)

/-- R81: the expiry given by a validity in minutes, at this moment. -/
def expiryFrom (t : Timebase) (validity : Nat) : Expiry :=
  if t.clockSet then ⟨.wall, addSeconds t.wall (validity * 60)⟩ else ⟨.uptime, addSeconds t.uptime (validity * 60)⟩

/-- R79: an expiry at the first setting of the clock to `w`, at uptime `u`. -/
def convertExpiry (u w : Nat) (e : Expiry) : Expiry :=
  match e.scale with
  | .wall => e
  | .uptime => ⟨.wall, if u < e.value then addSeconds w (e.value - u) else w⟩

/-- R96: the retention end of an entry is reached. -/
def retentionReached (t : Timebase) (retention : Nat) (h : HistoryEntry) : Bool :=
  reached t { h.expiry with value := addSeconds h.expiry.value retention }

/-- R98: an entry is eligible for the journal. -/
def HistoryEntry.eligible (h : HistoryEntry) : Bool := decide (h.outcome ≠ .rejected) && decide (h.expiry.scale = .wall)

/-- R98: the store's work: eligible, and its persisted flag no. -/
def HistoryEntry.waiting (h : HistoryEntry) : Bool := h.eligible && !h.persisted

/-! ## The dispersal delay (R165) -/

/-- R165: the number h, 0 to 65535. -/
def dispersalHash (tag : BitVec 32) (key : Key) (revision : BitVec 4) : Nat :=
  ((tag.extractLsb' 0 16).toNat * 40503 + (tag.extractLsb' 16 16).toNat * 12289 + key.issuer.toNat * 8191
    + key.number.toNat * 127 + revision.toNat) % 65536

/-- R165: the dispersal delay in seconds, for a window in units of 10 s. -/
def dispersalDelay (tag : BitVec 32) (key : Key) (revision : BitVec 4) (window : Nat) : Nat :=
  dispersalHash tag key revision * (window * 10) / 65536

/-! ## Journal records (R100) -/

/-- R100: the sum of octets 0 to 6 modulo 256, combined by exclusive-or with 0xA5. -/
def checkOctet (w : BitVec 56) : Octet :=
  (w.extractLsb' 48 8 + w.extractLsb' 40 8 + w.extractLsb' 32 8 + w.extractLsb' 24 8 + w.extractLsb' 16 8
    + w.extractLsb' 8 8 + w.extractLsb' 0 8) ^^^ 0xA5#8

/-- The two-bit code of an eligible outcome in a record (log 10). -/
def outcomeCode : Settled → BitVec 2
  | .presented => 0
  | .cancelled => 1
  | .expired => 2
  | .superseded => 3
  | .rejected => 0

/-- The outcome of a two-bit code (log 10). -/
def outcomeOfCode (c : BitVec 2) : Settled :=
  if c = 0 then .presented else if c = 1 then .cancelled else if c = 2 then .expired else .superseded

/-- Octets 0 to 6 of a record: key, revision, outcome and floor(expiry / 16), in this order (log 10). -/
def recordBody (h : HistoryEntry) : BitVec 56 :=
  h.key.issuer ++ h.key.number ++ h.revision ++ outcomeCode h.outcome ++ BitVec.ofNat 28 (h.expiry.value / 16)

/-- R100: the record of an entry. -/
def recordOf (h : HistoryEntry) : BitVec 64 := recordBody h ++ checkOctet (recordBody h)

/-- R100: all eight octets 0xFF. -/
def readsErased (w : BitVec 64) : Bool := w == BitVec.allOnes 64

/-- R100: not all 0xFF, and the check octet equals the value computed from octets 0 to 6. -/
def readsWritten (w : BitVec 64) : Bool := !readsErased w && w.extractLsb' 0 8 == checkOctet (w.extractLsb' 8 56)

/-- R100, R103: the entry a WRITTEN record gives back: its expiry on the wall scale at 16 × field + 15, persisted. -/
def entryOfRecord (w : BitVec 64) : HistoryEntry where
  key := ⟨w.extractLsb' 55 9, w.extractLsb' 42 13⟩
  revision := w.extractLsb' 38 4
  outcome := outcomeOfCode (w.extractLsb' 36 2)
  expiry := ⟨.wall, 16 * (w.extractLsb' 8 28).toNat + 15⟩
  persisted := true

end Sys2Proof.Machine
end

