-- ==== Sys2Proof/Machine/Ops.lean ====
section
/-! DEFINITION. The shared operations of the blocks: postings, slots, history, receipts, attention, the store,
presentation, and what closes a step. The commands of the families are written over them. -/

namespace Sys2Proof.Machine

/-- R157: while RESET is low no block takes any event. -/
def whenRunning (f : State → State) (s : State) : State := if s.lines.resetLow then s else f s

/-! ## The event set (R184, R185) -/

/-- R184: a slot posting merged into the event set. -/
def mergeSlotPosting (i : SlotIndex) (key : Key) (revision : BitVec 4) (kind : SlotKind) :
    List EventEntry → List EventEntry
  | [] => [.slot i key revision kind.bit]
  | .slot j k r kinds :: l =>
    if j = i then .slot i key revision (kinds ||| kind.bit) :: l
    else .slot j k r kinds :: mergeSlotPosting i key revision kind l
  | .device k n d :: l => .device k n d :: mergeSlotPosting i key revision kind l

/-- R184: a device posting merged into the event set; the count stops at 255. -/
def mergeDevicePosting (kind : DeviceKind) (detail : Detail) : List EventEntry → List EventEntry
  | [] => [.device kind 1 detail]
  | .device k n d :: l =>
    if k = kind then .device kind (bump 255 n) detail :: l else .device k n d :: mergeDevicePosting kind detail l
  | .slot j k r kinds :: l => .slot j k r kinds :: mergeDevicePosting kind detail l

/-- This entry is the slot entry of slot `i`. -/
def EventEntry.isOfSlot (i : SlotIndex) : EventEntry → Bool
  | .slot j _ _ _ => decide (j = i)
  | .device _ _ _ => false

/-- R185: the slot entry of slot `i` removed, with every kind it holds. -/
def dropSlotEntry (i : SlotIndex) (s : State) : State := s.updEvents fun l => l.filter fun e => !e.isOfSlot i

/-- R184: a device posting. -/
def postDevice (kind : DeviceKind) (detail : Detail) (s : State) : State := s.updEvents (mergeDevicePosting kind detail)

/-! ## Slots (R34) -/

/-- The record of slot `i`; absent when the slot is FREE. -/
def slotOf (s : State) (i : SlotIndex) : Option Slot := s.slots[i.val]

/-- Slot `i` written whole. -/
def putSlot (i : SlotIndex) (x : Option Slot) (s : State) : State := s.updSlots fun v => v.set i.val x

/-- The record of slot `i` changed, when it is occupied. -/
def modSlot (i : SlotIndex) (f : Slot → Slot) (s : State) : State := putSlot i ((slotOf s i).map f) s

/-- R35: a change of a slot's state, which sets its last activity. -/
def enterState (st : SlotState) (i : SlotIndex) (s : State) : State :=
  modSlot i (fun x => { x with state := st, lastActivity := s.time.uptime }) s

/-- R34: the rank of a slot is the rank of its class. -/
def Slot.rank (x : Slot) : Nat := rankOfClass x.cls

/-- The rank of slot `i`; 0 for a FREE slot. -/
def rankAt (s : State) (i : SlotIndex) : Nat := ((slotOf s i).map Slot.rank).getD 0

/-- The state of slot `i`; absent when it is FREE. -/
def stateAt (s : State) (i : SlotIndex) : Option SlotState := (slotOf s i).map (·.state)

/-- R184: a posting for slot `i`, with the key and revision it holds. -/
def postSlot (i : SlotIndex) (kind : SlotKind) (s : State) : State :=
  match slotOf s i with
  | none => s
  | some x => s.updEvents (mergeSlotPosting i x.key x.revision kind)

/-- The sheet buffers a slot holds. -/
def Slot.buffers (x : Slot) : Nat := x.sheets.countP fun r => r.buffer.isSome

/-- R47: the buffers attached to sheet records. -/
def buffersUsed (s : State) : Nat := (s.slots.toList.map fun o => (o.map Slot.buffers).getD 0).sum

/-- R47: the buffers of the pool. -/
def buffersFree (s : State) : Nat := Config.bufferCount - buffersUsed s

/-- R45, R56: the predecessor field of a record, absent once slot `i` is freed. -/
def Slot.forget (i : SlotIndex) (x : Slot) : Slot := if x.predecessor = some i then { x with predecessor := none } else x

/-- R56: slot `i` freed. Its buffers, hold deadlines, timers and expiry go with its record; it leaves the presentation
queue and the pending list; a successor of it loses its predecessor field. -/
def freeSlot (i : SlotIndex) (s : State) : State :=
  (s.updSlots fun v => mapEntries (Option.map (Slot.forget i)) (v.set i.val none)).updPres fun p =>
    { p with queue := p.queue.erase i, pendingList := p.pendingList.erase i }

/-! ## History (R94 to R96) -/

/-- R7, R37: the list holds an entry for the key whose revision is equal to or higher than this one. -/
def knownTo (l : List HistoryEntry) (key : Key) (revision : BitVec 4) : Bool :=
  l.any fun h => decide (h.key = key) && decide (revision.toNat ≤ h.revision.toNat)

/-- R94, third line: the list holds a higher revision of the entry's key. -/
def outranked (e : HistoryEntry) (l : List HistoryEntry) : Bool :=
  l.any fun h => decide (h.key = e.key) && decide (e.revision.toNat < h.revision.toNat)

/-- R94, R95: the list before the entry is placed: the key's entry removed, or for a new key in a full list the head. -/
def makeRoom (e : HistoryEntry) (l : List HistoryEntry) : List HistoryEntry :=
  if l.any fun h => decide (h.key = e.key) then l.filter fun h => decide (h.key ≠ e.key)
  else if Config.historyCapacity ≤ l.length then l.drop 1 else l

/-- R94: an addition to the list. -/
def placeEntry (e : HistoryEntry) (l : List HistoryEntry) : List HistoryEntry :=
  if outranked e l then l else makeRoom e l ++ [e]

/-- R94, R97: an addition of an entry equal to the subject of the program attempt that is running. A key has one entry in
the list, so the subject has left it, and an equal entry found there later is a new one (log 14). -/
def Store.noteAddition (e : HistoryEntry) (t : Store) : Store :=
  match t.state with
  | .busy phase (.program subject attempt _) =>
    if subject = e then { t with state := .busy phase (.program subject attempt true) } else t
  | _ => t

/-- R94, R96: an addition; an entry whose retention end is already reached is placed and removed at once. -/
def addHistory (e : HistoryEntry) (s : State) : State :=
  (s.updHistory fun l =>
    if outranked e l then l
    else if retentionReached s.time s.settings.profile.retention e then makeRoom e l
    else makeRoom e l ++ [e]).updStore (Store.noteAddition e)

/-- R81: the entry made for a slot, with the slot's expiry. Every slot for which a rule makes one has an expiry. -/
def addSlotHistory (x : Slot) (outcome : Settled) (s : State) : State :=
  match x.expiry with
  | none => s
  | some e => addHistory ⟨x.key, x.revision, outcome, e, false⟩ s

/-- R96: every entry whose retention end is reached is removed. -/
def pruneHistory (s : State) : State :=
  s.updHistory fun l => l.filter fun h => !retentionReached s.time s.settings.profile.retention h

/-- R73: every REJECTED entry is removed. -/
def dropRejected (s : State) : State := s.updHistory fun l => l.filter fun h => decide (h.outcome ≠ .rejected)

/-! ## Receipts (R164 to R172) -/

/-- R166: due time first, then entry order. -/
def Receipt.before (a b : Receipt) : Bool := decide (a.due < b.due) || (decide (a.due = b.due) && decide (a.order ≤ b.order))

/-- R166: an entry takes its place in the queue. -/
def insertReceipt (r : Receipt) : List Receipt → List Receipt
  | [] => [r]
  | x :: l => if x.before r then x :: insertReceipt r l else r :: x :: l

/-- R164: a receipt request for a slot, taken as part of the step that made it. -/
def requestReceipt (x : Slot) (kind : ReceiptKind) (ackDelay : Nat) (s : State) : State :=
  match x.lead, x.expiry with
  | some lead, some expiry =>
    if s.receipts.queue.length < Config.receiptCapacity then
      let due := addSeconds s.time.uptime (dispersalDelay s.settings.tag x.key x.revision lead.dispersal)
      s.updReceipts fun q =>
        { q with
          queue := insertReceipt ⟨x.key, x.revision, kind, s.settings.tag, x.leadCell.getD 0, ackDelay, expiry, false,
            due, 0, false, q.nextOrder⟩ q.queue
          nextOrder := q.nextOrder + 1 }
    else postDevice .receiptDropped (.dropped x.key x.revision kind .full) s
  | _, _ => s

/-- R167: a WAITING entry whose due time is equal to or less than the uptime. -/
def Receipt.isDue (uptime : Nat) (r : Receipt) : Bool := !r.inFlight && decide (r.due ≤ uptime)

/-- R167: the first due entry becomes IN_FLIGHT. -/
def markFirstDue (uptime : Nat) : List Receipt → List Receipt
  | [] => []
  | r :: l => if r.isDue uptime then { r with inFlight := true } :: l else r :: markFirstDue uptime l

/-- R167: the test made at the end of a step: when no entry is IN_FLIGHT, the uplink is available and an entry is due,
the first one is staged as an UPLINK REQUEST. -/
def beginHandoff (s : State) : State :=
  if s.modem.uplink && !(s.receipts.queue.any (·.inFlight)) then
    match s.receipts.queue.find? (Receipt.isDue s.time.uptime) with
    | none => s
    | some r =>
      (s.updModem fun m =>
        { m with uplinkStaged := some ⟨r.key, r.revision, r.kind, r.tag, r.cell, r.ackDelay, s.receipts.nextFrame⟩ }).updReceipts
        fun q =>
          { q with
            queue := markFirstDue s.time.uptime q.queue
            wait := none
            frame := some q.nextFrame
            nextFrame := q.nextFrame + 1 }
  else s

/-- The entry in flight leaves the queue, and its handoff ends (R169, R170). -/
def endHandoff (s : State) : State :=
  s.updReceipts fun q => { q with queue := q.queue.eraseP (·.inFlight), wait := none, frame := none }

/-- R170: the delay of the retry after this many failures. -/
def retryDelay (attempts : Nat) : Nat := if attempts ≤ 1 then 30 else if attempts = 2 then 60 else 120

/-- R172: the bulletin expiry has been reached, by the clock as it stands or as it stood before a SET-CLOCK moved it. -/
def Receipt.expired (t : Timebase) (r : Receipt) : Bool := r.expiryReached || reached t r.expiry

/-- R80, R172: every receipt keeps whether its bulletin expiry has been reached, before the set clock is moved. -/
def keepReached (s : State) : State :=
  s.updReceipts fun q => { q with queue := q.queue.map fun r => { r with expiryReached := r.expired s.time } }

/-- R170: the handoff of entry `r`, which is in flight, fails. -/
def failHandoff (r : Receipt) (s : State) : State :=
  let s := endHandoff s
  let attempts := r.attempts + 1
  if Config.handoffAttempts ≤ attempts then
    postDevice .receiptDropped (.dropped r.key r.revision r.kind .attempts) s
  else if r.expired s.time then
    postDevice .receiptDropped (.dropped r.key r.revision r.kind .stale) s
  else
    s.updReceipts fun q =>
      { q with
        queue := insertReceipt { r with
          attempts := attempts
          inFlight := false
          due := addSeconds s.time.uptime (retryDelay attempts) } q.queue }

/-- R172: a WAITING entry whose bulletin expiry is reached. -/
def Receipt.isStale (t : Timebase) (r : Receipt) : Bool := !r.inFlight && r.expired t

/-- R172: the drops of these entries posted. Several drops of one step are posted in queue order, which is the model's
choice: R172 gives them no order, and the last one posted is the detail that EVENTS returns (log 37). -/
def postStale : List Receipt → State → State
  | [], s => s
  | r :: l, s => postStale l (postDevice .receiptDropped (.dropped r.key r.revision r.kind .stale) s)

/-- R172: every WAITING entry whose bulletin expiry is reached is dropped with reason STALE (in queue order: log 37). -/
def dropStale (s : State) : State :=
  (postStale (s.receipts.queue.filter (Receipt.isStale s.time)) s).updReceipts fun q =>
    { q with queue := q.queue.filter fun r => !r.isStale s.time }

/-! ## Attention (R142, R147) -/

/-- R142: a cycle starts, from the cadence, tones, attention time and quiet setting as they stand. -/
def startCycle (owner : Owner) (rank : Nat) (s : State) : State :=
  let segments := s.settings.cadences.ofRank rank
  s.updCycle fun _ => some
    { owner := owner
      rank := rank
      segments := segments
      toneA := s.settings.toneA
      toneB := s.settings.toneB
      attentionTime := s.settings.profile.attentionTime
      index := 0
      counter := (segments.head?.map (·.length)).getD 1
      elapsed := 0
      quiet := s.settings.profile.quiet
      phase := 0 }

/-- R147: the running cycle stops at once, without a completion report. -/
def stopCycle (s : State) : State := s.updCycle fun _ => none

/-- R134: a running preview is stopped. -/
def stopPreview (s : State) : State :=
  if s.pres.preview.isSome then (stopCycle s).updPres fun p => { p with preview := none } else s

/-! ## The store (R104 to R112) -/

/-- What position `p` of the journal reads. -/
def positionOf (v : Vector (BitVec 64) 128) (p : Nat) : BitVec 64 := if h : p < 128 then v[p] else BitVec.allOnes 64

/-- Position `p` of the journal written. -/
def setPosition (p : Nat) (w : BitVec 64) (v : Vector (BitVec 64) 128) : Vector (BitVec 64) 128 :=
  if h : p < 128 then v.set p w else v

/-- R100: a program combines each bit written with the position's bit by logical and; the bits in `kept` had not
changed when it ended. -/
def programmed (old written kept : BitVec 64) : BitVec 64 := old &&& (written ||| kept)

/-- R100: an erase sets bits to 1; the bits in `kept` had not changed when it ended. -/
def erased (old kept : BitVec 64) : BitVec 64 := old ||| ~~~kept

/-- R112: an operation starts when SUPPLY_OK is high; while it is low the store becomes DEFERRED and notes it. -/
def startOperation (phase : Option Phase) (op : Operation) (s : State) : State :=
  s.updStore fun t =>
    { t with state := if s.lines.supplyOk then .busy phase op else .deferred phase (some op) }

/-- R108: the first position from `p` on that does not read all zeros. -/
def nextToPrefill (v : Vector (BitVec 64) 128) (p : Nat) : Option Nat :=
  (List.range Config.journalPositions).find? fun q => decide (p ≤ q) && positionOf v q != 0

/-- R108: PREFILL goes on from position `p`; when none is left, ERASING is entered. -/
def prefillFrom (p : Nat) (s : State) : State :=
  match nextToPrefill s.store.journal p with
  | some q => startOperation (some .prefill) (.prefill q) s
  | none => startOperation (some .erasing) .erase s

/-- R108: a compaction begins: every entry unpersisted, no erase attempt failed, PREFILL from position 0. -/
def startCompaction (s : State) : State :=
  prefillFrom 0 ((s.updHistory fun l => l.map fun h => { h with persisted := false }).updStore fun t =>
    { t with eraseFails := 0 })

/-- R104: the oldest eligible entry whose persisted flag is no. -/
def oldestWaiting (s : State) : Option HistoryEntry := s.history.find? HistoryEntry.waiting

/-- R104: the IDLE store selects. -/
def storeSelect (s : State) : State :=
  match s.store.state with
  | .idle =>
    match oldestWaiting s with
    | none => s
    | some e =>
      if !s.lines.supplyOk then s.updStore fun t => { t with state := .deferred none none }
      else if s.store.writePos < Config.journalPositions then startOperation none (.program e 1 false) s
      else startCompaction s
  | _ => s

/-- R110: REWRITING goes on to the next entry, to a new compaction, or ends in IDLE. -/
def rewriteNext (s : State) : State :=
  match oldestWaiting s with
  | none => s.updStore fun t => { t with state := .idle }
  | some e =>
    if s.store.writePos < Config.journalPositions then startOperation (some .rewriting) (.program e 1 false) s
    else startCompaction s

/-- R105, R106, R110: a position is dealt with: the write position advances and the store goes on, in IDLE or in
REWRITING. -/
def positionDone (phase : Option Phase) (s : State) : State :=
  let s := s.updStore fun t => { t with writePos := bump Config.journalPositions t.writePos }
  match phase with
  | none => storeSelect (s.updStore fun t => { t with state := .idle })
  | some _ => rewriteNext s

/-- R111: the number of eligible unpersisted entries. -/
def waitingCount (s : State) : Nat := s.history.countP HistoryEntry.waiting

/-- R109, R111: an erase attempt has failed: the next attempt is made, or after the fifth the store is FAILED. -/
def eraseFailed (s : State) : State :=
  let s := s.updStore fun t => { t with eraseFails := t.eraseFails + 1 }
  if Config.eraseAttempts ≤ s.store.eraseFails then
    postDevice .storeFailed (.entries (waitingCount s)) (s.updStore fun t => { t with state := .failed })
  else startOperation (some .erasing) .erase s

/-- R100, R113: what an operation stopped part way leaves in the journal: each bit it had still to change at either
value (log 8). -/
def stopOperation (op : Operation) (s : State) : State :=
  let free := Config.unchangedBits s.draws
  let part (p : Nat) (written : BitVec 64) (v : Vector (BitVec 64) 128) :=
    setPosition p (programmed (positionOf v p) written (free p)) v
  (s.updStore fun t =>
    { t with
      journal := match op with
        | .program e _ _ => part t.writePos (recordOf e) t.journal
        | .void => part t.writePos 0 t.journal
        | .prefill p => part p 0 t.journal
        | .erase => tabulate 128 fun p => erased (positionOf t.journal p) (free p) }).updDraws (· + 1)

/-! ## Presentation (R115 to R135) -/

/-- R115: slot `e` of the queue stands ahead of slot `i`, which joins now. -/
def standsAhead (s : State) (i e : SlotIndex) : Bool :=
  decide (rankAt s i < rankAt s e) ||
    (decide (rankAt s i = rankAt s e) &&
      decide (((slotOf s e).bind (·.admission)).getD 0 ≤ ((slotOf s i).bind (·.admission)).getD 0))

/-- R115: slot `i` takes its place in the queue. -/
def joinQueue (i : SlotIndex) (s : State) : State :=
  s.updPres fun p =>
    { p with queue := p.queue.takeWhile (standsAhead s i) ++ i :: p.queue.dropWhile (standsAhead s i) }

/-- R118 step 4, R119: a slot's first presentation. -/
def presentFirst (i : SlotIndex) (s : State) : State :=
  match slotOf s i with
  | none => s
  | some x =>
    if x.firstPresentation.isSome then s
    else
      let t := modSlot i (fun y => { y with firstPresentation := some s.time.uptime }) s
      if x.lead.map (·.mode) = some .onPresent then requestReceipt x .presented 0 t else t

/-- R118: a queued slot becomes active. -/
def activate (i : SlotIndex) (s : State) : State :=
  let s := enterState .sounding i (s.updPres fun p => { p with queue := p.queue.erase i, active := some i })
  let s := stopPreview s
  presentFirst i (postSlot i .presenting (startCycle (.slot i) (rankAt s i) s))

/-- R120: the SOUNDING active slot `a` goes back to the queue. -/
def interrupt (a : SlotIndex) (s : State) : State :=
  joinQueue a (enterState .queued a ((stopCycle s).updPres fun p => { p with active := none }))

/-- R121: the SHOWN active slot `a` becomes PENDING. -/
def displace (a : SlotIndex) (s : State) : State :=
  postSlot a .pending (enterState .pending a (s.updPres fun p =>
    { p with reminder := none, active := none, pendingList := p.pendingList ++ [a] }))

/-- R117: one application of the presentation decision. -/
def decideOnce (s : State) : State :=
  match s.pres.queue.head? with
  | none => s
  | some h =>
    match s.pres.active with
    | none => activate h s
    | some a =>
      match stateAt s a with
      | some .sounding => if rankAt s a < rankAt s h then activate h (interrupt a s) else s
      | some .shown => if rankAt s a ≤ rankAt s h then activate h (displace a s) else s
      | _ => s

/-- R117: the presentation decision; after an interruption or a displacement it is applied once more. -/
def presentationDecision (s : State) : State :=
  if s.pres.active.isSome then decideOnce (decideOnce s) else decideOnce s

/-- What closes a step that changes the queue, the active slot or its state: the presentation decision (R117), the
test for a handoff (R167) and the store's selection (R104). -/
def settle (s : State) : State := storeSelect (beginHandoff (presentationDecision s))

/-- R87 step 1, R126 step 1, R135: a slot leaves presentation. -/
def leavePresentation (i : SlotIndex) (s : State) : State :=
  match stateAt s i with
  | some .queued => s.updPres fun p => { p with queue := p.queue.erase i }
  | some .pending => s.updPres fun p => { p with pendingList := p.pendingList.erase i }
  | some .sounding => (stopCycle s).updPres fun p => { p with active := none }
  | some .shown => s.updPres fun p => { p with active := none, reminder := none }
  | _ => s

/-- A slot state in which a slot is withdrawn (R87). -/
def SlotState.withdrawable : SlotState → Bool
  | .queued | .sounding | .shown | .pending => true
  | .gathering | .admitted | .done => false

/-- A slot state in which a slot is acknowledged (R126). -/
def SlotState.acknowledgeable : SlotState → Bool
  | .sounding | .shown | .pending => true
  | .gathering | .admitted | .queued | .done => false

/-- R87: slot `i`, in QUEUED, SOUNDING, SHOWN or PENDING, is withdrawn. -/
def withdraw (i : SlotIndex) (outcome : Settled) (s : State) : State :=
  match slotOf s i with
  | none => s
  | some x =>
    let now := s.time.uptime
    let s := modSlot i (fun y =>
      { y with state := .done, withdrawal := some outcome, doneTime := some now, lastActivity := now })
      (leavePresentation i s)
    postSlot i .withdrawn (addSlotHistory x outcome s)

/-- R126: slot `i`, in SOUNDING, SHOWN or PENDING, is acknowledged. -/
def acknowledge (source : AckSource) (i : SlotIndex) (s : State) : State :=
  match slotOf s i with
  | none => s
  | some x =>
    let now := s.time.uptime
    let delay := min (now - x.firstPresentation.getD now) 65535
    let s := modSlot i (fun y =>
      { y with state := .done, doneTime := some now, lastActivity := now, ack := some ⟨now, source, delay⟩ })
      (leavePresentation i s)
    let s := postSlot i .acknowledged (addSlotHistory x .presented s)
    if x.lead.map (·.mode) = some .onAck then requestReceipt x .acknowledged delay s else s

/-- R129, R130: these slots are acknowledged, in order. -/
def acknowledgeAll (source : AckSource) : List SlotIndex → State → State
  | [], s => s
  | i :: l, s => acknowledgeAll source l (acknowledge source i s)

/-- R129, R130: the active slot, then every pending slot in pending-list order. -/
def presentedSlots (s : State) : List SlotIndex := s.pres.active.toList ++ s.pres.pendingList

/-- R123, R131: the SOUNDING active slot `i` becomes SHOWN, and its reminder timer starts. -/
def becomeShown (i : SlotIndex) (s : State) : State :=
  (postSlot i .shown (enterState .shown i s)).updPres fun p =>
    { p with reminder := some (addSeconds s.time.uptime s.settings.profile.reminderInterval) }

/-! ## Expiries taken together (R79, R80, R82 to R86) -/

/-- R82: the expiry of slot `i` is reached, by the clock as it stands: an expiry that a second has reached and that
SLOT_EXPIRY has not yet taken is postponed with the others when SET-CLOCK moves the clock back, which is the model's
choice (log 40). -/
def slotReached (s : State) (i : SlotIndex) : Bool :=
  match (slotOf s i).bind (·.expiry) with
  | none => false
  | some e => reached s.time e

/-- R82 to R85: the expiry of slot `i` is taken, by the slot's state. -/
def takeSlotExpiry (i : SlotIndex) (s : State) : State :=
  match slotOf s i with
  | none => s
  | some x =>
    match x.state with
    | .gathering => s
    | .admitted => freeSlot i (postSlot i .withdrawn (addSlotHistory x .expired s))
    | .queued | .sounding | .shown | .pending =>
      modSlot i (fun y => { y with expiry := none }) (withdraw i .expired s)
    | .done => freeSlot i (dropSlotEntry i s)

/-- R86: the expiries of these slots, where they are reached, one after another. -/
def takeSlotExpiries : List SlotIndex → State → State
  | [], s => s
  | i :: l, s => takeSlotExpiries l (if slotReached s i then takeSlotExpiry i s else s)

/-- R79, R80: everything an advance of the wall clock reaches within a SET-CLOCK: retention ends, slot expiries and
bulletin expiries of receipts. -/
def takeReached (s : State) : State := dropStale (takeSlotExpiries allSlots (pruneHistory s))

end Sys2Proof.Machine
end

