-- ==== Sys2Proof/Machine/Attention.lean ====
section
/-! DEFINITION. The attention generator's boundary (R143, R144) and its clock: SEGMENT_BOUNDARY, and the tone clock
period that passes on an empty queue. -/

namespace Sys2Proof.Machine

/-- R144, R123, R133: the completion of a cycle of `owner` is taken by presentation. -/
def completion (owner : Owner) (s : State) : State :=
  match owner with
  | .preview => s.updPres fun p => { p with preview := none }
  | .slot i =>
    if s.pres.active = some i ∧ stateAt s i = some .sounding then settle (becomeShown i s) else s

/-- R143: the next segment of the copied list, its first after its last, begins with the quiet setting as it stands
(R146). -/
def nextSegment (quiet : Bool) (c : Cycle) : Cycle :=
  let index := if c.index + 1 < c.segments.length then c.index + 1 else 0
  { c with
    index := index
    counter := (c.segments[index]?.map (·.length)).getD 1
    quiet := quiet
    phase := 0 }

/-- R143, R144, R149: the segment being played has ended, its counter having reached 0: the completion test, or the next
segment. Inside a segment there is no boundary, and nothing happens (log 3). -/
def segmentBoundary (s : State) : State :=
  match s.cycle with
  | none => s
  | some c =>
    if c.counter ≠ 0 then s
    else if c.attentionTime * 100 ≤ c.elapsed then completion c.owner (stopCycle s)
    else s.updCycle fun _ => some (nextSegment s.settings.profile.quiet c)

/-- SEGMENT_BOUNDARY (R143, R144, R146). -/
def execSegmentBoundary (s : State) : Host.Outcome State Fault Refusal := .next (whenRunning segmentBoundary s)

/-- R141, R143: one period of the tone clock in a running cycle; each 640th ends a cadence unit. At the segment's
boundary the clock waits for SEGMENT_BOUNDARY to be taken (log 2). -/
def tickCycle (c : Cycle) : Cycle :=
  if c.counter = 0 then c
  else if (c.phase + 1) % 640 = 0 then
    { c with phase := c.phase + 1, counter := c.counter - 1, elapsed := c.elapsed + 1 }
  else { c with phase := c.phase + 1 }

/-- What passes while no command waits: one period of the tone clock (log 2). -/
def idle (s : State) : State := whenRunning (fun s => s.updCycle (Option.map tickCycle)) s

end Sys2Proof.Machine
end

