-- ==== Sys2Proof/Machine/Table.lean ====
section
/-! DEFINITION. The bulletin table and the combiner (02, 03), with screening's outcomes (04) and supersession (05): the
vote, the sheet states, the decision for a copy, reclaim, admission, cancel and the way into the presentation queue. -/

namespace Sys2Proof.Machine

/-! ## The combiner (R19 to R26) -/

/-- R19: the first copy writes every position. -/
def firstBuffer (body : Vector Pair 48) : Buffer := mapEntries (fun q => ⟨q.value, q.confidence⟩) body

/-- R20: one pair folded into a position. -/
def votePosition (p : Position) (q : Pair) : Position :=
  if q.value = p.value then ⟨p.value, min 63 (p.score + q.confidence)⟩
  else if p.score < q.confidence then ⟨q.value, q.confidence - p.score⟩
  else ⟨p.value, p.score - q.confidence⟩

/-- R20: a copy folded into a buffer, position by position. -/
def voteBuffer (b : Buffer) (body : Vector Pair 48) : Buffer := zipEntries votePosition b body

/-- R19 to R25: a copy of cell `cell`, taken at `uptime`, combined into a record and evaluated, under the acceptance
floor and hold time in force. -/
def SheetRecord.combine (profile : Profile) (uptime : Nat) (cell : BitVec 16) (body : Vector Pair 48)
    (r : SheetRecord) : SheetRecord :=
  let buffer := match r.buffer with
    | none => firstBuffer body
    | some b => voteBuffer b body
  let r := { r with buffer := some buffer, copies := bump 255 r.copies }
  if sheetCheck buffer then
    let margin := smallestScore buffer
    let r := { r with margin := some margin, passingCell := some cell }
    if profile.floor ≤ margin then { r with state := .accepted, holdDeadline := none }
    else { r with
      state := .held
      holdDeadline := some (r.holdDeadline.getD (addSeconds uptime profile.holdTime)) }
  else { r with state := .combining, holdDeadline := none }

/-! ## The pool and reclaim (R47 to R49) -/

/-- The eligible slot, other than `own`, that is best by `better`; among equals the lower slot index. -/
def pickSlot (s : State) (own : Option SlotIndex) (eligible : Slot → Bool) (better : Slot → Slot → Bool) :
    List SlotIndex → Option SlotIndex → Option SlotIndex
  | [], best => best
  | i :: l, best =>
    match slotOf s i with
    | none => pickSlot s own eligible better l best
    | some x =>
      if own ≠ some i && eligible x then
        match best.bind (slotOf s) with
        | none => pickSlot s own eligible better l (some i)
        | some y => pickSlot s own eligible better l (if better x y then some i else best)
      else pickSlot s own eligible better l best

/-- R47 step 1: the DONE slot with the oldest done time. -/
def doneVictim (s : State) (own : Option SlotIndex) : Option SlotIndex :=
  pickSlot s own (fun x => decide (x.state = .done)) (fun x y => decide (x.doneTime.getD 0 < y.doneTime.getD 0))
    allSlots none

/-- R47 step 2: the GATHERING or ADMITTED slot of rank at most the requester's, of lowest rank, then oldest last
activity. -/
def assemblyVictim (s : State) (rank : Nat) (own : Option SlotIndex) : Option SlotIndex :=
  pickSlot s own
    (fun x => (decide (x.state = .gathering) || decide (x.state = .admitted)) && decide (x.rank ≤ rank))
    (fun x y => decide (x.rank < y.rank) || (decide (x.rank = y.rank) && decide (x.lastActivity < y.lastActivity)))
    allSlots none

/-- R47: the victim of a reclaim for a requester of this rank, `own` being the requester's own slot (log 16). -/
def victim (s : State) (rank : Nat) (own : Option SlotIndex) : Option SlotIndex :=
  (doneVictim s own).or (assemblyVictim s rank own)

/-- R48: slot `i` is reclaimed: a DONE slot's entry is removed, any other slot posts ABANDONED, and it is freed. -/
def reclaim (i : SlotIndex) (s : State) : State :=
  freeSlot i (if stateAt s i = some .done then dropSlotEntry i s else postSlot i .abandoned s)

/-- The FREE slot of lowest index. -/
def lowestFree (s : State) : Option SlotIndex := allSlots.find? fun i => (slotOf s i).isNone

/-- R39 step 1: the state in which a slot is FREE, reclaiming when none is; absent when nothing is eligible. -/
def roomForSlot (rank : Nat) (s : State) : Option State :=
  if (lowestFree s).isSome then some s else (victim s rank none).map fun v => reclaim v s

/-- R39 step 3, R40: the state in which the pool holds a buffer, reclaiming when it is empty; absent when nothing is
eligible. -/
def roomForBuffer (rank : Nat) (own : SlotIndex) (s : State) : Option State :=
  if buffersUsed s < Config.bufferCount then some s else (victim s rank (some own)).map fun v => reclaim v s

/-! ## Discards (R14) -/

def discardFormat (s : State) : State := s.updModem fun m => { m with formatDiscards := bump 65535 m.formatDiscards }
def discardMuted (s : State) : State := s.updModem fun m => { m with mutedDiscards := bump 65535 m.mutedDiscards }
def discardKnown (s : State) : State := s.updModem fun m => { m with knownDiscards := bump 65535 m.knownDiscards }
def discardNoRoom (s : State) : State := s.updModem fun m => { m with noRoomDiscards := bump 65535 m.noRoomDiscards }

/-! ## Into the presentation queue (R52, R53, R89) -/

/-- R45, R89 steps 2 and 3: slot `i` has reached QUEUED: its predecessor is ended and its predecessor field becomes
absent. -/
def endPredecessor (i : SlotIndex) (s : State) : State :=
  match (slotOf s i).bind (·.predecessor) with
  | none => s
  | some p =>
    let t := match stateAt s p with
      | some .done => freeSlot p (dropSlotEntry p s)
      | some st => if st.withdrawable then freeSlot p (withdraw p .superseded s) else s
      | none => s
    modSlot i (fun x => { x with predecessor := none }) t

/-- R52, R53: the ADMITTED slot `i` becomes QUEUED, joins the presentation queue, and ends its predecessor. -/
def becomeQueued (i : SlotIndex) (isPartial : Bool) (s : State) : State :=
  endPredecessor i (joinQueue i (modSlot i (fun x =>
    { x with state := .queued, isPartial := isPartial, assemblyDeadline := none, lastActivity := s.time.uptime }) s))

/-- Every sheet of the slot is ACCEPTED. -/
def Slot.complete (x : Slot) : Bool := x.sheets.all fun r => decide (r.state = .accepted)

/-! ## The lead (R50, R51, R69, R70) -/

/-- R51: slot `i` is admitted. -/
def admitSlot (i : SlotIndex) (lead : Lead) (s : State) : State :=
  let now := s.time.uptime
  let s := postSlot i .admitted (modSlot i (fun x =>
    { x with
      state := .admitted
      admission := some now
      lastActivity := now
      gatherDeadline := none
      expiry := some (expiryFrom s.time lead.validity) }) s)
  if (slotOf s i).any Slot.complete then becomeQueued i false s
  else modSlot i (fun x => { x with assemblyDeadline := some (addSeconds now s.settings.profile.assemblyLimit) }) s

/-- R69: slot `i` is rejected and freed. -/
def rejectSlot (i : SlotIndex) (lead : Lead) (s : State) : State :=
  match slotOf s i with
  | none => s
  | some x =>
    freeSlot i (postSlot i .rejected
      (addHistory ⟨x.key, x.revision, .rejected, expiryFrom s.time lead.validity, false⟩ s))

/-- R71: the key's other slot. -/
def otherSlot (i : SlotIndex) (key : Key) (s : State) : Option SlotIndex :=
  allSlots.find? fun j => decide (j ≠ i) && decide ((slotOf s j).map (·.key) = some key)

/-- R70 step 1, R71: the key's other slot is withdrawn, unless it is DONE. -/
def cancelOther (i : SlotIndex) (key : Key) (s : State) : State :=
  match otherSlot i key s with
  | none => s
  | some j => if (stateAt s j).any SlotState.withdrawable then withdraw j .cancelled s else s

/-- R70: the cancel lead of slot `i` acts. -/
def applyCancel (i : SlotIndex) (lead : Lead) (s : State) : State :=
  match slotOf s i with
  | none => s
  | some x =>
    freeSlot i (addHistory ⟨x.key, x.revision, .cancelled, expiryFrom s.time lead.validity, false⟩
      (cancelOther i x.key s))

/-- R50: the lead of the GATHERING slot `i` has been accepted. -/
def acceptLead (i : SlotIndex) (s : State) : State :=
  match ((slotOf s i).bind (·.sheets.head?)).bind (·.buffer) with
  | none => s
  | some b =>
    let lead := leadOf (Buffer.values b)
    let s := modSlot i (fun x => { x with lead := some lead }) s
    if lead.cancel then applyCancel i lead s
    else if screensPresent lead s.location s.settings.profile.policy then admitSlot i lead s
    else rejectSlot i lead s

/-- R28, R50, R52, R54: the table acts on the report that sheet `index` of slot `i` is ACCEPTED. -/
def reportAcceptance (i : SlotIndex) (index : Nat) (s : State) : State :=
  let s := if index = 0 then
      modSlot i (fun x => { x with leadCell := x.sheets.head?.bind (·.passingCell) }) s
    else s
  match slotOf s i with
  | none => s
  | some x =>
    match x.state with
    | .gathering => if index = 0 then acceptLead i s else s
    | .admitted =>
      if x.complete then becomeQueued i false s
      else modSlot i (fun y => { y with lastActivity := s.time.uptime }) s
    | .queued | .sounding | .shown | .pending | .done => if x.isPartial then postSlot i .updated s else s

/-! ## The decision for a copy (R37 to R43) -/

/-- The sheet list of a slot with record `index` changed. -/
def Slot.withSheet (index : Nat) (f : SheetRecord → SheetRecord) (x : Slot) : Slot :=
  { x with sheets := x.sheets.modify index f }

/-- R30: the copy is combined into its record of slot `i`, and an acceptance is reported. -/
def combineCopy (i : SlotIndex) (c : Copy) (s : State) : State :=
  let s := modSlot i (Slot.withSheet c.index
    (SheetRecord.combine s.settings.profile s.time.uptime c.cell c.body)) s
  match (slotOf s i).bind (·.sheets[c.index]?) with
  | none => s
  | some r => if r.state = .accepted then settle (reportAcceptance i c.index s) else s

/-- R39 step 4: the record of a slot opened or restarted for a copy. -/
def newSlot (c : Copy) (uptime gatherTimeout : Nat) (predecessor : Option SlotIndex) : Slot where
  state := .gathering
  key := c.key
  revision := c.revision
  cls := c.cls
  sheets := List.replicate c.count .atCreation
  lead := none
  leadCell := none
  firstCopy := uptime
  lastActivity := uptime
  gatherDeadline := some (addSeconds uptime gatherTimeout)
  admission := none
  assemblyDeadline := none
  expiry := none
  firstPresentation := none
  doneTime := none
  isPartial := false
  reminders := 0
  ack := none
  predecessor := predecessor
  withdrawal := none

/-- R39, R42: a slot is opened for a copy; for a successor `existing` is the key's slot. -/
def openSlot (existing : Option SlotIndex) (c : Copy) (s : State) : State :=
  match roomForSlot (rankOfClass c.cls) s with
  | none => discardNoRoom s
  | some s =>
    match lowestFree s with
    | none => discardNoRoom s
    | some i =>
      match roomForBuffer (rankOfClass c.cls) i s with
      | none => discardNoRoom s
      | some s =>
        let predecessor := existing.filter fun j => (slotOf s j).isSome
        combineCopy i c
          (putSlot i (some (newSlot c s.time.uptime s.settings.profile.gatherTimeout predecessor)) s)

/-- R41: slot `i` is restarted in place for a copy of a higher revision. -/
def restartSlot (i : SlotIndex) (c : Copy) (s : State) : State :=
  match slotOf s i with
  | none => s
  | some x =>
    let t := putSlot i (some (newSlot c s.time.uptime s.settings.profile.gatherTimeout x.predecessor)) s
    combineCopy i c (if x.state = .admitted then postSlot i .abandoned t else t)

/-- R35, R55: a copy directed to the slot moves its last activity, and its gathering deadline while it is GATHERING. -/
def Slot.touch (uptime gatherTimeout : Nat) (x : Slot) : Slot :=
  { x with
    lastActivity := uptime
    gatherDeadline := if x.state = .gathering then some (addSeconds uptime gatherTimeout) else x.gatherDeadline }

/-- R40: a copy is routed to slot `i`, which holds its revision. -/
def routeCopy (i : SlotIndex) (c : Copy) (s : State) : State :=
  match slotOf s i with
  | none => s
  | some x =>
    if x.sheets.length ≠ c.count then discardFormat s
    else
      let s := modSlot i (Slot.touch s.time.uptime s.settings.profile.gatherTimeout) s
      match x.sheets[c.index]? with
      | none => s
      | some r =>
        match r.state with
        | .empty =>
          match roomForBuffer x.rank i s with
          | none => discardNoRoom s
          | some s => combineCopy i c s
        | .combining | .held => combineCopy i c s
        | .accepted => discardKnown (modSlot i (Slot.withSheet c.index fun r => { r with copies := bump 255 r.copies }) s)

/-- The slots that hold a key, lowest index first. -/
def slotsOfKey (s : State) (key : Key) : List SlotIndex :=
  allSlots.filter fun i => decide ((slotOf s i).map (·.key) = some key)

/-- The revision of slot `i`. -/
def revisionAt (s : State) (i : SlotIndex) : Nat := ((slotOf s i).map (·.revision.toNat)).getD 0

/-- R37: the table's decision for a copy that passed intake. -/
def tableDecision (c : Copy) (s : State) : State :=
  if knownTo s.history c.key c.revision then discardKnown s
  else
    let held := slotsOfKey s c.key
    match held.find? fun i => decide (revisionAt s i = c.revision.toNat) with
    | some i => routeCopy i c s
    | none =>
      if held.any fun i => decide (c.revision.toNat < revisionAt s i) then discardKnown s
      else
        match held.find? fun i => decide (stateAt s i = some .gathering) || decide (stateAt s i = some .admitted) with
        | some i => restartSlot i c s
        | none => openSlot held.head? c s

/-- R5 to R8: the intake of a sheet copy. -/
def intakeCopy (payload : List Octet) (s : State) : State :=
  let c := copyOf payload
  if c.count = 0 || 12 < c.count || c.count ≤ c.index then discardFormat s
  else if !classWanted s.settings.profile c.cls then discardMuted s
  else if knownTo s.history c.key c.revision then discardKnown s
  else tableDecision c.clamped s

end Sys2Proof.Machine
end

