-- ==== Sys2Proof/Machine/Intake.lean ====
section
/-! DEFINITION. The commands that take a frame from the intake FIFO (R4): SHEET, CELL, CHANNEL_STATE, UPLINK_RESULT. -/

namespace Sys2Proof.Machine

/-- R4: the oldest frame is taken when the store is not LOADING; it is handled when it is of this kind. -/
def takeFrame (kind : Octet) (handle : List Octet → State → State) (s : State) : State :=
  if s.store.state = .loading then s
  else
    match s.modem.fifo with
    | [] => s
    | f :: rest => if f.kind = kind then handle f.payload (s.updModem fun m => { m with fifo := rest }) else s

/-- SHEET (R5 to R8, R37): a SHEET frame is taken and its copy run through intake, the table and the combiner. -/
def execSheet (s : State) : Host.Outcome State Fault Refusal :=
  .next (whenRunning (takeFrame kindSheet intakeCopy) s)

/-- R64, R73: the location record is written; a change of the effective location removes every REJECTED entry. -/
def writeLocation (l : Location) (s : State) : State :=
  let t := s.updLocation fun _ => l
  if sameLocation s.location.effective l.effective then t else dropRejected t

/-- R9: a CELL frame's effect. -/
def takeCell (payload : List Octet) (s : State) : State :=
  writeLocation { s.location with cellZone := cellZoneOf payload }
    (s.updModem fun m => { m with servingCell := some (word16At payload 0) })

/-- CELL (R9, R73). -/
def execCell (s : State) : Host.Outcome State Fault Refusal :=
  .next (whenRunning (takeFrame kindCell takeCell) s)

/-- R10: a CHANNEL STATE frame's effect: both flags replaced; broadcast becoming available stages a LISTEN SET; an
uplink left available lets a handoff begin (R167). -/
def takeChannelState (payload : List Octet) (s : State) : State :=
  let broadcast := (octetAt payload 0).getLsbD 0
  let uplink := (octetAt payload 0).getLsbD 1
  beginHandoff (s.updModem fun m =>
    { m with
      broadcast := broadcast
      uplink := uplink
      listenStaged := m.listenStaged || (!m.broadcast && broadcast) })

/-- CHANNEL_STATE (R10, R12, R167, R171). -/
def execChannelState (s : State) : Host.Outcome State Fault Refusal :=
  .next (whenRunning (takeFrame kindChannelState takeChannelState) s)

/-- R169: a well-formed result taken by the receipt scheduler. -/
def takeAnswer (a : UplinkAnswer) (s : State) : State :=
  match s.receipts.queue.find? (·.inFlight) with
  | none => s
  | some r =>
    if r.key = a.key ∧ r.revision = a.revision ∧ r.kind = a.kind then
      beginHandoff (match a.result with
        | .sent => postDevice .receiptSent (.sent r.key r.revision r.kind r.attempts) (endHandoff s)
        | .refused => failHandoff r s
        | .noService => failHandoff r s)
    else s

/-- R11: an UPLINK RESULT frame's effect: a malformed one is a format discard. -/
def takeUplinkResult (payload : List Octet) (s : State) : State :=
  match uplinkAnswerOf payload with
  | none => discardFormat s
  | some a => takeAnswer a s

/-- UPLINK_RESULT (R11, R169, R170). -/
def execUplinkResult (s : State) : Host.Outcome State Fault Refusal :=
  .next (whenRunning (takeFrame kindUplinkResult takeUplinkResult) s)

end Sys2Proof.Machine
end

