-- ==== Sys2Proof/Machine/Journal.lean ====
section
/-! DEFINITION. The journal store's own steps (06): LOAD_DONE, PROGRAM_ATTEMPT, VOID, PREFILL_PROGRAM, ERASE_ATTEMPT,
and the supply line: SUPPLY_OK_FALL, SUPPLY_OK_RISE. -/

namespace Sys2Proof.Machine

/-! ## Reload (R103) -/

/-- R103: the WRITTEN records, in position order, applied as additions to the list. -/
def replay : List (BitVec 64) → List HistoryEntry → List HistoryEntry
  | [], l => l
  | w :: ws, l => replay ws (if readsWritten w then placeEntry (entryOfRecord w) l else l)

/-- R103: one more than the highest position that is not ERASED, or 0. -/
def nextWritePosition (v : Vector (BitVec 64) 128) : Nat :=
  (List.range Config.journalPositions).foldl (fun n p => if readsErased (positionOf v p) then n else p + 1) 0

/-- R103: reload has read position 127. -/
def finishReload (s : State) : State :=
  if s.store.state = .loading then
    let t := s.updHistory fun _ => replay s.store.journal.toList []
    let t := t.updStore fun j => { j with state := .idle, writePos := nextWritePosition s.store.journal }
    let t := postDevice .loadDone (.entries t.history.length) t
    storeSelect (t.updModem fun m => { m with listenStaged := true })
  else s

/-- LOAD_DONE (R103, R12). -/
def execLoadDone (s : State) : Host.Outcome State Fault Refusal := .next (whenRunning finishReload s)

/-! ## Operations (R105 to R110) -/

/-- R105, R97: when the entry of a subject is still in history unchanged, its persisted flag becomes yes; an equal entry
that replaced it keeps its flag no. -/
def markPersisted (e : HistoryEntry) (replaced : Bool) (s : State) : State :=
  if replaced then s else s.updHistory fun l => l.map fun h => if h = e then { h with persisted := true } else h

/-- R105: a program attempt completes; the bits in `unset` did not take the program (log 9). -/
def programAttempt (unset : BitVec 64) (s : State) : State :=
  match s.store.state with
  | .busy phase (.program e n replaced) =>
    let p := s.store.writePos
    let w := programmed (positionOf s.store.journal p) (recordOf e) unset
    let t := s.updStore fun j => { j with journal := setPosition p w j.journal }
    if w = recordOf e then positionDone phase (markPersisted e replaced t)
    else if n < Config.programAttempts then startOperation phase (.program e (n + 1) replaced) t
    else startOperation phase .void t
  | _ => s

/-- PROGRAM_ATTEMPT (R105, R106, R110). -/
def execProgramAttempt (unset : BitVec 64) (s : State) : Host.Outcome State Fault Refusal :=
  .next (whenRunning (programAttempt unset) s)

/-- R106: the voiding program completes. -/
def voidDone (s : State) : State :=
  match s.store.state with
  | .busy phase .void =>
    positionDone phase (s.updStore fun j => { j with journal := setPosition j.writePos 0 j.journal })
  | _ => s

/-- VOID (R106, R110). -/
def execVoid (s : State) : Host.Outcome State Fault Refusal := .next (whenRunning voidDone s)

/-- R108: a prefill program completes; PREFILL goes on with the next position, or ERASING begins. -/
def prefillDone (s : State) : State :=
  match s.store.state with
  | .busy _ (.prefill p) => prefillFrom (p + 1) (s.updStore fun j => { j with journal := setPosition p 0 j.journal })
  | _ => s

/-- PREFILL_PROGRAM (R108). -/
def execPrefillProgram (s : State) : Host.Outcome State Fault Refusal := .next (whenRunning prefillDone s)

/-- The bits of position `p` that a list of positions says did not erase. -/
def uneraseAt (unerased : List (Nat × BitVec 64)) (p : Nat) : BitVec 64 :=
  ((unerased.find? fun c => decide (c.1 = p)).map (·.2)).getD 0

/-- R109: an erase attempt completes and every position is read; the bits listed did not erase (log 9). -/
def eraseAttempt (unerased : List (Nat × BitVec 64)) (s : State) : State :=
  match s.store.state with
  | .busy _ .erase =>
    let v := tabulate 128 fun p => erased (positionOf s.store.journal p) (uneraseAt unerased p)
    let t := s.updStore fun j => { j with journal := v }
    if v.toList.all readsErased then rewriteNext (t.updStore fun j => { j with writePos := 0 }) else eraseFailed t
  | _ => s

/-- ERASE_ATTEMPT (R109 to R111). -/
def execEraseAttempt (unerased : List (Nat × BitVec 64)) (s : State) : Host.Outcome State Fault Refusal :=
  .next (whenRunning (eraseAttempt unerased) s)

/-! ## SUPPLY_OK (R112, R159) -/

/-- R112: a running operation is abandoned and noted; an erase attempt abandoned counts as failed. -/
def deferOperation (s : State) : State :=
  match s.store.state with
  | .busy _ .erase => eraseFailed (stopOperation .erase s)
  | .busy phase op => (stopOperation op s).updStore fun t => { t with state := .deferred phase (some op) }
  | _ => s

/-- R112, R159: SUPPLY_OK falls. While RESET is low only the level changes. -/
def supplyFall (s : State) : State :=
  if s.lines.supplyOk then whenRunning deferOperation (s.updLines fun l => { l with supplyOk := false }) else s

/-- SUPPLY_OK_FALL (R112, R159). -/
def execSupplyOkFall (s : State) : Host.Outcome State Fault Refusal := .next (supplyFall s)

/-- R112: the DEFERRED store resumes. -/
def resumeStore (s : State) : State :=
  match s.store.state with
  | .deferred _ none => storeSelect (s.updStore fun t => { t with state := .idle })
  | .deferred phase (some (.program _ _ _)) => startOperation phase .void s
  | .deferred phase (some op) => startOperation phase op s
  | _ => s

/-- R112, R159: SUPPLY_OK returns high. While RESET is low only the level changes. -/
def supplyRise (s : State) : State :=
  if s.lines.supplyOk then s else whenRunning resumeStore (s.updLines fun l => { l with supplyOk := true })

/-- SUPPLY_OK_RISE (R112, R159). -/
def execSupplyOkRise (s : State) : Host.Outcome State Fault Refusal := .next (supplyRise s)

end Sys2Proof.Machine
end

