-- ==== Sys2Proof/Machine/KeyInputs.lean ====
section
/-! DEFINITION. The key inputs (R151 to R155): KEY_SAMPLE, PRESS_RECOGNITION, RELEASE_RECOGNITION, CHORD_FIRES, and the
key actions (R128, R130, R131). -/

namespace Sys2Proof.Machine

/-- R151: one sample of a filter; `low` is the level of its line. A run stands at 64 at most (log 17). -/
def sampleFilter (low : Bool) (f : Filter) : Filter :=
  if low = f.pressed then { f with run := 0 } else { f with run := bump 64 f.run }

/-- R151, R154: both filters sample, and a running chord timer counts one millisecond. A timer that has reached its chord
time stands there over further samples until CHORD_FIRES is taken or the timer is stopped: the model's choice (log 39). -/
def sampleKeys (ackLow silenceLow : Bool) (k : Keys) : Keys where
  ack := sampleFilter ackLow k.ack
  silence := sampleFilter silenceLow k.silence
  chord := k.chord.map fun c => { c with elapsed := bump (c.chordTime * 1000) c.elapsed }

/-- KEY_SAMPLE (R151, R154). -/
def execKeySample (ackLow silenceLow : Bool) (s : State) : Host.Outcome State Fault Refusal :=
  .next (whenRunning (fun s => s.updKeys (sampleKeys ackLow silenceLow)) s)

/-- R151: a filter's run has reached the check time: a recognition is due. -/
def recognitionDue (checkTime : Nat) (f : Filter) : Bool := decide (0 < f.run) && decide (checkTime ≤ f.run)

/-- The filter of a key. -/
def Keys.filter (k : Keys) : KeyLine → Filter
  | .ack => k.ack
  | .silence => k.silence

/-- The filter of a key written. -/
def Keys.withFilter (k : Keys) (key : KeyLine) (f : Filter) : Keys :=
  match key with
  | .ack => { k with ack := f }
  | .silence => { k with silence := f }

/-- R154: the chord timer starts when both filters are PRESSED with both consumed flags no. -/
def startChord (chordTime : Nat) (k : Keys) : Keys :=
  if k.ack.pressed && k.silence.pressed && !k.ack.consumed && !k.silence.consumed then
    { k with chord := some ⟨0, chordTime⟩ }
  else k

/-- R151, R153, R154: a press recognition of `key`. -/
def recognisePress (key : KeyLine) (s : State) : State :=
  let f := s.keys.filter key
  if !f.pressed && recognitionDue s.settings.profile.checkTime f then
    s.updKeys fun k => startChord s.settings.profile.chordTime (k.withFilter key ⟨true, 0, false⟩)
  else s

/-- PRESS_RECOGNITION (R151, R153, R154). -/
def execPressRecognition (key : KeyLine) (s : State) : Host.Outcome State Fault Refusal :=
  .next (whenRunning (recognisePress key) s)

/-- R128: the ACK key action. -/
def ackKeyAction (s : State) : State :=
  match s.pres.active with
  | some i => settle (acknowledge .key i s)
  | none =>
    match s.pres.pendingList with
    | i :: _ => settle (acknowledge .key i s)
    | [] => stopPreview s

/-- R131: the SILENCE key action. -/
def silenceKeyAction (s : State) : State :=
  match s.pres.active with
  | none => stopPreview s
  | some i => if stateAt s i = some .sounding then settle (becomeShown i (stopCycle s)) else s

/-- The action of a key (R153). -/
def keyAction : KeyLine → State → State
  | .ack => ackKeyAction
  | .silence => silenceKeyAction

/-- R151, R153, R155: a release recognition of `key`: a running chord timer stops, and an unconsumed press delivers its
action. -/
def recogniseRelease (key : KeyLine) (s : State) : State :=
  let f := s.keys.filter key
  if f.pressed && recognitionDue s.settings.profile.checkTime f then
    let t := s.updKeys fun k => { k.withFilter key ⟨false, 0, false⟩ with chord := none }
    if f.consumed then t else keyAction key t
  else s

/-- RELEASE_RECOGNITION (R151, R153, R155). -/
def execReleaseRecognition (key : KeyLine) (s : State) : Host.Outcome State Fault Refusal :=
  .next (whenRunning (recogniseRelease key) s)

/-- R130: the chord action: a running preview stops, and the active slot and every pending slot are acknowledged. -/
def chordAction (s : State) : State :=
  let s := stopPreview s
  if (presentedSlots s).isEmpty then s else settle (acknowledgeAll .chord (presentedSlots s) s)

/-- R154: the chord timer has reached its chord time: it stops, both presses are consumed, and the chord action is
delivered. The chord is due from the sample that reaches the chord time on, until it is taken: the model's choice
(log 39). -/
def fireChord (s : State) : State :=
  match s.keys.chord with
  | none => s
  | some c =>
    if c.chordTime * 1000 ≤ c.elapsed then
      chordAction (s.updKeys fun k =>
        { ack := { k.ack with consumed := true }, silence := { k.silence with consumed := true }, chord := none })
    else s

/-- CHORD_FIRES (R154, R130). -/
def execChordFires (s : State) : Host.Outcome State Fault Refusal := .next (whenRunning fireChord s)

end Sys2Proof.Machine
end

