-- ==== Sys2Proof/Machine/Links.lean ====
section
/-! DEFINITION. The link receivers (R162, R175) and the commands of arrivals: MODEM_FRAME_ARRIVAL, HOST_FRAME_ARRIVAL,
INTER_OCTET_TIMEOUT, START_OCTET. -/

namespace Sys2Proof.Machine

/-- What one octet does to a receiver: it goes on, the frame fails, or the frame ends having passed the envelope's
check. -/
inductive Reception where
  | goesOn (rx : Receiver)
  | failed
  | passed (f : Frame)
  deriving DecidableEq, Repr

/-- R175: the frame is whole: kind, length, payload and two check octets have come. Its check is the CRC of kind, length
and payload. -/
def frameEnd (got : List Octet) (badStop : Bool) : Reception :=
  let n := natAt got 1
  let payload := (got.drop 2).take n
  if crc16 (got.take (2 + n)) = octetAt got (2 + n) ++ octetAt got (3 + n) ∧ badStop = false
  then .passed ⟨octetAt got 0, payload⟩
  else .failed

/-- R175: one octet taken by a receiver. -/
def receive (rx : Receiver) (o : RxOctet) : Reception :=
  match rx with
  | .waiting => if o.value = 0xC3 then .goesOn (.inside [] o.badStop) else .goesOn .waiting
  | .inside got badStop =>
    let got := got ++ [o.value]
    let badStop := badStop || o.badStop
    if got.length < 2 then .goesOn (.inside got badStop)
    else if natAt got 1 = 0 ∨ 250 < natAt got 1 then .failed
    else if got.length < natAt got 1 + 4 then .goesOn (.inside got badStop)
    else frameEnd got badStop

/-! ## Modem link (R2, R3) -/

/-- R2: a modem-link frame has failed. -/
def modemFrameError (s : State) : State := s.updModem fun m => { m with frameErrors := bump 65535 m.frameErrors }

/-- R3: a frame that passed the arrival check joins the intake FIFO, or is dropped when the FIFO is full. -/
def offerToFifo (f : Frame) (s : State) : State :=
  s.updModem fun m =>
    if m.fifo.length < Config.fifoCapacity then { m with fifo := m.fifo ++ [f] }
    else { m with overflow := bump 65535 m.overflow }

/-- R2: the tests beyond the envelope's: one of the four inbound kinds, at its fixed length. -/
def modemFrameEnd (f : Frame) (s : State) : State :=
  if modemPayloadLength f.kind = some f.payload.length then offerToFifo f s else modemFrameError s

/-- One octet on the modem link. -/
def modemOctet (o : RxOctet) (s : State) : State :=
  match receive s.modem.rx o with
  | .goesOn rx => s.updModem fun m => { m with rx := rx }
  | .failed => modemFrameError (s.updModem fun m => { m with rx := .waiting })
  | .passed f => modemFrameEnd f (s.updModem fun m => { m with rx := .waiting })

/-- Octets on the modem link, in order. -/
def modemOctets : List RxOctet → State → State
  | [], s => s
  | o :: l, s => modemOctets l (modemOctet o s)

/-! ## Host link (R176) -/

/-- R176: a host-link frame has failed. -/
def hostFrameError (s : State) : State := s.updHost fun h => { h with frameErrors := bump 65535 h.frameErrors }

/-- R176: a frame of any kind that passed the check takes a staging place, or is dropped when both are taken. -/
def offerToStaging (f : Frame) (s : State) : State :=
  s.updHost fun h =>
    if h.staging.length < Config.stagingCapacity then { h with staging := h.staging ++ [f] }
    else { h with overflow := bump 65535 h.overflow }

/-- One octet on the host link. -/
def hostOctet (o : RxOctet) (s : State) : State :=
  match receive s.host.rx o with
  | .goesOn rx => s.updHost fun h => { h with rx := rx }
  | .failed => hostFrameError (s.updHost fun h => { h with rx := .waiting })
  | .passed f => offerToStaging f (s.updHost fun h => { h with rx := .waiting })

/-- Octets on the host link, in order. -/
def hostOctets : List RxOctet → State → State
  | [], s => s
  | o :: l, s => hostOctets l (hostOctet o s)

/-! ## The commands -/

/-- MODEM_FRAME_ARRIVAL (R2, R3, R175). -/
def execModemFrameArrival (octets : List RxOctet) (s : State) : Host.Outcome State Fault Refusal :=
  .next (whenRunning (modemOctets octets) s)

/-- HOST_FRAME_ARRIVAL (R175, R176). -/
def execHostFrameArrival (octets : List RxOctet) (s : State) : Host.Outcome State Fault Refusal :=
  .next (whenRunning (hostOctets octets) s)

/-- R175: a line idle for longer than 20 character times inside a frame fails the frame; while waiting it is nothing. -/
def linkTimeout (link : Link) (s : State) : State :=
  match link with
  | .modem =>
    match s.modem.rx with
    | .waiting => s
    | .inside _ _ => modemFrameError (s.updModem fun m => { m with rx := .waiting })
  | .host =>
    match s.host.rx with
    | .waiting => s
    | .inside _ _ => hostFrameError (s.updHost fun h => { h with rx := .waiting })

/-- INTER_OCTET_TIMEOUT (R175). -/
def execInterOctetTimeout (link : Link) (s : State) : Host.Outcome State Fault Refusal :=
  .next (whenRunning (linkTimeout link) s)

/-- R175: a start octet on a link. -/
def linkStart (link : Link) (badStop : Bool) (s : State) : State :=
  match link with
  | .modem => modemOctet ⟨0xC3, badStop⟩ s
  | .host => hostOctet ⟨0xC3, badStop⟩ s

/-- START_OCTET (R175): a waiting receiver begins a frame; inside a frame it is an ordinary octet. -/
def execStartOctet (link : Link) (badStop : Bool) (s : State) : Host.Outcome State Fault Refusal :=
  .next (whenRunning (linkStart link badStop) s)

end Sys2Proof.Machine
end

