-- ==== Sys2Proof/Machine/Outbound.lean ====
section
/-! DEFINITION. The outbound side of the modem link (R13) and the receipt scheduler's own steps: OUTBOUND_TRANSMIT,
LISTEN_SET_SENT, UPLINK_REQUEST_SENT, HANDOFF, RESULT_WAIT_EXPIRY, RECEIPT_STALE. -/

namespace Sys2Proof.Machine

/-- R12, R13: the idle transmitter starts a staged LISTEN SET, with the wanted set as it stands, or else a staged UPLINK
REQUEST; the place is emptied at the start. -/
def transmit (s : State) : State :=
  match s.modem.sending with
  | some _ => s
  | none =>
    if s.modem.listenStaged then
      s.updModem fun m =>
        { m with listenStaged := false, sending := some (.listenSet (wantedSet s.settings.profile)) }
    else
      match s.modem.uplinkStaged with
      | none => s
      | some r => s.updModem fun m => { m with uplinkStaged := none, sending := some (.uplinkRequest r) }

/-- OUTBOUND_TRANSMIT (R12, R13). -/
def execOutboundTransmit (s : State) : Host.Outcome State Fault Refusal := .next (whenRunning transmit s)

/-- R13: a LISTEN SET's last octet is sent. -/
def listenSent (s : State) : State :=
  match s.modem.sending with
  | some (.listenSet _) => s.updModem fun m => { m with sending := none }
  | _ => s

/-- LISTEN_SET_SENT (R13). -/
def execListenSetSent (s : State) : Host.Outcome State Fault Refusal := .next (whenRunning listenSent s)

/-- R168: the report that frame `frame` is sent starts the result wait of the entry in flight, when that entry's handoff
staged this frame and its wait has not started. -/
def reportSent (frame : Nat) (s : State) : State :=
  if s.receipts.frame = some frame ∧ s.receipts.wait = none ∧ s.receipts.queue.any (·.inFlight) = true then
    s.updReceipts fun q => { q with wait := some (addSeconds s.time.uptime Config.resultWaitSeconds) }
  else s

/-- R13, R168: an UPLINK REQUEST's last octet is sent. -/
def requestSent (s : State) : State :=
  match s.modem.sending with
  | some (.uplinkRequest r) => reportSent r.frame (s.updModem fun m => { m with sending := none })
  | _ => s

/-- UPLINK_REQUEST_SENT (R13, R168). -/
def execUplinkRequestSent (s : State) : Host.Outcome State Fault Refusal := .next (whenRunning requestSent s)

/-- HANDOFF (R167): when the conditions hold, the first due WAITING entry is handed off. -/
def execHandoff (s : State) : Host.Outcome State Fault Refusal := .next (whenRunning beginHandoff s)

/-- R170: the result wait has reached its deadline: the handoff fails, and a further one may begin (R167). -/
def waitExpiry (s : State) : State :=
  match s.receipts.wait, s.receipts.queue.find? (·.inFlight) with
  | some deadline, some r => if deadline ≤ s.time.uptime then beginHandoff (failHandoff r s) else s
  | _, _ => s

/-- RESULT_WAIT_EXPIRY (R170). -/
def execResultWaitExpiry (s : State) : Host.Outcome State Fault Refusal := .next (whenRunning waitExpiry s)

/-- RECEIPT_STALE (R172). -/
def execReceiptStale (s : State) : Host.Outcome State Fault Refusal := .next (whenRunning dropStale s)

end Sys2Proof.Machine
end

