-- ==== Sys2Proof/Machine/Replies.lean ====
section
/-! DEFINITION. The layouts of the replies and of the outbound modem frames (R187, R188). Every body below begins with
the result code, which is payload octet 1; the sequence octet before it is put on by `respond`. -/

namespace Sys2Proof.Machine

/-! ## Result codes (R177) -/

def codeOk : Octet := 0
def codeClamped : Octet := 1
def codeBusy : Octet := 2
def codeNoSuchSlot : Octet := 3
def codeWrongState : Octet := 4
def codeBadLength : Octet := 5
def codeBadValue : Octet := 6
def codeUnknownRequest : Octet := 7

/-! ## Codes used in replies (11 section 11.6) -/

def SlotState.code : SlotState → Octet
  | .gathering => 1
  | .admitted => 2
  | .queued => 3
  | .sounding => 4
  | .shown => 5
  | .pending => 6
  | .done => 7

def Settled.code : Settled → Octet
  | .presented => 0
  | .rejected => 1
  | .cancelled => 2
  | .expired => 3
  | .superseded => 4

def Scale.code : Scale → Octet
  | .uptime => 0
  | .wall => 1

def AckSource.code : AckSource → Octet
  | .key => 0
  | .link => 1
  | .chord => 2

def DropReason.code : DropReason → Octet
  | .full => 0
  | .attempts => 1
  | .stale => 2

def SheetState.code : SheetState → Octet
  | .empty => 0
  | .combining => 1
  | .held => 2
  | .accepted => 3

def ReceiptMode.code : ReceiptMode → Octet
  | .none => 0
  | .onPresent => 1
  | .onAck => 2

def ReceiptKind.code : ReceiptKind → Octet
  | .presented => 0
  | .acknowledged => 1

def Phase.code : Phase → Octet
  | .prefill => 1
  | .erasing => 2
  | .rewriting => 3

/-- STATUS octet 5: the store state. A void in appending is part of PROGRAMMING (log 15). -/
def StoreState.code : StoreState → Octet
  | .loading => 0
  | .idle => 1
  | .busy none _ => 2
  | .deferred _ _ => 3
  | .busy (some _) _ => 4
  | .failed => 5

/-- STATUS octet 6: the compaction phase, or the phase noted while DEFERRED. -/
def StoreState.phaseCode : StoreState → Octet
  | .busy (some phase) _ => phase.code
  | .deferred (some phase) _ => phase.code
  | _ => 0

/-- A flag at bit `n` of an octet. -/
def bitOctet (n : Nat) (b : Bool) : Octet := if b then BitVec.twoPow 8 n else 0

/-! ## STATUS (R178) -/

def statusBody (s : State) : List Octet :=
  [codeOk] ++ octets16 216 ++ [1, s.store.state.code, s.store.state.phaseCode,
    bitOctet 0 s.time.clockSet ||| bitOctet 1 s.modem.broadcast ||| bitOctet 2 s.modem.uplink
      ||| bitOctet 3 s.modem.servingCell.isSome]
  ++ octets32 s.time.wall ++ octets32 s.time.uptime ++ octets16 (s.modem.servingCell.getD 0).toNat
  ++ [octet (allSlots.countP fun i => (slotOf s i).isSome), octet (buffersFree s), octet s.receipts.queue.length,
    octet s.history.length]
  ++ octets16 s.modem.frameErrors ++ octets16 s.modem.overflow ++ octets16 s.modem.formatDiscards
  ++ octets16 s.modem.mutedDiscards ++ octets16 s.modem.knownDiscards ++ octets16 s.modem.noRoomDiscards
  ++ octets16 s.host.frameErrors ++ octets16 s.host.overflow

/-! ## LIST (R181) -/

def revisionOctet (r : BitVec 4) : Octet := r.setWidth 8

/-- The slot index as an octet. -/
def indexOctet (i : SlotIndex) : Octet := octet i.val

/-- A LIST line. -/
def listLine (i : SlotIndex) (x : Slot) : List Octet :=
  [indexOctet i] ++ keyOctets x.key ++ [revisionOctet x.revision, x.cls.setWidth 8, x.state.code,
    octet (x.sheets.countP fun r => decide (r.state = .accepted)), octet x.sheets.length, flagOctet x.isPartial,
    (x.predecessor.map indexOctet).getD 0xFF]

def listBody (s : State) : List Octet :=
  let occupied := allSlots.filterMap fun i => (slotOf s i).map fun x => (i, x)
  [codeOk, octet occupied.length] ++ (occupied.map fun p => listLine p.1 p.2).flatten

/-! ## READ (R181) -/

def readHeader (i : SlotIndex) (x : Slot) (part : Nat) : List Octet :=
  [codeOk, indexOctet i] ++ keyOctets x.key ++ [revisionOctet x.revision, octet part]

/-- An optional time, four octets, zeros when absent. -/
def timeOctets (t : Option Nat) : List Octet := octets32 (t.getD 0)

/-- A sheet map entry (R33). -/
def sheetMapEntry (r : Option SheetRecord) : List Octet :=
  match r with
  | none => [0, 0, 0, 0]
  | some r => [r.state.code, octet r.copies, (r.margin.map octet).getD 0xFF, flagOctet r.onHold]

/-- The presence mask of section 0. -/
def presenceMask (x : Slot) : BitVec 16 :=
  let bit (n : Nat) (b : Bool) : BitVec 16 := if b then BitVec.twoPow 16 n else 0
  bit 0 x.predecessor.isSome ||| bit 1 x.withdrawal.isSome ||| bit 2 x.admission.isSome ||| bit 3 x.expiry.isSome
    ||| bit 4 x.firstPresentation.isSome ||| bit 5 x.doneTime.isSome ||| bit 6 x.ack.isSome ||| bit 7 x.leadCell.isSome
    ||| bit 8 x.lead.isSome

/-- The lead fields in section 0, octets 52 to 98. -/
def leadOctets (lead : Option Lead) : List Octet :=
  match lead with
  | none => List.replicate 47 0
  | some l =>
    octets16 l.validity ++ [l.mode.code, flagOctet l.cancel, l.language, octet l.dispersal, octet l.zones.length]
    ++ ((List.range 8).map fun j => (l.zones[j]?.map zoneOctets).getD [0, 0, 0]).flatten
    ++ (List.range 16).map fun j => octetAt l.text j

/-- READ section 0, octets 8 to 146. -/
def slotSection (x : Slot) : List Octet :=
  octets16 (presenceMask x).toNat
  ++ [x.cls.setWidth 8, octet x.rank, x.state.code, octet x.sheets.length, flagOctet x.isPartial, octet x.reminders,
    (x.predecessor.map indexOctet).getD 0, (x.withdrawal.map Settled.code).getD 0]
  ++ octets32 x.firstCopy ++ octets32 x.lastActivity ++ timeOctets x.admission
  ++ timeOctets (x.expiry.map (·.value)) ++ [(x.expiry.map (·.scale.code)).getD 0]
  ++ timeOctets x.firstPresentation ++ timeOctets x.doneTime
  ++ timeOctets (x.ack.map (·.uptime)) ++ [(x.ack.map (·.source.code)).getD 0]
  ++ octets16 ((x.ack.map (·.delay)).getD 0)
  ++ octets16 (x.leadCell.getD 0).toNat
  ++ leadOctets x.lead
  ++ ((List.range 12).map fun j => sheetMapEntry x.sheets[j]?).flatten

/-- READ sections 1 to 12, from octet 8: the sheet's state, and its text when that state is ACCEPTED. -/
def sheetSection (index : Nat) (r : SheetRecord) : List Octet :=
  match r.state, r.buffer with
  | .accepted, some b =>
    r.state.code :: (if index = 0 then ((Buffer.values b).take 46).drop 30 else (Buffer.values b).take 46)
  | _, _ => [r.state.code]

/-- R181: the body of a READ of the part `part` of the slot an octet names. -/
def readBody (named part : Nat) (s : State) : List Octet :=
  match slotIndexOf named with
  | none => [codeNoSuchSlot]
  | some i =>
    match slotOf s i with
    | none => [codeNoSuchSlot]
    | some x =>
      if x.sheets.length < part then [codeBadValue]
      else if part = 0 then readHeader i x part ++ slotSection x
      else match x.sheets[part - 1]? with
        | none => [codeBadValue]
        | some r => readHeader i x part ++ sheetSection (part - 1) r

/-! ## HISTORY (R99, R182) -/

def historyOctets (h : HistoryEntry) : List Octet :=
  keyOctets h.key ++ [revisionOctet h.revision, h.outcome.code] ++ octets32 h.expiry.value
    ++ [h.expiry.scale.code ||| bitOctet 1 h.persisted]

def historyBody (first : Nat) (s : State) : List Octet :=
  [codeOk, octet s.history.length, octet first]
    ++ (((s.history.drop first).take 24).map historyOctets).flatten

/-! ## EVENTS (R185, R186) -/

/-- R185: the state a slot entry reports: its slot's, when the slot is occupied with the entry's key and revision, and
FREE otherwise. -/
def reportedState (s : State) (i : SlotIndex) (key : Key) (revision : BitVec 4) : Octet :=
  match slotOf s i with
  | none => 0
  | some x => if x.key = key ∧ x.revision = revision then x.state.code else 0

def detailOctets : Detail → List Octet
  | .entries n => [octet n, 0, 0, 0, 0, 0]
  | .sent key revision kind attempts => keyOctets key ++ [revisionOctet revision, kind.code, octet attempts]
  | .dropped key revision kind reason => keyOctets key ++ [revisionOctet revision, kind.code, reason.code]

def eventOctets (s : State) : EventEntry → List Octet
  | .slot i key revision kinds =>
    [indexOctet i] ++ keyOctets key ++ [revisionOctet revision, reportedState s i key revision]
      ++ octets16 kinds.toNat
  | .device kind count detail => [0x80 ||| octet kind.position, octet count] ++ detailOctets detail

def eventsBody (s : State) : List Octet :=
  [codeOk, octet s.events.length] ++ (s.events.map (eventOctets s)).flatten

/-! ## Outbound modem frames (R12, R167) -/

/-- The frame on the line for what the transmitter is sending. -/
def Sending.frame : Sending → Frame
  | .listenSet wanted => ⟨kindListenSet, [wanted]⟩
  | .uplinkRequest r =>
    ⟨kindUplinkRequest, keyOctets r.key ++ [revisionOctet r.revision, r.kind.code] ++ octets32 r.tag.toNat
      ++ octets16 r.cell.toNat ++ octets16 r.ackDelay⟩

end Sys2Proof.Machine
end

