-- ==== Sys2Proof/Machine/Requests.lean ====
section
/-! DEFINITION. The host requests (R177): each takes the oldest frame from staging when no request is in hand, tests it
in the order of R177, carries it out as one step, and puts its reply in hand; and REPLY_SENT. -/

namespace Sys2Proof.Machine

/-- R177: the reply to frame `f`: its kind is the request's plus 0x80, and the sequence octet is carried back before
this body. -/
def respond (f : Frame) (body : List Octet) (s : State) : State :=
  s.updHost fun h => { h with reply := some ⟨f.kind + 0x80, octetAt f.payload 0 :: body⟩ }

/-- R177: a request of kind `kind` is taken, when none is in hand and it is the oldest frame in staging. `carry` gives
the state its step leaves and the body of its reply. -/
def takeRequest (kind : Octet) (carry : List Octet → State → State × List Octet) (s : State) : State :=
  if s.host.reply.isSome then s
  else
    match s.host.staging with
    | [] => s
    | f :: rest =>
      if f.kind = kind then
        let r := carry f.payload (s.updHost fun h => { h with staging := rest })
        respond f r.2 r.1
      else s

/-- R177 tests 2 and 3: while the store is LOADING the answer is BUSY, and a length that does not fit is BAD_LENGTH;
`tail` follows the result code in these replies (the count octet of ACK, R188). -/
def whenReady (fits : List Octet → Bool) (tail : List Octet) (carry : List Octet → State → State × List Octet)
    (p : List Octet) (s : State) : State × List Octet :=
  if s.store.state = .loading then (s, codeBusy :: tail)
  else if !fits p then (s, codeBadLength :: tail)
  else carry p s

/-- A payload of exactly `n` octets. -/
def lengthIs (n : Nat) (p : List Octet) : Bool := p.length == n

/-! ## Requests that only report -/

/-- R178: STATUS is answered in every store state. -/
def carryStatus (p : List Octet) (s : State) : State × List Octet :=
  if !lengthIs 1 p then (s, [codeBadLength]) else (s, statusBody s)

/-- STATUS (R178). -/
def execStatus (s : State) : Host.Outcome State Fault Refusal := .next (whenRunning (takeRequest 0x01 carryStatus) s)

/-- LIST (R181). -/
def execList (s : State) : Host.Outcome State Fault Refusal :=
  .next (whenRunning (takeRequest 0x07 (whenReady (lengthIs 1) [] fun _ s => (s, listBody s))) s)

/-- READ (R181). -/
def execRead (s : State) : Host.Outcome State Fault Refusal :=
  .next (whenRunning (takeRequest 0x08 (whenReady (lengthIs 3) [] fun p s =>
    (s, readBody (natAt p 1) (natAt p 2) s))) s)

/-- HISTORY (R99, R182). -/
def execHistory (s : State) : Host.Outcome State Fault Refusal :=
  .next (whenRunning (takeRequest 0x0C (whenReady (lengthIs 2) [] fun p s => (s, historyBody (natAt p 1) s))) s)

/-- EVENTS (R186): every entry is returned, and the set emptied. -/
def execEvents (s : State) : Host.Outcome State Fault Refusal :=
  .next (whenRunning (takeRequest 0x0B (whenReady (lengthIs 1) [] fun _ s =>
    (s.updEvents fun _ => [], eventsBody s))) s)

/-! ## Settings -/

/-- R79: every uptime-scale expiry converted at the first setting of the clock to `w`. -/
def convertAll (w : Nat) (s : State) : State :=
  let conv := convertExpiry s.time.uptime w
  ((s.updSlots (mapEntries (Option.map fun x => { x with expiry := x.expiry.map conv }))).updHistory
      (List.map fun h => { h with expiry := conv h.expiry })).updReceipts fun q =>
    { q with queue := q.queue.map fun r => { r with expiry := conv r.expiry } }

/-- R78 to R80: the wall clock is set to `w`. A value it already holds, once set, changes nothing. Receipts keep
the expiries already reached (R172); a slot's expiry that is reached and not yet taken is tested anew by the clock as
set, which is the model's choice (log 40). -/
def setWallClock (w : Nat) (s : State) : State :=
  if s.time.clockSet && s.time.wall == w then s
  else
    let t := if s.time.clockSet then keepReached s else convertAll w s
    settle (takeReached (t.updTime fun c => { c with wall := w, clockSet := true }))

/-- SET_CLOCK (R78 to R80). -/
def execSetClock (s : State) : Host.Outcome State Fault Refusal :=
  .next (whenRunning (takeRequest 0x02 (whenReady (lengthIs 5) [] fun p s =>
    (setWallClock (word32At p 1).toNat s, [codeOk]))) s)

/-- R64, R73: the host zones replaced; a change of the effective location removes every REJECTED entry. -/
def setHostZones (l : List Zone) (s : State) : State :=
  let now := { s.location with hostZones := l }
  let t := s.updLocation fun _ => now
  if sameLocation s.location.effective now.effective then t else dropRejected t

/-- R63: the payload length fits a list of 0 to 4 zone codes. -/
def zoneListFits (p : List Octet) : Bool := p.length % 3 == 1 && decide (p.length ≤ 13)

/-- SET_LOCATION (R63, R73). -/
def execSetLocation (s : State) : Host.Outcome State Fault Refusal :=
  .next (whenRunning (takeRequest 0x03 (whenReady zoneListFits [] fun p s => (setHostZones (zonesOf p) s, [codeOk]))) s)

/-- R152: both filters restart: their run counts become 0. -/
def restartFilters (k : Keys) : Keys :=
  { k with ack := { k.ack with run := 0 }, silence := { k.silence with run := 0 } }

/-- R179: the profile replaced, with what follows within the step. -/
def replaceProfile (q : Profile) (s : State) : State :=
  let old := s.settings.profile
  let s := s.updSettings fun c => { c with profile := q }
  let s := if wantedSet old = wantedSet q then s else s.updModem fun m => { m with listenStaged := true }
  let s := if q.retention < old.retention then pruneHistory s else s
  if old.checkTime = q.checkTime then s else s.updKeys restartFilters

/-- R179: SET-PROFILE's own test and effect. -/
def carryProfile (p : List Octet) (s : State) : State × List Octet :=
  if !profileSensible p then (s, [codeBadValue])
  else (replaceProfile (profileOf p) s, [if profileClamped p then codeClamped else codeOk])

/-- SET_PROFILE (R179, R12, R96, R152, R185). -/
def execSetProfile (s : State) : Host.Outcome State Fault Refusal :=
  .next (whenRunning (takeRequest 0x04 (whenReady (lengthIs 22) [] carryProfile)) s)

/-- SET_TAG (R180). -/
def execSetTag (s : State) : Host.Outcome State Fault Refusal :=
  .next (whenRunning (takeRequest 0x05 (whenReady (lengthIs 5) [] fun p s =>
    (s.updSettings fun c => { c with tag := word32At p 1 }, [codeOk]))) s)

/-- R140: the payload length fits the segment count it declares. -/
def cadenceFits (p : List Octet) : Bool := decide (3 ≤ p.length) && p.length == 7 + 3 * natAt p 2

/-- R140: SET-CADENCE's own tests, in their order, and its effect. -/
def carryCadence (p : List Octet) (s : State) : State × List Octet :=
  let rank := natAt p 1
  let n := natAt p 2
  if rank < 1 ∨ 4 < rank then (s, [codeBadValue])
  else if n = 0 ∨ 8 < n then (s, [codeBadValue])
  else
    match segmentsAt p 3 n with
    | none => (s, [codeBadValue])
    | some l =>
      (s.updSettings fun c =>
        { c with
          cadences := c.cadences.withRank rank l
          toneA := (tonesAt p n).1
          toneB := (tonesAt p n).2 },
       [if cadenceClamped p n then codeClamped else codeOk])

/-- SET_CADENCE (R140). -/
def execSetCadence (s : State) : Host.Outcome State Fault Refusal :=
  .next (whenRunning (takeRequest 0x06 (whenReady cadenceFits [] carryCadence)) s)

/-! ## Requests that act on slots -/

/-- R129: an ACK request naming slot `i`. -/
def ackSlot (i : SlotIndex) (s : State) : State × List Octet :=
  match slotOf s i with
  | none => (s, [codeNoSuchSlot, 0])
  | some x =>
    if x.state.acknowledgeable then (settle (acknowledge .link i s), [codeOk, 1]) else (s, [codeWrongState, 0])

/-- R129: these slots acknowledged in one step, with the count in the reply. -/
def ackMany (l : List SlotIndex) (s : State) : State × List Octet :=
  if l.isEmpty then (s, [codeOk, 0]) else (settle (acknowledgeAll .link l s), [codeOk, octet l.length])

/-- R129: the target of an ACK request: a slot, ACTIVE or ALL. -/
def carryAck (p : List Octet) (s : State) : State × List Octet :=
  let target := natAt p 1
  if target = 0xFE then ackMany s.pres.active.toList s
  else if target = 0xFF then ackMany (presentedSlots s) s
  else
    match slotIndexOf target with
    | none => (s, [codeNoSuchSlot, 0])
    | some i => ackSlot i s

/-- ACK (R129, R126). -/
def execAck (s : State) : Host.Outcome State Fault Refusal :=
  .next (whenRunning (takeRequest 0x09 (whenReady (lengthIs 2) [0] carryAck)) s)

/-- R57: RELEASE of the slot an octet names. -/
def carryRelease (p : List Octet) (s : State) : State × List Octet :=
  match slotIndexOf (natAt p 1) with
  | none => (s, [codeNoSuchSlot])
  | some i =>
    match stateAt s i with
    | none => (s, [codeNoSuchSlot])
    | some .done => (freeSlot i (dropSlotEntry i s), [codeOk])
    | some _ => (s, [codeWrongState])

/-- RELEASE (R57, R56, R185). -/
def execRelease (s : State) : Host.Outcome State Fault Refusal :=
  .next (whenRunning (takeRequest 0x0A (whenReady (lengthIs 2) [] carryRelease)) s)

/-- R132: PREVIEW's own tests and effect. -/
def carryPreview (p : List Octet) (s : State) : State × List Octet :=
  let rank := natAt p 1
  if rank < 1 ∨ 4 < rank then (s, [codeBadValue])
  else if s.pres.active.isSome then (s, [codeBusy])
  else (startCycle .preview rank ((stopPreview s).updPres fun q => { q with preview := some rank }), [codeOk])

/-- PREVIEW (R132, R134, R142). -/
def execPreview (s : State) : Host.Outcome State Fault Refusal :=
  .next (whenRunning (takeRequest 0x0D (whenReady (lengthIs 2) [] carryPreview)) s)

/-! ## RESTART and the rest -/

/-- R183, R16, R59, R137, R147, R156, R174: what RESTART clears. -/
def clearAll (s : State) : State :=
  { s with
    slots := Vector.replicate 16 none
    pres := .atReset
    cycle := none
    keys := .atReset
    receipts := { Receipts.atReset with nextFrame := s.receipts.nextFrame }
    events := []
    modem := { s.modem with fifo := [], uplinkStaged := none, listenStaged := true } }

/-- RESTART (R183). -/
def execRestart (s : State) : Host.Outcome State Fault Refusal :=
  .next (whenRunning (takeRequest 0x0E (whenReady (lengthIs 1) [] fun _ s => (clearAll s, [codeOk]))) s)

/-- R177 test 1: the oldest staged frame names no request and is answered UNKNOWN_REQUEST, in every store state. -/
def takeUnknown (s : State) : State :=
  if s.host.reply.isSome then s
  else
    match s.host.staging with
    | [] => s
    | f :: rest =>
      if namesRequest f.kind then s
      else respond f [codeUnknownRequest] (s.updHost fun h => { h with staging := rest })

/-- UNKNOWN_REQUEST (R177). -/
def execUnknownRequest (s : State) : Host.Outcome State Fault Refusal := .next (whenRunning takeUnknown s)

/-- REPLY_SENT (R177): the request is no longer in hand. -/
def execReplySent (s : State) : Host.Outcome State Fault Refusal :=
  .next (whenRunning (fun s => s.updHost fun h => { h with reply := none }) s)

end Sys2Proof.Machine
end

