-- ==== Sys2Proof/Machine/ResetLine.lean ====
section
/-! DEFINITION. The RESET line (R15, R113, R157, R158): HARDWARE_RESET and RESET_RELEASE. -/

namespace Sys2Proof.Machine

/-- R157: every block at its hardware-reset values. The journal, the level of SUPPLY_OK and the model's own fields are
kept. -/
def blocksAtReset (resetLow : Bool) (s : State) : State :=
  { State.reset with
    lines := ⟨resetLow, s.lines.supplyOk⟩
    store := { State.reset.store with journal := s.store.journal }
    draws := s.draws
    pending := s.pending }

/-- R113: a hardware reset stops any store operation at once. -/
def stopStore (s : State) : State :=
  match s.store.state with
  | .busy _ op => stopOperation op s
  | _ => s

/-- R157: RESET goes low. The blocks stand at their reset values from then on (log 21). -/
def resetFall (s : State) : State := if s.lines.resetLow then s else blocksAtReset true (stopStore s)

/-- HARDWARE_RESET (R15, R113, R157, R158). -/
def execHardwareReset (s : State) : Host.Outcome State Fault Refusal := .next (resetFall s)

/-- R102, R157: RESET returns high: every block stands at its reset values, and the store is LOADING. -/
def resetRise (s : State) : State := if s.lines.resetLow then blocksAtReset false s else s

/-- RESET_RELEASE (R102, R157). -/
def execResetRelease (s : State) : Host.Outcome State Fault Refusal := .next (resetRise s)

end Sys2Proof.Machine
end

