-- ==== Sys2Proof/Machine/Timers.lean ====
section
/-! DEFINITION. The table's timers and the timebase: HOLD_EXPIRY, GATHERING_TIMEOUT, ASSEMBLY_LIMIT, SLOT_EXPIRY,
RETENTION_PRUNING, REMINDER_EXPIRY, UPTIME_SECOND. Each acts when what it stands for is due, and is nothing otherwise. -/

namespace Sys2Proof.Machine

/-- R77: an uptime deadline is reached. -/
def deadlineReached (s : State) (d : Option Nat) : Bool := d.any fun t => decide (t ≤ s.time.uptime)

/-- R26: the hold deadline of sheet `index` of slot `i` expires: the sheet is ACCEPTED on hold and reported. -/
def holdExpiry (i : SlotIndex) (index : Nat) (s : State) : State :=
  match (slotOf s i).bind (·.sheets[index]?) with
  | none => s
  | some r =>
    if r.state = .held ∧ deadlineReached s r.holdDeadline = true then
      settle (reportAcceptance i index (modSlot i (Slot.withSheet index fun q =>
        { q with state := .accepted, holdDeadline := none, onHold := true }) s))
    else s

/-- HOLD_EXPIRY (R26, R28). -/
def execHoldExpiry (slot : SlotIndex) (index : Nat) (s : State) : Host.Outcome State Fault Refusal :=
  .next (whenRunning (holdExpiry slot index) s)

/-- R55: a GATHERING slot whose gathering deadline is reached posts ABANDONED and is freed. -/
def gatheringTimeout (i : SlotIndex) (s : State) : State :=
  match slotOf s i with
  | none => s
  | some x =>
    if x.state = .gathering ∧ deadlineReached s x.gatherDeadline = true then freeSlot i (postSlot i .abandoned s) else s

/-- GATHERING_TIMEOUT (R55, R56). -/
def execGatheringTimeout (slot : SlotIndex) (s : State) : Host.Outcome State Fault Refusal :=
  .next (whenRunning (gatheringTimeout slot) s)

/-- R53: an ADMITTED slot whose assembly limit expires becomes QUEUED with its partial flag yes. -/
def assemblyLimit (i : SlotIndex) (s : State) : State :=
  match slotOf s i with
  | none => s
  | some x =>
    if x.state = .admitted ∧ deadlineReached s x.assemblyDeadline = true then settle (becomeQueued i true s) else s

/-- ASSEMBLY_LIMIT (R53, R89). -/
def execAssemblyLimit (slot : SlotIndex) (s : State) : Host.Outcome State Fault Refusal :=
  .next (whenRunning (assemblyLimit slot) s)

/-- R86: all the slot expiries reached are taken as one step, before presentation acts. -/
def slotExpiries (s : State) : State :=
  if allSlots.any (slotReached s) then settle (takeSlotExpiries allSlots s) else s

/-- SLOT_EXPIRY (R82 to R86). -/
def execSlotExpiry (s : State) : Host.Outcome State Fault Refusal := .next (whenRunning slotExpiries s)

/-- RETENTION_PRUNING (R96). -/
def execRetentionPruning (s : State) : Host.Outcome State Fault Refusal := .next (whenRunning pruneHistory s)

/-- R124: the reminder timer of the SHOWN active slot expires. -/
def reminderExpiry (s : State) : State :=
  match s.pres.active with
  | none => s
  | some i =>
    match slotOf s i with
    | none => s
    | some x =>
      if x.state = .shown ∧ deadlineReached s s.pres.reminder = true then
        let s := s.updPres fun p => { p with reminder := none }
        if x.reminders < s.settings.profile.reminderCount then
          settle (postSlot i .presenting (startCycle (.slot i) x.rank (enterState .sounding i
            (modSlot i (fun y => { y with reminders := y.reminders + 1 }) s))))
        else
          settle (postSlot i .pending (enterState .pending i (s.updPres fun p =>
            { p with active := none, pendingList := p.pendingList ++ [i] })))
      else s

/-- REMINDER_EXPIRY (R124). -/
def execReminderExpiry (s : State) : Host.Outcome State Fault Refusal := .next (whenRunning reminderExpiry s)

/-- R76: uptime counts one second, and the wall clock with it while the clock is set; each stops at its maximum. -/
def countSecond (t : Timebase) : Timebase :=
  if t.uptime < maxSeconds then
    { t with uptime := t.uptime + 1, wall := if t.clockSet then bump maxSeconds t.wall else t.wall }
  else t

/-- R76, R96, R167, R172: one second is counted; within the same step the history entries whose retention end it reaches
are removed, the WAITING receipts whose bulletin expiry it reaches are dropped, and a handoff that has become due
begins. The last two may fall together, and `order` says which is taken first (log 4). -/
def second (order : SecondOrder) (s : State) : State :=
  let s := pruneHistory (s.updTime countSecond)
  match order with
  | .staleFirst => beginHandoff (dropStale s)
  | .handoffFirst => dropStale (beginHandoff s)

/-- UPTIME_SECOND (R76, R96, R167, R172). -/
def execUptimeSecond (order : SecondOrder) (s : State) : Host.Outcome State Fault Refusal :=
  .next (whenRunning (second order) s)

end Sys2Proof.Machine
end

