-- ==== Sys2Proof/Machine/Dispatch.lean ====
section
/-! DEFINITION. One arm for each row of spec/opcode_table.json. -/

namespace Sys2Proof.Machine

/-- The effect of a command on everything but the queue. -/
def exec (i : Instr) (s : State) : Host.Outcome State Fault Refusal :=
  match i with
  | .modemFrameArrival octets => Sys2Proof.Machine.execModemFrameArrival octets s
  | .hostFrameArrival octets => Sys2Proof.Machine.execHostFrameArrival octets s
  | .interOctetTimeout link => Sys2Proof.Machine.execInterOctetTimeout link s
  | .sheet => Sys2Proof.Machine.execSheet s
  | .cell => Sys2Proof.Machine.execCell s
  | .channelState => Sys2Proof.Machine.execChannelState s
  | .uplinkResult => Sys2Proof.Machine.execUplinkResult s
  | .outboundTransmit => Sys2Proof.Machine.execOutboundTransmit s
  | .uplinkRequestSent => Sys2Proof.Machine.execUplinkRequestSent s
  | .handoff => Sys2Proof.Machine.execHandoff s
  | .resultWaitExpiry => Sys2Proof.Machine.execResultWaitExpiry s
  | .receiptStale => Sys2Proof.Machine.execReceiptStale s
  | .status => Sys2Proof.Machine.execStatus s
  | .setClock => Sys2Proof.Machine.execSetClock s
  | .setLocation => Sys2Proof.Machine.execSetLocation s
  | .setProfile => Sys2Proof.Machine.execSetProfile s
  | .setTag => Sys2Proof.Machine.execSetTag s
  | .setCadence => Sys2Proof.Machine.execSetCadence s
  | .list => Sys2Proof.Machine.execList s
  | .read => Sys2Proof.Machine.execRead s
  | .ack => Sys2Proof.Machine.execAck s
  | .release => Sys2Proof.Machine.execRelease s
  | .events => Sys2Proof.Machine.execEvents s
  | .history => Sys2Proof.Machine.execHistory s
  | .preview => Sys2Proof.Machine.execPreview s
  | .restart => Sys2Proof.Machine.execRestart s
  | .unknownRequest => Sys2Proof.Machine.execUnknownRequest s
  | .replySent => Sys2Proof.Machine.execReplySent s
  | .holdExpiry slot index => Sys2Proof.Machine.execHoldExpiry slot index s
  | .gatheringTimeout slot => Sys2Proof.Machine.execGatheringTimeout slot s
  | .assemblyLimit slot => Sys2Proof.Machine.execAssemblyLimit slot s
  | .slotExpiry => Sys2Proof.Machine.execSlotExpiry s
  | .retentionPruning => Sys2Proof.Machine.execRetentionPruning s
  | .reminderExpiry => Sys2Proof.Machine.execReminderExpiry s
  | .segmentBoundary => Sys2Proof.Machine.execSegmentBoundary s
  | .pressRecognition key => Sys2Proof.Machine.execPressRecognition key s
  | .releaseRecognition key => Sys2Proof.Machine.execReleaseRecognition key s
  | .chordFires => Sys2Proof.Machine.execChordFires s
  | .hardwareReset => Sys2Proof.Machine.execHardwareReset s
  | .resetRelease => Sys2Proof.Machine.execResetRelease s
  | .loadDone => Sys2Proof.Machine.execLoadDone s
  | .supplyOkFall => Sys2Proof.Machine.execSupplyOkFall s
  | .supplyOkRise => Sys2Proof.Machine.execSupplyOkRise s
  | .programAttempt unset => Sys2Proof.Machine.execProgramAttempt unset s
  | .void => Sys2Proof.Machine.execVoid s
  | .prefillProgram => Sys2Proof.Machine.execPrefillProgram s
  | .eraseAttempt unerased => Sys2Proof.Machine.execEraseAttempt unerased s
  | .uptimeSecond order => Sys2Proof.Machine.execUptimeSecond order s
  | .keySample ackLow silenceLow => Sys2Proof.Machine.execKeySample ackLow silenceLow s
  | .startOctet link badStop => Sys2Proof.Machine.execStartOctet link badStop s
  | .listenSetSent => Sys2Proof.Machine.execListenSetSent s

end Sys2Proof.Machine
end

