-- ==== Sys2Proof/WellFormed.lean ====
section
/-! DEFINITION. Which terms of `Instr` are commands of the part: the operand ranges that its types leave open. -/

namespace Sys2Proof

/-- R34: a bulletin has at most 12 sheets, so a sheet index is 0 to 11. -/
def sheetIndexOk (sheet : Nat) : Bool := sheet < 12

/-- R2, R176: a frame arrives with its last octet, so at least one octet comes. -/
def octetsOk (octets : List RxOctet) : Bool := !octets.isEmpty

/-- R100: a journal position is 0 to 127. -/
def positionsOk (cells : List (Nat × BitVec 64)) : Bool := cells.all fun c => decide (c.1 < Config.journalPositions)

/-- Every operand lies in the range the spec gives it. -/
def Instr.wellFormed : Instr → Bool
  | .modemFrameArrival octets => octetsOk octets
  | .hostFrameArrival octets => octetsOk octets
  | .interOctetTimeout _ => true
  | .sheet => true
  | .cell => true
  | .channelState => true
  | .uplinkResult => true
  | .outboundTransmit => true
  | .uplinkRequestSent => true
  | .handoff => true
  | .resultWaitExpiry => true
  | .receiptStale => true
  | .status => true
  | .setClock => true
  | .setLocation => true
  | .setProfile => true
  | .setTag => true
  | .setCadence => true
  | .list => true
  | .read => true
  | .ack => true
  | .release => true
  | .events => true
  | .history => true
  | .preview => true
  | .restart => true
  | .unknownRequest => true
  | .replySent => true
  | .holdExpiry _ index => sheetIndexOk index
  | .gatheringTimeout _ => true
  | .assemblyLimit _ => true
  | .slotExpiry => true
  | .retentionPruning => true
  | .reminderExpiry => true
  | .segmentBoundary => true
  | .pressRecognition _ => true
  | .releaseRecognition _ => true
  | .chordFires => true
  | .hardwareReset => true
  | .resetRelease => true
  | .loadDone => true
  | .supplyOkFall => true
  | .supplyOkRise => true
  | .programAttempt _ => true
  | .void => true
  | .prefillProgram => true
  | .eraseAttempt unerased => positionsOk unerased
  | .uptimeSecond _ => true
  | .keySample _ _ => true
  | .startOctet _ _ => true
  | .listenSetSent => true

end Sys2Proof
end

