-- ==== Sys2Proof/Safety.lean ====
section
/-! DEFINITION. What counts as a safe run, in the terms the statements use: which blocks a command may change, and for
each block the form that the spec says its state always has. -/

namespace Sys2Proof.Machine

/-! ## Frames -/

/-- The blocks of the state. -/
inductive Block where
  | lines
  | modem
  | slots
  | location
  | time
  | history
  | store
  | pres
  | cycle
  | keys
  | receipts
  | settings
  | host
  | events
  | draws
  | pending
  deriving DecidableEq, Repr

/-- Block `b` is the same in the two states. -/
def Block.same : Block → State → State → Prop
  | .lines, s, t => t.lines = s.lines
  | .modem, s, t => t.modem = s.modem
  | .slots, s, t => t.slots = s.slots
  | .location, s, t => t.location = s.location
  | .time, s, t => t.time = s.time
  | .history, s, t => t.history = s.history
  | .store, s, t => t.store = s.store
  | .pres, s, t => t.pres = s.pres
  | .cycle, s, t => t.cycle = s.cycle
  | .keys, s, t => t.keys = s.keys
  | .receipts, s, t => t.receipts = s.receipts
  | .settings, s, t => t.settings = s.settings
  | .host, s, t => t.host = s.host
  | .events, s, t => t.events = s.events
  | .draws, s, t => t.draws = s.draws
  | .pending, s, t => t.pending = s.pending

/-- Every block outside `l` is unchanged. -/
def changesOnly (l : List Block) (s t : State) : Prop := ∀ b, b ∉ l → b.same s t

/-- The blocks that presentation, the handoff test and the store's selection may change (R104, R117, R167), with those
of the slots' endings before them. -/
def tableBlocks : List Block := [.modem, .slots, .history, .store, .pres, .cycle, .receipts, .events]

/-- The blocks a command may change. -/
def touches : Instr → List Block
  | .modemFrameArrival _ => [.modem]
  | .hostFrameArrival _ => [.host]
  | .interOctetTimeout .modem => [.modem]
  | .interOctetTimeout .host => [.host]
  | .sheet => tableBlocks
  | .cell => [.modem, .location, .history]
  | .channelState => [.modem, .receipts]
  | .uplinkResult => [.modem, .receipts, .events]
  | .outboundTransmit => [.modem]
  | .uplinkRequestSent => [.modem, .receipts]
  | .handoff => [.modem, .receipts]
  | .resultWaitExpiry => [.modem, .receipts, .events]
  | .receiptStale => [.receipts, .events]
  | .status => [.host]
  | .setClock => .host :: .time :: tableBlocks
  | .setLocation => [.host, .location, .history]
  | .setProfile => [.host, .settings, .modem, .history, .keys]
  | .setTag => [.host, .settings]
  | .setCadence => [.host, .settings]
  | .list => [.host]
  | .read => [.host]
  | .ack => .host :: tableBlocks
  | .release => [.host, .slots, .pres, .events]
  | .events => [.host, .events]
  | .history => [.host]
  | .preview => [.host, .pres, .cycle]
  | .restart => [.host, .slots, .pres, .cycle, .keys, .receipts, .events, .modem]
  | .unknownRequest => [.host]
  | .replySent => [.host]
  | .holdExpiry _ _ => tableBlocks
  | .gatheringTimeout _ => [.slots, .pres, .events]
  | .assemblyLimit _ => tableBlocks
  | .slotExpiry => tableBlocks
  | .retentionPruning => [.history]
  | .reminderExpiry => tableBlocks
  | .segmentBoundary => tableBlocks
  | .pressRecognition _ => [.keys]
  | .releaseRecognition _ => .keys :: tableBlocks
  | .chordFires => .keys :: tableBlocks
  | .hardwareReset => [.lines, .modem, .slots, .location, .time, .history, .store, .pres, .cycle, .keys, .receipts,
      .settings, .host, .events, .draws]
  | .resetRelease => [.lines, .modem, .slots, .location, .time, .history, .store, .pres, .cycle, .keys, .receipts,
      .settings, .host, .events]
  | .loadDone => [.modem, .history, .store, .events]
  | .supplyOkFall => [.lines, .store, .events, .draws]
  | .supplyOkRise => [.lines, .store, .history]
  | .programAttempt _ => [.store, .history]
  | .void => [.store, .history]
  | .prefillProgram => [.store]
  | .eraseAttempt _ => [.store, .history, .events]
  | .uptimeSecond _ => [.time, .history, .modem, .receipts, .events]
  | .keySample _ _ => [.keys]
  | .startOctet .modem _ => [.modem]
  | .startOctet .host _ => [.host]
  | .listenSetSent => [.modem]

/-! ## Frames and requests at the front -/

/-- A frame of this kind is the oldest of the intake FIFO, and can be taken (R4). -/
structure FrameReady (kind : Octet) (f : Frame) (rest : List Frame) (s : State) : Prop where
  running : s.lines.resetLow = false
  loaded : s.store.state ≠ .loading
  oldest : s.modem.fifo = f :: rest
  kind_eq : f.kind = kind

/-- The intake FIFO with its oldest frame taken. -/
def withFifo (rest : List Frame) (s : State) : State := s.updModem fun m => { m with fifo := rest }

/-- R5 to R7: a copy passes the intake tests. -/
structure CopyPasses (c : Copy) (s : State) : Prop where
  count_pos : 1 ≤ c.count
  count_le : c.count ≤ 12
  index_lt : c.index < c.count
  wanted : c.cls = 0 ∨ s.settings.profile.muteMask.getLsbD c.cls.toNat = false
  fresh : ∀ h ∈ s.history, h.key = c.key → h.revision.toNat < c.revision.toNat

/-- R39, R42: a copy opens a slot, because no slot holds its key, or because one does, `existing`, in QUEUED to DONE with a
lower revision. -/
def OpensFor (c : Copy) (s : State) (existing : Option SlotIndex) : Prop :=
  (existing = none ∧ ∀ j y, slotOf s j = some y → y.key ≠ c.key) ∨
  ∃ j x, existing = some j ∧ slotOf s j = some x ∧ x.key = c.key ∧ x.revision.toNat < c.revision.toNat ∧
    (x.state = .queued ∨ x.state = .sounding ∨ x.state = .shown ∨ x.state = .pending ∨ x.state = .done) ∧
    ∀ k y, k ≠ j → slotOf s k = some y → y.key ≠ c.key

/-- R39 step 1: `t` is `s`, in which a slot is FREE, or `s` with a victim reclaimed because none was. -/
def SlotAtHand (rank : Nat) (s t : State) : Prop :=
  ((∃ j, slotOf s j = none) ∧ t = s) ∨
  ((∀ j, slotOf s j ≠ none) ∧ ∃ v, victim s rank none = some v ∧ t = reclaim v s)

/-- R39 step 3: `t` is `s`, in which the pool holds a buffer, or `s` with a victim reclaimed because it was empty. -/
def BufferAtHand (rank : Nat) (own : SlotIndex) (s t : State) : Prop :=
  (buffersUsed s < 48 ∧ t = s) ∨ (48 ≤ buffersUsed s ∧ ∃ v, victim s rank (some own) = some v ∧ t = reclaim v s)

/-- What follows in the step when record `index` of slot `i` has been combined: an acceptance is reported, and
presentation, the handoff test and the store act (R30, R38, R117). -/
def afterCombining (i : SlotIndex) (index : Nat) (r : SheetRecord) (t : State) : State :=
  if r.state = .accepted then settle (reportAcceptance i index t) else t

/-- A request of this kind is the oldest frame of staging, and none is in hand (R177). -/
structure RequestReady (kind : Octet) (f : Frame) (rest : List Frame) (s : State) : Prop where
  running : s.lines.resetLow = false
  free : s.host.reply = none
  oldest : s.host.staging = f :: rest
  kind_eq : f.kind = kind

/-- The request `f` taken from staging and its reply in hand: the request's kind plus 0x80, its sequence octet, and the
body, which begins with the result code (R177). -/
def answered (f : Frame) (rest : List Frame) (body : List Octet) (s : State) : State :=
  s.updHost fun h => { h with staging := rest, reply := some ⟨f.kind + 0x80, octetAt f.payload 0 :: body⟩ }

/-- R64: two effective locations are the same: both unknown, or every code of each equal to some code of the other. -/
def LocationsAgree (a b : Option (List Zone)) : Prop :=
  match a, b with
  | none, none => True
  | some a, some b => (∀ x ∈ a, ∃ y ∈ b, x.path = y.path) ∧ ∀ y ∈ b, ∃ x ∈ a, y.path = x.path
  | _, _ => False

/-- Staging with its oldest frame taken. -/
def withStaging (rest : List Frame) (s : State) : State := s.updHost fun h => { h with staging := rest }

/-- 11 section 11.3: the fourteen requests and their kinds. -/
def requestKinds : List (Octet × Instr) :=
  [(0x01, .status), (0x02, .setClock), (0x03, .setLocation), (0x04, .setProfile), (0x05, .setTag),
   (0x06, .setCadence), (0x07, .list), (0x08, .read), (0x09, .ack), (0x0A, .release), (0x0B, .events),
   (0x0C, .history), (0x0D, .preview), (0x0E, .restart)]

/-- 11 section 11.3: a payload of this length fits the request. -/
def fitsRequest (i : Instr) (p : List Octet) : Prop :=
  match i with
  | .setClock | .setTag => p.length = 5
  | .setLocation => ∃ k, k ≤ 4 ∧ p.length = 1 + 3 * k
  | .setProfile => p.length = 22
  | .setCadence => p.length = 7 + 3 * natAt p 2
  | .read => p.length = 3
  | .ack | .release | .history | .preview => p.length = 2
  | _ => p.length = 1

/-! ## The form of each block's state -/

/-- R175: what a receiver holds inside a frame is a frame not yet whole, of a length that is allowed. -/
def Receiver.wf : Receiver → Prop
  | .waiting => True
  | .inside got _ => got.length < 2 ∨ (1 ≤ natAt got 1 ∧ natAt got 1 ≤ 250 ∧ got.length < natAt got 1 + 4)

/-- R2, R3, R14: the FIFO holds at most 8 frames, each of an inbound kind at its length, and each counter is in its
range. -/
structure ModemPort.wf (m : ModemPort) : Prop where
  rx : m.rx.wf
  fifo_length : m.fifo.length ≤ 8
  fifo_frames : ∀ f ∈ m.fifo, modemPayloadLength f.kind = some f.payload.length
  frameErrors : m.frameErrors ≤ 65535
  overflow : m.overflow ≤ 65535
  formatDiscards : m.formatDiscards ≤ 65535
  mutedDiscards : m.mutedDiscards ≤ 65535
  knownDiscards : m.knownDiscards ≤ 65535
  noRoomDiscards : m.noRoomDiscards ≤ 65535

/-- R176, R188: staging holds at most 2 frames, the reply in hand fits the envelope, and each counter is in its range. -/
structure HostLink.wf (h : HostLink) : Prop where
  rx : h.rx.wf
  staging_length : h.staging.length ≤ 2
  staging_frames : ∀ f ∈ h.staging, 1 ≤ f.payload.length ∧ f.payload.length ≤ 250
  reply : ∀ f, h.reply = some f → 2 ≤ f.payload.length ∧ f.payload.length ≤ 250
  frameErrors : h.frameErrors ≤ 65535
  overflow : h.overflow ≤ 65535

/-- R17, R18, R21, R24: the buffer is absent exactly while EMPTY, the hold deadline present exactly while HELD, every
score and count is in its range, and the sheet check holds over the buffer of a HELD or ACCEPTED sheet and fails over
that of a COMBINING one. -/
structure SheetRecord.wf (r : SheetRecord) : Prop where
  buffer : r.buffer = none ↔ r.state = .empty
  deadline : r.holdDeadline.isSome = true ↔ r.state = .held
  copies : r.copies ≤ 255
  margin : ∀ m, r.margin = some m → m ≤ 63
  scores : ∀ b, r.buffer = some b → ∀ q ∈ b.toList, q.score ≤ 63
  check : ∀ b, r.buffer = some b → (sheetCheck b = true ↔ r.state = .held ∨ r.state = .accepted)
  onHold : r.onHold = true → r.state = .accepted

/-- R17, R34: a slot has 1 to 12 sheets, each record of it in its form. -/
structure Slot.wf (x : Slot) : Prop where
  count_pos : 1 ≤ x.sheets.length
  count_le : x.sheets.length ≤ 12
  sheets : ∀ r ∈ x.sheets, r.wf

/-- Every occupied slot is in its form. -/
def SlotsWf (v : Vector (Option Slot) 16) : Prop := ∀ x, some x ∈ v.toList → x.wf

/-- The buffers attached to the sheets of these slots. -/
def buffersIn (v : Vector (Option Slot) 16) : Nat := (v.toList.map fun o => (o.map Slot.buffers).getD 0).sum

/-- R39, R47: at most 48 buffers are attached, and every occupied slot holds one. -/
structure PoolWf (v : Vector (Option Slot) 16) : Prop where
  within : buffersIn v ≤ 48
  held : ∀ x, some x ∈ v.toList → 1 ≤ x.buffers

/-- R62: the host zones are 0 to 4 codes. -/
def Location.wf (l : Location) : Prop := l.hostZones.length ≤ 4

/-- R76: both counts are in their range, and the wall clock holds 0 while it is not set. -/
structure Timebase.wf (t : Timebase) : Prop where
  uptime : t.uptime ≤ maxSeconds
  wall : t.wall ≤ maxSeconds
  unset : t.clockSet = false → t.wall = 0

/-- R93: no two entries carry the same key, and the list holds at most 64 entries. -/
structure HistoryWf (l : List HistoryEntry) : Prop where
  keys : (l.map (·.key)).Nodup
  length : l.length ≤ 64

/-- R101, R104 to R110: what an operation's place in the store is. -/
def Operation.wf (t : Store) (phase : Option Phase) : Operation → Prop
  | .program _ n _ => t.writePos < 128 ∧ 1 ≤ n ∧ n ≤ 8 ∧ (phase = none ∨ phase = some .rewriting)
  | .void => t.writePos < 128 ∧ (phase = none ∨ phase = some .rewriting)
  | .prefill p => p < 128 ∧ t.eraseFails = 0 ∧ phase = some .prefill
  | .erase => t.eraseFails < 5 ∧ phase = some .erasing

/-- R101, R109, R112: the write position and the failed erase attempts are in their range; an operation runs only while
SUPPLY_OK is high, and the store is DEFERRED only while it is low. -/
structure StoreWf (l : Lines) (t : Store) : Prop where
  writePos : t.writePos ≤ 128
  eraseFails : t.eraseFails ≤ 5
  busy : ∀ phase op, t.state = .busy phase op → l.supplyOk = true ∧ op.wf t phase
  deferred : ∀ phase op, t.state = .deferred phase op → l.supplyOk = false
  noted : ∀ phase op, t.state = .deferred phase (some op) → op.wf t phase

/-- R139: a segment. -/
def Segment.wf (g : Segment) : Prop := 1 ≤ g.length ∧ g.length ≤ 255

/-- R139: a cadence table has 1 to 8 segments. -/
structure CadenceWf (l : List Segment) : Prop where
  pos : 1 ≤ l.length
  length : l.length ≤ 8
  segments : ∀ g ∈ l, g.wf

/-- R139: the two counts of a tone. -/
structure Tone.wf (t : Tone) : Prop where
  high_pos : 1 ≤ t.high
  high_le : t.high ≤ 255
  low_pos : 1 ≤ t.low
  low_le : t.low ≤ 255

/-- R179: every numeric setting of the profile is in its range. -/
structure Profile.wf (p : Profile) : Prop where
  floor : 1 ≤ p.floor ∧ p.floor ≤ 63
  holdTime : 5 ≤ p.holdTime ∧ p.holdTime ≤ 255
  assemblyLimit : 10 ≤ p.assemblyLimit ∧ p.assemblyLimit ≤ 600
  gatherTimeout : 30 ≤ p.gatherTimeout ∧ p.gatherTimeout ≤ 3600
  retention : p.retention ≤ 86400
  attentionTime : 4 ≤ p.attentionTime ∧ p.attentionTime ≤ 30
  reminderInterval : 30 ≤ p.reminderInterval ∧ p.reminderInterval ≤ 900
  reminderCount : p.reminderCount ≤ 5
  checkTime : p.checkTime ∈ [0, 8, 16, 32, 64]
  chordTime : 1 ≤ p.chordTime ∧ p.chordTime ≤ 10

/-- R139, R179: the settings the host port holds. -/
structure Settings.wf (c : Settings) : Prop where
  profile : c.profile.wf
  rank1 : CadenceWf c.cadences.rank1
  rank2 : CadenceWf c.cadences.rank2
  rank3 : CadenceWf c.cadences.rank3
  rank4 : CadenceWf c.cadences.rank4
  toneA : c.toneA.wf
  toneB : c.toneB.wf

/-- R138, R144: a running cycle. `left` says that a cycle ends within its bound of 3254 units. -/
structure Cycle.wf (c : Cycle) : Prop where
  segments : CadenceWf c.segments
  toneA : c.toneA.wf
  toneB : c.toneB.wf
  attention : 4 ≤ c.attentionTime ∧ c.attentionTime ≤ 30
  index : c.index < c.segments.length
  counter : ∀ g, c.segments[c.index]? = some g → c.counter ≤ g.length
  left : c.elapsed + c.counter ≤ 3254

/-- R138: the generator is IDLE, or its running cycle is in its form. -/
def CycleWf (c : Option Cycle) : Prop := ∀ x, c = some x → x.wf

/-- R151, R154, R155: the runs are in their range, and the chord timer runs only while both keys are PRESSED and neither
press is consumed, short of its chord time or at it, where it stands until CHORD_FIRES is taken (log 39). -/
structure Keys.wf (k : Keys) : Prop where
  ackRun : k.ack.run ≤ 64
  silenceRun : k.silence.run ≤ 64
  chord : ∀ c, k.chord = some c → k.ack.pressed = true ∧ k.silence.pressed = true ∧ k.ack.consumed = false ∧
    k.silence.consumed = false ∧ c.elapsed ≤ c.chordTime * 1000 ∧ 1 ≤ c.chordTime ∧ c.chordTime ≤ 10

/-- R163, R166, R168: at most 8 entries in order of due time and then entry order, at most one of them IN_FLIGHT; the
orders are told apart; the staged frame is kept exactly while one is IN_FLIGHT, and the result wait runs only then. -/
structure Receipts.wf (q : Receipts) : Prop where
  length : q.queue.length ≤ 8
  inFlight : q.queue.countP (·.inFlight) ≤ 1
  sorted : q.queue.Pairwise fun a b => a.before b = true
  orders : (q.queue.map (·.order)).Nodup
  fresh : ∀ r ∈ q.queue, r.order < q.nextOrder
  attempts : ∀ r ∈ q.queue, r.attempts ≤ 3
  frame : q.frame.isSome = q.queue.any (·.inFlight)
  wait : q.wait.isSome = true → q.queue.any (·.inFlight) = true

/-- The slot index of a slot entry. -/
def EventEntry.slotIndex : EventEntry → Option SlotIndex
  | .slot i _ _ _ => some i
  | .device _ _ _ => none

/-- The kind of a device entry. -/
def EventEntry.deviceKind : EventEntry → Option DeviceKind
  | .slot _ _ _ _ => none
  | .device k _ _ => some k

/-- R184: a device count is 1 to 255. -/
def EventEntry.countOk : EventEntry → Prop
  | .slot _ _ _ _ => True
  | .device _ n _ => 1 ≤ n ∧ n ≤ 255

/-- R184: at most one entry for each slot and at most one for each device kind. -/
structure EventsWf (l : List EventEntry) : Prop where
  slots : (l.filterMap EventEntry.slotIndex).Nodup
  devices : (l.filterMap EventEntry.deviceKind).Nodup
  counts : ∀ e ∈ l, e.countOk

/-- Every block is in the form the spec gives it. -/
structure State.wf (s : State) : Prop where
  modem : s.modem.wf
  slots : SlotsWf s.slots
  pool : PoolWf s.slots
  location : s.location.wf
  time : s.time.wf
  history : HistoryWf s.history
  store : StoreWf s.lines s.store
  settings : s.settings.wf
  cycle : CycleWf s.cycle
  keys : s.keys.wf
  receipts : s.receipts.wf
  events : EventsWf s.events
  host : s.host.wf

/-- R157: while RESET is low every block stands at its reset values (log 21). -/
def HeldAtReset (s : State) : Prop := s.lines.resetLow = true → s = blocksAtReset true s

/-- A state the part can be in: every block in its form, and RESET held low only over blocks at their reset values. -/
structure State.ok (s : State) : Prop where
  blocks : s.wf
  held : HeldAtReset s

/-! ## Presentation, the pairs of a key, and what a step leaves settled -/

/-- R138: the owner of the running cycle. -/
def ownerOf (s : State) : Option Owner := s.cycle.map (·.owner)

/-- R35: the admission time of slot `i`; 0 when it has none. -/
def admissionAt (s : State) (i : SlotIndex) : Nat := ((slotOf s i).bind (·.admission)).getD 0

/-- R115, R116, R117, R123, R132, R145: the queue holds exactly the QUEUED slots, in its order, and the pending list
exactly the PENDING ones; the active slot is the one SOUNDING or SHOWN; the cycle runs exactly for a SOUNDING slot or for
a preview; a preview runs only while no slot is active; the reminder timer runs exactly while a slot is SHOWN. -/
structure PresWf (s : State) : Prop where
  queueNodup : s.pres.queue.Nodup
  pendingNodup : s.pres.pendingList.Nodup
  queue : ∀ i, i ∈ s.pres.queue ↔ stateAt s i = some .queued
  pending : ∀ i, i ∈ s.pres.pendingList ↔ stateAt s i = some .pending
  active : ∀ i, s.pres.active = some i ↔ stateAt s i = some .sounding ∨ stateAt s i = some .shown
  sounding : ∀ i, ownerOf s = some (.slot i) ↔ stateAt s i = some .sounding
  preview : ownerOf s = some .preview ↔ s.pres.preview.isSome = true
  alone : ∀ a, s.pres.active = some a → s.pres.preview.isSome = false
  shown : s.pres.reminder.isSome = true ↔ ∃ i, stateAt s i = some .shown
  sorted : s.pres.queue.Pairwise fun a b =>
    rankAt s b < rankAt s a ∨ (rankAt s a = rankAt s b ∧ admissionAt s a ≤ admissionAt s b)

/-- R117, R122: the presentation decision has nothing left to do. With no active slot the queue is empty; its head is not
of higher rank than a SOUNDING active slot, nor of equal or higher rank than a SHOWN one. -/
structure PresSettled (s : State) : Prop where
  none : s.pres.active = none → s.pres.queue = []
  sounding : ∀ a h, s.pres.active = some a → stateAt s a = some .sounding → s.pres.queue.head? = some h →
    rankAt s h ≤ rankAt s a
  shown : ∀ a h, s.pres.active = some a → stateAt s a = some .shown → s.pres.queue.head? = some h →
    rankAt s h < rankAt s a

/-- What holds of presentation between two steps. -/
def Story (s : State) : Prop := PresWf s ∧ PresSettled s

/-- A slot is being assembled: GATHERING or ADMITTED. -/
def SlotState.assembling : SlotState → Bool
  | .gathering | .admitted => true
  | .queued | .sounding | .shown | .pending | .done => false

/-- R45: of two slots that hold one key, one is the other's predecessor; and a slot with a predecessor is GATHERING or
ADMITTED, its predecessor being an occupied slot of its key, in QUEUED to DONE, with a lower revision. -/
structure KeyLaw (s : State) : Prop where
  pair : ∀ i j x y, i ≠ j → slotOf s i = some x → slotOf s j = some y → x.key = y.key →
    x.predecessor = some j ∨ y.predecessor = some i
  succ : ∀ i j x, slotOf s i = some x → x.predecessor = some j → x.state.assembling = true ∧
    ∃ y, slotOf s j = some y ∧ y.state.assembling = false ∧ y.key = x.key ∧ y.revision.toNat < x.revision.toNat

/-- R17, R23, R34, R35, R51 to R53, R55, R81, R82, R84, R87, R118, R126: which fields of an occupied slot are present in
which state. A DONE slot was acknowledged or withdrawn; a slot past ADMITTED that is not partial has every sheet
ACCEPTED. -/
structure Slot.fieldsOk (x : Slot) : Prop where
  gatherDeadline : x.gatherDeadline.isSome = true ↔ x.state = .gathering
  assemblyDeadline : x.assemblyDeadline.isSome = true ↔ x.state = .admitted
  lead : x.lead.isSome = true ↔ x.state ≠ .gathering
  leadCell : x.leadCell.isSome = true ↔ x.state ≠ .gathering
  admission : x.admission.isSome = true ↔ x.state ≠ .gathering
  noExpiry : x.state = .gathering → x.expiry = none
  expiry : x.state ≠ .gathering → x.state ≠ .done → x.expiry.isSome = true
  notPresented : x.state.assembling = true → x.firstPresentation = none ∧ x.reminders = 0 ∧ x.isPartial = false
  presented : x.state = .sounding ∨ x.state = .shown ∨ x.state = .pending → x.firstPresentation.isSome = true
  doneTime : x.doneTime.isSome = true ↔ x.state = .done
  open' : x.state ≠ .done → x.ack = none ∧ x.withdrawal = none
  ended : x.state = .done → (x.ack = none ↔ x.withdrawal.isSome = true)
  ackDelay : ∀ a, x.ack = some a → a.delay ≤ 65535
  reminders : x.reminders ≤ 5
  complete : x.state.assembling = false → x.isPartial = false → ∀ r ∈ x.sheets, r.state = .accepted
  passing : ∀ r ∈ x.sheets, r.state = .held ∨ r.state = .accepted →
    r.passingCell.isSome = true ∧ r.margin.isSome = true

/-- The fields of every occupied slot are as its state has them. -/
def FieldsOk (s : State) : Prop := ∀ i x, slotOf s i = some x → x.fieldsOk

/-- R104: while the store is IDLE no eligible entry is unpersisted. -/
def StoreSettled (s : State) : Prop := s.store.state = .idle → oldestWaiting s = none

end Sys2Proof.Machine
end

