-- ==== Sys2Proof/Certificates/Slice0/Obligations.lean ====
section
/-! DEFINITION. The statements for the provers. Each docstring names the rules of spec/ the statement rests on. -/

open Sys2Proof Sys2Proof.Machine

/-! ## The machine as a whole -/

/-- The interface of a block: a step takes the command at the front of the queue and runs it with the queue's rest. -/
def Obligations.StepRunsTheFrontCommand : Prop :=
  ∀ (c : Instr) (rest : List Instr) (s : State), s.pending = c :: rest →
    step s = exec c (s.updPending fun _ => rest)

/-- R141, R143. What a step on an empty queue does is the model's choice (log 2). -/
def Obligations.EmptyQueueIsOneToneClockPeriod : Prop :=
  ∀ s : State, s.pending = [] →
    step s = .next (if s.lines.resetLow = true then s else
      { s with cycle := s.cycle.map fun c =>
          if c.counter = 0 then c
          else if (c.phase + 1) % 640 = 0 then
            { c with phase := c.phase + 1, counter := c.counter - 1, elapsed := c.elapsed + 1 }
          else { c with phase := c.phase + 1 } })

/-- Every command, in every state, answers a next state, and changes no block outside those `touches` lists for it. -/
def Obligations.EveryCommandAnswersWithinItsFrame : Prop :=
  ∀ (i : Instr) (s : State), ∃ t, exec i s = .next t ∧ changesOnly (touches i) s t

/-- R157, R159 to R161: while RESET is low no command but RESET_RELEASE changes a block, only the level of SUPPLY_OK
follows its line, and the three outputs are low. That nothing else moves meanwhile is the model's reading (log 30). -/
def Obligations.NothingHappensWhileResetIsLow : Prop :=
  ∀ (i : Instr) (s : State), s.lines.resetLow = true →
    (s.tone = false ∧ s.vib = false ∧ s.evt = false) ∧
    (i ≠ .resetRelease → exec i s = .next (match i with
      | .supplyOkFall => { s with lines := { s.lines with supplyOk := false } }
      | .supplyOkRise => { s with lines := { s.lines with supplyOk := true } }
      | _ => s))

/-- The invariants of this file hold right after hardware reset. -/
def Obligations.ResetMeetsTheInvariants : Prop :=
  State.reset.ok ∧ Story State.reset ∧ KeyLaw State.reset ∧ StoreSettled State.reset ∧ FieldsOk State.reset

/-- R2, R3, R14, R17, R18, R21, R24, R34, R47, R62, R76, R93, R101, R105, R109, R112, R138, R139, R144, R151, R154,
R163, R166, R176, R179, R184: every step keeps every block in the form the spec gives it. The clause `held` of
`State.ok`, that the blocks stand at their reset values already while RESET is low (R157), is the model's reading
(log 21). -/
def Obligations.EveryStepKeepsEveryBlock : Prop :=
  ∀ s t : State, s.ok → step s = .next t → t.ok

/-- R115 to R117, R122, R123, R132, R145: every step leaves presentation in its form, and settled. -/
def Obligations.EveryStepSettlesPresentation : Prop :=
  ∀ s t : State, PresWf s → PresSettled s → step s = .next t → PresWf t ∧ PresSettled t

/-- R45: every step keeps the law of a key's two slots. -/
def Obligations.EveryStepKeepsTheKeyLaw : Prop :=
  ∀ s t : State, PresWf s → PresSettled s → KeyLaw s → step s = .next t → KeyLaw t

/-- R104: after every step the IDLE store has nothing to select. -/
def Obligations.EveryStepLeavesTheIdleStoreWithoutWork : Prop :=
  ∀ s t : State, StoreSettled s → step s = .next t → StoreSettled t

/-- R34, R35, R51, R53, R55, R82, R126: every step keeps each slot's optional fields as its state has them. -/
def Obligations.EveryStepKeepsTheSlotFields : Prop :=
  ∀ s t : State, s.ok → PresWf s → PresSettled s → FieldsOk s → step s = .next t → FieldsOk t

/-- R100, R101: the journal changes only at a program, a void, a prefill program or an erase, and where a fall of
SUPPLY_OK or of RESET stops one. -/
def Obligations.OnlyStoreOperationsChangeTheJournal : Prop :=
  ∀ (i : Instr) (s t : State), exec i s = .next t →
    i ≠ .void → i ≠ .prefillProgram → i ≠ .hardwareReset → i ≠ .supplyOkFall →
    (∀ unset, i ≠ .programAttempt unset) → (∀ unerased, i ≠ .eraseAttempt unerased) →
    t.store.journal = s.store.journal

/-- R8, R14: a SHEET step increases at most one of the four discard counters, and that one by at most 1. -/
def Obligations.ASheetIsCountedAtMostOnce : Prop :=
  ∀ s t : State, exec .sheet s = .next t →
    let same := t.modem.formatDiscards = s.modem.formatDiscards ∧ t.modem.mutedDiscards = s.modem.mutedDiscards ∧
      t.modem.knownDiscards = s.modem.knownDiscards ∧ t.modem.noRoomDiscards = s.modem.noRoomDiscards
    same ∨
    (t.modem.formatDiscards = bump 65535 s.modem.formatDiscards ∧ t.modem.mutedDiscards = s.modem.mutedDiscards ∧
      t.modem.knownDiscards = s.modem.knownDiscards ∧ t.modem.noRoomDiscards = s.modem.noRoomDiscards) ∨
    (t.modem.formatDiscards = s.modem.formatDiscards ∧ t.modem.mutedDiscards = bump 65535 s.modem.mutedDiscards ∧
      t.modem.knownDiscards = s.modem.knownDiscards ∧ t.modem.noRoomDiscards = s.modem.noRoomDiscards) ∨
    (t.modem.formatDiscards = s.modem.formatDiscards ∧ t.modem.mutedDiscards = s.modem.mutedDiscards ∧
      t.modem.knownDiscards = bump 65535 s.modem.knownDiscards ∧ t.modem.noRoomDiscards = s.modem.noRoomDiscards) ∨
    (t.modem.formatDiscards = s.modem.formatDiscards ∧ t.modem.mutedDiscards = s.modem.mutedDiscards ∧
      t.modem.knownDiscards = s.modem.knownDiscards ∧ t.modem.noRoomDiscards = bump 65535 s.modem.noRoomDiscards)

/-! ## The links (01, 11) -/

/-- R2: the arrival check of the modem link, over a frame received whole by a waiting receiver, and over one whose
length octet is 0 or above 250. -/
def Obligations.ModemFrameArrivalDecides : Prop :=
  ∀ (s : State) (octets : List RxOctet) (kind : Octet), s.lines.resetLow = false → s.modem.rx = .waiting →
    (∀ (payload : List Octet) (hi lo : Octet), 1 ≤ payload.length → payload.length ≤ 250 →
      octets.map (·.value) = 0xC3 :: kind :: octet payload.length :: payload ++ [hi, lo] →
      exec (.modemFrameArrival octets) s = .next
        (if crc16 (kind :: octet payload.length :: payload) = hi ++ lo ∧ (∀ o ∈ octets, o.badStop = false) ∧
            modemPayloadLength kind = some payload.length then
          if s.modem.fifo.length < 8 then
            { s with modem := { s.modem with fifo := s.modem.fifo ++ [⟨kind, payload⟩] } }
          else { s with modem := { s.modem with overflow := bump 65535 s.modem.overflow } }
        else { s with modem := { s.modem with frameErrors := bump 65535 s.modem.frameErrors } })) ∧
    (∀ n : Octet, n.toNat = 0 ∨ 250 < n.toNat → octets.map (·.value) = [0xC3, kind, n] →
      exec (.modemFrameArrival octets) s = .next
        { s with modem := { s.modem with frameErrors := bump 65535 s.modem.frameErrors } })

/-- R175, R176: the same on the host link, where no kind is refused. -/
def Obligations.HostFrameArrivalDecides : Prop :=
  ∀ (s : State) (octets : List RxOctet) (kind : Octet), s.lines.resetLow = false → s.host.rx = .waiting →
    (∀ (payload : List Octet) (hi lo : Octet), 1 ≤ payload.length → payload.length ≤ 250 →
      octets.map (·.value) = 0xC3 :: kind :: octet payload.length :: payload ++ [hi, lo] →
      exec (.hostFrameArrival octets) s = .next
        (if crc16 (kind :: octet payload.length :: payload) = hi ++ lo ∧ ∀ o ∈ octets, o.badStop = false then
          if s.host.staging.length < 2 then
            { s with host := { s.host with staging := s.host.staging ++ [⟨kind, payload⟩] } }
          else { s with host := { s.host with overflow := bump 65535 s.host.overflow } }
        else { s with host := { s.host with frameErrors := bump 65535 s.host.frameErrors } })) ∧
    (∀ n : Octet, n.toNat = 0 ∨ 250 < n.toNat → octets.map (·.value) = [0xC3, kind, n] →
      exec (.hostFrameArrival octets) s = .next
        { s with host := { s.host with frameErrors := bump 65535 s.host.frameErrors } })

/-- R175: a line idle for too long inside a frame fails the frame; while the receiver waits it is nothing. R175: a
start octet begins a frame in a waiting receiver, and is an ordinary octet inside one. -/
def Obligations.IdleLinesAndStartOctets : Prop :=
  (∀ (s : State) (got : List Octet) (bad : Bool), s.lines.resetLow = false →
     (s.modem.rx = .waiting → exec (.interOctetTimeout .modem) s = .next s) ∧
     (s.modem.rx = .inside got bad → exec (.interOctetTimeout .modem) s = .next
       { s with modem := { s.modem with rx := .waiting, frameErrors := bump 65535 s.modem.frameErrors } }) ∧
     (s.host.rx = .waiting → exec (.interOctetTimeout .host) s = .next s) ∧
     (s.host.rx = .inside got bad → exec (.interOctetTimeout .host) s = .next
       { s with host := { s.host with rx := .waiting, frameErrors := bump 65535 s.host.frameErrors } })) ∧
  (∀ (s : State) (bad : Bool), s.lines.resetLow = false →
     (s.modem.rx = .waiting → exec (.startOctet .modem bad) s = .next
       { s with modem := { s.modem with rx := .inside [] bad } }) ∧
     (s.host.rx = .waiting → exec (.startOctet .host bad) s = .next
       { s with host := { s.host with rx := .inside [] bad } }) ∧
     (∀ (got : List Octet) (was : Bool), 2 ≤ got.length → 1 ≤ natAt got 1 → natAt got 1 ≤ 250 →
       got.length + 1 < natAt got 1 + 4 →
       (s.modem.rx = .inside got was → exec (.startOctet .modem bad) s = .next
         { s with modem := { s.modem with rx := .inside (got ++ [0xC3]) (was || bad) } }) ∧
       (s.host.rx = .inside got was → exec (.startOctet .host bad) s = .next
         { s with host := { s.host with rx := .inside (got ++ [0xC3]) (was || bad) } })))

/-! ## Intake and the table's decision (01, 03) -/

/-- R5 to R7: the three intake tests in their order, each discard counted under the first test that fails. -/
def Obligations.IntakeDiscardsInOrder : Prop :=
  ∀ (f : Frame) (rest : List Frame) (s : State), FrameReady kindSheet f rest s →
    let c := copyOf f.payload
    let sane := 1 ≤ c.count ∧ c.count ≤ 12 ∧ c.index < c.count
    let wanted := c.cls = 0 ∨ s.settings.profile.muteMask.getLsbD c.cls.toNat = false
    (¬ sane → exec .sheet s = .next
      { s with modem := { s.modem with fifo := rest, formatDiscards := bump 65535 s.modem.formatDiscards } }) ∧
    (sane → ¬ wanted → exec .sheet s = .next
      { s with modem := { s.modem with fifo := rest, mutedDiscards := bump 65535 s.modem.mutedDiscards } }) ∧
    (sane → wanted → (∃ h ∈ s.history, h.key = c.key ∧ c.revision.toNat ≤ h.revision.toNat) → exec .sheet s = .next
      { s with modem := { s.modem with fifo := rest, knownDiscards := bump 65535 s.modem.knownDiscards } })

/-- R19, R39, R42: a copy of a key that no slot holds, or above the one slot of its key in QUEUED to DONE, opens the FREE
slot of lowest index and is combined into its sheet. R39 steps 1 and 3: a victim is reclaimed for the slot when none is
FREE, and for the buffer when the pool is empty; R42: the predecessor is the key's slot, when it is still occupied. That
the gathering deadline saturates is the model's reading of 00 section 6.1 (log 27). -/
def Obligations.SheetOpensASlotOrASuccessor : Prop :=
  ∀ (f : Frame) (rest : List Frame) (s t u : State) (i : SlotIndex) (existing : Option SlotIndex),
    let c := copyOf f.payload
    FrameReady kindSheet f rest s → CopyPasses c s → OpensFor c s existing →
    SlotAtHand (rankOfClass c.cls) (withFifo rest s) t → slotOf t i = none → (∀ j, j < i → slotOf t j ≠ none) →
    BufferAtHand (rankOfClass c.cls) i t u →
    let r := SheetRecord.atCreation.combine s.settings.profile s.time.uptime c.cell c.clamped.body
    exec .sheet s = .next (afterCombining i c.index r (putSlot i (some
      { state := .gathering
        key := c.key
        revision := c.revision
        cls := c.cls
        sheets := (List.replicate c.count .atCreation).set c.index r
        lead := none
        leadCell := none
        firstCopy := s.time.uptime
        lastActivity := s.time.uptime
        gatherDeadline := some (addSeconds s.time.uptime s.settings.profile.gatherTimeout)
        admission := none
        assemblyDeadline := none
        expiry := none
        firstPresentation := none
        doneTime := none
        isPartial := false
        reminders := 0
        ack := none
        predecessor := existing.filter fun j => (slotOf u j).isSome
        withdrawal := none }) u))

/-- R41: a copy above every slot of its key, one of which is GATHERING or ADMITTED, restarts that slot in place. That the
gathering deadline saturates is the model's reading of 00 section 6.1 (log 27). -/
def Obligations.SheetRestartsASlotInPlace : Prop :=
  ∀ (f : Frame) (rest : List Frame) (s : State) (i : SlotIndex) (x : Slot),
    let c := copyOf f.payload
    FrameReady kindSheet f rest s → CopyPasses c s →
    slotOf s i = some x → x.key = c.key → x.revision.toNat < c.revision.toNat → x.state.assembling = true →
    (∀ j y, j ≠ i → slotOf s j = some y → y.key = c.key →
      y.revision.toNat < c.revision.toNat ∧ y.state.assembling = false) →
    let r := SheetRecord.atCreation.combine s.settings.profile s.time.uptime c.cell c.clamped.body
    exec .sheet s = .next (afterCombining i c.index r ((putSlot i (some
      { state := .gathering
        key := c.key
        revision := c.revision
        cls := c.cls
        sheets := (List.replicate c.count .atCreation).set c.index r
        lead := none
        leadCell := none
        firstCopy := s.time.uptime
        lastActivity := s.time.uptime
        gatherDeadline := some (addSeconds s.time.uptime s.settings.profile.gatherTimeout)
        admission := none
        assemblyDeadline := none
        expiry := none
        firstPresentation := none
        doneTime := none
        isPartial := false
        reminders := 0
        ack := none
        predecessor := x.predecessor
        withdrawal := none }) (withFifo rest s)).updEvents fun l =>
          if x.state = .admitted then mergeSlotPosting i c.key c.revision .abandoned l else l))

/-- R19, R20, R27, R40: a copy of a revision that slot `i` holds, at the slot's sheet count, sets the last activity and
reaches its sheet: an unaccepted sheet combines it, and an ACCEPTED sheet counts it. An EMPTY sheet takes a buffer of the
pool, or when the pool is empty that of a victim, which may be the slot's predecessor. That the gathering deadline
saturates is the model's reading of 00 section 6.1 (log 27). -/
def Obligations.SheetReachesTheSlotOfItsRevision : Prop :=
  ∀ (f : Frame) (rest : List Frame) (s : State) (i : SlotIndex) (x : Slot) (r : SheetRecord),
    let c := copyOf f.payload
    FrameReady kindSheet f rest s → CopyPasses c s →
    slotOf s i = some x → x.key = c.key → x.revision = c.revision → x.sheets.length = c.count →
    (∀ j y, j ≠ i → slotOf s j = some y → y.key = c.key → y.revision ≠ c.revision) →
    x.sheets[c.index]? = some r →
    let touched := { x with
      lastActivity := s.time.uptime
      gatherDeadline := if x.state = SlotState.gathering then
        some (addSeconds s.time.uptime s.settings.profile.gatherTimeout) else x.gatherDeadline }
    (r.state ≠ .accepted → (r.state = .empty → buffersUsed s < 48) →
      let r' := r.combine s.settings.profile s.time.uptime c.cell c.clamped.body
      exec .sheet s = .next (afterCombining i c.index r'
        (putSlot i (some { touched with sheets := x.sheets.set c.index r' }) (withFifo rest s)))) ∧
    (∀ v, r.state = .empty → 48 ≤ buffersUsed s → victim s x.rank (some i) = some v →
      let r' := r.combine s.settings.profile s.time.uptime c.cell c.clamped.body
      exec .sheet s = .next (afterCombining i c.index r'
        (putSlot i (some { touched with
          sheets := x.sheets.set c.index r'
          predecessor := if x.predecessor = some v then none else x.predecessor }) (reclaim v (withFifo rest s))))) ∧
    (r.state = .accepted → exec .sheet s = .next
      ((putSlot i (some { touched with sheets := x.sheets.set c.index { r with copies := bump 255 r.copies } })
        (withFifo rest s)).updModem fun m => { m with knownDiscards := bump 65535 m.knownDiscards }))

/-- R40, R43, R49: what the table discards. A sheet count that differs is a format discard and leaves the slot as it
is; a copy below the key's slots is already known. The three no-room discards: a new key or a successor that finds no FREE
slot or an empty pool, and nothing eligible, changes no slot; a first copy of a sheet that finds an empty pool and nothing
eligible sets the last activity of the slot it was routed to, which is the model's reading of R35 and R49 (log 25), and
moves its gathering deadline, whose saturation is the model's reading of 00 section 6.1 (log 27). -/
def Obligations.TableDiscards : Prop :=
  ∀ (f : Frame) (rest : List Frame) (s : State),
    let c := copyOf f.payload
    FrameReady kindSheet f rest s → CopyPasses c s →
    (∀ i x, slotOf s i = some x → x.key = c.key → x.revision = c.revision →
      (∀ j y, j ≠ i → slotOf s j = some y → y.key = c.key → y.revision ≠ c.revision) →
      (x.sheets.length ≠ c.count → exec .sheet s = .next
        { s with modem := { s.modem with fifo := rest, formatDiscards := bump 65535 s.modem.formatDiscards } }) ∧
      (∀ r, x.sheets.length = c.count → x.sheets[c.index]? = some r → r.state = .empty → 48 ≤ buffersUsed s →
        victim s x.rank (some i) = none → exec .sheet s = .next
          ((modSlot i (Slot.touch s.time.uptime s.settings.profile.gatherTimeout) (withFifo rest s)).updModem fun m =>
            { m with noRoomDiscards := bump 65535 m.noRoomDiscards }))) ∧
    ((∀ j y, slotOf s j = some y → y.key = c.key → y.revision ≠ c.revision) →
      (∃ j y, slotOf s j = some y ∧ y.key = c.key ∧ c.revision.toNat < y.revision.toNat) → exec .sheet s = .next
        { s with modem := { s.modem with fifo := rest, knownDiscards := bump 65535 s.modem.knownDiscards } }) ∧
    (∀ existing, OpensFor c s existing → (∀ j, slotOf s j ≠ none) ∨ 48 ≤ buffersUsed s →
      victim s (rankOfClass c.cls) none = none → exec .sheet s = .next
        { s with modem := { s.modem with fifo := rest, noRoomDiscards := bump 65535 s.modem.noRoomDiscards } })

/-- R47: the victim of a reclaim. A DONE slot other than the requester's own, of the oldest done time and then the
lowest index; when there is none, a GATHERING or ADMITTED one of rank at most the requester's, of the lowest rank,
then the oldest last activity, then the lowest index; and no other slot ever. That step 2 applies whenever step 1
finds no slot is the model's reading (log 16). R48, R56: a reclaimed slot is FREE, with no history entry; a DONE
slot's entry leaves the event set, and another slot posts ABANDONED; its buffers are free again. -/
def Obligations.ReclaimFreesTheRightVictim : Prop :=
  (∀ (s : State) (rank : Nat) (own : Option SlotIndex),
     let isDone := fun (j : SlotIndex) => own ≠ some j ∧ stateAt s j = some .done
     let assembles := fun (j : SlotIndex) => own ≠ some j ∧ rankAt s j ≤ rank ∧
       (stateAt s j = some .gathering ∨ stateAt s j = some .admitted)
     let doneAt := fun (j : SlotIndex) => ((slotOf s j).bind (·.doneTime)).getD 0
     let activeAt := fun (j : SlotIndex) => ((slotOf s j).map (·.lastActivity)).getD 0
     (∀ v, victim s rank own = some v →
       (isDone v ∧ ∀ j, isDone j → doneAt v < doneAt j ∨ doneAt v = doneAt j ∧ v ≤ j) ∨
       ((∀ j, ¬ isDone j) ∧ assembles v ∧ ∀ j, assembles j → rankAt s v < rankAt s j ∨ rankAt s v = rankAt s j ∧
         (activeAt v < activeAt j ∨ activeAt v = activeAt j ∧ v ≤ j))) ∧
     (victim s rank own = none ↔ ∀ j, ¬ isDone j ∧ ¬ assembles j)) ∧
  (∀ (s : State) (v : SlotIndex) (x : Slot), slotOf s v = some x →
     slotOf (reclaim v s) v = none ∧ (reclaim v s).history = s.history ∧
     buffersUsed (reclaim v s) + x.buffers = buffersUsed s ∧
     (x.state = .done → (reclaim v s).events = s.events.filter fun e => !e.isOfSlot v) ∧
     (x.state ≠ .done → (reclaim v s).events = mergeSlotPosting v x.key x.revision .abandoned s.events) ∧
     (∀ j y, j ≠ v → slotOf s j = some y → slotOf (reclaim v s) j = some
       (if y.predecessor = some v then { y with predecessor := none } else y)))

/-! ## Combining (02) -/

/-- R20: each position of the buffer is folded by the table of R20 from its own two pairs, whatever the copy's cell. -/
def Obligations.VoteFoldsEachPosition : Prop :=
  ∀ (profile : Profile) (uptime : Nat) (cell : BitVec 16) (body : Vector Pair 48) (r : SheetRecord) (b : Buffer),
    r.buffer = some b → ∃ b', (r.combine profile uptime cell body).buffer = some b' ∧ ∀ k : Fin 48,
      b'[k] =
        if body[k].value = b[k].value then ⟨b[k].value, min 63 (b[k].score + body[k].confidence)⟩
        else if b[k].score < body[k].confidence then ⟨body[k].value, body[k].confidence - b[k].score⟩
        else ⟨b[k].value, b[k].score - body[k].confidence⟩

/-- R19, R21, R23 to R25: the first copy's buffer, the copies count, and the state, margin, passing cell tag and hold
deadline that the evaluation gives. -/
def Obligations.EvaluationPlacesTheSheet : Prop :=
  ∀ (profile : Profile) (uptime : Nat) (cell : BitVec 16) (body : Vector Pair 48) (r : SheetRecord),
    let t := r.combine profile uptime cell body
    (r.buffer = none → ∃ b, t.buffer = some b ∧ ∀ k : Fin 48, b[k] = ⟨body[k].value, body[k].confidence⟩) ∧
    t.copies = min (r.copies + 1) 255 ∧ t.onHold = r.onHold ∧
    ∀ b, t.buffer = some b →
      (sheetCheck b = false →
        t.state = .combining ∧ t.holdDeadline = none ∧ t.margin = r.margin ∧ t.passingCell = r.passingCell) ∧
      (sheetCheck b = true → t.margin = some (smallestScore b) ∧ t.passingCell = some cell ∧
        (profile.floor ≤ smallestScore b → t.state = .accepted ∧ t.holdDeadline = none) ∧
        (smallestScore b < profile.floor → t.state = .held ∧ t.holdDeadline =
          some (r.holdDeadline.getD (min (uptime + profile.holdTime) maxSeconds)))) ∧
      ((∀ k : Fin 48, b[k].score ≤ 63) →
        (∀ k : Fin 48, smallestScore b ≤ b[k].score) ∧ ∃ k : Fin 48, smallestScore b = b[k].score)

/-- R22 with the note after it: the sheet check holds exactly when the CRC of all 48 values is 0. -/
def Obligations.SheetCheckIsAZeroCrc : Prop :=
  ∀ b : Buffer, sheetCheck b = true ↔ crc16 (b.toList.map (·.value)) = 0

/-- R26, R28: a HELD sheet whose hold deadline is reached is ACCEPTED on hold, its buffer, margin and copies count as
they stand, and the acceptance is reported. -/
def Obligations.HoldExpiryAcceptsTheSheet : Prop :=
  ∀ (s : State) (i : SlotIndex) (index d : Nat) (x : Slot) (r : SheetRecord), s.lines.resetLow = false →
    slotOf s i = some x → x.sheets[index]? = some r → r.state = .held → r.holdDeadline = some d →
    (d ≤ s.time.uptime → exec (.holdExpiry i index) s = .next (settle (reportAcceptance i index (putSlot i (some
      { x with sheets := x.sheets.set index { r with state := .accepted, holdDeadline := none, onHold := true } }) s)))) ∧
    (s.time.uptime < d → exec (.holdExpiry i index) s = .next s)

/-- R28, R50, R51, R69, R70, R71, R81: what the acceptance of sheet 0 of a GATHERING slot comes to: a cancel, a
rejection, or an admission, which goes on to QUEUED at once when every sheet is ACCEPTED. R28, R52, R54: what the
acceptance of another sheet comes to: an ADMITTED slot goes QUEUED complete when it was the last missing one, and a
partial slot in QUEUED to DONE posts UPDATED. R70, R71, R87, R88: a cancel withdraws the key's other slot when it is in
QUEUED to PENDING, and what a withdrawal leaves. That any acceptance in an ADMITTED slot sets the last activity is the
model's reading (log 24). -/
def Obligations.AcceptedSheetsDecide : Prop :=
  (∀ (s : State) (i : SlotIndex) (x : Slot) (r : SheetRecord) (b : Buffer), slotOf s i = some x → x.state = .gathering →
     x.sheets.head? = some r → r.buffer = some b →
     let lead := leadOf (b.toList.map (·.value))
     let expiry := if s.time.clockSet then (⟨.wall, min (s.time.wall + lead.validity * 60) maxSeconds⟩ : Expiry)
       else ⟨.uptime, min (s.time.uptime + lead.validity * 60) maxSeconds⟩
     let t := putSlot i (some { x with leadCell := r.passingCell, lead := some lead }) s
     (lead.cancel = true →
       ((∀ j y, j ≠ i → slotOf s j = some y → y.key = x.key →
           y.state = .gathering ∨ y.state = .admitted ∨ y.state = .done) →
         reportAcceptance i 0 s = freeSlot i (addHistory ⟨x.key, x.revision, .cancelled, expiry, false⟩ t)) ∧
       ∀ j y, j ≠ i → slotOf s j = some y → y.key = x.key →
         (∀ k z, k ≠ i → k ≠ j → slotOf s k = some z → z.key ≠ x.key) →
         y.state = .queued ∨ y.state = .sounding ∨ y.state = .shown ∨ y.state = .pending →
         reportAcceptance i 0 s =
           freeSlot i (addHistory ⟨x.key, x.revision, .cancelled, expiry, false⟩ (withdraw j .cancelled t))) ∧
     (lead.cancel = false → screensPresent lead s.location s.settings.profile.policy = false → reportAcceptance i 0 s =
       freeSlot i ((addHistory ⟨x.key, x.revision, .rejected, expiry, false⟩ t).updEvents
         (mergeSlotPosting i x.key x.revision .rejected))) ∧
     (lead.cancel = false → screensPresent lead s.location s.settings.profile.policy = true →
       let admitted := { x with
         leadCell := r.passingCell
         lead := some lead
         state := .admitted
         admission := some s.time.uptime
         lastActivity := s.time.uptime
         gatherDeadline := none
         expiry := some expiry }
       ((∃ q ∈ x.sheets, q.state ≠ .accepted) → reportAcceptance i 0 s =
         (putSlot i (some { admitted with
           assemblyDeadline := some (min (s.time.uptime + s.settings.profile.assemblyLimit) maxSeconds) }) s).updEvents
             (mergeSlotPosting i x.key x.revision .admitted)) ∧
       ((∀ q ∈ x.sheets, q.state = .accepted) → reportAcceptance i 0 s =
         becomeQueued i false ((putSlot i (some admitted) s).updEvents
           (mergeSlotPosting i x.key x.revision .admitted))))) ∧
  (∀ (s : State) (i : SlotIndex) (index : Nat) (x : Slot), index ≠ 0 → slotOf s i = some x →
     (x.state = .gathering → reportAcceptance i index s = s) ∧
     (x.state = .admitted → (∀ q ∈ x.sheets, q.state = .accepted) →
       reportAcceptance i index s = becomeQueued i false s) ∧
     (x.state = .admitted → (∃ q ∈ x.sheets, q.state ≠ .accepted) →
       reportAcceptance i index s = putSlot i (some { x with lastActivity := s.time.uptime }) s) ∧
     (x.state.assembling = false → x.isPartial = true →
       reportAcceptance i index s = s.updEvents (mergeSlotPosting i x.key x.revision .updated)) ∧
     (x.state.assembling = false → x.isPartial = false → reportAcceptance i index s = s)) ∧
  (∀ (s : State) (j : SlotIndex) (y : Slot) (e : Expiry) (outcome : Settled), slotOf s j = some y → y.expiry = some e →
     y.state = .queued ∨ y.state = .sounding ∨ y.state = .shown ∨ y.state = .pending →
     let u := withdraw j outcome s
     (∀ k, slotOf u k = if k = j then some { y with
         state := .done
         withdrawal := some outcome
         doneTime := some s.time.uptime
         lastActivity := s.time.uptime } else slotOf s k) ∧
     u.history = (addHistory ⟨y.key, y.revision, outcome, e, false⟩ s).history ∧
     u.events = mergeSlotPosting j y.key y.revision .withdrawn s.events ∧ u.receipts = s.receipts ∧
     u.cycle = (if y.state = .sounding then none else s.cycle) ∧
     u.pres = (match y.state with
       | .queued => { s.pres with queue := s.pres.queue.erase j }
       | .pending => { s.pres with pendingList := s.pres.pendingList.erase j }
       | .sounding => { s.pres with active := none }
       | _ => { s.pres with active := none, reminder := none }))

/-! ## Screening (04) -/

/-- R61: overlap, over the significant paths of R60. R67: the screening decision, over the lead fields that R36
decodes. -/
def Obligations.OverlapAndScreeningFollowTheirTables : Prop :=
  (∀ a b : Zone,
     let path := fun z : Zone => z.digits.toList.take (min 6 z.level.toNat)
     (min 6 a.level.toNat ≤ min 6 b.level.toNat →
       (a.overlaps b = true ↔ path a = (path b).take (min 6 a.level.toNat))) ∧
     (min 6 a.level.toNat = min 6 b.level.toNat → (a.overlaps b = true ↔ path a = path b)) ∧
     (a.level = 0 → a.overlaps b = true) ∧ a.overlaps b = b.overlaps a) ∧
  (∀ (p : List Octet) (l : Location) (policy : Policy),
     let lead := leadOf p
     lead.zones.length = min 8 (natAt p 5) ∧ (∀ k, k < min 8 (natAt p 5) → lead.zones[k]? = some (zoneAt p (6 + 3 * k))) ∧
     (natAt p 5 = 0 → screensPresent lead l policy = true) ∧
     (natAt p 5 ≠ 0 →
       (∀ here, l.effective = some here →
         (screensPresent lead l policy = true ↔ ∃ z ∈ lead.zones, ∃ h ∈ here, z.overlaps h = true) ∧
         ((∃ z ∈ lead.zones, z.level = 0) → screensPresent lead l policy = true)) ∧
       (l.effective = none → (screensPresent lead l policy = true ↔ policy = .presentAll))))

/-- R9, R64, R73: a CELL frame gives the serving cell tag and the cell zone; when it changes the effective location,
every REJECTED entry leaves history. R63, R64, R73: SET-LOCATION replaces the host zones, with the same consequence.
-/
def Obligations.LocationChangesRemoveRejections : Prop :=
  (∀ (f : Frame) (rest : List Frame) (s : State), FrameReady kindCell f rest s →
     let zone := if octetAt f.payload 2 = 0 then none else some (zoneAt f.payload 3)
     let now : Location := { s.location with cellZone := zone }
     let t : State := { s with
       modem := { s.modem with fifo := rest, servingCell := some (word16At f.payload 0) }
       location := now }
     (LocationsAgree s.location.effective now.effective → exec .cell s = .next t) ∧
     (¬ LocationsAgree s.location.effective now.effective →
       exec .cell s = .next { t with history := s.history.filter fun h => h.outcome ≠ .rejected })) ∧
  (∀ (f : Frame) (rest : List Frame) (s : State) (k : Nat), RequestReady 0x03 f rest s → s.store.state ≠ .loading →
     k ≤ 4 → f.payload.length = 1 + 3 * k →
     let now : Location := { s.location with hostZones := (List.range k).map fun j => zoneAt f.payload (1 + 3 * j) }
     let t := answered f rest [codeOk] { s with location := now }
     (LocationsAgree s.location.effective now.effective → exec .setLocation s = .next t) ∧
     (¬ LocationsAgree s.location.effective now.effective →
       exec .setLocation s = .next { t with history := s.history.filter fun h => h.outcome ≠ .rejected }))

/-! ## Channel, uplink and receipts (01, 10) -/

/-- R10, R12, R171: a CHANNEL STATE frame replaces both flags, a broadcast that becomes available stages a LISTEN SET,
and the handoff test follows. R167: a handoff begins when no entry is IN_FLIGHT, the uplink is available and an entry
is due; the first such entry is staged. Otherwise nothing happens. That a frame still staged is replaced is the
model's choice (log 26). -/
def Obligations.ChannelStateAndHandoff : Prop :=
  (∀ (f : Frame) (rest : List Frame) (s : State), FrameReady kindChannelState f rest s →
     let broadcast := (octetAt f.payload 0).getLsbD 0
     exec .channelState s = .next (beginHandoff { s with modem := { s.modem with
       fifo := rest
       broadcast := broadcast
       uplink := (octetAt f.payload 0).getLsbD 1
       listenStaged := if s.modem.broadcast = false ∧ broadcast = true then true else s.modem.listenStaged } })) ∧
  (∀ (s : State), s.lines.resetLow = false →
     exec .handoff s = .next (beginHandoff s) ∧
     (∀ pre r post, s.receipts.queue = pre ++ r :: post → s.modem.uplink = true →
       (∀ x ∈ s.receipts.queue, x.inFlight = false) → r.due ≤ s.time.uptime → (∀ x ∈ pre, s.time.uptime < x.due) →
       exec .handoff s = .next { s with
         modem := { s.modem with
           uplinkStaged := some ⟨r.key, r.revision, r.kind, r.tag, r.cell, r.ackDelay, s.receipts.nextFrame⟩ }
         receipts := { s.receipts with
           queue := pre ++ { r with inFlight := true } :: post
           wait := none
           frame := some s.receipts.nextFrame
           nextFrame := s.receipts.nextFrame + 1 } }) ∧
     ((s.modem.uplink = false ∨ (∃ x ∈ s.receipts.queue, x.inFlight = true) ∨
       ∀ x ∈ s.receipts.queue, s.time.uptime < x.due) → exec .handoff s = .next s))

/-- R12, R13: the idle transmitter takes the staged LISTEN SET first, with the wanted set as it stands, and else the
staged UPLINK REQUEST, emptying its place; a LISTEN SET's last octet leaves it idle. R13, R168: the last octet of an
UPLINK REQUEST leaves the transmitter idle, and starts the result wait when it completes the frame that the IN_FLIGHT
entry's handoff staged and no wait runs; that the wait's deadline saturates is the model's reading of 00 section 6.1
(log 27). -/
def Obligations.OutboundFramesAreSent : Prop :=
  (∀ s : State, s.lines.resetLow = false →
     (s.modem.sending = none → s.modem.listenStaged = true → exec .outboundTransmit s = .next { s with
       modem := { s.modem with listenStaged := false, sending := some (.listenSet (~~~s.settings.profile.muteMask ||| 1)) } }) ∧
     (∀ r, s.modem.sending = none → s.modem.listenStaged = false → s.modem.uplinkStaged = some r →
       exec .outboundTransmit s = .next { s with
         modem := { s.modem with uplinkStaged := none, sending := some (.uplinkRequest r) } }) ∧
     (s.modem.sending ≠ none → exec .outboundTransmit s = .next s) ∧
     (∀ w, s.modem.sending = some (.listenSet w) →
       exec .listenSetSent s = .next { s with modem := { s.modem with sending := none } })) ∧
  (∀ (s : State) (r : UplinkRequest), s.lines.resetLow = false → s.modem.sending = some (.uplinkRequest r) →
     let t : State := { s with modem := { s.modem with sending := none } }
     let acts := s.receipts.frame = some r.frame ∧ s.receipts.wait = none ∧ ∃ x ∈ s.receipts.queue, x.inFlight = true
     (acts → exec .uplinkRequestSent s = .next { t with
       receipts := { s.receipts with wait := some (min (s.time.uptime + 20) maxSeconds) } }) ∧
     (¬ acts → exec .uplinkRequestSent s = .next t))

/-- R11, R169: an UPLINK RESULT frame: a malformed one is a format discard, one that matches no IN_FLIGHT entry is ignored,
SENT removes the entry it matches, and REFUSED or NO_SERVICE fails its handoff. -/
def Obligations.UplinkResultEndsTheHandoff : Prop :=
  ∀ (f : Frame) (rest : List Frame) (s : State), FrameReady kindUplinkResult f rest s →
    let p := f.payload
    let t := withFifo rest s
    let formed := (octetAt p 4 = 0 ∨ octetAt p 4 = 1) ∧ (octetAt p 5 = 0 ∨ octetAt p 5 = 1 ∨ octetAt p 5 = 2)
    let matching := fun r : Receipt => r.key = keyAt p 0 ∧ r.revision = (octetAt p 3).extractLsb' 0 4 ∧
      r.kind = (if octetAt p 4 = 0 then .presented else .acknowledged)
    (¬ formed → exec .uplinkResult s = .next
      (t.updModem fun m => { m with formatDiscards := bump 65535 m.formatDiscards })) ∧
    (formed → (∀ r ∈ s.receipts.queue, r.inFlight = true → ¬ matching r) → exec .uplinkResult s = .next t) ∧
    (∀ pre r post, formed → s.receipts.queue = pre ++ r :: post → r.inFlight = true → (∀ x ∈ pre, x.inFlight = false) →
      matching r →
      (octetAt p 5 = 0 → exec .uplinkResult s = .next (beginHandoff { t with
        receipts := { s.receipts with queue := pre ++ post, wait := none, frame := none }
        events := mergeDevicePosting .receiptSent (.sent r.key r.revision r.kind r.attempts) s.events })) ∧
      (octetAt p 5 ≠ 0 → exec .uplinkResult s = .next (beginHandoff (failHandoff r t))))

/-- R170: what a failed handoff does to its entry, by the first line that applies; an expiry reached before a
SET-CLOCK moved the clock counts as reached (R80, R172). R168, R170: a result wait that has reached its deadline fails
the handoff, and a further one may begin; before it nothing happens. -/
def Obligations.HandoffFailureRetriesOrDrops : Prop :=
  (∀ (s : State) (pre post : List Receipt) (r : Receipt), s.receipts.queue = pre ++ r :: post → r.inFlight = true →
     (∀ x ∈ pre, x.inFlight = false) →
     let t : State := { s with receipts := { s.receipts with queue := pre ++ post, wait := none, frame := none } }
     let dropped := fun why => { t with
       events := mergeDevicePosting .receiptDropped (.dropped r.key r.revision r.kind why) s.events }
     let waiting := fun delay => { r with
       attempts := r.attempts + 1
       inFlight := false
       due := min (s.time.uptime + delay) maxSeconds }
     let retried := fun delay => { t with
       receipts := { t.receipts with queue := insertReceipt (waiting delay) (pre ++ post) } }
     (3 ≤ r.attempts → failHandoff r s = dropped .attempts) ∧
     (r.attempts < 3 → r.expiryReached = true ∨ reached s.time r.expiry = true → failHandoff r s = dropped .stale) ∧
     (r.expiryReached = false → reached s.time r.expiry = false →
       (r.attempts = 0 → failHandoff r s = retried 30) ∧
       (r.attempts = 1 → failHandoff r s = retried 60) ∧
       (r.attempts = 2 → failHandoff r s = retried 120))) ∧
  (∀ (s : State) (pre post : List Receipt) (r : Receipt) (d : Nat), s.lines.resetLow = false →
     s.receipts.queue = pre ++ r :: post → r.inFlight = true → (∀ x ∈ pre, x.inFlight = false) →
     s.receipts.wait = some d →
     (d ≤ s.time.uptime → exec .resultWaitExpiry s = .next (beginHandoff (failHandoff r s))) ∧
     (s.time.uptime < d → exec .resultWaitExpiry s = .next s))

/-- R163, R164: a receipt request is admitted, WAITING with no attempts, due after the dispersal delay, or dropped
with reason FULL when the queue holds 8. R172: every WAITING receipt whose bulletin expiry is reached is dropped with
reason STALE, and an IN_FLIGHT one stays. That several drops are posted in queue order is the model's choice (log 37). -/
def Obligations.ReceiptsAreAdmittedAndDropped : Prop :=
  (∀ (s : State) (x : Slot) (lead : Lead) (e : Expiry) (cell : BitVec 16) (kind : ReceiptKind) (delay : Nat),
     x.lead = some lead → x.expiry = some e → x.leadCell = some cell →
     (s.receipts.queue.length < 8 → requestReceipt x kind delay s = { s with receipts := { s.receipts with
       queue := insertReceipt
         { key := x.key
           revision := x.revision
           kind := kind
           tag := s.settings.tag
           cell := cell
           ackDelay := delay
           expiry := e
           expiryReached := false
           due := min (s.time.uptime + dispersalDelay s.settings.tag x.key x.revision lead.dispersal) maxSeconds
           attempts := 0
           inFlight := false
           order := s.receipts.nextOrder } s.receipts.queue
       nextOrder := s.receipts.nextOrder + 1 } }) ∧
     (8 ≤ s.receipts.queue.length → requestReceipt x kind delay s = { s with
       events := mergeDevicePosting .receiptDropped (.dropped x.key x.revision kind .full) s.events })) ∧
  (∀ s : State, s.lines.resetLow = false →
     let stale := fun r : Receipt => !r.inFlight && (r.expiryReached || reached s.time r.expiry)
     exec .receiptStale s = .next { s with
       receipts := { s.receipts with queue := s.receipts.queue.filter fun r => !stale r }
       events := (s.receipts.queue.filter stale).foldl
         (fun l r => mergeDevicePosting .receiptDropped (.dropped r.key r.revision r.kind .stale) l) s.events })

/-- R165: the dispersal delay, its bounds, and that it does not depend on the kind of the receipt. -/
def Obligations.DispersalDelayIsExact : Prop :=
  ∀ (tag : BitVec 32) (key : Key) (revision : BitVec 4) (window : Nat), window ≤ 255 →
    let low := tag.toNat % 65536
    let high := tag.toNat / 65536
    let h := (low * 40503 + high * 12289 + key.issuer.toNat * 8191 + key.number.toNat * 127 + revision.toNat) % 65536
    let d := dispersalDelay tag key revision window
    d = h * (window * 10) / 65536 ∧ (window = 0 → d = 0) ∧ (window ≠ 0 → d ≤ window * 10 - 1) ∧
    ∀ (s : State) (x : Slot) (delay : Nat),
      (requestReceipt x .presented 0 s).receipts.queue.map (·.due) =
        (requestReceipt x .acknowledged delay s).receipts.queue.map (·.due)

/-! ## The host requests (11) -/

/-- R177 tests 2 and 3, R188: while the store is LOADING every request but STATUS is answered BUSY, and a length that
does not fit is answered BAD_LENGTH; nothing else changes. The count 0 of an ACK reply here is the model's reading
(log 34). R177: a kind that names no request is answered UNKNOWN_REQUEST in every store state; the last octet of a
reply ends the request in hand. The reply's kind, the request's plus 0x80, wraps: the model's reading (log 33). -/
def Obligations.RequestsAreTurnedAwayOrEnded : Prop :=
  (∀ (kind : Octet) (i : Instr) (f : Frame) (rest : List Frame) (s : State), (kind, i) ∈ requestKinds →
     RequestReady kind f rest s →
     let tail : List Octet := if i = .ack then [0] else []
     (s.store.state = .loading → i ≠ .status → exec i s = .next (answered f rest (codeBusy :: tail) s)) ∧
     (s.store.state ≠ .loading ∨ i = .status → ¬ fitsRequest i f.payload →
       exec i s = .next (answered f rest (codeBadLength :: tail) s))) ∧
  (∀ (s : State), s.lines.resetLow = false →
     (∀ (f : Frame) (rest : List Frame), s.host.reply = none → s.host.staging = f :: rest →
       (f.kind = 0 ∨ 0x0E < f.kind.toNat) → exec .unknownRequest s = .next (answered f rest [codeUnknownRequest] s)) ∧
     exec .replySent s = .next { s with host := { s.host with reply := none } })

/-- R178, R188: STATUS is answered in every store state, and the fields of its reply stand at the octets of 11.6. That
a void in appending is PROGRAMMING is the model's reading (log 15). -/
def Obligations.StatusReportsThePart : Prop :=
  ∀ (f : Frame) (rest : List Frame) (s : State), RequestReady 0x01 f rest s → f.payload.length = 1 →
    ∃ body, exec .status s = .next (answered f rest body s) ∧
    let b := octetAt f.payload 0 :: body
    b.length = 38 ∧ octetAt b 1 = codeOk ∧ word16At b 2 = 216 ∧ octetAt b 4 = 1 ∧
    octetAt b 5 = (match s.store.state with
      | .loading => 0 | .idle => 1 | .busy none _ => 2 | .deferred _ _ => 3 | .busy (some _) _ => 4 | .failed => 5) ∧
    octetAt b 6 = (match s.store.state with
      | .busy (some .prefill) _ | .deferred (some .prefill) _ => 1
      | .busy (some .erasing) _ | .deferred (some .erasing) _ => 2
      | .busy (some .rewriting) _ | .deferred (some .rewriting) _ => 3
      | _ => 0) ∧
    ((octetAt b 7).getLsbD 0 = s.time.clockSet ∧ (octetAt b 7).getLsbD 1 = s.modem.broadcast ∧
      (octetAt b 7).getLsbD 2 = s.modem.uplink ∧ (octetAt b 7).getLsbD 3 = s.modem.servingCell.isSome) ∧
    word32At b 8 = BitVec.ofNat 32 s.time.wall ∧ word32At b 12 = BitVec.ofNat 32 s.time.uptime ∧
    word16At b 16 = s.modem.servingCell.getD 0 ∧
    octetAt b 18 = BitVec.ofNat 8 (allSlots.countP fun i => (slotOf s i).isSome) ∧
    octetAt b 19 = BitVec.ofNat 8 (48 - buffersUsed s) ∧ octetAt b 20 = BitVec.ofNat 8 s.receipts.queue.length ∧
    octetAt b 21 = BitVec.ofNat 8 s.history.length ∧
    word16At b 22 = BitVec.ofNat 16 s.modem.frameErrors ∧ word16At b 24 = BitVec.ofNat 16 s.modem.overflow ∧
    word16At b 26 = BitVec.ofNat 16 s.modem.formatDiscards ∧ word16At b 28 = BitVec.ofNat 16 s.modem.mutedDiscards ∧
    word16At b 30 = BitVec.ofNat 16 s.modem.knownDiscards ∧ word16At b 32 = BitVec.ofNat 16 s.modem.noRoomDiscards ∧
    word16At b 34 = BitVec.ofNat 16 s.host.frameErrors ∧ word16At b 36 = BitVec.ofNat 16 s.host.overflow

/-- R78 to R80: SET-CLOCK. The first setting converts the expiries, a value already held changes nothing, and what the
new value reaches is taken in the same step, before the reply. The order within the step is the model's (logs 12 and
37), and so is that a slot's expiry reached and not yet taken is tested by the clock as set (log 40). R79: after the
first setting of the clock no expiry on the uptime scale is held anywhere. R80, R172: the bulletin expiry of an
IN_FLIGHT receipt, once reached, stays reached whatever the clock is set to. -/
def Obligations.SetClockMovesTheWallClock : Prop :=
  (∀ (f : Frame) (rest : List Frame) (s : State), RequestReady 0x02 f rest s → s.store.state ≠ .loading →
     f.payload.length = 5 →
     let w := (word32At f.payload 1).toNat
     let t := withStaging rest s
     (s.time.clockSet = true → s.time.wall = w → exec .setClock s = .next (answered f rest [codeOk] s)) ∧
     (s.time.clockSet = true → s.time.wall ≠ w → exec .setClock s = .next (respond f [codeOk]
       (settle (takeReached { t with
         time := { s.time with wall := w }
         receipts := { s.receipts with queue := s.receipts.queue.map fun r =>
           { r with expiryReached := r.expiryReached || reached s.time r.expiry } } })))) ∧
     (s.time.clockSet = false →
       let moved := fun e : Expiry => if e.scale = .wall then e else
         (⟨.wall, if s.time.uptime < e.value then min (w + (e.value - s.time.uptime)) maxSeconds else w⟩ : Expiry)
       exec .setClock s = .next (respond f [codeOk] (settle (takeReached { t with
         time := ⟨s.time.uptime, w, true⟩
         slots := s.slots.map (Option.map fun x => { x with expiry := x.expiry.map moved })
         history := s.history.map fun h => { h with expiry := moved h.expiry }
         receipts := { s.receipts with queue := s.receipts.queue.map fun r => { r with expiry := moved r.expiry } } }))))) ∧
  (∀ (f : Frame) (rest : List Frame) (s t : State), RequestReady 0x02 f rest s → s.store.state ≠ .loading →
     f.payload.length = 5 → s.time.clockSet = false → exec .setClock s = .next t →
     t.time.clockSet = true ∧ t.time.uptime = s.time.uptime ∧ t.time.wall = (word32At f.payload 1).toNat ∧
     (∀ i x e, slotOf t i = some x → x.expiry = some e → e.scale = .wall) ∧
     (∀ h ∈ t.history, h.expiry.scale = .wall) ∧ (∀ r ∈ t.receipts.queue, r.expiry.scale = .wall)) ∧
  (∀ (f : Frame) (rest : List Frame) (s t : State) (r : Receipt), RequestReady 0x02 f rest s → s.store.state ≠ .loading →
     f.payload.length = 5 → exec .setClock s = .next t → r ∈ s.receipts.queue → r.inFlight = true →
     r.expiryReached = true ∨ reached s.time r.expiry = true →
     ∃ x ∈ t.receipts.queue, x = { r with expiry := x.expiry, expiryReached := x.expiryReached } ∧
       (x.expiryReached = true ∨ reached t.time x.expiry = true))

/-- R6, R12, R96, R140, R152, R179, R180: SET-PROFILE replaces the profile with what follows in the step, and refuses
an octet that names no value; SET-TAG replaces the tag. R36, R152, R179: the profile that a SET-PROFILE payload gives.
That an ignored mask bit is no clamping (log 20), and that bit n of the mute-mask octet is class n (log 38), are the
model's readings. -/
def Obligations.SetProfileAndSetTagReplace : Prop :=
  (∀ (f : Frame) (rest : List Frame) (s : State), s.store.state ≠ .loading →
     (RequestReady 0x04 f rest s → f.payload.length = 22 →
       let p := f.payload
       let old := s.settings.profile
       (1 < natAt p 16 ∨ 1 < natAt p 17 → exec .setProfile s = .next (answered f rest [codeBadValue] s)) ∧
       (natAt p 16 ≤ 1 → natAt p 17 ≤ 1 →
         let q := profileOf p
         exec .setProfile s = .next (answered f rest [if profileClamped p then codeClamped else codeOk] { s with
           settings := { s.settings with profile := q }
           modem := { s.modem with
             listenStaged := s.modem.listenStaged || decide (~~~old.muteMask ||| 1 ≠ ~~~q.muteMask ||| 1) }
           history := if q.retention < old.retention then
             s.history.filter fun h => !retentionReached s.time q.retention h else s.history
           keys := if old.checkTime = q.checkTime then s.keys else
             { s.keys with ack := { s.keys.ack with run := 0 }, silence := { s.keys.silence with run := 0 } } }))) ∧
     (RequestReady 0x05 f rest s → f.payload.length = 5 → exec .setTag s = .next (answered f rest [codeOk]
       { s with settings := { s.settings with tag := word32At f.payload 1 } }))) ∧
  (∀ p : List Octet,
     let q := profileOf p
     (q.floor = max 1 (min 63 (natAt p 1)) ∧ q.holdTime = max 5 (min 255 (natAt p 2)) ∧
       q.assemblyLimit = max 10 (min 600 (word16At p 3).toNat) ∧
       q.gatherTimeout = max 30 (min 3600 (word16At p 5).toNat) ∧ q.retention = min 86400 (word32At p 7).toNat ∧
       q.attentionTime = max 4 (min 30 (natAt p 11)) ∧ q.reminderInterval = max 30 (min 900 (word16At p 12).toNat) ∧
       q.reminderCount = min 5 (natAt p 14) ∧ q.chordTime = max 1 (min 10 (natAt p 21))) ∧
     q.wf ∧ q.muteMask.getLsbD 0 = false ∧
     (∀ n, 1 ≤ n → n < 8 → q.muteMask.getLsbD n = (octetAt p 15).getLsbD n) ∧
     (∀ n, n < 13 → q.wakeMask.getLsbD n = (word16At p 18).getLsbD n) ∧
     q.quiet = decide (octetAt p 16 = 1) ∧ (q.policy = .nationwideOnly ↔ octetAt p 17 = 1) ∧
     (∀ c, c ∈ [0, 8, 16, 32, 64] → natAt p 20 ≤ c → q.checkTime ≤ c) ∧
     (natAt p 20 ≤ 64 → natAt p 20 ≤ q.checkTime) ∧ (64 < natAt p 20 → q.checkTime = 64) ∧
     (profileClamped p = false ↔
       (1 ≤ natAt p 1 ∧ natAt p 1 ≤ 63) ∧ (5 ≤ natAt p 2 ∧ natAt p 2 ≤ 255) ∧
       (10 ≤ (word16At p 3).toNat ∧ (word16At p 3).toNat ≤ 600) ∧
       (30 ≤ (word16At p 5).toNat ∧ (word16At p 5).toNat ≤ 3600) ∧ (word32At p 7).toNat ≤ 86400 ∧
       (4 ≤ natAt p 11 ∧ natAt p 11 ≤ 30) ∧ (30 ≤ (word16At p 12).toNat ∧ (word16At p 12).toNat ≤ 900) ∧
       natAt p 14 ≤ 5 ∧ natAt p 20 ∈ [0, 8, 16, 32, 64] ∧ (1 ≤ natAt p 21 ∧ natAt p 21 ≤ 10)))

/-- R139, R140: SET-CADENCE. The first of its own tests that applies refuses it; otherwise the rank's table and both tones
are replaced, a length or a count of 0 being taken as 1. -/
def Obligations.SetCadenceReplacesATable : Prop :=
  ∀ (f : Frame) (rest : List Frame) (s : State) (rank n : Nat), RequestReady 0x06 f rest s → s.store.state ≠ .loading →
    natAt f.payload 1 = rank → natAt f.payload 2 = n → f.payload.length = 7 + 3 * n →
    let p := f.payload
    let legal := ∀ j, j < n → (octetAt p (3 + 3 * j) = 0 ∨ octetAt p (3 + 3 * j) = 1 ∨ octetAt p (3 + 3 * j) = 2) ∧
      (octetAt p (4 + 3 * j) = 0 ∨ octetAt p (4 + 3 * j) = 1)
    let table := (List.range n).map fun j => (⟨if octetAt p (3 + 3 * j) = 0 then .pause
        else if octetAt p (3 + 3 * j) = 1 then .toneA else .toneB,
      decide (octetAt p (4 + 3 * j) = 1), max 1 (natAt p (5 + 3 * j))⟩ : Segment)
    let clamped := (∃ j, j < n ∧ octetAt p (5 + 3 * j) = 0) ∨ ∃ j, j < 4 ∧ octetAt p (3 + 3 * n + j) = 0
    (rank < 1 ∨ 4 < rank ∨ n = 0 ∨ 8 < n ∨ ¬ legal →
      exec .setCadence s = .next (answered f rest [codeBadValue] s)) ∧
    (1 ≤ rank → rank ≤ 4 → 1 ≤ n → n ≤ 8 → legal → ∃ code,
      (clamped → code = codeClamped) ∧ (¬ clamped → code = codeOk) ∧
      exec .setCadence s = .next (answered f rest [code] { s with settings := { s.settings with
        cadences :=
          { rank1 := if rank = 1 then table else s.settings.cadences.rank1
            rank2 := if rank = 2 then table else s.settings.cadences.rank2
            rank3 := if rank = 3 then table else s.settings.cadences.rank3
            rank4 := if rank = 4 then table else s.settings.cadences.rank4 }
        toneA := ⟨max 1 (natAt p (3 + 3 * n)), max 1 (natAt p (4 + 3 * n))⟩
        toneB := ⟨max 1 (natAt p (5 + 3 * n)), max 1 (natAt p (6 + 3 * n))⟩ } }))

/-- R58, R99, R181, R182, R188: the replies to LIST and HISTORY, line by line; neither changes anything. -/
def Obligations.ListAndHistoryReportTheirLines : Prop :=
  ∀ (f : Frame) (rest : List Frame) (s : State), s.store.state ≠ .loading →
    (RequestReady 0x07 f rest s → f.payload.length = 1 →
      let occupied := allSlots.filterMap fun i => (slotOf s i).map fun x => (i, x)
      ∃ lines, exec .list s = .next (answered f rest (codeOk :: octet occupied.length :: lines) s) ∧
        lines.length = 11 * occupied.length ∧
        ∀ n i x, occupied[n]? = some (i, x) → (lines.drop (11 * n)).take 11 =
          octet i.val :: keyOctets x.key ++ [x.revision.setWidth 8, x.cls.setWidth 8, x.state.code,
            octet (x.sheets.countP fun r => decide (r.state = .accepted)), octet x.sheets.length,
            if x.isPartial then 1 else 0, (x.predecessor.map fun j => octet j.val).getD 0xFF]) ∧
    (RequestReady 0x0C f rest s → f.payload.length = 2 →
      let first := natAt f.payload 1
      ∃ lines, exec .history s = .next
          (answered f rest (codeOk :: octet s.history.length :: octetAt f.payload 1 :: lines) s) ∧
        lines.length = 10 * min 24 (s.history.length - first) ∧
        ∀ n h, n < 24 → s.history[first + n]? = some h → (lines.drop (10 * n)).take 10 =
          keyOctets h.key ++ [h.revision.setWidth 8, h.outcome.code] ++ octets32 h.expiry.value ++
            [(if h.expiry.scale = .wall then 1 else 0) ||| (if h.persisted then 2 else 0)])

/-- R33, R181, R188: READ. A FREE slot or an index above 15 is NO_SUCH_SLOT, a section above the sheet count is BAD_VALUE,
the fields of the slot record (section 0) stand at the octets of 11.6, and a sheet's text is sent exactly when the sheet is
ACCEPTED. -/
def Obligations.ReadReportsASlot : Prop :=
  ∀ (f : Frame) (rest : List Frame) (s : State), RequestReady 0x08 f rest s → s.store.state ≠ .loading →
    f.payload.length = 3 →
    let part := natAt f.payload 2
    (16 ≤ natAt f.payload 1 → exec .read s = .next (answered f rest [codeNoSuchSlot] s)) ∧
    ∀ i : SlotIndex, natAt f.payload 1 = i.val →
      (slotOf s i = none → exec .read s = .next (answered f rest [codeNoSuchSlot] s)) ∧
      ∀ x, slotOf s i = some x →
        let header := codeOk :: octet i.val :: keyOctets x.key ++ [x.revision.setWidth 8, octetAt f.payload 2]
        let sheetCode := fun st : SheetState => (match st with
          | .empty => 0 | .combining => 1 | .held => 2 | .accepted => 3 : Octet)
        let yes := fun b : Bool => if b = true then (1 : Octet) else 0
        (x.sheets.length < part → exec .read s = .next (answered f rest [codeBadValue] s)) ∧
        (part = 0 → ∃ record, exec .read s = .next (answered f rest (header ++ record) s) ∧
          let b := octetAt f.payload 0 :: header ++ record
          let mask := word16At b 8
          b.length = 147 ∧
          (mask.getLsbD 0 = x.predecessor.isSome ∧ mask.getLsbD 1 = x.withdrawal.isSome ∧
            mask.getLsbD 2 = x.admission.isSome ∧ mask.getLsbD 3 = x.expiry.isSome ∧
            mask.getLsbD 4 = x.firstPresentation.isSome ∧ mask.getLsbD 5 = x.doneTime.isSome ∧
            mask.getLsbD 6 = x.ack.isSome ∧ mask.getLsbD 7 = x.leadCell.isSome ∧ mask.getLsbD 8 = x.lead.isSome ∧
            ∀ n, 9 ≤ n → mask.getLsbD n = false) ∧
          octetAt b 10 = x.cls.setWidth 8 ∧ octetAt b 11 = octet (rankOfClass x.cls) ∧
          octetAt b 12 = (match x.state with
            | .gathering => 1 | .admitted => 2 | .queued => 3 | .sounding => 4 | .shown => 5 | .pending => 6 | .done => 7) ∧
          octetAt b 13 = octet x.sheets.length ∧ octetAt b 14 = yes x.isPartial ∧ octetAt b 15 = octet x.reminders ∧
          octetAt b 16 = (x.predecessor.map fun j => octet j.val).getD 0 ∧
          octetAt b 17 = (match x.withdrawal with
            | some .rejected => 1 | some .cancelled => 2 | some .expired => 3 | some .superseded => 4
            | some .presented => 0 | none => 0) ∧
          word32At b 18 = BitVec.ofNat 32 x.firstCopy ∧ word32At b 22 = BitVec.ofNat 32 x.lastActivity ∧
          word32At b 26 = BitVec.ofNat 32 (x.admission.getD 0) ∧
          word32At b 30 = BitVec.ofNat 32 ((x.expiry.map (·.value)).getD 0) ∧
          octetAt b 34 = yes (decide (x.expiry.map (·.scale) = some .wall)) ∧
          word32At b 35 = BitVec.ofNat 32 (x.firstPresentation.getD 0) ∧
          word32At b 39 = BitVec.ofNat 32 (x.doneTime.getD 0) ∧
          word32At b 43 = BitVec.ofNat 32 ((x.ack.map (·.uptime)).getD 0) ∧
          octetAt b 47 = (match x.ack.map (·.source) with | some .link => 1 | some .chord => 2 | some .key => 0 | none => 0) ∧
          word16At b 48 = BitVec.ofNat 16 ((x.ack.map (·.delay)).getD 0) ∧ word16At b 50 = x.leadCell.getD 0 ∧
          (x.lead = none → ∀ n, 52 ≤ n → n ≤ 98 → octetAt b n = 0) ∧
          (∀ l, x.lead = some l →
            word16At b 52 = BitVec.ofNat 16 l.validity ∧
            octetAt b 54 = (match l.mode with | .none => 0 | .onPresent => 1 | .onAck => 2) ∧
            octetAt b 55 = yes l.cancel ∧ octetAt b 56 = l.language ∧ octetAt b 57 = octet l.dispersal ∧
            octetAt b 58 = octet l.zones.length ∧
            (∀ j, j < 8 → (b.drop (59 + 3 * j)).take 3 = (l.zones[j]?.map zoneOctets).getD [0, 0, 0]) ∧
            ∀ j, j < 16 → octetAt b (83 + j) = octetAt l.text j) ∧
          ∀ j, j < 12 → (b.drop (99 + 4 * j)).take 4 = (match x.sheets[j]? with
            | none => [0, 0, 0, 0]
            | some r => [sheetCode r.state, octet r.copies, (r.margin.map octet).getD 0xFF, yes r.onHold])) ∧
        (∀ n r b, part = n + 1 → x.sheets[n]? = some r → r.state = .accepted → r.buffer = some b →
          exec .read s = .next (answered f rest (header ++ 3 ::
            (if n = 0 then ((b.toList.map (·.value)).take 46).drop 30 else (b.toList.map (·.value)).take 46)) s)) ∧
        (∀ n r, part = n + 1 → x.sheets[n]? = some r → r.state ≠ .accepted →
          exec .read s = .next (answered f rest (header ++ [sheetCode r.state]) s))

/-- R129: ACK. The slot named, the active slot, or the active slot and every pending slot in order are acknowledged with
source LINK in one step, and the reply counts them. -/
def Obligations.AckRequestAcknowledges : Prop :=
  ∀ (f : Frame) (rest : List Frame) (s : State), RequestReady 0x09 f rest s → s.store.state ≠ .loading →
    f.payload.length = 2 →
    let target := natAt f.payload 1
    let t := withStaging rest s
    (∀ i : SlotIndex, target = i.val →
      (stateAt s i = none → exec .ack s = .next (answered f rest [codeNoSuchSlot, 0] s)) ∧
      (∀ st, stateAt s i = some st → (st = .sounding ∨ st = .shown ∨ st = .pending) →
        exec .ack s = .next (respond f [codeOk, 1] (settle (acknowledge .link i t)))) ∧
      (∀ st, stateAt s i = some st → (st = .gathering ∨ st = .admitted ∨ st = .queued ∨ st = .done) →
        exec .ack s = .next (answered f rest [codeWrongState, 0] s))) ∧
    (16 ≤ target → target ≠ 0xFE → target ≠ 0xFF → exec .ack s = .next (answered f rest [codeNoSuchSlot, 0] s)) ∧
    (target = 0xFE →
      (∀ a, s.pres.active = some a → exec .ack s = .next (respond f [codeOk, 1] (settle (acknowledge .link a t)))) ∧
      (s.pres.active = none → exec .ack s = .next (answered f rest [codeOk, 0] s))) ∧
    (target = 0xFF →
      let l := s.pres.active.toList ++ s.pres.pendingList
      (l ≠ [] → exec .ack s = .next (respond f [codeOk, octet l.length]
        (settle (l.foldl (fun u i => acknowledge .link i u) t)))) ∧
      (l = [] → exec .ack s = .next (answered f rest [codeOk, 0] s)))

/-- R57, R56, R185, R186, R188: RELEASE frees a DONE slot and removes its slot entry, and answers any other slot by its
state; EVENTS returns every entry in set order, in the octets of 11.6, and empties the set. -/
def Obligations.ReleaseAndEventsGiveUpWhatTheyReport : Prop :=
  ∀ (f : Frame) (rest : List Frame) (s : State), s.store.state ≠ .loading →
    (RequestReady 0x0A f rest s → f.payload.length = 2 →
      (16 ≤ natAt f.payload 1 → exec .release s = .next (answered f rest [codeNoSuchSlot] s)) ∧
      ∀ i : SlotIndex, natAt f.payload 1 = i.val →
        (stateAt s i = none → exec .release s = .next (answered f rest [codeNoSuchSlot] s)) ∧
        (stateAt s i = some .done → exec .release s = .next (answered f rest [codeOk]
          ((freeSlot i s).updEvents fun l => l.filter fun e => !e.isOfSlot i))) ∧
        (∀ st, stateAt s i = some st → st ≠ .done →
          exec .release s = .next (answered f rest [codeWrongState] s))) ∧
    (RequestReady 0x0B f rest s → f.payload.length = 1 →
      ∃ lines, exec .events s = .next
          (answered f rest (codeOk :: octet s.events.length :: lines) { s with events := [] }) ∧
        lines.length = 8 * s.events.length ∧
        ∀ n e, s.events[n]? = some e → (lines.drop (8 * n)).take 8 = (match e with
          | .slot i key revision kinds => octet i.val :: keyOctets key ++ [revision.setWidth 8,
              (match slotOf s i with
                | some x => if x.key = key ∧ x.revision = revision then x.state.code else 0
                | none => 0)] ++ octets16 kinds.toNat
          | .device kind count detail =>
            let kindOctet := fun k : ReceiptKind => (match k with | .presented => 0 | .acknowledged => 1 : Octet)
            (match kind with | .receiptSent => 0x89 | .receiptDropped => 0x8A | .storeFailed => 0x8B | .loadDone => 0x8C) ::
              octet count :: (match detail with
                | .entries n => [octet n, 0, 0, 0, 0, 0]
                | .sent key revision k attempts => keyOctets key ++ [revision.setWidth 8, kindOctet k, octet attempts]
                | .dropped key revision k reason => keyOctets key ++ [revision.setWidth 8, kindOctet k,
                    match reason with | .full => 0 | .attempts => 1 | .stale => 2])))

/-- R132, R134, R142: PREVIEW. A rank outside 1 to 4 is refused, an active slot answers BUSY, and otherwise a cycle of the
rank's cadence starts, in place of a running preview. -/
def Obligations.PreviewStartsACycle : Prop :=
  ∀ (f : Frame) (rest : List Frame) (s : State), RequestReady 0x0D f rest s → s.store.state ≠ .loading →
    f.payload.length = 2 →
    let rank := natAt f.payload 1
    (rank < 1 ∨ 4 < rank → exec .preview s = .next (answered f rest [codeBadValue] s)) ∧
    (1 ≤ rank → rank ≤ 4 → s.pres.active ≠ none → exec .preview s = .next (answered f rest [codeBusy] s)) ∧
    (1 ≤ rank → rank ≤ 4 → s.pres.active = none → ∀ first others,
      (if rank = 4 then s.settings.cadences.rank4 else if rank = 3 then s.settings.cadences.rank3
        else if rank = 2 then s.settings.cadences.rank2 else s.settings.cadences.rank1) = first :: others →
      exec .preview s = .next (answered f rest [codeOk] { s with
        pres := { s.pres with preview := some rank }
        cycle := some
          { owner := .preview
            rank := rank
            segments := first :: others
            toneA := s.settings.toneA
            toneB := s.settings.toneB
            attentionTime := s.settings.profile.attentionTime
            index := 0
            counter := first.length
            elapsed := 0
            quiet := s.settings.profile.quiet
            phase := 0 } }))

/-- R16, R59, R114, R137, R147, R156, R174, R183: RESTART clears the table, presentation, attention, keys, receipts, events
and the intake FIFO, and keeps everything else. That the entry order starts afresh from 0 and the frame number is kept,
both counters without a bound, is the model's choice (log 11). -/
def Obligations.RestartClears : Prop :=
  ∀ (f : Frame) (rest : List Frame) (s : State), RequestReady 0x0E f rest s → s.store.state ≠ .loading →
    f.payload.length = 1 → exec .restart s = .next (answered f rest [codeOk] { s with
      slots := Vector.replicate 16 none
      pres := ⟨[], [], none, none, none⟩
      cycle := none
      keys := ⟨⟨false, 0, false⟩, ⟨false, 0, false⟩, none⟩
      receipts := ⟨[], none, none, 0, s.receipts.nextFrame⟩
      events := []
      modem := { s.modem with fifo := [], uplinkStaged := none, listenStaged := true } })

/-! ## The table's timers and the timebase (03, 05, 06) -/

/-- R53, R55, R56, R89: a GATHERING slot at its gathering deadline posts ABANDONED and is freed; an ADMITTED slot at
its assembly limit becomes QUEUED with its partial flag yes; before its deadline neither is touched. R45, R89: a slot
that has reached QUEUED ends its predecessor: one in presentation is withdrawn SUPERSEDED and freed, a DONE one is
freed and its slot entry removed; the predecessor field becomes absent. -/
def Obligations.DeadlinesAndSuccession : Prop :=
  (∀ (s : State) (i : SlotIndex) (x : Slot) (d : Nat), s.lines.resetLow = false → slotOf s i = some x →
     (x.state = .gathering → x.gatherDeadline = some d →
       (d ≤ s.time.uptime → exec (.gatheringTimeout i) s =
         .next (freeSlot i (s.updEvents (mergeSlotPosting i x.key x.revision .abandoned)))) ∧
       (s.time.uptime < d → exec (.gatheringTimeout i) s = .next s)) ∧
     (x.state = .admitted → x.assemblyDeadline = some d →
       (d ≤ s.time.uptime → exec (.assemblyLimit i) s = .next (settle (endPredecessor i (joinQueue i (putSlot i (some
         { x with
           state := .queued
           isPartial := true
           assemblyDeadline := none
           lastActivity := s.time.uptime }) s))))) ∧
       (s.time.uptime < d → exec (.assemblyLimit i) s = .next s))) ∧
  (∀ (s : State) (i p : SlotIndex) (x y : Slot), slotOf s i = some x → slotOf s p = some y → p ≠ i →
     x.predecessor = some p → y.state.assembling = false →
     slotOf (endPredecessor i s) i = some { x with predecessor := none } ∧ slotOf (endPredecessor i s) p = none ∧
     (y.state = .done → (endPredecessor i s).history = s.history ∧
       (endPredecessor i s).events = s.events.filter fun e => !e.isOfSlot p) ∧
     (∀ e, y.state ≠ .done → y.expiry = some e →
       (endPredecessor i s).history = (addHistory ⟨y.key, y.revision, .superseded, e, false⟩ s).history ∧
       (endPredecessor i s).events = mergeSlotPosting p y.key y.revision .withdrawn s.events))

/-- R82 to R85: what the expiry of a slot does, by the slot's state. R86, R117: the expiries reached are taken
together, before presentation acts; after the step no expiry of a slot is reached. The order of the slots is the
model's (log 12), and so is that reaching is tested by the clock as it stands at the command (log 40); that each is taken
once, by its state when its turn comes, is its reading (log 36). -/
def Obligations.SlotExpiriesAct : Prop :=
  (∀ (s : State) (i : SlotIndex) (x : Slot) (e : Expiry), slotOf s i = some x → x.expiry = some e →
     (x.state = .admitted → takeSlotExpiry i s =
       freeSlot i ((addHistory ⟨x.key, x.revision, .expired, e, false⟩ s).updEvents
         (mergeSlotPosting i x.key x.revision .withdrawn))) ∧
     (x.state = .queued ∨ x.state = .sounding ∨ x.state = .shown ∨ x.state = .pending →
       slotOf (takeSlotExpiry i s) i = some { x with
         state := .done
         expiry := none
         withdrawal := some .expired
         doneTime := some s.time.uptime
         lastActivity := s.time.uptime } ∧
       (takeSlotExpiry i s).history = (addHistory ⟨x.key, x.revision, .expired, e, false⟩ s).history ∧
       (takeSlotExpiry i s).events = mergeSlotPosting i x.key x.revision .withdrawn s.events ∧
       (takeSlotExpiry i s).receipts = s.receipts) ∧
     (x.state = .done → takeSlotExpiry i s = freeSlot i (s.updEvents fun l => l.filter fun e => !e.isOfSlot i))) ∧
  (∀ s : State, s.lines.resetLow = false → FieldsOk s →
     ((∀ i, slotReached s i = false) → exec .slotExpiry s = .next s) ∧
     ((∃ i, slotReached s i = true) → exec .slotExpiry s = .next (settle (takeSlotExpiries allSlots s))) ∧
     ∀ t, exec .slotExpiry s = .next t → ∀ i, slotReached t i = false)

/-- R94, R95: an addition to history, by the first case that applies (`placeEntry`). R94 to R97: every slot's ending adds by
`addHistory`: the list is that of `placeEntry` when the entry's retention end is not reached, and when it is, the list in
which room was made, without the entry; a program attempt running for an entry equal to the one added has lost its
subject, which the operation notes (log 14); and nothing else changes. -/
def Obligations.HistoryAddition : Prop :=
  (∀ (e : HistoryEntry) (l : List HistoryEntry), (l.map (·.key)).Nodup → l.length ≤ 64 →
     ((∀ h ∈ l, h.key ≠ e.key) → l.length < 64 → placeEntry e l = l ++ [e]) ∧
     (∀ head tail, (∀ h ∈ l, h.key ≠ e.key) → l = head :: tail → l.length = 64 → placeEntry e l = tail ++ [e]) ∧
     (∀ pre h post, l = pre ++ h :: post → h.key = e.key →
       (h.revision.toNat ≤ e.revision.toNat → placeEntry e l = pre ++ post ++ [e]) ∧
       (e.revision.toNat < h.revision.toNat → placeEntry e l = l))) ∧
  (∀ (e : HistoryEntry) (s : State), (s.history.map (·.key)).Nodup → s.history.length ≤ 64 →
     let added := fun l : List HistoryEntry => { s with
       history := l
       store := { s.store with state := match s.store.state with
         | .busy phase (.program subject n replaced) =>
           .busy phase (.program subject n (if subject = e then true else replaced))
         | st => st } }
     let ended := reached s.time ⟨e.expiry.scale, min (e.expiry.value + s.settings.profile.retention) maxSeconds⟩
     (ended = false → addHistory e s = added (placeEntry e s.history)) ∧
     (ended = true →
       ((∀ h ∈ s.history, h.key ≠ e.key) → s.history.length < 64 → addHistory e s = added s.history) ∧
       (∀ head tail, (∀ h ∈ s.history, h.key ≠ e.key) → s.history = head :: tail → s.history.length = 64 →
         addHistory e s = added tail) ∧
       (∀ pre h post, s.history = pre ++ h :: post → h.key = e.key →
         (h.revision.toNat ≤ e.revision.toNat → addHistory e s = added (pre ++ post)) ∧
         (e.revision.toNat < h.revision.toNat → addHistory e s = added s.history))))

/-- R76, R96, R167, R172: one second is counted, each count stopping at its maximum; the history entries whose
retention end it reaches are removed, and the stale receipts are dropped and a due handoff begun, in the order the
command names. The order of the four within the step (log 4), and of several stale drops (log 37), is the model's.
RETENTION_PRUNING removes the same entries by itself. -/
def Obligations.UptimeSecondCounts : Prop :=
  ∀ s : State, s.lines.resetLow = false →
    let time : Timebase := if s.time.uptime < 4294967295 then
        ⟨s.time.uptime + 1, if s.time.clockSet then min (s.time.wall + 1) 4294967295 else s.time.wall, s.time.clockSet⟩
      else s.time
    let kept := fun (t : Timebase) => s.history.filter fun h =>
      !reached t ⟨h.expiry.scale, min (h.expiry.value + s.settings.profile.retention) maxSeconds⟩
    exec .retentionPruning s = .next { s with history := kept s.time } ∧
    exec (.uptimeSecond .staleFirst) s = .next (beginHandoff (dropStale { s with time := time, history := kept time })) ∧
    exec (.uptimeSecond .handoffFirst) s = .next (dropStale (beginHandoff { s with time := time, history := kept time }))

/-! ## Presentation and attention (07, 08) -/

/-- R117: the presentation decision, by the first line of its table that applies; once is enough. R118 to R121: what
activation, interruption and displacement do to the slots, the cycle and the events. R142: what a cycle is when it
starts. -/
def Obligations.PresentationDecides : Prop :=
  (∀ s : State, PresWf s →
     (s.pres.queue = [] → presentationDecision s = s) ∧
     ∀ h l, s.pres.queue = h :: l →
       (s.pres.active = none → presentationDecision s = activate h s) ∧
       ∀ a, s.pres.active = some a →
         (stateAt s a = some .sounding → rankAt s a < rankAt s h →
           presentationDecision s = activate h (interrupt a s)) ∧
         (stateAt s a = some .shown → rankAt s a ≤ rankAt s h → presentationDecision s = activate h (displace a s)) ∧
         (stateAt s a = some .sounding → rankAt s h ≤ rankAt s a → presentationDecision s = s) ∧
         (stateAt s a = some .shown → rankAt s h < rankAt s a → presentationDecision s = s)) ∧
  (∀ (s : State) (h : SlotIndex) (x : Slot), slotOf s h = some x →
     let now := s.time.uptime
     let tableOf := fun (s : State) (rank : Nat) => if rank = 4 then s.settings.cadences.rank4
       else if rank = 3 then s.settings.cadences.rank3
       else if rank = 2 then s.settings.cadences.rank2 else s.settings.cadences.rank1
     let freshCycle := fun (s : State) (owner : Owner) (rank : Nat) (first : Segment) (others : List Segment) =>
       ({ owner := owner
          rank := rank
          segments := first :: others
          toneA := s.settings.toneA
          toneB := s.settings.toneB
          attentionTime := s.settings.profile.attentionTime
          index := 0
          counter := first.length
          elapsed := 0
          quiet := s.settings.profile.quiet
          phase := 0 } : Cycle)
     (∀ owner rank first others, tableOf s rank = first :: others →
       startCycle owner rank s = { s with cycle := some (freshCycle s owner rank first others) }) ∧
     (slotOf (activate h s) h = some { x with
         state := .sounding
         lastActivity := now
         firstPresentation := some (x.firstPresentation.getD now) } ∧
       (activate h s).pres.active = some h ∧ (activate h s).pres.queue = s.pres.queue.erase h ∧
       (activate h s).pres.preview = none ∧
       (∀ first others, tableOf s (rankOfClass x.cls) = first :: others →
         (activate h s).cycle = some (freshCycle s (.slot h) (rankOfClass x.cls) first others)) ∧
       ((x.firstPresentation ≠ none ∨ x.lead.map (·.mode) ≠ some .onPresent) →
         (activate h s).receipts = s.receipts ∧
         (activate h s).events = mergeSlotPosting h x.key x.revision .presenting s.events) ∧
       (x.firstPresentation = none → x.lead.map (·.mode) = some .onPresent →
         let u := requestReceipt x .presented 0 (s.updEvents (mergeSlotPosting h x.key x.revision .presenting))
         (activate h s).receipts = u.receipts ∧ (activate h s).events = u.events)) ∧
     (slotOf (interrupt h s) h = some { x with state := .queued, lastActivity := now } ∧
       (interrupt h s).cycle = none ∧ (interrupt h s).pres.active = none ∧ h ∈ (interrupt h s).pres.queue ∧
       (interrupt h s).events = s.events) ∧
     (slotOf (displace h s) h = some { x with state := .pending, lastActivity := now } ∧
       (displace h s).pres = { s.pres with
         reminder := none
         active := none
         pendingList := s.pres.pendingList ++ [h] } ∧
       (displace h s).events = mergeSlotPosting h x.key x.revision .pending s.events))

/-- R124: the reminder timer of the SHOWN active slot: a reminder while any is left, and PENDING after the last. R123,
R133, R143, R144, R146: at a segment boundary the cycle completes when elapsed has reached the attention time, and is
taken by presentation for its owner; otherwise the next segment begins with the quiet setting as it stands. R149: while
the segment counter is not 0 there is no boundary, and the command, which may then be taken, changes nothing (log 3). -/
def Obligations.RemindersAndCompletions : Prop :=
  (∀ (s : State) (i : SlotIndex) (x : Slot) (d : Nat), s.lines.resetLow = false → s.pres.active = some i →
     slotOf s i = some x → x.state = .shown → s.pres.reminder = some d →
     (s.time.uptime < d → exec .reminderExpiry s = .next s) ∧
     (d ≤ s.time.uptime → x.reminders < s.settings.profile.reminderCount → exec .reminderExpiry s = .next (settle
       ((startCycle (.slot i) (rankOfClass x.cls) (putSlot i (some { x with
         state := .sounding
         lastActivity := s.time.uptime
         reminders := x.reminders + 1 }) { s with pres := { s.pres with reminder := none } })).updEvents
           (mergeSlotPosting i x.key x.revision .presenting)))) ∧
     (d ≤ s.time.uptime → s.settings.profile.reminderCount ≤ x.reminders → exec .reminderExpiry s = .next (settle
       ((putSlot i (some { x with state := .pending, lastActivity := s.time.uptime }) { s with pres := { s.pres with
         reminder := none
         active := none
         pendingList := s.pres.pendingList ++ [i] } }).updEvents (mergeSlotPosting i x.key x.revision .pending))))) ∧
  (∀ (s : State) (c : Cycle), s.lines.resetLow = false → s.cycle = some c →
     (c.counter ≠ 0 → exec .segmentBoundary s = .next s) ∧
     (c.counter = 0 → c.elapsed < c.attentionTime * 100 → ∀ g,
       c.segments[if c.index + 1 < c.segments.length then c.index + 1 else 0]? = some g →
       exec .segmentBoundary s = .next { s with cycle := some { c with
         index := if c.index + 1 < c.segments.length then c.index + 1 else 0
         counter := g.length
         quiet := s.settings.profile.quiet
         phase := 0 } }) ∧
     (c.counter = 0 → c.attentionTime * 100 ≤ c.elapsed →
       (c.owner = .preview → exec .segmentBoundary s = .next { s with
         cycle := none
         pres := { s.pres with preview := none } }) ∧
       ∀ i x, c.owner = .slot i → s.pres.active = some i → slotOf s i = some x → x.state = .sounding →
         exec .segmentBoundary s = .next (settle ((putSlot i (some { x with
           state := .shown
           lastActivity := s.time.uptime }) { s with
             cycle := none
             pres := { s.pres with reminder := some (min (s.time.uptime + s.settings.profile.reminderInterval) maxSeconds) }
             }).updEvents (mergeSlotPosting i x.key x.revision .shown)))))

/-- R126: what an acknowledgement leaves of the slot, presentation, attention, history, events and receipts. -/
def Obligations.AcknowledgementEndsTheSlot : Prop :=
  ∀ (s : State) (i : SlotIndex) (x : Slot) (e : Expiry) (p : Nat) (source : AckSource), slotOf s i = some x →
    x.state = .sounding ∨ x.state = .shown ∨ x.state = .pending → x.expiry = some e → x.firstPresentation = some p →
    let now := s.time.uptime
    let delay := min (now - p) 65535
    let t := acknowledge source i s
    slotOf t i = some { x with
      state := .done
      doneTime := some now
      lastActivity := now
      ack := some ⟨now, source, delay⟩ } ∧
    t.history = (addHistory ⟨x.key, x.revision, .presented, e, false⟩ s).history ∧
    (x.state = .sounding → t.cycle = none ∧ t.pres = { s.pres with active := none }) ∧
    (x.state = .shown → t.cycle = s.cycle ∧ t.pres = { s.pres with active := none, reminder := none }) ∧
    (x.state = .pending → t.cycle = s.cycle ∧ t.pres = { s.pres with pendingList := s.pres.pendingList.erase i }) ∧
    (x.lead.map (·.mode) ≠ some .onAck → t.receipts = s.receipts ∧
      t.events = mergeSlotPosting i x.key x.revision .acknowledged s.events) ∧
    (x.lead.map (·.mode) = some .onAck →
      let u := requestReceipt x .acknowledged delay (s.updEvents (mergeSlotPosting i x.key x.revision .acknowledged))
      t.receipts = u.receipts ∧ t.events = u.events)

/-- R141, R145, R146, R160: the levels of TONE and VIB. TONE's level at the boundary itself is the model's (log 2).
R161, R184, R185: EVT is high exactly while a slot entry holds PRESENTING or a kind of the wake mask, or a device
entry is of a kind of the wake mask. -/
def Obligations.OutputLinesFollowTheState : Prop :=
  (∀ s : State, s.lines.resetLow = false →
     (s.cycle = none → s.tone = false ∧ s.vib = false) ∧
     ∀ c g, s.cycle = some c → c.segments[c.index]? = some g →
       s.vib = g.vibrate ∧ (g.kind = .pause → s.tone = false) ∧ (c.quiet = true → c.rank ≤ 3 → s.tone = false) ∧
       (c.counter ≠ 0 → c.quiet = false ∨ 4 ≤ c.rank →
         (g.kind = .toneA → (s.tone = true ↔ c.phase % (c.toneA.high + c.toneA.low) < c.toneA.high)) ∧
         (g.kind = .toneB → (s.tone = true ↔ c.phase % (c.toneB.high + c.toneB.low) < c.toneB.high)))) ∧
  (∀ s : State, s.lines.resetLow = false →
     (s.evt = true ↔ ∃ e ∈ s.events, match e with
       | .slot _ _ _ kinds => kinds.getLsbD 1 = true ∨
           ∃ n, n < 13 ∧ kinds.getLsbD n = true ∧ s.settings.profile.wakeMask.getLsbD n = true
       | .device kind _ _ => s.settings.profile.wakeMask.getLsbD (match kind with
           | .receiptSent => 9 | .receiptDropped => 10 | .storeFailed => 11 | .loadDone => 12) = true))

/-! ## Keys (09) -/

/-- R151, R153, R154: a sample moves both run counts and a running chord timer; a press recognition leaves the filter
PRESSED, not consumed, and starts the chord timer when it leaves both so. A run stands at 64, and a recognition is a command
of its own (log 17), and a chord timer at its chord time stands there (log 39): the model's choices. -/
def Obligations.KeySamplesAndPresses : Prop :=
  ∀ (s : State), s.lines.resetLow = false →
    (∀ ackLow silenceLow,
      let sampled := fun (low : Bool) (f : Filter) =>
        { f with run := if low = f.pressed then 0 else min (f.run + 1) 64 }
      exec (.keySample ackLow silenceLow) s = .next { s with keys :=
        { ack := sampled ackLow s.keys.ack
          silence := sampled silenceLow s.keys.silence
          chord := s.keys.chord.map fun c => { c with elapsed := min (c.elapsed + 1) (c.chordTime * 1000) } } }) ∧
    (∀ key : KeyLine,
      let f := match key with | .ack => s.keys.ack | .silence => s.keys.silence
      let other := match key with | .ack => s.keys.silence | .silence => s.keys.ack
      let pressed : Filter := ⟨true, 0, false⟩
      (f.pressed = false → 1 ≤ f.run → s.settings.profile.checkTime ≤ f.run →
        exec (.pressRecognition key) s = .next { s with keys :=
          { ack := match key with | .ack => pressed | .silence => s.keys.ack
            silence := match key with | .ack => s.keys.silence | .silence => pressed
            chord := if other.pressed = true ∧ other.consumed = false then some ⟨0, s.settings.profile.chordTime⟩
              else s.keys.chord } }) ∧
      (f.pressed = true ∨ f.run = 0 ∨ f.run < s.settings.profile.checkTime →
        exec (.pressRecognition key) s = .next s))

/-- R128, R131, R153, R155: a release recognition that is due stops the chord timer, delivers nothing for a consumed press, and
delivers the key's action for any other. R130, R154: the chord fires when the elapsed count reaches the chord time:
the timer stops, both presses are consumed, a running preview stops, and the active slot and every pending slot are
acknowledged in one step. A release recognition is a command of its own, due from the sample that reaches the check time
on (log 17), and so is the firing of the chord, due from the sample that reaches the chord time on (log 39): the model's
choices. -/
def Obligations.KeyReleasesAndTheChord : Prop :=
  (∀ (s : State) (key : KeyLine), s.lines.resetLow = false →
     let f := match key with | .ack => s.keys.ack | .silence => s.keys.silence
     let released : Filter := ⟨false, 0, false⟩
     let t : State := { s with keys :=
       { ack := match key with | .ack => released | .silence => s.keys.ack
         silence := match key with | .ack => s.keys.silence | .silence => released
         chord := none } }
     let quieted : State := { t with cycle := none, pres := { t.pres with preview := none } }
     f.pressed = true → 1 ≤ f.run → s.settings.profile.checkTime ≤ f.run →
     (f.consumed = true → exec (.releaseRecognition key) s = .next t) ∧
     (f.consumed = false →
       (∀ a, s.pres.active = some a →
         (key = .ack → exec (.releaseRecognition key) s = .next (settle (acknowledge .key a t))) ∧
         (∀ x, key = .silence → slotOf s a = some x → x.state = .sounding →
           exec (.releaseRecognition key) s = .next (settle ((putSlot a (some { x with
             state := .shown
             lastActivity := s.time.uptime }) { t with
               cycle := none
               pres := { s.pres with
                 reminder := some (min (s.time.uptime + s.settings.profile.reminderInterval) maxSeconds) } }).updEvents
                   (mergeSlotPosting a x.key x.revision .shown)))) ∧
         (key = .silence → stateAt s a = some .shown → exec (.releaseRecognition key) s = .next t)) ∧
       (∀ a l, key = .ack → s.pres.active = none → s.pres.pendingList = a :: l →
         exec (.releaseRecognition key) s = .next (settle (acknowledge .key a t))) ∧
       (s.pres.active = none → (key = .ack → s.pres.pendingList = []) →
         (s.pres.preview ≠ none → exec (.releaseRecognition key) s = .next quieted) ∧
         (s.pres.preview = none → exec (.releaseRecognition key) s = .next t)))) ∧
  (∀ (s : State) (c : ChordTimer), s.lines.resetLow = false → s.keys.chord = some c →
     let t : State := { s with keys :=
       { ack := { s.keys.ack with consumed := true }
         silence := { s.keys.silence with consumed := true }
         chord := none } }
     let u : State := if s.pres.preview = none then t else
       { t with cycle := none, pres := { t.pres with preview := none } }
     let l := s.pres.active.toList ++ s.pres.pendingList
     (c.elapsed < c.chordTime * 1000 → exec .chordFires s = .next s) ∧
     (c.chordTime * 1000 ≤ c.elapsed →
       (l = [] → exec .chordFires s = .next u) ∧
       (l ≠ [] → exec .chordFires s = .next (settle (l.foldl (fun v i => acknowledge .chord i v) u)))))

/-! ## The store and the lines (06, 09) -/

/-- R15, R59, R62, R76, R93, R101, R137 to R139, R156, R157, R174, R176, R179, R180, R183: the two RESET commands. The
journal, the level of SUPPLY_OK and the model's own fields are kept; that the blocks stand so already while RESET is
low is the model's (log 21), and so are the host-link receiver waiting (log 31) and both counters of the receipts
starting afresh from 0 (log 11). R100, R113: an operation stopped part way leaves a position it was programming with
no bit set that was clear and no bit cleared that it was not to clear, and an erase with no bit cleared; other
positions are untouched. Which of its bits changed is a free value (log 8). -/
def Obligations.ResetCommandsAndStops : Prop :=
  (∀ s : State,
     let cleared := fun (low : Bool) (u : State) => { State.reset with
       lines := ⟨low, s.lines.supplyOk⟩
       store := ⟨u.store.journal, .loading, 0, 0⟩
       draws := u.draws
       pending := s.pending }
     (s.lines.resetLow = true →
       exec .resetRelease s = .next (cleared false s) ∧ exec .hardwareReset s = .next s) ∧
     (s.lines.resetLow = false → exec .resetRelease s = .next s ∧
       ((∀ phase op, s.store.state ≠ .busy phase op) → exec .hardwareReset s = .next (cleared true s)) ∧
       ∀ phase op, s.store.state = .busy phase op →
         exec .hardwareReset s = .next (cleared true (stopOperation op s)))) ∧
  (∀ (s : State) (p : Fin 128),
     (∀ e n replaced, s.store.writePos = p.val →
       let w := (stopOperation (.program e n replaced) s).store.journal[p]
       w &&& s.store.journal[p] = w ∧ (s.store.journal[p] &&& recordOf e) &&& w = s.store.journal[p] &&& recordOf e) ∧
     (∀ op, op ≠ .erase → (∀ e n replaced, op = .program e n replaced → s.store.writePos ≠ p.val) → (op = .void → s.store.writePos ≠ p.val) →
       (∀ q, op = .prefill q → q ≠ p.val) → (stopOperation op s).store.journal[p] = s.store.journal[p]) ∧
     (stopOperation .erase s).store.journal[p] &&& s.store.journal[p] = s.store.journal[p])

/-- R103, R12: LOAD_DONE. The WRITTEN records are replayed in position order, the write position follows the highest
position that is not ERASED, LOAD_DONE is posted with the number of entries, a LISTEN SET is staged, and the store is
IDLE. R100: a record gives its entry back, with its expiry at the last second of its sixteen, and reads WRITTEN. The
arrangement of the fields in a record is the model's (log 10). -/
def Obligations.ReloadRebuildsHistory : Prop :=
  (∀ s : State, s.lines.resetLow = false → s.store.state = .loading →
     let written := s.store.journal.toList.filter fun w =>
       w != BitVec.allOnes 64 && (w.extractLsb' 0 8 == checkOctet (w.extractLsb' 8 56))
     let history := written.foldl (fun l w => placeEntry (entryOfRecord w) l) []
     ∃ next, exec .loadDone s = .next { s with
         history := history
         store := { s.store with state := .idle, writePos := next }
         events := mergeDevicePosting .loadDone (.entries history.length) s.events
         modem := { s.modem with listenStaged := true } } ∧
       next ≤ 128 ∧ (∀ p : Fin 128, next ≤ p.val → s.store.journal[p] = BitVec.allOnes 64) ∧
       ∀ p : Fin 128, next = p.val + 1 → s.store.journal[p] ≠ BitVec.allOnes 64) ∧
  (∀ h : HistoryEntry, h.outcome ≠ .rejected → h.expiry.scale = .wall → h.expiry.value ≤ 4294967295 →
     readsWritten (recordOf h) = true ∧ readsErased (recordOf h) = false ∧
     entryOfRecord (recordOf h) = { h with
       expiry := ⟨.wall, 16 * (h.expiry.value / 16) + 15⟩
       persisted := true } ∧
     readsWritten 0 = false ∧ readsWritten (BitVec.allOnes 64) = false)

/-- R104, R112: the IDLE store selects the oldest eligible entry whose persisted flag is no. -/
def Obligations.IdleStoreSelects : Prop :=
  ∀ (s : State) (pre post : List HistoryEntry) (e : HistoryEntry), s.store.state = .idle →
    s.history = pre ++ e :: post → e.outcome ≠ .rejected → e.expiry.scale = .wall → e.persisted = false →
    (∀ h ∈ pre, h.outcome = .rejected ∨ h.expiry.scale = .uptime ∨ h.persisted = true) →
    (s.lines.supplyOk = false → storeSelect s = { s with store := { s.store with state := .deferred none none } }) ∧
    (s.lines.supplyOk = true → s.store.writePos < 128 →
      storeSelect s = { s with store := { s.store with state := .busy none (.program e 1 false) } }) ∧
    (s.lines.supplyOk = true → 128 ≤ s.store.writePos →
      (storeSelect s).history = s.history.map (fun h => { h with persisted := false }) ∧
      (storeSelect s).store.eraseFails = 0 ∧
      ((∃ p : Fin 128, s.store.journal[p] ≠ 0) → ∃ p : Fin 128, s.store.journal[p] ≠ 0 ∧
        (∀ q : Fin 128, q < p → s.store.journal[q] = 0) ∧
        (storeSelect s).store.state = .busy (some .prefill) (.prefill p.val)) ∧
      ((∀ p : Fin 128, s.store.journal[p] = 0) → (storeSelect s).store.state = .busy (some .erasing) .erase))

/-- R105, R106, R110: a program attempt and a void. Success marks the entry persisted, unless its subject has left history
and an equal entry stands there (R97), and goes on; a failed attempt is made again up to the eighth, which leads to a
void; a void clears the position and goes on. In REWRITING, position 128 with an entry waiting begins a new compaction.
Which bits took the program is an operand (log 9); that the subject is told apart by its value and a mark is the model's
(log 14). R108: a prefill program clears its position, and PREFILL goes on with the next position that is not all zeros,
or ERASING begins. R109 to R111: an erase attempt. Success puts the write position to 0 and REWRITING begins with the
oldest entry waiting, or compaction is complete; a failure is followed by the next attempt, and the fifth by FAILED and
STORE_FAILED. Which bits did not erase is an operand (log 9). -/
def Obligations.StoreOperationsEnd : Prop :=
  (∀ (s : State) (phase : Option Phase) (p : Nat), s.lines.resetLow = false → s.store.writePos = p → p < 128 →
     s.lines.supplyOk = true →
     (∀ e n replaced unset, s.store.state = .busy phase (.program e n replaced) →
       let w := positionOf s.store.journal p &&& (recordOf e ||| unset)
       let t : State := { s with store := { s.store with journal := setPosition p w s.store.journal } }
       (w = recordOf e → exec (.programAttempt unset) s = .next (positionDone phase { t with
         history := if replaced then s.history else
           s.history.map fun h => if h = e then { h with persisted := true } else h })) ∧
       (w ≠ recordOf e → n < 8 → exec (.programAttempt unset) s =
         .next { t with store := { t.store with state := .busy phase (.program e (n + 1) replaced) } }) ∧
       (w ≠ recordOf e → 8 ≤ n → exec (.programAttempt unset) s =
         .next { t with store := { t.store with state := .busy phase .void } })) ∧
     (s.store.state = .busy phase .void → exec .void s = .next (positionDone phase
       { s with store := { s.store with journal := setPosition p 0 s.store.journal } })) ∧
     positionDone none s = storeSelect { s with store := { s.store with state := .idle, writePos := p + 1 } } ∧
     ((∀ h ∈ s.history, h.waiting = false) → positionDone (some .rewriting) s =
       { s with store := { s.store with state := .idle, writePos := p + 1 } }) ∧
     ∀ pre e post, s.history = pre ++ e :: post → e.waiting = true → (∀ h ∈ pre, h.waiting = false) →
       (p + 1 < 128 → positionDone (some .rewriting) s =
         { s with store := { s.store with state := .busy (some .rewriting) (.program e 1 false), writePos := p + 1 } }) ∧
       (p + 1 = 128 →
         let t : State := { s with
           history := s.history.map fun h => { h with persisted := false }
           store := { s.store with writePos := 128, eraseFails := 0 } }
         (∀ q : Fin 128, s.store.journal[q] ≠ 0 → (∀ r : Fin 128, r < q → s.store.journal[r] = 0) →
           positionDone (some .rewriting) s =
             { t with store := { t.store with state := .busy (some .prefill) (.prefill q.val) } }) ∧
         ((∀ q : Fin 128, s.store.journal[q] = 0) → positionDone (some .rewriting) s =
           { t with store := { t.store with state := .busy (some .erasing) .erase } }))) ∧
  (∀ (s : State) (phase : Option Phase) (p : Fin 128), s.lines.resetLow = false → s.lines.supplyOk = true →
     s.store.state = .busy phase (.prefill p.val) →
     let t : State := { s with store := { s.store with journal := s.store.journal.set p 0 } }
     (∀ q : Fin 128, p < q → s.store.journal[q] ≠ 0 → (∀ r : Fin 128, p < r → r < q → s.store.journal[r] = 0) →
       exec .prefillProgram s =
         .next { t with store := { t.store with state := .busy (some .prefill) (.prefill q.val) } }) ∧
     ((∀ q : Fin 128, p < q → s.store.journal[q] = 0) → exec .prefillProgram s =
       .next { t with store := { t.store with state := .busy (some .erasing) .erase } })) ∧
  (∀ (s : State) (phase : Option Phase) (unerased : List (Nat × BitVec 64)), s.lines.resetLow = false →
     s.lines.supplyOk = true → s.store.state = .busy phase .erase →
     ∃ v : Vector (BitVec 64) 128,
       (∀ p : Fin 128, v[p] = s.store.journal[p] |||
         ~~~(((unerased.find? fun c => decide (c.1 = p.val)).map (·.2)).getD 0)) ∧
       ((∀ p : Fin 128, v[p] = BitVec.allOnes 64) →
         let t : State := { s with store := { s.store with journal := v, writePos := 0 } }
         ((∀ h ∈ s.history, h.waiting = false) → exec (.eraseAttempt unerased) s =
           .next { t with store := { t.store with state := .idle } }) ∧
         ∀ pre e post, s.history = pre ++ e :: post → e.waiting = true → (∀ h ∈ pre, h.waiting = false) →
           exec (.eraseAttempt unerased) s =
             .next { t with store := { t.store with state := .busy (some .rewriting) (.program e 1 false) } }) ∧
       ((∃ p : Fin 128, v[p] ≠ BitVec.allOnes 64) →
         let t : State := { s with store := { s.store with journal := v, eraseFails := s.store.eraseFails + 1 } }
         (s.store.eraseFails < 4 → exec (.eraseAttempt unerased) s =
           .next { t with store := { t.store with state := .busy (some .erasing) .erase } }) ∧
         (4 ≤ s.store.eraseFails → exec (.eraseAttempt unerased) s = .next { t with
           store := { t.store with state := .failed }
           events := mergeDevicePosting .storeFailed (.entries (s.history.countP HistoryEntry.waiting)) s.events })))

/-- R112, R159: a fall of SUPPLY_OK abandons a running operation, an erase attempt counting as failed; its return resumes
by the table of R112. A store with no operation keeps its state. -/
def Obligations.SupplyLineDefersAndResumes : Prop :=
  ∀ s : State, s.lines.resetLow = false →
    let fallen : State := { s with lines := { s.lines with supplyOk := false } }
    let risen : State := { s with lines := { s.lines with supplyOk := true } }
    let entering := fun (t : State) (st : StoreState) => { t with store := { t.store with state := st } }
    (s.lines.supplyOk = true →
      ((∀ phase op, s.store.state ≠ .busy phase op) → exec .supplyOkFall s = .next fallen) ∧
      (∀ phase op, op ≠ .erase → s.store.state = .busy phase op →
        exec .supplyOkFall s = .next (entering (stopOperation op fallen) (.deferred phase (some op)))) ∧
      (∀ phase, s.store.state = .busy phase .erase → s.store.eraseFails < 4 → exec .supplyOkFall s = .next
        (entering ((stopOperation .erase fallen).updStore fun t => { t with eraseFails := t.eraseFails + 1 })
          (.deferred (some .erasing) (some .erase)))) ∧
      (∀ phase, s.store.state = .busy phase .erase → 4 ≤ s.store.eraseFails → exec .supplyOkFall s = .next
        (entering (((stopOperation .erase fallen).updStore fun t => { t with eraseFails := t.eraseFails + 1 }).updEvents
          (mergeDevicePosting .storeFailed (.entries (s.history.countP HistoryEntry.waiting)))) .failed)) ∧
      exec .supplyOkRise s = .next s) ∧
    (s.lines.supplyOk = false → exec .supplyOkFall s = .next s ∧
      (s.store.state = .loading ∨ s.store.state = .idle ∨ s.store.state = .failed →
        exec .supplyOkRise s = .next risen) ∧
      (∀ phase, s.store.state = .deferred phase none → exec .supplyOkRise s = .next (storeSelect (entering risen .idle))) ∧
      (∀ phase e n replaced, s.store.state = .deferred phase (some (.program e n replaced)) →
        exec .supplyOkRise s = .next (entering risen (.busy phase .void))) ∧
      (∀ phase op, (op = .void ∨ op = .erase ∨ ∃ p, op = .prefill p) → s.store.state = .deferred phase (some op) →
        exec .supplyOkRise s = .next (entering risen (.busy phase op))))
end

