-- ==== Sys2Proof/Laws/State.lean ====
section
/-! SUPPORT. What the update of one block does to each block of the state. -/

namespace Sys2Proof.Machine

-- Checked one declaration at a time, so that the package as one text keeps within its memory limit.
set_option Elab.async false

/-! ## lines -/

section
variable (s : State) (f : Lines → Lines)

@[simp] theorem State.updLines_lines : (s.updLines f).lines = f s.lines := rfl
@[simp] theorem State.updLines_modem : (s.updLines f).modem = s.modem := rfl
@[simp] theorem State.updLines_slots : (s.updLines f).slots = s.slots := rfl
@[simp] theorem State.updLines_location : (s.updLines f).location = s.location := rfl
@[simp] theorem State.updLines_time : (s.updLines f).time = s.time := rfl
@[simp] theorem State.updLines_history : (s.updLines f).history = s.history := rfl
@[simp] theorem State.updLines_store : (s.updLines f).store = s.store := rfl
@[simp] theorem State.updLines_pres : (s.updLines f).pres = s.pres := rfl
@[simp] theorem State.updLines_cycle : (s.updLines f).cycle = s.cycle := rfl
@[simp] theorem State.updLines_keys : (s.updLines f).keys = s.keys := rfl
@[simp] theorem State.updLines_receipts : (s.updLines f).receipts = s.receipts := rfl
@[simp] theorem State.updLines_settings : (s.updLines f).settings = s.settings := rfl
@[simp] theorem State.updLines_host : (s.updLines f).host = s.host := rfl
@[simp] theorem State.updLines_events : (s.updLines f).events = s.events := rfl
@[simp] theorem State.updLines_draws : (s.updLines f).draws = s.draws := rfl
@[simp] theorem State.updLines_pending : (s.updLines f).pending = s.pending := rfl

end

/-! ## modem -/

section
variable (s : State) (f : ModemPort → ModemPort)

@[simp] theorem State.updModem_lines : (s.updModem f).lines = s.lines := rfl
@[simp] theorem State.updModem_modem : (s.updModem f).modem = f s.modem := rfl
@[simp] theorem State.updModem_slots : (s.updModem f).slots = s.slots := rfl
@[simp] theorem State.updModem_location : (s.updModem f).location = s.location := rfl
@[simp] theorem State.updModem_time : (s.updModem f).time = s.time := rfl
@[simp] theorem State.updModem_history : (s.updModem f).history = s.history := rfl
@[simp] theorem State.updModem_store : (s.updModem f).store = s.store := rfl
@[simp] theorem State.updModem_pres : (s.updModem f).pres = s.pres := rfl
@[simp] theorem State.updModem_cycle : (s.updModem f).cycle = s.cycle := rfl
@[simp] theorem State.updModem_keys : (s.updModem f).keys = s.keys := rfl
@[simp] theorem State.updModem_receipts : (s.updModem f).receipts = s.receipts := rfl
@[simp] theorem State.updModem_settings : (s.updModem f).settings = s.settings := rfl
@[simp] theorem State.updModem_host : (s.updModem f).host = s.host := rfl
@[simp] theorem State.updModem_events : (s.updModem f).events = s.events := rfl
@[simp] theorem State.updModem_draws : (s.updModem f).draws = s.draws := rfl
@[simp] theorem State.updModem_pending : (s.updModem f).pending = s.pending := rfl

end

/-! ## slots -/

section
variable (s : State) (f : Vector (Option Slot) 16 → Vector (Option Slot) 16)

@[simp] theorem State.updSlots_lines : (s.updSlots f).lines = s.lines := rfl
@[simp] theorem State.updSlots_modem : (s.updSlots f).modem = s.modem := rfl
@[simp] theorem State.updSlots_slots : (s.updSlots f).slots = f s.slots := rfl
@[simp] theorem State.updSlots_location : (s.updSlots f).location = s.location := rfl
@[simp] theorem State.updSlots_time : (s.updSlots f).time = s.time := rfl
@[simp] theorem State.updSlots_history : (s.updSlots f).history = s.history := rfl
@[simp] theorem State.updSlots_store : (s.updSlots f).store = s.store := rfl
@[simp] theorem State.updSlots_pres : (s.updSlots f).pres = s.pres := rfl
@[simp] theorem State.updSlots_cycle : (s.updSlots f).cycle = s.cycle := rfl
@[simp] theorem State.updSlots_keys : (s.updSlots f).keys = s.keys := rfl
@[simp] theorem State.updSlots_receipts : (s.updSlots f).receipts = s.receipts := rfl
@[simp] theorem State.updSlots_settings : (s.updSlots f).settings = s.settings := rfl
@[simp] theorem State.updSlots_host : (s.updSlots f).host = s.host := rfl
@[simp] theorem State.updSlots_events : (s.updSlots f).events = s.events := rfl
@[simp] theorem State.updSlots_draws : (s.updSlots f).draws = s.draws := rfl
@[simp] theorem State.updSlots_pending : (s.updSlots f).pending = s.pending := rfl

end

/-! ## location -/

section
variable (s : State) (f : Location → Location)

@[simp] theorem State.updLocation_lines : (s.updLocation f).lines = s.lines := rfl
@[simp] theorem State.updLocation_modem : (s.updLocation f).modem = s.modem := rfl
@[simp] theorem State.updLocation_slots : (s.updLocation f).slots = s.slots := rfl
@[simp] theorem State.updLocation_location : (s.updLocation f).location = f s.location := rfl
@[simp] theorem State.updLocation_time : (s.updLocation f).time = s.time := rfl
@[simp] theorem State.updLocation_history : (s.updLocation f).history = s.history := rfl
@[simp] theorem State.updLocation_store : (s.updLocation f).store = s.store := rfl
@[simp] theorem State.updLocation_pres : (s.updLocation f).pres = s.pres := rfl
@[simp] theorem State.updLocation_cycle : (s.updLocation f).cycle = s.cycle := rfl
@[simp] theorem State.updLocation_keys : (s.updLocation f).keys = s.keys := rfl
@[simp] theorem State.updLocation_receipts : (s.updLocation f).receipts = s.receipts := rfl
@[simp] theorem State.updLocation_settings : (s.updLocation f).settings = s.settings := rfl
@[simp] theorem State.updLocation_host : (s.updLocation f).host = s.host := rfl
@[simp] theorem State.updLocation_events : (s.updLocation f).events = s.events := rfl
@[simp] theorem State.updLocation_draws : (s.updLocation f).draws = s.draws := rfl
@[simp] theorem State.updLocation_pending : (s.updLocation f).pending = s.pending := rfl

end

/-! ## time -/

section
variable (s : State) (f : Timebase → Timebase)

@[simp] theorem State.updTime_lines : (s.updTime f).lines = s.lines := rfl
@[simp] theorem State.updTime_modem : (s.updTime f).modem = s.modem := rfl
@[simp] theorem State.updTime_slots : (s.updTime f).slots = s.slots := rfl
@[simp] theorem State.updTime_location : (s.updTime f).location = s.location := rfl
@[simp] theorem State.updTime_time : (s.updTime f).time = f s.time := rfl
@[simp] theorem State.updTime_history : (s.updTime f).history = s.history := rfl
@[simp] theorem State.updTime_store : (s.updTime f).store = s.store := rfl
@[simp] theorem State.updTime_pres : (s.updTime f).pres = s.pres := rfl
@[simp] theorem State.updTime_cycle : (s.updTime f).cycle = s.cycle := rfl
@[simp] theorem State.updTime_keys : (s.updTime f).keys = s.keys := rfl
@[simp] theorem State.updTime_receipts : (s.updTime f).receipts = s.receipts := rfl
@[simp] theorem State.updTime_settings : (s.updTime f).settings = s.settings := rfl
@[simp] theorem State.updTime_host : (s.updTime f).host = s.host := rfl
@[simp] theorem State.updTime_events : (s.updTime f).events = s.events := rfl
@[simp] theorem State.updTime_draws : (s.updTime f).draws = s.draws := rfl
@[simp] theorem State.updTime_pending : (s.updTime f).pending = s.pending := rfl

end

/-! ## history -/

section
variable (s : State) (f : List HistoryEntry → List HistoryEntry)

@[simp] theorem State.updHistory_lines : (s.updHistory f).lines = s.lines := rfl
@[simp] theorem State.updHistory_modem : (s.updHistory f).modem = s.modem := rfl
@[simp] theorem State.updHistory_slots : (s.updHistory f).slots = s.slots := rfl
@[simp] theorem State.updHistory_location : (s.updHistory f).location = s.location := rfl
@[simp] theorem State.updHistory_time : (s.updHistory f).time = s.time := rfl
@[simp] theorem State.updHistory_history : (s.updHistory f).history = f s.history := rfl
@[simp] theorem State.updHistory_store : (s.updHistory f).store = s.store := rfl
@[simp] theorem State.updHistory_pres : (s.updHistory f).pres = s.pres := rfl
@[simp] theorem State.updHistory_cycle : (s.updHistory f).cycle = s.cycle := rfl
@[simp] theorem State.updHistory_keys : (s.updHistory f).keys = s.keys := rfl
@[simp] theorem State.updHistory_receipts : (s.updHistory f).receipts = s.receipts := rfl
@[simp] theorem State.updHistory_settings : (s.updHistory f).settings = s.settings := rfl
@[simp] theorem State.updHistory_host : (s.updHistory f).host = s.host := rfl
@[simp] theorem State.updHistory_events : (s.updHistory f).events = s.events := rfl
@[simp] theorem State.updHistory_draws : (s.updHistory f).draws = s.draws := rfl
@[simp] theorem State.updHistory_pending : (s.updHistory f).pending = s.pending := rfl

end

/-! ## store -/

section
variable (s : State) (f : Store → Store)

@[simp] theorem State.updStore_lines : (s.updStore f).lines = s.lines := rfl
@[simp] theorem State.updStore_modem : (s.updStore f).modem = s.modem := rfl
@[simp] theorem State.updStore_slots : (s.updStore f).slots = s.slots := rfl
@[simp] theorem State.updStore_location : (s.updStore f).location = s.location := rfl
@[simp] theorem State.updStore_time : (s.updStore f).time = s.time := rfl
@[simp] theorem State.updStore_history : (s.updStore f).history = s.history := rfl
@[simp] theorem State.updStore_store : (s.updStore f).store = f s.store := rfl
@[simp] theorem State.updStore_pres : (s.updStore f).pres = s.pres := rfl
@[simp] theorem State.updStore_cycle : (s.updStore f).cycle = s.cycle := rfl
@[simp] theorem State.updStore_keys : (s.updStore f).keys = s.keys := rfl
@[simp] theorem State.updStore_receipts : (s.updStore f).receipts = s.receipts := rfl
@[simp] theorem State.updStore_settings : (s.updStore f).settings = s.settings := rfl
@[simp] theorem State.updStore_host : (s.updStore f).host = s.host := rfl
@[simp] theorem State.updStore_events : (s.updStore f).events = s.events := rfl
@[simp] theorem State.updStore_draws : (s.updStore f).draws = s.draws := rfl
@[simp] theorem State.updStore_pending : (s.updStore f).pending = s.pending := rfl

end

/-! ## pres -/

section
variable (s : State) (f : Presentation → Presentation)

@[simp] theorem State.updPres_lines : (s.updPres f).lines = s.lines := rfl
@[simp] theorem State.updPres_modem : (s.updPres f).modem = s.modem := rfl
@[simp] theorem State.updPres_slots : (s.updPres f).slots = s.slots := rfl
@[simp] theorem State.updPres_location : (s.updPres f).location = s.location := rfl
@[simp] theorem State.updPres_time : (s.updPres f).time = s.time := rfl
@[simp] theorem State.updPres_history : (s.updPres f).history = s.history := rfl
@[simp] theorem State.updPres_store : (s.updPres f).store = s.store := rfl
@[simp] theorem State.updPres_pres : (s.updPres f).pres = f s.pres := rfl
@[simp] theorem State.updPres_cycle : (s.updPres f).cycle = s.cycle := rfl
@[simp] theorem State.updPres_keys : (s.updPres f).keys = s.keys := rfl
@[simp] theorem State.updPres_receipts : (s.updPres f).receipts = s.receipts := rfl
@[simp] theorem State.updPres_settings : (s.updPres f).settings = s.settings := rfl
@[simp] theorem State.updPres_host : (s.updPres f).host = s.host := rfl
@[simp] theorem State.updPres_events : (s.updPres f).events = s.events := rfl
@[simp] theorem State.updPres_draws : (s.updPres f).draws = s.draws := rfl
@[simp] theorem State.updPres_pending : (s.updPres f).pending = s.pending := rfl

end

/-! ## cycle -/

section
variable (s : State) (f : Option Cycle → Option Cycle)

@[simp] theorem State.updCycle_lines : (s.updCycle f).lines = s.lines := rfl
@[simp] theorem State.updCycle_modem : (s.updCycle f).modem = s.modem := rfl
@[simp] theorem State.updCycle_slots : (s.updCycle f).slots = s.slots := rfl
@[simp] theorem State.updCycle_location : (s.updCycle f).location = s.location := rfl
@[simp] theorem State.updCycle_time : (s.updCycle f).time = s.time := rfl
@[simp] theorem State.updCycle_history : (s.updCycle f).history = s.history := rfl
@[simp] theorem State.updCycle_store : (s.updCycle f).store = s.store := rfl
@[simp] theorem State.updCycle_pres : (s.updCycle f).pres = s.pres := rfl
@[simp] theorem State.updCycle_cycle : (s.updCycle f).cycle = f s.cycle := rfl
@[simp] theorem State.updCycle_keys : (s.updCycle f).keys = s.keys := rfl
@[simp] theorem State.updCycle_receipts : (s.updCycle f).receipts = s.receipts := rfl
@[simp] theorem State.updCycle_settings : (s.updCycle f).settings = s.settings := rfl
@[simp] theorem State.updCycle_host : (s.updCycle f).host = s.host := rfl
@[simp] theorem State.updCycle_events : (s.updCycle f).events = s.events := rfl
@[simp] theorem State.updCycle_draws : (s.updCycle f).draws = s.draws := rfl
@[simp] theorem State.updCycle_pending : (s.updCycle f).pending = s.pending := rfl

end

/-! ## keys -/

section
variable (s : State) (f : Keys → Keys)

@[simp] theorem State.updKeys_lines : (s.updKeys f).lines = s.lines := rfl
@[simp] theorem State.updKeys_modem : (s.updKeys f).modem = s.modem := rfl
@[simp] theorem State.updKeys_slots : (s.updKeys f).slots = s.slots := rfl
@[simp] theorem State.updKeys_location : (s.updKeys f).location = s.location := rfl
@[simp] theorem State.updKeys_time : (s.updKeys f).time = s.time := rfl
@[simp] theorem State.updKeys_history : (s.updKeys f).history = s.history := rfl
@[simp] theorem State.updKeys_store : (s.updKeys f).store = s.store := rfl
@[simp] theorem State.updKeys_pres : (s.updKeys f).pres = s.pres := rfl
@[simp] theorem State.updKeys_cycle : (s.updKeys f).cycle = s.cycle := rfl
@[simp] theorem State.updKeys_keys : (s.updKeys f).keys = f s.keys := rfl
@[simp] theorem State.updKeys_receipts : (s.updKeys f).receipts = s.receipts := rfl
@[simp] theorem State.updKeys_settings : (s.updKeys f).settings = s.settings := rfl
@[simp] theorem State.updKeys_host : (s.updKeys f).host = s.host := rfl
@[simp] theorem State.updKeys_events : (s.updKeys f).events = s.events := rfl
@[simp] theorem State.updKeys_draws : (s.updKeys f).draws = s.draws := rfl
@[simp] theorem State.updKeys_pending : (s.updKeys f).pending = s.pending := rfl

end

/-! ## receipts -/

section
variable (s : State) (f : Receipts → Receipts)

@[simp] theorem State.updReceipts_lines : (s.updReceipts f).lines = s.lines := rfl
@[simp] theorem State.updReceipts_modem : (s.updReceipts f).modem = s.modem := rfl
@[simp] theorem State.updReceipts_slots : (s.updReceipts f).slots = s.slots := rfl
@[simp] theorem State.updReceipts_location : (s.updReceipts f).location = s.location := rfl
@[simp] theorem State.updReceipts_time : (s.updReceipts f).time = s.time := rfl
@[simp] theorem State.updReceipts_history : (s.updReceipts f).history = s.history := rfl
@[simp] theorem State.updReceipts_store : (s.updReceipts f).store = s.store := rfl
@[simp] theorem State.updReceipts_pres : (s.updReceipts f).pres = s.pres := rfl
@[simp] theorem State.updReceipts_cycle : (s.updReceipts f).cycle = s.cycle := rfl
@[simp] theorem State.updReceipts_keys : (s.updReceipts f).keys = s.keys := rfl
@[simp] theorem State.updReceipts_receipts : (s.updReceipts f).receipts = f s.receipts := rfl
@[simp] theorem State.updReceipts_settings : (s.updReceipts f).settings = s.settings := rfl
@[simp] theorem State.updReceipts_host : (s.updReceipts f).host = s.host := rfl
@[simp] theorem State.updReceipts_events : (s.updReceipts f).events = s.events := rfl
@[simp] theorem State.updReceipts_draws : (s.updReceipts f).draws = s.draws := rfl
@[simp] theorem State.updReceipts_pending : (s.updReceipts f).pending = s.pending := rfl

end

/-! ## settings -/

section
variable (s : State) (f : Settings → Settings)

@[simp] theorem State.updSettings_lines : (s.updSettings f).lines = s.lines := rfl
@[simp] theorem State.updSettings_modem : (s.updSettings f).modem = s.modem := rfl
@[simp] theorem State.updSettings_slots : (s.updSettings f).slots = s.slots := rfl
@[simp] theorem State.updSettings_location : (s.updSettings f).location = s.location := rfl
@[simp] theorem State.updSettings_time : (s.updSettings f).time = s.time := rfl
@[simp] theorem State.updSettings_history : (s.updSettings f).history = s.history := rfl
@[simp] theorem State.updSettings_store : (s.updSettings f).store = s.store := rfl
@[simp] theorem State.updSettings_pres : (s.updSettings f).pres = s.pres := rfl
@[simp] theorem State.updSettings_cycle : (s.updSettings f).cycle = s.cycle := rfl
@[simp] theorem State.updSettings_keys : (s.updSettings f).keys = s.keys := rfl
@[simp] theorem State.updSettings_receipts : (s.updSettings f).receipts = s.receipts := rfl
@[simp] theorem State.updSettings_settings : (s.updSettings f).settings = f s.settings := rfl
@[simp] theorem State.updSettings_host : (s.updSettings f).host = s.host := rfl
@[simp] theorem State.updSettings_events : (s.updSettings f).events = s.events := rfl
@[simp] theorem State.updSettings_draws : (s.updSettings f).draws = s.draws := rfl
@[simp] theorem State.updSettings_pending : (s.updSettings f).pending = s.pending := rfl

end

/-! ## host -/

section
variable (s : State) (f : HostLink → HostLink)

@[simp] theorem State.updHost_lines : (s.updHost f).lines = s.lines := rfl
@[simp] theorem State.updHost_modem : (s.updHost f).modem = s.modem := rfl
@[simp] theorem State.updHost_slots : (s.updHost f).slots = s.slots := rfl
@[simp] theorem State.updHost_location : (s.updHost f).location = s.location := rfl
@[simp] theorem State.updHost_time : (s.updHost f).time = s.time := rfl
@[simp] theorem State.updHost_history : (s.updHost f).history = s.history := rfl
@[simp] theorem State.updHost_store : (s.updHost f).store = s.store := rfl
@[simp] theorem State.updHost_pres : (s.updHost f).pres = s.pres := rfl
@[simp] theorem State.updHost_cycle : (s.updHost f).cycle = s.cycle := rfl
@[simp] theorem State.updHost_keys : (s.updHost f).keys = s.keys := rfl
@[simp] theorem State.updHost_receipts : (s.updHost f).receipts = s.receipts := rfl
@[simp] theorem State.updHost_settings : (s.updHost f).settings = s.settings := rfl
@[simp] theorem State.updHost_host : (s.updHost f).host = f s.host := rfl
@[simp] theorem State.updHost_events : (s.updHost f).events = s.events := rfl
@[simp] theorem State.updHost_draws : (s.updHost f).draws = s.draws := rfl
@[simp] theorem State.updHost_pending : (s.updHost f).pending = s.pending := rfl

end

/-! ## events -/

section
variable (s : State) (f : List EventEntry → List EventEntry)

@[simp] theorem State.updEvents_lines : (s.updEvents f).lines = s.lines := rfl
@[simp] theorem State.updEvents_modem : (s.updEvents f).modem = s.modem := rfl
@[simp] theorem State.updEvents_slots : (s.updEvents f).slots = s.slots := rfl
@[simp] theorem State.updEvents_location : (s.updEvents f).location = s.location := rfl
@[simp] theorem State.updEvents_time : (s.updEvents f).time = s.time := rfl
@[simp] theorem State.updEvents_history : (s.updEvents f).history = s.history := rfl
@[simp] theorem State.updEvents_store : (s.updEvents f).store = s.store := rfl
@[simp] theorem State.updEvents_pres : (s.updEvents f).pres = s.pres := rfl
@[simp] theorem State.updEvents_cycle : (s.updEvents f).cycle = s.cycle := rfl
@[simp] theorem State.updEvents_keys : (s.updEvents f).keys = s.keys := rfl
@[simp] theorem State.updEvents_receipts : (s.updEvents f).receipts = s.receipts := rfl
@[simp] theorem State.updEvents_settings : (s.updEvents f).settings = s.settings := rfl
@[simp] theorem State.updEvents_host : (s.updEvents f).host = s.host := rfl
@[simp] theorem State.updEvents_events : (s.updEvents f).events = f s.events := rfl
@[simp] theorem State.updEvents_draws : (s.updEvents f).draws = s.draws := rfl
@[simp] theorem State.updEvents_pending : (s.updEvents f).pending = s.pending := rfl

end

/-! ## draws -/

section
variable (s : State) (f : Nat → Nat)

@[simp] theorem State.updDraws_lines : (s.updDraws f).lines = s.lines := rfl
@[simp] theorem State.updDraws_modem : (s.updDraws f).modem = s.modem := rfl
@[simp] theorem State.updDraws_slots : (s.updDraws f).slots = s.slots := rfl
@[simp] theorem State.updDraws_location : (s.updDraws f).location = s.location := rfl
@[simp] theorem State.updDraws_time : (s.updDraws f).time = s.time := rfl
@[simp] theorem State.updDraws_history : (s.updDraws f).history = s.history := rfl
@[simp] theorem State.updDraws_store : (s.updDraws f).store = s.store := rfl
@[simp] theorem State.updDraws_pres : (s.updDraws f).pres = s.pres := rfl
@[simp] theorem State.updDraws_cycle : (s.updDraws f).cycle = s.cycle := rfl
@[simp] theorem State.updDraws_keys : (s.updDraws f).keys = s.keys := rfl
@[simp] theorem State.updDraws_receipts : (s.updDraws f).receipts = s.receipts := rfl
@[simp] theorem State.updDraws_settings : (s.updDraws f).settings = s.settings := rfl
@[simp] theorem State.updDraws_host : (s.updDraws f).host = s.host := rfl
@[simp] theorem State.updDraws_events : (s.updDraws f).events = s.events := rfl
@[simp] theorem State.updDraws_draws : (s.updDraws f).draws = f s.draws := rfl
@[simp] theorem State.updDraws_pending : (s.updDraws f).pending = s.pending := rfl

end

/-! ## pending -/

section
variable (s : State) (f : List Instr → List Instr)

@[simp] theorem State.updPending_lines : (s.updPending f).lines = s.lines := rfl
@[simp] theorem State.updPending_modem : (s.updPending f).modem = s.modem := rfl
@[simp] theorem State.updPending_slots : (s.updPending f).slots = s.slots := rfl
@[simp] theorem State.updPending_location : (s.updPending f).location = s.location := rfl
@[simp] theorem State.updPending_time : (s.updPending f).time = s.time := rfl
@[simp] theorem State.updPending_history : (s.updPending f).history = s.history := rfl
@[simp] theorem State.updPending_store : (s.updPending f).store = s.store := rfl
@[simp] theorem State.updPending_pres : (s.updPending f).pres = s.pres := rfl
@[simp] theorem State.updPending_cycle : (s.updPending f).cycle = s.cycle := rfl
@[simp] theorem State.updPending_keys : (s.updPending f).keys = s.keys := rfl
@[simp] theorem State.updPending_receipts : (s.updPending f).receipts = s.receipts := rfl
@[simp] theorem State.updPending_settings : (s.updPending f).settings = s.settings := rfl
@[simp] theorem State.updPending_host : (s.updPending f).host = s.host := rfl
@[simp] theorem State.updPending_events : (s.updPending f).events = s.events := rfl
@[simp] theorem State.updPending_draws : (s.updPending f).draws = s.draws := rfl
@[simp] theorem State.updPending_pending : (s.updPending f).pending = f s.pending := rfl

end

end Sys2Proof.Machine
end

