-- ==== Sys2Proof/Laws/Keeps.lean ====
section
/-! SUPPORT. `Keeps l s t`: only the blocks of `l` change from `s` to `t`, and every block keeps its form. One lemma of
this shape for each shared operation (Laws/Blocks.lean, Laws/Table.lean) says what it can do to the whole state. -/

namespace Sys2Proof.Machine

-- Checked one declaration at a time, so that the package as one text keeps within its memory limit.
set_option Elab.async false

/-! ## changesOnly -/

theorem changesOnly.refl (l : List Block) (s : State) : changesOnly l s s := fun b _ => by cases b <;> rfl

theorem Block.same.trans {b : Block} {s u t : State} (h : b.same s u) (k : b.same u t) : b.same s t := by
  cases b <;> exact Eq.trans k h

theorem changesOnly.trans {l l' m : List Block} {s u t : State} (h : changesOnly l s u) (k : changesOnly l' u t)
    (hl : ∀ b ∈ l, b ∈ m) (hl' : ∀ b ∈ l', b ∈ m) : changesOnly m s t :=
  fun b hb => (h b fun hm => hb (hl b hm)).trans (k b fun hm => hb (hl' b hm))

theorem changesOnly.mono {l m : List Block} {s t : State} (h : changesOnly l s t) (hl : ∀ b ∈ l, b ∈ m) :
    changesOnly m s t := fun b hb => h b fun hm => hb (hl b hm)

/-! ## Keeps -/

/-- Only the blocks of `l` change from `s` to `t`, and every block keeps its form. -/
structure Keeps (l : List Block) (s t : State) : Prop where
  frame : changesOnly l s t
  modem : s.modem.wf → t.modem.wf
  slots : SlotsWf s.slots → SlotsWf t.slots
  pool : PoolWf s.slots → PoolWf t.slots
  location : s.location.wf → t.location.wf
  time : s.time.wf → t.time.wf
  history : HistoryWf s.history → HistoryWf t.history
  store : StoreWf s.lines s.store → StoreWf t.lines t.store
  settings : s.settings.wf → t.settings.wf
  cycle : s.settings.wf → CycleWf s.cycle → CycleWf t.cycle
  keys : s.settings.wf → s.keys.wf → t.keys.wf
  receipts : s.receipts.wf → t.receipts.wf
  events : EventsWf s.events → EventsWf t.events
  host : EventsWf s.events → s.host.wf → t.host.wf

theorem Keeps.refl (l : List Block) (s : State) : Keeps l s s :=
  ⟨.refl l s, id, id, id, id, id, id, id, id, fun _ => id, fun _ => id, id, id, fun _ => id⟩

/-- Two changes one after the other; the list of the whole holds the lists of both. -/
theorem Keeps.trans {l l' m : List Block} {s u t : State} (h : Keeps l s u) (k : Keeps l' u t)
    (hl : ∀ b ∈ l, b ∈ m := by decide) (hl' : ∀ b ∈ l', b ∈ m := by decide) : Keeps m s t where
  frame := h.frame.trans k.frame hl hl'
  modem := k.modem ∘ h.modem
  slots := k.slots ∘ h.slots
  pool := k.pool ∘ h.pool
  location := k.location ∘ h.location
  time := k.time ∘ h.time
  history := k.history ∘ h.history
  store := k.store ∘ h.store
  settings := k.settings ∘ h.settings
  cycle := fun hs hc => k.cycle (h.settings hs) (h.cycle hs hc)
  keys := fun hs hc => k.keys (h.settings hs) (h.keys hs hc)
  receipts := k.receipts ∘ h.receipts
  events := k.events ∘ h.events
  host := fun he hh => k.host (h.events he) (h.host he hh)

theorem Keeps.mono {l m : List Block} {s t : State} (h : Keeps l s t) (hl : ∀ b ∈ l, b ∈ m := by decide) :
    Keeps m s t := { h with frame := h.frame.mono hl }

/-- A change known by its frame, with the form of each block it may change; the others follow from the frame. -/
theorem Keeps.ofFrame {l : List Block} {s t : State} (frame : changesOnly l s t)
    (modem : .modem ∈ l → s.modem.wf → t.modem.wf := by intro m; exact absurd m (by decide))
    (slots : .slots ∈ l → SlotsWf s.slots → SlotsWf t.slots := by intro m; exact absurd m (by decide))
    (pool : .slots ∈ l → PoolWf s.slots → PoolWf t.slots := by intro m; exact absurd m (by decide))
    (location : .location ∈ l → s.location.wf → t.location.wf := by intro m; exact absurd m (by decide))
    (time : .time ∈ l → s.time.wf → t.time.wf := by intro m; exact absurd m (by decide))
    (history : .history ∈ l → HistoryWf s.history → HistoryWf t.history := by intro m; exact absurd m (by decide))
    (store : .store ∈ l ∨ .lines ∈ l → StoreWf s.lines s.store → StoreWf t.lines t.store := by intro m; exact absurd m (by decide))
    (settings : .settings ∈ l → s.settings.wf → t.settings.wf := by intro m; exact absurd m (by decide))
    (cycle : .cycle ∈ l → s.settings.wf → CycleWf s.cycle → CycleWf t.cycle := by intro m; exact absurd m (by decide))
    (keys : .keys ∈ l → s.settings.wf → s.keys.wf → t.keys.wf := by intro m; exact absurd m (by decide))
    (receipts : .receipts ∈ l → s.receipts.wf → t.receipts.wf := by intro m; exact absurd m (by decide))
    (events : .events ∈ l → EventsWf s.events → EventsWf t.events := by intro m; exact absurd m (by decide))
    (host : .host ∈ l → EventsWf s.events → s.host.wf → t.host.wf := by intro m; exact absurd m (by decide)) : Keeps l s t where
  frame := frame
  modem := if m : Block.modem ∈ l then modem m else by have h := frame _ m; simp only [Block.same] at h; rw [h]; exact id
  slots := if m : Block.slots ∈ l then slots m else by have h := frame _ m; simp only [Block.same] at h; rw [h]; exact id
  pool := if m : Block.slots ∈ l then pool m else by have h := frame _ m; simp only [Block.same] at h; rw [h]; exact id
  location := if m : Block.location ∈ l then location m else by
    have h := frame _ m; simp only [Block.same] at h; rw [h]; exact id
  time := if m : Block.time ∈ l then time m else by have h := frame _ m; simp only [Block.same] at h; rw [h]; exact id
  history := if m : Block.history ∈ l then history m else by
    have h := frame _ m; simp only [Block.same] at h; rw [h]; exact id
  store := if m : Block.store ∈ l ∨ Block.lines ∈ l then store m else by
    have h := frame _ fun k => m (.inl k)
    have h' := frame _ fun k => m (.inr k)
    simp only [Block.same] at h h'; rw [h, h']; exact id
  settings := if m : Block.settings ∈ l then settings m else by
    have h := frame _ m; simp only [Block.same] at h; rw [h]; exact id
  cycle := if m : Block.cycle ∈ l then cycle m else by
    have h := frame _ m; simp only [Block.same] at h; rw [h]; exact fun _ => id
  keys := if m : Block.keys ∈ l then keys m else by
    have h := frame _ m; simp only [Block.same] at h; rw [h]; exact fun _ => id
  receipts := if m : Block.receipts ∈ l then receipts m else by
    have h := frame _ m; simp only [Block.same] at h; rw [h]; exact id
  events := if m : Block.events ∈ l then events m else by
    have h := frame _ m; simp only [Block.same] at h; rw [h]; exact id
  host := if m : Block.host ∈ l then host m else by
    have h := frame _ m; simp only [Block.same] at h; rw [h]; exact fun _ => id

/-! ## Updates of one block -/

section
variable {s : State}

theorem Keeps.updModem {f : ModemPort → ModemPort} (h : s.modem.wf → (f s.modem).wf) : Keeps [.modem] s (s.updModem f) :=
  .ofFrame (fun b hb => by cases b <;> first | rfl | simp at hb) (modem := fun _ => h)

theorem Keeps.updSlots {f : Vector (Option Slot) 16 → Vector (Option Slot) 16} (h : SlotsWf s.slots → SlotsWf (f s.slots))
    (k : PoolWf s.slots → PoolWf (f s.slots)) : Keeps [.slots] s (s.updSlots f) :=
  .ofFrame (fun b hb => by cases b <;> first | rfl | simp at hb) (slots := fun _ => h) (pool := fun _ => k)

theorem Keeps.updLocation {f : Location → Location} (h : s.location.wf → (f s.location).wf) :
    Keeps [.location] s (s.updLocation f) :=
  .ofFrame (fun b hb => by cases b <;> first | rfl | simp at hb) (location := fun _ => h)

theorem Keeps.updTime {f : Timebase → Timebase} (h : s.time.wf → (f s.time).wf) : Keeps [.time] s (s.updTime f) :=
  .ofFrame (fun b hb => by cases b <;> first | rfl | simp at hb) (time := fun _ => h)

theorem Keeps.updHistory {f : List HistoryEntry → List HistoryEntry} (h : HistoryWf s.history → HistoryWf (f s.history)) :
    Keeps [.history] s (s.updHistory f) :=
  .ofFrame (fun b hb => by cases b <;> first | rfl | simp at hb) (history := fun _ => h)

theorem Keeps.updStore {f : Store → Store} (h : StoreWf s.lines s.store → StoreWf s.lines (f s.store)) :
    Keeps [.store] s (s.updStore f) :=
  .ofFrame (fun b hb => by cases b <;> first | rfl | simp at hb) (store := fun _ => h)

theorem Keeps.updPres {f : Presentation → Presentation} : Keeps [.pres] s (s.updPres f) :=
  .ofFrame (fun b hb => by cases b <;> first | rfl | simp at hb)

theorem Keeps.updCycle {f : Option Cycle → Option Cycle} (h : s.settings.wf → CycleWf s.cycle → CycleWf (f s.cycle)) :
    Keeps [.cycle] s (s.updCycle f) :=
  .ofFrame (fun b hb => by cases b <;> first | rfl | simp at hb) (cycle := fun _ => h)

theorem Keeps.updKeys {f : Keys → Keys} (h : s.settings.wf → s.keys.wf → (f s.keys).wf) : Keeps [.keys] s (s.updKeys f) :=
  .ofFrame (fun b hb => by cases b <;> first | rfl | simp at hb) (keys := fun _ => h)

theorem Keeps.updReceipts {f : Receipts → Receipts} (h : s.receipts.wf → (f s.receipts).wf) :
    Keeps [.receipts] s (s.updReceipts f) :=
  .ofFrame (fun b hb => by cases b <;> first | rfl | simp at hb) (receipts := fun _ => h)

theorem Keeps.updSettings {f : Settings → Settings} (h : s.settings.wf → (f s.settings).wf) :
    Keeps [.settings] s (s.updSettings f) :=
  .ofFrame (fun b hb => by cases b <;> first | rfl | simp at hb) (settings := fun _ => h)

theorem Keeps.updHost {f : HostLink → HostLink} (h : EventsWf s.events → s.host.wf → (f s.host).wf) :
    Keeps [.host] s (s.updHost f) :=
  .ofFrame (fun b hb => by cases b <;> first | rfl | simp at hb) (host := fun _ => h)

theorem Keeps.updEvents {f : List EventEntry → List EventEntry} (h : EventsWf s.events → EventsWf (f s.events)) :
    Keeps [.events] s (s.updEvents f) :=
  .ofFrame (fun b hb => by cases b <;> first | rfl | simp at hb) (events := fun _ => h)

theorem Keeps.updDraws {f : Nat → Nat} : Keeps [.draws] s (s.updDraws f) :=
  .ofFrame (fun b hb => by cases b <;> first | rfl | simp at hb)

theorem Keeps.updPending {f : List Instr → List Instr} : Keeps [.pending] s (s.updPending f) :=
  .ofFrame (fun b hb => by cases b <;> first | rfl | simp at hb)

/-- R157: a block's work, done only while RESET is high. -/
theorem Keeps.whenRunning {l : List Block} {f : State → State} (h : Keeps l s (f s)) : Keeps l s (whenRunning f s) := by
  unfold Machine.whenRunning
  split
  · exact .refl l s
  · exact h

end

end Sys2Proof.Machine
end

