-- ==== Sys2Proof/Laws/Blocks.lean ====
section
/-! SUPPORT. For each shared operation of Machine/Ops.lean on the event set, the slots, the history list, the receipts and
the attention generator: what it can do to the whole state. -/

namespace Sys2Proof.Machine

-- Checked one declaration at a time, so that the package as one text keeps within its memory limit.
set_option Elab.async false

variable {s : State}

/-! ## The event set -/

@[simp] theorem slotIndex_slot (i : SlotIndex) (k : Key) (r : BitVec 4) (b : BitVec 13) :
    (EventEntry.slot i k r b).slotIndex = some i := rfl
@[simp] theorem slotIndex_device (k : DeviceKind) (n : Nat) (d : Detail) : (EventEntry.device k n d).slotIndex = none := rfl
@[simp] theorem deviceKind_slot (i : SlotIndex) (k : Key) (r : BitVec 4) (b : BitVec 13) :
    (EventEntry.slot i k r b).deviceKind = none := rfl
@[simp] theorem deviceKind_device (k : DeviceKind) (n : Nat) (d : Detail) :
    (EventEntry.device k n d).deviceKind = some k := rfl

theorem mergeSlotPosting_slots (i : SlotIndex) (key : Key) (revision : BitVec 4) (kind : SlotKind) (l : List EventEntry) :
    (mergeSlotPosting i key revision kind l).filterMap EventEntry.slotIndex =
      if i ∈ l.filterMap EventEntry.slotIndex then l.filterMap EventEntry.slotIndex
      else l.filterMap EventEntry.slotIndex ++ [i] := by
  induction l with
  | nil => rfl
  | cons e l ih =>
    cases e with
    | slot j k r kinds =>
      by_cases h : j = i
      · subst h; simp [mergeSlotPosting]
      · have h' : i ≠ j := fun k => h k.symm
        simp only [mergeSlotPosting, if_neg h, List.filterMap_cons, slotIndex_slot, ih, List.mem_cons, h', false_or]
        split <;> rfl
    | device k n d => exact ih

theorem mergeSlotPosting_devices (i : SlotIndex) (key : Key) (revision : BitVec 4) (kind : SlotKind)
    (l : List EventEntry) : (mergeSlotPosting i key revision kind l).filterMap EventEntry.deviceKind =
      l.filterMap EventEntry.deviceKind := by
  induction l with
  | nil => rfl
  | cons e l ih =>
    cases e with
    | slot j k r kinds =>
      by_cases h : j = i
      · simp [mergeSlotPosting, h, List.filterMap_cons]
      · simp only [mergeSlotPosting, if_neg h]; exact ih
    | device k n d => simp only [mergeSlotPosting, List.filterMap_cons, deviceKind_device, ih]

theorem mergeSlotPosting_counts (i : SlotIndex) (key : Key) (revision : BitVec 4) (kind : SlotKind) (l : List EventEntry)
    (h : ∀ e ∈ l, e.countOk) : ∀ e ∈ mergeSlotPosting i key revision kind l, e.countOk := by
  induction l with
  | nil => simp [mergeSlotPosting, EventEntry.countOk]
  | cons e l ih =>
    have hl := ih fun e he => h e (List.mem_cons_of_mem _ he)
    have he := h e List.mem_cons_self
    cases e with
    | slot j k r kinds =>
      simp only [mergeSlotPosting]
      split
      · intro e he
        rcases List.mem_cons.1 he with rfl | he
        · trivial
        · exact h e (List.mem_cons_of_mem _ he)
      · intro e he
        rcases List.mem_cons.1 he with rfl | he
        · trivial
        · exact hl e he
    | device k n d =>
      intro e' he'
      rcases List.mem_cons.1 he' with rfl | he'
      · exact he
      · exact hl e' he'

/-- R184: a slot posting keeps one entry for each slot and one for each device kind. -/
theorem mergeSlotPosting_wf (i : SlotIndex) (key : Key) (revision : BitVec 4) (kind : SlotKind) {l : List EventEntry}
    (h : EventsWf l) : EventsWf (mergeSlotPosting i key revision kind l) where
  slots := by
    rw [mergeSlotPosting_slots]
    split
    · exact h.slots
    · rename_i hi
      refine List.nodup_append.2 ⟨h.slots, by simp, ?_⟩
      intro a ha b hb
      rw [List.mem_singleton.1 hb]
      exact fun hab => hi (hab ▸ ha)
  devices := by rw [mergeSlotPosting_devices]; exact h.devices
  counts := mergeSlotPosting_counts i key revision kind l h.counts

theorem mergeDevicePosting_devices (kind : DeviceKind) (detail : Detail) (l : List EventEntry) :
    (mergeDevicePosting kind detail l).filterMap EventEntry.deviceKind =
      if kind ∈ l.filterMap EventEntry.deviceKind then l.filterMap EventEntry.deviceKind
      else l.filterMap EventEntry.deviceKind ++ [kind] := by
  induction l with
  | nil => rfl
  | cons e l ih =>
    cases e with
    | device k n d =>
      by_cases h : k = kind
      · subst h; simp [mergeDevicePosting]
      · have h' : kind ≠ k := fun e => h e.symm
        simp only [mergeDevicePosting, if_neg h, List.filterMap_cons, deviceKind_device, ih, List.mem_cons, h', false_or]
        split <;> rfl
    | slot j k r kinds => exact ih

theorem mergeDevicePosting_slots (kind : DeviceKind) (detail : Detail) (l : List EventEntry) :
    (mergeDevicePosting kind detail l).filterMap EventEntry.slotIndex = l.filterMap EventEntry.slotIndex := by
  induction l with
  | nil => rfl
  | cons e l ih =>
    cases e with
    | device k n d =>
      by_cases h : k = kind
      · simp [mergeDevicePosting, h, List.filterMap_cons]
      · simp only [mergeDevicePosting, if_neg h]; exact ih
    | slot j k r kinds => simp only [mergeDevicePosting, List.filterMap_cons, slotIndex_slot, ih]

theorem mergeDevicePosting_counts (kind : DeviceKind) (detail : Detail) (l : List EventEntry) (h : ∀ e ∈ l, e.countOk) :
    ∀ e ∈ mergeDevicePosting kind detail l, e.countOk := by
  induction l with
  | nil => simp [mergeDevicePosting, EventEntry.countOk]
  | cons e l ih =>
    have hl := ih fun e he => h e (List.mem_cons_of_mem _ he)
    have he := h e List.mem_cons_self
    cases e with
    | device k n d =>
      simp only [mergeDevicePosting]
      split
      · intro e' he'
        rcases List.mem_cons.1 he' with rfl | he'
        · have : 1 ≤ n ∧ n ≤ 255 := he
          simp only [EventEntry.countOk, bump]
          omega
        · exact h e' (List.mem_cons_of_mem _ he')
      · intro e' he'
        rcases List.mem_cons.1 he' with rfl | he'
        · exact he
        · exact hl e' he'
    | slot j k r kinds =>
      intro e' he'
      rcases List.mem_cons.1 he' with rfl | he'
      · trivial
      · exact hl e' he'

/-- R184: a device posting keeps one entry for each slot and one for each device kind. -/
theorem mergeDevicePosting_wf (kind : DeviceKind) (detail : Detail) {l : List EventEntry} (h : EventsWf l) :
    EventsWf (mergeDevicePosting kind detail l) where
  slots := by rw [mergeDevicePosting_slots]; exact h.slots
  devices := by
    rw [mergeDevicePosting_devices]
    split
    · exact h.devices
    · rename_i hi
      refine List.nodup_append.2 ⟨h.devices, by simp, ?_⟩
      intro a ha b hb
      rw [List.mem_singleton.1 hb]
      exact fun hab => hi (hab ▸ ha)
  counts := mergeDevicePosting_counts kind detail l h.counts

theorem EventsWf.filter {l : List EventEntry} (h : EventsWf l) (p : EventEntry → Bool) : EventsWf (l.filter p) where
  slots := h.slots.sublist (List.filter_sublist.filterMap _)
  devices := h.devices.sublist (List.filter_sublist.filterMap _)
  counts := fun e he => h.counts e (List.mem_of_mem_filter he)

theorem EventsWf.nil : EventsWf [] := ⟨List.nodup_nil, List.nodup_nil, fun _ h => by cases h⟩

theorem postDevice_keeps (kind : DeviceKind) (detail : Detail) : Keeps [.events] s (postDevice kind detail s) :=
  .updEvents (mergeDevicePosting_wf kind detail)

theorem dropSlotEntry_keeps (i : SlotIndex) : Keeps [.events] s (dropSlotEntry i s) := .updEvents fun h => h.filter _

theorem postSlot_keeps (i : SlotIndex) (kind : SlotKind) : Keeps [.events] s (postSlot i kind s) := by
  unfold postSlot
  split
  · exact .refl _ s
  · exact .updEvents fun h => mergeSlotPosting_wf _ _ _ _ h

/-! ## Slots -/

@[simp] theorem mapEntries_toList {α β : Type} {n : Nat} (f : α → β) (v : Vector α n) :
    (mapEntries f v).toList = v.toList.map f := by simp [mapEntries, Vector.toList]

@[simp] theorem tabulate_toList {α : Type} (n : Nat) (f : Nat → α) : (tabulate n f).toList = (List.range n).map f := by
  simp [tabulate, Vector.toList]

@[simp] theorem zipEntries_toList {α β γ : Type} {n : Nat} (f : α → β → γ) (v : Vector α n) (w : Vector β n) :
    (zipEntries f v w).toList = List.zipWith f v.toList w.toList := by simp [zipEntries, Vector.toList]

theorem toList_set {α : Type} {n : Nat} (v : Vector α n) (i : Nat) (h : i < n) (a : α) :
    (v.set i a h).toList = v.toList.set i a := by simp [Vector.toList]

theorem slotOf_mem {i : SlotIndex} {x : Slot} (h : slotOf s i = some x) : some x ∈ s.slots.toList := by
  rw [← h, slotOf, Vector.mem_toList_iff]
  exact Vector.getElem_mem _

@[simp] theorem putSlot_same (i : SlotIndex) (o : Option Slot) : slotOf (putSlot i o s) i = o := by
  simp [slotOf, putSlot]

theorem putSlot_other {i j : SlotIndex} (o : Option Slot) (h : i ≠ j) : slotOf (putSlot i o s) j = slotOf s j := by
  simp only [slotOf, putSlot, State.updSlots_slots]
  exact Vector.getElem_set_ne _ _ fun e => h (Fin.ext e)

/-- What slot `j` holds after slot `i` is written. -/
theorem slotOf_putSlot (i j : SlotIndex) (o : Option Slot) : slotOf (putSlot i o s) j = if i = j then o else slotOf s j := by
  split
  · rename_i h; subst h; exact putSlot_same ..
  · rename_i h; exact putSlot_other o h

/-- What slot `j` holds after slot `i` is changed. -/
theorem slotOf_modSlot (i j : SlotIndex) (f : Slot → Slot) :
    slotOf (modSlot i f s) j = if i = j then (slotOf s i).map f else slotOf s j := slotOf_putSlot i j _

theorem sum_map_set {α : Type} (g : α → Nat) (l : List α) (i : Nat) (h : i < l.length) (a : α) :
    ((l.set i a).map g).sum + g l[i] = (l.map g).sum + g a := by
  induction l generalizing i with
  | nil => simp at h
  | cons b l ih =>
    cases i with
    | zero => simp; omega
    | succ i =>
      have := ih i (by simpa using h)
      simp at this ⊢
      omega

/-- The buffers of one place of the table. -/
def placeBuffers (o : Option Slot) : Nat := (o.map Slot.buffers).getD 0

/-- R47: writing one place moves the count of buffers in use by the difference. -/
theorem buffersIn_set (v : Vector (Option Slot) 16) (i : SlotIndex) (o : Option Slot) :
    buffersIn (v.set i.val o) + placeBuffers v[i.val] = buffersIn v + placeBuffers o := by
  have h : i.val < v.toList.length := by simp
  have k := sum_map_set placeBuffers v.toList i.val h o
  have e : v.toList[i.val] = v[i.val] := by simp
  rw [e] at k
  unfold buffersIn
  rw [toList_set]
  exact k

theorem SlotsWf.set {v : Vector (Option Slot) 16} (h : SlotsWf v) (i : SlotIndex) {o : Option Slot}
    (ho : ∀ x, o = some x → x.wf) : SlotsWf (v.set i.val o) := by
  intro x hx
  rw [toList_set] at hx
  rcases List.mem_or_eq_of_mem_set hx with hx | hx
  · exact h x hx
  · exact ho x hx.symm

theorem PoolWf.set {v : Vector (Option Slot) 16} (h : PoolWf v) (i : SlotIndex) {o : Option Slot}
    (ho : ∀ x, o = some x → 1 ≤ x.buffers) (hle : buffersIn v + placeBuffers o ≤ 48 + placeBuffers v[i.val]) :
    PoolWf (v.set i.val o) where
  within := by
    have := buffersIn_set v i o
    have := h.within
    omega
  held := by
    intro x hx
    rw [toList_set] at hx
    rcases List.mem_or_eq_of_mem_set hx with hx | hx
    · exact h.held x hx
    · exact ho x hx.symm

/-- A slot written with a record in its form, of at most the buffers it held and those that are free. -/
theorem putSlot_keeps (i : SlotIndex) (o : Option Slot) (h : SlotsWf s.slots → ∀ x, o = some x → x.wf)
    (ho : PoolWf s.slots → ∀ x, o = some x → 1 ≤ x.buffers)
    (hle : PoolWf s.slots → buffersUsed s + placeBuffers o ≤ 48 + placeBuffers (slotOf s i)) :
    Keeps [.slots] s (putSlot i o s) := .updSlots (fun k => k.set i (h k)) (fun k => k.set i (ho k) (hle k))

/-- A change of a slot that keeps its sheets. -/
theorem modSlot_keeps (i : SlotIndex) (f : Slot → Slot) (h : ∀ x, (f x).sheets = x.sheets) :
    Keeps [.slots] s (modSlot i f s) := by
  refine putSlot_keeps i _ ?_ ?_ ?_
  · intro k x hx
    obtain ⟨y, hy, rfl⟩ := Option.map_eq_some_iff.1 hx
    have w := k y (slotOf_mem hy)
    exact ⟨by rw [h]; exact w.count_pos, by rw [h]; exact w.count_le, by rw [h]; exact w.sheets⟩
  · intro k x hx
    obtain ⟨y, hy, rfl⟩ := Option.map_eq_some_iff.1 hx
    have := k.held y (slotOf_mem hy)
    simpa [Slot.buffers, h] using this
  · intro k
    have hw : buffersUsed s ≤ 48 := k.within
    have e : placeBuffers ((slotOf s i).map f) = placeBuffers (slotOf s i) := by
      cases slotOf s i <;> simp [placeBuffers, Slot.buffers, h]
    omega

theorem enterState_keeps (st : SlotState) (i : SlotIndex) : Keeps [.slots] s (enterState st i s) :=
  modSlot_keeps i _ fun _ => rfl

@[simp] theorem Slot.forget_sheets (i : SlotIndex) (x : Slot) : (x.forget i).sheets = x.sheets := by
  unfold Slot.forget; split <;> rfl

theorem SlotsWf.mapForget {v : Vector (Option Slot) 16} (h : SlotsWf v) (i : SlotIndex) :
    SlotsWf (mapEntries (Option.map (Slot.forget i)) v) := by
  intro x hx
  rw [mapEntries_toList] at hx
  obtain ⟨o, ho, e⟩ := List.mem_map.1 hx
  obtain ⟨y, rfl, rfl⟩ := Option.map_eq_some_iff.1 e
  have w := h y ho
  exact ⟨by simpa using w.count_pos, by simpa using w.count_le, by simpa using w.sheets⟩

theorem buffersIn_mapForget (v : Vector (Option Slot) 16) (i : SlotIndex) :
    buffersIn (mapEntries (Option.map (Slot.forget i)) v) = buffersIn v := by
  simp only [buffersIn, mapEntries_toList, List.map_map]
  congr 2
  funext o
  cases o <;> simp [Slot.buffers]

theorem PoolWf.mapForget {v : Vector (Option Slot) 16} (h : PoolWf v) (i : SlotIndex) :
    PoolWf (mapEntries (Option.map (Slot.forget i)) v) where
  within := by rw [buffersIn_mapForget]; exact h.within
  held := by
    intro x hx
    rw [mapEntries_toList] at hx
    obtain ⟨o, ho, e⟩ := List.mem_map.1 hx
    obtain ⟨y, rfl, rfl⟩ := Option.map_eq_some_iff.1 e
    simpa [Slot.buffers] using h.held y ho

/-- R56: freeing a slot touches the table and presentation only. -/
theorem freeSlot_keeps (i : SlotIndex) : Keeps [.slots, .pres] s (freeSlot i s) := by
  refine (Keeps.updSlots (f := fun v => mapEntries (Option.map (Slot.forget i)) (v.set i.val none)) ?_ ?_).trans .updPres
  · exact fun h => (h.set i fun _ e => by cases e).mapForget i
  · exact fun h => (h.set i (fun _ e => by cases e)
      (h.within.trans (Nat.le_add_right _ _))).mapForget i

/-- What slot `j` holds after slot `i` is freed. -/
theorem slotOf_freeSlot (i j : SlotIndex) :
    slotOf (freeSlot i s) j = if i = j then none else (slotOf s j).map (Slot.forget i) := by
  have e : slotOf (freeSlot i s) j = ((s.slots.set i.val none)[j.val]).map (Slot.forget i) := by
    have h : ∀ v : Vector (Option Slot) 16, (mapEntries (Option.map (Slot.forget i)) v)[j.val] =
        (v[j.val]).map (Slot.forget i) := by
      intro v
      simp [mapEntries]
    exact h _
  rw [e]
  by_cases hij : i = j
  · subst hij; simp
  · rw [if_neg hij, Vector.getElem_set_ne _ _ fun k => hij (Fin.ext k)]; rfl

/-- R47: freeing a slot returns the buffers it held. -/
theorem buffersUsed_freeSlot (i : SlotIndex) :
    buffersUsed (freeSlot i s) + placeBuffers (slotOf s i) = buffersUsed s := by
  have h := buffersIn_set s.slots i none
  have k := buffersIn_mapForget (s.slots.set i.val none) i
  have e : buffersUsed (freeSlot i s) = buffersIn (mapEntries (Option.map (Slot.forget i)) (s.slots.set i.val none)) := rfl
  have z : placeBuffers none = 0 := rfl
  rw [e, k]
  exact h

/-! ## History -/

theorem makeRoom_sublist (e : HistoryEntry) (l : List HistoryEntry) : (makeRoom e l).Sublist l := by
  unfold makeRoom
  split
  · exact List.filter_sublist
  · split
    · exact List.drop_sublist ..
    · exact .refl l

theorem HistoryWf.sublist {l m : List HistoryEntry} (h : HistoryWf l) (k : m.Sublist l) : HistoryWf m :=
  ⟨h.keys.sublist (k.map _), k.length_le.trans h.length⟩

theorem makeRoom_key (e : HistoryEntry) (l : List HistoryEntry) (x : HistoryEntry) (hx : x ∈ makeRoom e l) :
    x.key ≠ e.key := by
  unfold makeRoom at hx
  split at hx
  · simpa using (List.mem_filter.1 hx).2
  · rename_i h
    simp only [List.any_eq_true, decide_eq_true_eq, not_exists, not_and] at h
    split at hx
    · exact h x (List.mem_of_mem_drop hx)
    · exact h x hx

theorem makeRoom_length (e : HistoryEntry) {l : List HistoryEntry} (h : HistoryWf l) : (makeRoom e l).length < 64 := by
  have hl := h.length
  unfold makeRoom
  split
  · rename_i k
    obtain ⟨x, hx, hk⟩ := List.any_eq_true.1 k
    have : (l.filter fun h => decide (h.key ≠ e.key)).length < l.length :=
      List.length_filter_lt_length_iff_exists.2 ⟨x, hx, by simpa using hk⟩
    omega
  · split
    · simp only [List.length_drop]; simp only [Config.historyCapacity] at *; omega
    · simp only [Config.historyCapacity] at *; omega

theorem HistoryWf.place {l : List HistoryEntry} (h : HistoryWf l) (e : HistoryEntry) : HistoryWf (makeRoom e l ++ [e]) where
  keys := by
    rw [List.map_append]
    refine List.nodup_append.2 ⟨(h.sublist (makeRoom_sublist e l)).keys, by simp, ?_⟩
    intro a ha b hb
    obtain ⟨x, hx, rfl⟩ := List.mem_map.1 ha
    rw [show b = e.key by simpa using hb]
    exact makeRoom_key e l x hx
  length := by
    have := makeRoom_length e h
    simp only [List.length_append, List.length_singleton]
    omega

/-- R94: an addition keeps one entry for each key and the capacity. -/
theorem placeEntry_wf (e : HistoryEntry) {l : List HistoryEntry} (h : HistoryWf l) : HistoryWf (placeEntry e l) := by
  unfold placeEntry
  split
  · exact h
  · exact h.place e

theorem HistoryWf.map {l : List HistoryEntry} (h : HistoryWf l) (f : HistoryEntry → HistoryEntry)
    (hf : ∀ x, (f x).key = x.key) : HistoryWf (l.map f) where
  keys := by rw [List.map_map]; exact (congrArg List.Nodup (List.map_congr_left fun x _ => hf x)).mpr h.keys
  length := by rw [List.length_map]; exact h.length

theorem HistoryWf.nil : HistoryWf [] := ⟨List.nodup_nil, Nat.zero_le _⟩

/-- What an addition notes in the store: nothing, or that the running attempt's subject was replaced. -/
theorem Store.noteAddition_cases (e : HistoryEntry) (t : Store) : t.noteAddition e = t ∨
    ∃ phase n r, t.state = .busy phase (.program e n r) ∧
      t.noteAddition e = { t with state := .busy phase (.program e n true) } := by
  unfold Store.noteAddition
  split
  · rename_i phase subject attempt r h
    split
    · rename_i hs
      subst hs
      exact .inr ⟨_, _, _, h, rfl⟩
    · exact .inl rfl
  · exact .inl rfl

@[simp] theorem Store.noteAddition_journal (e : HistoryEntry) (t : Store) : (t.noteAddition e).journal = t.journal := by
  rcases t.noteAddition_cases e with h | ⟨_, _, _, _, h⟩ <;> rw [h]
@[simp] theorem Store.noteAddition_writePos (e : HistoryEntry) (t : Store) : (t.noteAddition e).writePos = t.writePos := by
  rcases t.noteAddition_cases e with h | ⟨_, _, _, _, h⟩ <;> rw [h]
@[simp] theorem Store.noteAddition_eraseFails (e : HistoryEntry) (t : Store) : (t.noteAddition e).eraseFails = t.eraseFails := by
  rcases t.noteAddition_cases e with h | ⟨_, _, _, _, h⟩ <;> rw [h]

/-- An addition notes nothing in a store that is not programming. -/
theorem Store.noteAddition_eq {e : HistoryEntry} {t : Store} (h : ∀ phase n r, t.state ≠ .busy phase (.program e n r)) :
    t.noteAddition e = t := by
  rcases t.noteAddition_cases e with k | ⟨_, _, _, k, _⟩
  · exact k
  · exact absurd k (h _ _ _)

theorem StoreWf.noteAddition {l : Lines} {t : Store} (h : StoreWf l t) (e : HistoryEntry) : StoreWf l (t.noteAddition e) := by
  rcases t.noteAddition_cases e with k | ⟨p, n, r, b, k⟩ <;> rw [k]
  · exact h
  · exact ⟨h.writePos, h.eraseFails, fun _ _ q => by cases q; exact h.busy _ _ b, nofun, nofun⟩

/-- R94 to R97: an addition changes the list, and in the store at most the mark of the running attempt. -/
theorem addHistory_keeps (e : HistoryEntry) : Keeps [.history, .store] s (addHistory e s) := by
  refine Keeps.trans (l := [.history]) (l' := [.store]) (.updHistory fun h => ?_) (.updStore fun h => h.noteAddition e)
  split
  · exact h
  · split
    · exact h.sublist (makeRoom_sublist e _)
    · exact h.place e

theorem addSlotHistory_keeps (x : Slot) (outcome : Settled) : Keeps [.history, .store] s (addSlotHistory x outcome s) := by
  unfold addSlotHistory
  split
  · exact .refl _ s
  · exact addHistory_keeps _

theorem pruneHistory_keeps : Keeps [.history] s (pruneHistory s) := .updHistory fun h => h.sublist List.filter_sublist

theorem dropRejected_keeps : Keeps [.history] s (dropRejected s) := .updHistory fun h => h.sublist List.filter_sublist

end Sys2Proof.Machine
end

