-- ==== Sys2Proof/Laws/Receipts.lean ====
section
/-! SUPPORT. The operations of the receipt scheduler: what each can do to the whole state. -/

namespace Sys2Proof.Machine

-- Checked one declaration at a time, so that the package as one text keeps within its memory limit.
set_option Elab.async false

variable {s : State}

/-! ## The order of the queue (R166) -/

theorem Receipt.before_total {a b : Receipt} (h : ¬ a.before b = true) : b.before a = true := by
  simp only [Receipt.before, Bool.or_eq_true, Bool.and_eq_true, decide_eq_true_eq] at *
  omega

theorem Receipt.before_trans {a b c : Receipt} (h : a.before b = true) (k : b.before c = true) : a.before c = true := by
  simp only [Receipt.before, Bool.or_eq_true, Bool.and_eq_true, decide_eq_true_eq] at *
  omega

/-- R166: taking a place neither loses nor doubles an entry. -/
theorem insertReceipt_perm (r : Receipt) (l : List Receipt) : (insertReceipt r l).Perm (r :: l) := by
  induction l with
  | nil => exact .refl _
  | cons x l ih =>
    simp only [insertReceipt]
    split
    · exact (List.Perm.cons x ih).trans (.swap r x l)
    · exact .refl _

/-- R166: taking a place keeps the order. -/
theorem insertReceipt_sorted (r : Receipt) {l : List Receipt} (h : l.Pairwise fun a b => a.before b = true) :
    (insertReceipt r l).Pairwise fun a b => a.before b = true := by
  induction l with
  | nil => exact List.pairwise_singleton _ _
  | cons x l ih =>
    obtain ⟨hx, hl⟩ := List.pairwise_cons.1 h
    simp only [insertReceipt]
    split
    · rename_i hxr
      refine List.pairwise_cons.2 ⟨?_, ih hl⟩
      intro y hy
      rcases List.mem_cons.1 ((insertReceipt_perm r l).mem_iff.1 hy) with rfl | hy
      · exact hxr
      · exact hx y hy
    · rename_i hxr
      have hrx := Receipt.before_total hxr
      refine List.pairwise_cons.2 ⟨?_, h⟩
      intro y hy
      rcases List.mem_cons.1 hy with rfl | hy
      · exact hrx
      · exact Receipt.before_trans hrx (hx y hy)

theorem any_eq_countP {α : Type} (p : α → Bool) (l : List α) : l.any p = decide (0 < l.countP p) := by
  induction l with
  | nil => rfl
  | cons a l ih => by_cases h : p a = true <;> simp [h, ih]

/-! ## The operations -/

theorem Receipts.wf_atReset (n : Nat) : Receipts.wf { Receipts.atReset with nextFrame := n } :=
  ⟨Nat.zero_le _, Nat.zero_le _, .nil, List.nodup_nil, fun _ h => (List.not_mem_nil h).elim,
    fun _ h => (List.not_mem_nil h).elim, rfl, fun h => nomatch h⟩

theorem Receipts.wf.joined {q : Receipts} (h : q.wf) (r : Receipt) (hl : q.queue.length < 8) (ho : r.order = q.nextOrder)
    (hf : r.inFlight = false) (ha : r.attempts = 0) :
    Receipts.wf { q with queue := insertReceipt r q.queue, nextOrder := q.nextOrder + 1 } := by
  have p := insertReceipt_perm r q.queue
  have hc : (insertReceipt r q.queue).countP (·.inFlight) = q.queue.countP (·.inFlight) := by
    rw [p.countP_eq, List.countP_cons_of_neg (by simp [hf])]
  have hany : (insertReceipt r q.queue).any (·.inFlight) = q.queue.any (·.inFlight) := by
    rw [any_eq_countP, any_eq_countP, hc]
  refine ⟨?_, ?_, insertReceipt_sorted r h.sorted, ?_, ?_, ?_, ?_, ?_⟩
  · rw [p.length_eq]; simpa using hl
  · rw [hc]; exact h.inFlight
  · rw [(p.map _).nodup_iff, List.map_cons, List.nodup_cons]
    refine ⟨fun hm => ?_, h.orders⟩
    obtain ⟨x, hx, e⟩ := List.mem_map.1 hm
    have := h.fresh x hx
    omega
  · intro x hx
    rcases List.mem_cons.1 (p.mem_iff.1 hx) with rfl | hx
    · simp [ho]
    · exact Nat.lt_succ_of_lt (h.fresh x hx)
  · intro x hx
    rcases List.mem_cons.1 (p.mem_iff.1 hx) with rfl | hx
    · simp [ha]
    · exact h.attempts x hx
  · exact h.frame.trans hany.symm
  · intro k; exact hany.trans (h.wait k)

/-- R164: a receipt request admits one entry, or posts its drop. -/
theorem requestReceipt_keeps (x : Slot) (kind : ReceiptKind) (ackDelay : Nat) :
    Keeps [.receipts, .events] s (requestReceipt x kind ackDelay s) := by
  unfold requestReceipt
  split
  · split
    · rename_i h
      exact (Keeps.updReceipts fun w => w.joined _ h rfl rfl rfl).mono
    · exact (postDevice_keeps _ _).mono
  · exact .refl _ s

theorem markFirstDue_map {α : Type} (uptime : Nat) (f : Receipt → α)
    (h : ∀ r b, f { r with inFlight := b } = f r) (l : List Receipt) : (markFirstDue uptime l).map f = l.map f := by
  induction l with
  | nil => rfl
  | cons r l ih =>
    simp only [markFirstDue]
    split
    · simp [h]
    · simp [ih]

theorem markFirstDue_count (uptime : Nat) (l : List Receipt) (h : l.any (·.inFlight) = false)
    (k : (l.find? (Receipt.isDue uptime)).isSome = true) : (markFirstDue uptime l).countP (·.inFlight) = 1 := by
  induction l with
  | nil => simp at k
  | cons r l ih =>
    simp only [List.any_cons, Bool.or_eq_false_iff] at h
    simp only [markFirstDue]
    split
    · have h0 : l.countP (·.inFlight) = 0 := by
        have := any_eq_countP (·.inFlight) l
        rw [h.2] at this
        simpa using this
      rw [List.countP_cons_of_pos (by rfl), h0]
    · rename_i hd
      rw [List.find?_cons_of_neg hd] at k
      rw [List.countP_cons_of_neg (by simp [h.1]), ih h.2 k]

theorem pairwise_before_iff (l : List Receipt) : (l.Pairwise fun a b => a.before b = true) ↔
    (l.map fun r => (r.due, r.order)).Pairwise fun a b => a.1 < b.1 ∨ (a.1 = b.1 ∧ a.2 ≤ b.2) := by
  rw [List.pairwise_map]
  simp [Receipt.before]

theorem Receipts.wf.handOff {q : Receipts} (h : q.wf) (uptime : Nat) (hn : q.queue.any (·.inFlight) = false)
    (k : (q.queue.find? (Receipt.isDue uptime)).isSome = true) :
    Receipts.wf { q with
      queue := markFirstDue uptime q.queue, wait := none, frame := some q.nextFrame, nextFrame := q.nextFrame + 1 } := by
  have hm {α : Type} (f : Receipt → α) (hf : ∀ r b, f { r with inFlight := b } = f r) := markFirstDue_map uptime f hf q.queue
  have hc := markFirstDue_count uptime q.queue hn k
  have hmem (f : Receipt → Nat) (hf : ∀ r b, f { r with inFlight := b } = f r) (x : Receipt)
      (hx : x ∈ markFirstDue uptime q.queue) : ∃ y ∈ q.queue, f y = f x := by
    have := List.mem_map_of_mem (f := f) hx
    rw [hm f hf] at this
    exact List.mem_map.1 this
  refine ⟨?_, ?_, ?_, ?_, ?_, ?_, ?_, ?_⟩
  · have := congrArg List.length (hm (fun _ => ()) fun _ _ => rfl)
    simp only [List.length_map] at this
    rw [this]; exact h.length
  · rw [hc]
  · rw [pairwise_before_iff, hm _ fun _ _ => rfl, ← pairwise_before_iff]; exact h.sorted
  · rw [hm _ fun _ _ => rfl]; exact h.orders
  · intro x hx
    obtain ⟨y, hy, e⟩ := hmem (·.order) (fun _ _ => rfl) x hx
    rw [← e]; exact h.fresh y hy
  · intro x hx
    obtain ⟨y, hy, e⟩ := hmem (·.attempts) (fun _ _ => rfl) x hx
    rw [← e]; exact h.attempts y hy
  · simp [any_eq_countP, hc]
  · intro e; cases e

/-- R167: the test for a handoff changes the staging place and the receipts only. -/
theorem beginHandoff_keeps : Keeps [.modem, .receipts] s (beginHandoff s) := by
  unfold beginHandoff
  split
  · rename_i h
    split
    · exact .refl _ s
    · rename_i r hr
      have hn : s.receipts.queue.any (·.inFlight) = false := by simpa using (Bool.and_eq_true_iff.1 h).2
      refine (Keeps.updModem (f := fun m => { m with uplinkStaged := _ }) fun w => ?_).trans (.updReceipts ?_)
      · exact ⟨w.rx, w.fifo_length, w.fifo_frames, w.frameErrors, w.overflow, w.formatDiscards, w.mutedDiscards,
          w.knownDiscards, w.noRoomDiscards⟩
      · exact fun w => w.handOff _ hn (by simp only [State.updModem_receipts]; rw [hr]; rfl)
  · exact .refl _ s

/-- The queue split at its entry in flight. -/
theorem find_inFlight {q : Receipts} {r : Receipt} (hr : q.queue.find? (·.inFlight) = some r) :
    ∃ a b, q.queue = a ++ r :: b ∧ r.inFlight = true ∧ q.queue.eraseP (·.inFlight) = a ++ b := by
  obtain ⟨hp, a, b, e, ha⟩ := List.find?_eq_some_iff_append.1 hr
  refine ⟨a, b, e, hp, ?_⟩
  rw [e, List.eraseP_append_right _ (by simpa using ha), List.eraseP_cons_of_pos hp]

theorem Receipts.wf.ended {q : Receipts} (h : q.wf) :
    Receipts.wf { q with queue := q.queue.eraseP (·.inFlight), wait := none, frame := none } := by
  have hs : (q.queue.eraseP (·.inFlight)).Sublist q.queue := List.eraseP_sublist
  have hc : (q.queue.eraseP (·.inFlight)).countP (·.inFlight) = 0 := by
    cases hr : q.queue.find? (·.inFlight) with
    | none =>
      have hn := List.find?_eq_none.1 hr
      rw [List.eraseP_of_forall_not hn]
      exact List.countP_eq_zero.2 hn
    | some r =>
      obtain ⟨a, b, e, hp, e'⟩ := find_inFlight hr
      have := h.inFlight
      rw [e, List.countP_append, List.countP_cons_of_pos hp] at this
      rw [e', List.countP_append]
      change a.countP Receipt.inFlight + b.countP Receipt.inFlight = 0
      change a.countP Receipt.inFlight + (b.countP Receipt.inFlight + 1) ≤ 1 at this
      omega
  refine ⟨hs.length_le.trans h.length, by rw [hc]; omega, h.sorted.sublist hs, h.orders.sublist (hs.map _), ?_, ?_, ?_, ?_⟩
  · exact fun r hr => h.fresh r (hs.subset hr)
  · exact fun r hr => h.attempts r (hs.subset hr)
  · simp [any_eq_countP, hc]
  · intro e; cases e

/-- R169, R170: the end of a handoff changes the receipts only. -/
theorem endHandoff_keeps : Keeps [.receipts] s (endHandoff s) := .updReceipts fun w => w.ended

theorem Receipts.wf.retried {q : Receipts} (h : q.wf) {r : Receipt} (hr : q.queue.find? (·.inFlight) = some r) (due : Nat)
    (ha : r.attempts + 1 ≤ 3) :
    Receipts.wf { q with
      queue := insertReceipt { r with attempts := r.attempts + 1, inFlight := false, due := due }
        (q.queue.eraseP (·.inFlight)), wait := none, frame := none } := by
  obtain ⟨a, b, e, hp, e'⟩ := find_inFlight hr
  have w := h.ended
  have hm : r ∈ q.queue := by rw [e]; simp
  have p := insertReceipt_perm { r with attempts := r.attempts + 1, inFlight := false, due := due }
    (q.queue.eraseP (·.inFlight))
  have hc : (insertReceipt { r with attempts := r.attempts + 1, inFlight := false, due := due }
      (q.queue.eraseP (·.inFlight))).countP (·.inFlight) = (q.queue.eraseP (·.inFlight)).countP (·.inFlight) := by
    rw [p.countP_eq, List.countP_cons_of_neg (by simp)]
  refine ⟨?_, ?_, insertReceipt_sorted _ w.sorted, ?_, ?_, ?_, ?_, ?_⟩
  · have := h.length
    rw [e] at this
    rw [p.length_eq, e']
    simp only [List.length_append, List.length_cons] at *
    omega
  · rw [hc]; exact w.inFlight
  · rw [(p.map _).nodup_iff, List.map_cons, e']
    have := h.orders
    rw [e, List.map_append, List.map_cons] at this
    rw [List.map_append]
    exact (List.perm_middle.nodup_iff).1 this
  · intro x hx
    rcases List.mem_cons.1 (p.mem_iff.1 hx) with rfl | hx
    · exact h.fresh r hm
    · exact w.fresh x hx
  · intro x hx
    rcases List.mem_cons.1 (p.mem_iff.1 hx) with rfl | hx
    · exact ha
    · exact w.attempts x hx
  · have := w.frame
    rw [any_eq_countP] at this ⊢
    rw [hc]; exact this
  · intro k; cases k

/-- R170: a failed handoff puts its entry back, or drops it and posts the drop. -/
theorem failHandoff_keeps {r : Receipt} (hr : s.receipts.queue.find? (·.inFlight) = some r) :
    Keeps [.receipts, .events] s (failHandoff r s) := by
  unfold failHandoff
  simp only
  split
  · exact endHandoff_keeps.trans (postDevice_keeps _ _)
  · rename_i h4
    split
    · exact endHandoff_keeps.trans (postDevice_keeps _ _)
    · refine Keeps.mono (l := [.receipts]) (.ofFrame ?_ (receipts := fun _ w => ?_))
      · intro b hb
        cases b <;> first | rfl | simp at hb
      · exact w.retried hr _ (by simp only [Config.handoffAttempts] at h4; omega)

theorem postStale_keeps (l : List Receipt) : Keeps [.events] s (postStale l s) := by
  induction l generalizing s with
  | nil => exact .refl _ s
  | cons r l ih => exact (postDevice_keeps _ _).trans ih

theorem Receipts.wf.dropped {q : Receipts} (h : q.wf) (t : Timebase) :
    Receipts.wf { q with queue := q.queue.filter fun r => !r.isStale t } := by
  have hs : (q.queue.filter fun r => !r.isStale t).Sublist q.queue := List.filter_sublist
  have hc : (q.queue.filter fun r => !r.isStale t).countP (·.inFlight) = q.queue.countP (·.inFlight) := by
    rw [List.countP_filter]
    refine List.countP_congr fun r _ => ?_
    simp only [Receipt.isStale]
    cases r.inFlight <;> simp
  have hany : (q.queue.filter fun r => !r.isStale t).any (·.inFlight) = q.queue.any (·.inFlight) := by
    rw [any_eq_countP, any_eq_countP, hc]
  exact ⟨hs.length_le.trans h.length, by rw [hc]; exact h.inFlight, h.sorted.sublist hs, h.orders.sublist (hs.map _),
    fun r hr => h.fresh r (hs.subset hr), fun r hr => h.attempts r (hs.subset hr), h.frame.trans hany.symm,
    fun k => hany.trans (h.wait k)⟩

/-- R172: dropping the stale entries changes the receipts and the event set only. -/
theorem dropStale_keeps : Keeps [.receipts, .events] s (dropStale s) :=
  (postStale_keeps _).trans (.updReceipts fun w => w.dropped _)

/-- R79, R80: a change of the expiries, and of what is kept of their being reached, keeps the form of the queue. -/
theorem Receipts.wf.withExpiries {q : Receipts} (h : q.wf) (e : Receipt → Expiry) (k : Receipt → Bool) :
    Receipts.wf { q with queue := q.queue.map fun r => { r with expiry := e r, expiryReached := k r } } := by
  have hm {α : Type} (g : Receipt → α) (hg : ∀ r, g { r with expiry := e r, expiryReached := k r } = g r) :
      (q.queue.map fun r => { r with expiry := e r, expiryReached := k r }).map g = q.queue.map g := by
    rw [List.map_map]; exact List.map_congr_left fun r _ => hg r
  have hc : (q.queue.map fun r => { r with expiry := e r, expiryReached := k r }).countP (·.inFlight) =
      q.queue.countP (·.inFlight) := by
    rw [List.countP_map]; rfl
  refine ⟨by rw [List.length_map]; exact h.length, by rw [hc]; exact h.inFlight, ?_, ?_, ?_, ?_, ?_, ?_⟩
  · rw [pairwise_before_iff, hm _ fun _ => rfl, ← pairwise_before_iff]; exact h.sorted
  · rw [hm _ fun _ => rfl]; exact h.orders
  · intro x hx
    obtain ⟨y, hy, rfl⟩ := List.mem_map.1 hx
    exact h.fresh y hy
  · intro x hx
    obtain ⟨y, hy, rfl⟩ := List.mem_map.1 hx
    exact h.attempts y hy
  · have := h.frame
    rw [any_eq_countP] at this ⊢
    rw [hc]; exact this
  · intro k
    have := h.wait k
    rw [any_eq_countP] at this ⊢
    rw [hc]; exact this

/-- R80: keeping what is reached changes the receipts only. -/
theorem keepReached_keeps : Keeps [.receipts] s (keepReached s) :=
  .updReceipts fun w => w.withExpiries (·.expiry) fun r => r.expired s.time

end Sys2Proof.Machine
end

