-- ==== Sys2Proof/Laws/Store.lean ====
section
/-! SUPPORT. The operations of the journal store and of the attention generator: what each can do to the whole state. -/

namespace Sys2Proof.Machine

-- Checked one declaration at a time, so that the package as one text keeps within its memory limit.
set_option Elab.async false

variable {s : State}

/-! ## The store -/

/-- What holds of the store between two operations. -/
def StoreBase (t : Store) : Prop := t.writePos ≤ 128 ∧ t.eraseFails ≤ 5

theorem StoreWf.base {l : Lines} {t : Store} (h : StoreWf l t) : StoreBase t := ⟨h.writePos, h.eraseFails⟩

/-- A store state without an operation. -/
theorem StoreBase.quiet {l : Lines} {t : Store} (h : StoreBase t) (st : StoreState)
    (hs : st = .idle ∨ st = .failed ∨ st = .loading) : StoreWf l { t with state := st } := by
  refine ⟨h.1, h.2, ?_, ?_, ?_⟩ <;> rcases hs with rfl | rfl | rfl <;> intro _ _ e <;> cases e

theorem startOperation_frame (phase : Option Phase) (op : Operation) :
    changesOnly [.store] s (startOperation phase op s) := fun b hb => by cases b <;> first | rfl | simp at hb

/-- R112: an operation started, or noted while SUPPLY_OK is low. -/
theorem startOperation_wf {phase : Option Phase} {op : Operation} (h : StoreBase s.store) (o : op.wf s.store phase) :
    StoreWf (startOperation phase op s).lines (startOperation phase op s).store := by
  have ow : op.wf (startOperation phase op s).store phase := by cases op <;> exact o
  refine ⟨h.1, h.2, ?_, ?_, ?_⟩
  · intro ph op' e
    simp only [startOperation, State.updStore_store, State.updStore_lines] at e ⊢
    split at e
    · rename_i hs
      cases e
      exact ⟨hs, ow⟩
    · cases e
  · intro ph op' e
    simp only [startOperation, State.updStore_store, State.updStore_lines] at e ⊢
    split at e
    · cases e
    · rename_i hs; simpa using hs
  · intro ph op' e
    simp only [startOperation, State.updStore_store] at e
    split at e
    · cases e
    · cases e; exact ow

theorem nextToPrefill_lt {v : Vector (BitVec 64) 128} {p q : Nat} (h : nextToPrefill v p = some q) : q < 128 := by
  have := List.mem_of_find?_eq_some h
  simpa [Config.journalPositions] using this

theorem prefillFrom_frame (p : Nat) : changesOnly [.store] s (prefillFrom p s) := by
  unfold prefillFrom
  split <;> exact startOperation_frame _ _

theorem prefillFrom_wf (p : Nat) (h : StoreBase s.store) (he : s.store.eraseFails = 0) :
    StoreWf (prefillFrom p s).lines (prefillFrom p s).store := by
  unfold prefillFrom
  split
  · rename_i q hq
    exact startOperation_wf h ⟨nextToPrefill_lt hq, he, rfl⟩
  · exact startOperation_wf h ⟨by omega, rfl⟩

theorem startCompaction_frame : changesOnly [.history, .store] s (startCompaction s) := by
  unfold startCompaction
  refine changesOnly.trans (l := [.history, .store]) (l' := [.store]) ?_ (prefillFrom_frame 0) (by simp) (by simp)
  intro b hb
  cases b <;> first | rfl | simp at hb

theorem startCompaction_history :
    (startCompaction s).history = s.history.map fun h => { h with persisted := false } := by
  have := prefillFrom_frame (s := (s.updHistory fun l => l.map fun h => { h with persisted := false }).updStore fun t =>
    { t with eraseFails := 0 }) 0 .history (by simp)
  exact this

theorem startCompaction_wf (h : StoreBase s.store) :
    StoreWf (startCompaction s).lines (startCompaction s).store :=
  prefillFrom_wf 0 ⟨h.1, by simp⟩ (by simp)

theorem startCompaction_keeps : Keeps [.history, .store] s (startCompaction s) :=
  .ofFrame startCompaction_frame
    (history := fun _ h => by rw [startCompaction_history]; exact h.map _ fun _ => rfl)
    (store := fun _ h => startCompaction_wf h.base)

theorem startOperation_keeps {phase : Option Phase} {op : Operation} (o : StoreWf s.lines s.store → op.wf s.store phase) :
    Keeps [.store] s (startOperation phase op s) :=
  .ofFrame (startOperation_frame _ _) (store := fun _ h => startOperation_wf h.base (o h))

/-- R104: the IDLE store's selection. -/
theorem storeSelect_keeps : Keeps [.history, .store] s (storeSelect s) := by
  unfold storeSelect
  split
  · split
    · exact .refl _ s
    · split
      · rename_i hs
        refine (Keeps.updStore fun h => ?_).mono
        refine ⟨h.writePos, h.eraseFails, fun _ _ e => (nomatch e), fun _ _ _ => by simpa using hs,
          fun _ _ e => (nomatch e)⟩
      · split
        · rename_i hw
          exact (startOperation_keeps (op := .program _ 1 false) fun _ => ⟨hw, by omega, by omega, .inl rfl⟩).mono
        · exact startCompaction_keeps
  · exact .refl _ s

theorem rewriteNext_frame : changesOnly [.history, .store] s (rewriteNext s) := by
  unfold rewriteNext
  split
  · intro b hb; cases b <;> first | rfl | simp at hb
  · split
    · exact (startOperation_frame _ _).mono (by simp)
    · exact startCompaction_frame

theorem rewriteNext_history (h : HistoryWf s.history) : HistoryWf (rewriteNext s).history := by
  unfold rewriteNext
  split
  · exact h
  · split
    · exact h
    · rw [startCompaction_history]; exact h.map _ fun _ => rfl

theorem rewriteNext_wf (h : StoreBase s.store) : StoreWf (rewriteNext s).lines (rewriteNext s).store := by
  unfold rewriteNext
  split
  · exact h.quiet _ (.inl rfl)
  · split
    · rename_i hw
      exact startOperation_wf (op := .program _ 1 false) h ⟨hw, by omega, by omega, .inr rfl⟩
    · exact startCompaction_wf h

/-- R105, R106, R110: what follows a position dealt with. -/
theorem positionDone_keeps (phase : Option Phase) : Keeps [.history, .store] s (positionDone phase s) := by
  have hb : StoreWf s.lines s.store → StoreBase { s.store with writePos := bump Config.journalPositions s.store.writePos } :=
    fun h => ⟨by simp only [bump, Config.journalPositions]; omega, h.eraseFails⟩
  unfold positionDone
  simp only
  cases phase with
  | none =>
    refine (Keeps.updStore (f := fun t =>
      { t with writePos := bump Config.journalPositions t.writePos, state := .idle }) fun h => ?_).trans storeSelect_keeps
    exact (hb h).quiet _ (.inl rfl)
  | some ph =>
    refine .ofFrame ?_ (history := fun _ h => rewriteNext_history h) (store := fun _ h => rewriteNext_wf (hb h))
    exact changesOnly.trans (l := [.store]) (fun b hb => by cases b <;> first | rfl | simp at hb) rewriteNext_frame
      (by simp) (by simp)

theorem eraseFailed_frame : changesOnly [.store, .events] s (eraseFailed s) := by
  unfold eraseFailed
  extract_lets t
  have ht : changesOnly [.store] s t := fun b hb => by cases b <;> first | rfl | simp at hb
  split
  · exact (ht.trans (m := [.store]) (l' := [.store]) (fun b hb => by cases b <;> first | rfl | simp at hb)
      (fun _ h => h) fun _ h => h).trans (postDevice_keeps _ _).frame (by decide) (by decide)
  · exact ht.trans (startOperation_frame _ _) (by decide) (by decide)

/-- R109, R111: the store after a failed erase attempt. -/
theorem eraseFailed_wf (w : StoreBase s.store) (h : s.store.eraseFails < 5) :
    StoreWf (eraseFailed s).lines (eraseFailed s).store := by
  unfold eraseFailed
  extract_lets t
  have ht : StoreBase t.store := ⟨w.1, h⟩
  split
  · exact ht.quiet _ (.inr (.inl rfl))
  · rename_i hf
    simp only [Config.eraseAttempts] at hf
    exact startOperation_wf ht ⟨by omega, rfl⟩

theorem eraseFailed_events (w : EventsWf s.events) : EventsWf (eraseFailed s).events := by
  unfold eraseFailed
  extract_lets t
  split
  · exact mergeDevicePosting_wf _ _ w
  · exact w

/-- R109, R111: what follows a failed erase attempt. -/
theorem eraseFailed_keeps (h : s.store.eraseFails < 5) : Keeps [.store, .events] s (eraseFailed s) :=
  .ofFrame eraseFailed_frame (store := fun _ w => eraseFailed_wf w.base h) (events := fun _ => eraseFailed_events)

/-- R100, R113: an operation stopped part way changes the journal's contents and draws a free value. -/
theorem stopOperation_frame (op : Operation) : changesOnly [.store, .draws] s (stopOperation op s) := fun b hb => by
  cases b <;> first | rfl | simp at hb

/-- R105: marking an entry persisted keeps the list's keys. -/
theorem markPersisted_keeps (e : HistoryEntry) (replaced : Bool) : Keeps [.history] s (markPersisted e replaced s) := by
  unfold markPersisted
  split
  · exact .refl _ s
  · exact .updHistory fun h => h.map _ fun x => by split <;> rfl

/-- A program of a position's contents. -/
theorem setJournal_keeps (f : Store → Vector (BitVec 64) 128) : Keeps [.store] s (s.updStore fun t => { t with journal := f t }) :=
  .updStore fun h => ⟨h.writePos, h.eraseFails, fun ph op e => ⟨(h.busy ph op e).1, by
    have := (h.busy ph op e).2; cases op <;> exact this⟩, h.deferred, fun ph op e => by
    have := h.noted ph op e; cases op <;> exact this⟩

/-! ## The attention generator -/

theorem Cadences.ofRank_wf {c : Settings} (h : c.wf) (rank : Nat) : CadenceWf (c.cadences.ofRank rank) := by
  unfold Cadences.ofRank
  split
  · exact h.rank4
  · split
    · exact h.rank3
    · split
      · exact h.rank2
      · exact h.rank1

/-- R142: the start of a cycle. -/
theorem startCycle_keeps (owner : Owner) (rank : Nat) : Keeps [.cycle] s (startCycle owner rank s) := by
  unfold startCycle
  extract_lets segments
  refine .updCycle fun hs _ x hx => ?_
  have hc : CadenceWf segments := Cadences.ofRank_wf hs rank
  have hp := hs.profile.attentionTime
  clear_value segments
  cases hx
  cases segments with
  | nil => exact absurd hc.pos (by simp)
  | cons g l =>
    have hg := (hc.segments g List.mem_cons_self).2
    refine ⟨hc, hs.toneA, hs.toneB, hp, Nat.zero_lt_succ _, ?_, ?_⟩
    · intro g' e
      cases (show some g = some g' from e)
      exact Nat.le_refl _
    · show 0 + g.length ≤ 3254
      omega

theorem stopCycle_keeps : Keeps [.cycle] s (stopCycle s) := .updCycle fun _ _ _ h => nomatch h

/-- R134: stopping a preview. -/
theorem stopPreview_keeps : Keeps [.cycle, .pres] s (stopPreview s) := by
  unfold stopPreview
  split
  · exact stopCycle_keeps.trans .updPres
  · exact .refl _ s

end Sys2Proof.Machine
end

