-- ==== Sys2Proof/Laws/Presentation.lean ====
section
/-! SUPPORT. The operations of presentation, the endings of slots, and what closes a step: what each can do to the whole
state. -/

namespace Sys2Proof.Machine

-- Checked one declaration at a time, so that the package as one text keeps within its memory limit.
set_option Elab.async false

variable {s : State}

/-- The blocks that presentation changes. -/
def presentationBlocks : List Block := [.slots, .pres, .cycle, .receipts, .events]

/-- The blocks that the ending of a slot changes. -/
def endingBlocks : List Block := [.slots, .history, .store, .pres, .cycle, .receipts, .events]

theorem joinQueue_keeps (i : SlotIndex) : Keeps [.pres] s (joinQueue i s) := .updPres

theorem presentFirst_keeps (i : SlotIndex) : Keeps [.slots, .receipts, .events] s (presentFirst i s) := by
  unfold presentFirst
  split
  · exact .refl _ s
  · split
    · exact .refl _ s
    · have h := modSlot_keeps (s := s) i (fun y => { y with firstPresentation := some s.time.uptime }) fun _ => rfl
      simp only
      split
      · exact h.trans (requestReceipt_keeps ..)
      · exact h.mono

theorem activate_keeps (i : SlotIndex) : Keeps presentationBlocks s (activate i s) := by
  unfold activate
  exact ((((Keeps.updPres.trans (m := [.pres, .slots]) (enterState_keeps ..)).trans
    (m := [.pres, .slots, .cycle]) stopPreview_keeps).trans (m := [.pres, .slots, .cycle])
    (startCycle_keeps ..)).trans (m := [.pres, .slots, .cycle, .events]) (postSlot_keeps ..)).trans (presentFirst_keeps i)

theorem interrupt_keeps (a : SlotIndex) : Keeps presentationBlocks s (interrupt a s) := by
  unfold interrupt
  exact ((stopCycle_keeps.trans (m := [.cycle, .pres]) .updPres).trans (m := [.cycle, .pres, .slots])
    (enterState_keeps ..)).trans (joinQueue_keeps a)

theorem displace_keeps (a : SlotIndex) : Keeps presentationBlocks s (displace a s) := by
  unfold displace
  exact (Keeps.updPres.trans (m := [.pres, .slots]) (enterState_keeps ..)).trans (postSlot_keeps ..)

theorem decideOnce_keeps : Keeps presentationBlocks s (decideOnce s) := by
  unfold decideOnce
  split
  · exact .refl _ s
  · split
    · exact activate_keeps _
    · split
      · split
        · exact (interrupt_keeps _).trans (activate_keeps _) (fun _ h => h) fun _ h => h
        · exact .refl _ s
      · split
        · exact (displace_keeps _).trans (activate_keeps _) (fun _ h => h) fun _ h => h
        · exact .refl _ s
      · exact .refl _ s

/-- R117: the presentation decision. -/
theorem presentationDecision_keeps : Keeps presentationBlocks s (presentationDecision s) := by
  unfold presentationDecision
  split
  · exact decideOnce_keeps.trans decideOnce_keeps (fun _ h => h) fun _ h => h
  · exact decideOnce_keeps

/-- R104, R117, R167: what closes a step. -/
theorem settle_keeps : Keeps tableBlocks s (settle s) := by
  unfold settle
  exact (presentationDecision_keeps.trans (m := .modem :: presentationBlocks) beginHandoff_keeps).trans storeSelect_keeps

theorem leavePresentation_keeps (i : SlotIndex) : Keeps [.pres, .cycle] s (leavePresentation i s) := by
  unfold leavePresentation
  split
  · exact Keeps.updPres.mono
  · exact Keeps.updPres.mono
  · exact stopCycle_keeps.trans .updPres
  · exact Keeps.updPres.mono
  · exact .refl _ s

/-- R87: a withdrawal. -/
theorem withdraw_keeps (i : SlotIndex) (outcome : Settled) :
    Keeps [.slots, .history, .store, .pres, .cycle, .events] s (withdraw i outcome s) := by
  unfold withdraw
  split
  · exact .refl _ s
  · simp only
    refine Keeps.trans (l := [.slots, .history, .store, .pres, .cycle]) ?_ (postSlot_keeps _ _)
    refine Keeps.trans (l := [.slots, .pres, .cycle]) ?_ (addSlotHistory_keeps _ _)
    exact (leavePresentation_keeps i).trans (modSlot_keeps i _ fun _ => rfl)

/-- R126: an acknowledgement. -/
theorem acknowledge_keeps (source : AckSource) (i : SlotIndex) : Keeps endingBlocks s (acknowledge source i s) := by
  unfold acknowledge
  split
  · exact .refl _ s
  · rename_i x hx
    extract_lets now delay u v
    have hu : Keeps [.slots, .pres, .cycle] s u := (leavePresentation_keeps i).trans (modSlot_keeps i _ fun _ => rfl)
    have hv : Keeps [.slots, .pres, .cycle, .history, .store, .events] s v :=
      (hu.trans (m := [.slots, .pres, .cycle, .history, .store]) (addSlotHistory_keeps x .presented)).trans (postSlot_keeps _ _)
    split
    · exact hv.trans (requestReceipt_keeps ..)
    · exact hv.mono

theorem acknowledgeAll_keeps (source : AckSource) (l : List SlotIndex) :
    Keeps endingBlocks s (acknowledgeAll source l s) := by
  induction l generalizing s with
  | nil => exact .refl _ s
  | cons i l ih => exact (acknowledge_keeps source i).trans ih (fun _ h => h) fun _ h => h

theorem becomeShown_keeps (i : SlotIndex) : Keeps [.slots, .pres, .events] s (becomeShown i s) := by
  unfold becomeShown
  exact ((enterState_keeps ..).trans (m := [.slots, .events]) (postSlot_keeps ..)).trans .updPres

/-- R82 to R85: a slot expiry taken. -/
theorem takeSlotExpiry_keeps (i : SlotIndex) : Keeps endingBlocks s (takeSlotExpiry i s) := by
  unfold takeSlotExpiry
  split
  · exact .refl _ s
  · rename_i x hx
    have hw : Keeps endingBlocks s (modSlot i (fun y => { y with expiry := none }) (withdraw i .expired s)) :=
      (withdraw_keeps i .expired).trans (modSlot_keeps i _ fun _ => rfl)
    split
    · exact .refl _ s
    · exact ((addSlotHistory_keeps ..).trans (m := [.history, .store, .events]) (postSlot_keeps ..)).trans (freeSlot_keeps i)
    · exact hw
    · exact hw
    · exact hw
    · exact hw
    · exact (dropSlotEntry_keeps i).trans (freeSlot_keeps i)

theorem takeSlotExpiries_keeps (l : List SlotIndex) : Keeps endingBlocks s (takeSlotExpiries l s) := by
  induction l generalizing s with
  | nil => exact .refl _ s
  | cons i l ih =>
    simp only [takeSlotExpiries]
    split
    · exact (takeSlotExpiry_keeps i).trans ih (fun _ h => h) fun _ h => h
    · exact ih

/-- R79, R80: everything an advance of the wall clock reaches. -/
theorem takeReached_keeps : Keeps endingBlocks s (takeReached s) := by
  unfold takeReached
  exact (pruneHistory_keeps.trans (m := endingBlocks) (takeSlotExpiries_keeps _)).trans dropStale_keeps

end Sys2Proof.Machine
end

