-- ==== Sys2Proof/Laws/Table.lean ====
section
/-! SUPPORT. The operations of the combiner and of the bulletin table: what each can do to the whole state. -/

namespace Sys2Proof.Machine

-- Checked one declaration at a time, so that the package as one text keeps within its memory limit.
set_option Elab.async false

variable {s : State}

/-! ## The combiner (R18 to R25) -/

/-- R20, R21: a vote keeps a score within 0 to 63. -/
theorem votePosition_score (p : Position) (q : Pair) (hp : p.score ≤ 63) (hq : q.confidence ≤ 15) :
    (votePosition p q).score ≤ 63 := by
  unfold votePosition
  split
  · exact Nat.min_le_left ..
  · split <;> simp only <;> omega

theorem firstBuffer_scores (body : Vector Pair 48) (h : ∀ q ∈ body.toList, q.confidence ≤ 15) :
    ∀ q ∈ (firstBuffer body).toList, q.score ≤ 63 := by
  intro q hq
  simp only [firstBuffer, mapEntries_toList, List.mem_map] at hq
  obtain ⟨p, hp, rfl⟩ := hq
  have := h p hp
  simp only
  omega

theorem voteBuffer_scores (b : Buffer) (body : Vector Pair 48) (hb : ∀ q ∈ b.toList, q.score ≤ 63)
    (h : ∀ q ∈ body.toList, q.confidence ≤ 15) : ∀ q ∈ (voteBuffer b body).toList, q.score ≤ 63 := by
  intro q hq
  simp only [voteBuffer, zipEntries_toList] at hq
  obtain ⟨p, hp, c, hc, rfl⟩ : ∃ p ∈ b.toList, ∃ c ∈ body.toList, votePosition p c = q := by
    obtain ⟨k, hk, rfl⟩ := List.mem_iff_getElem.1 hq
    rw [List.length_zipWith] at hk
    refine ⟨_, List.getElem_mem (show k < b.toList.length by omega), _,
      List.getElem_mem (show k < body.toList.length by omega), ?_⟩
    rw [List.getElem_zipWith]
  exact votePosition_score p c (hb p hp) (h c hc)

theorem smallestScore_le (b : Buffer) : smallestScore b ≤ 63 := by
  unfold smallestScore
  have h : ∀ (l : List Position) (m : Nat), l.foldl (fun m q => min m q.score) m ≤ m := by
    intro l
    induction l with
    | nil => exact fun m => Nat.le_refl m
    | cons q l ih => exact fun m => (ih _).trans (Nat.min_le_left ..)
  exact h _ 63

/-- R5: the confidences of a clamped copy. -/
theorem clamped_confidence (c : Copy) : ∀ q ∈ c.clamped.body.toList, q.confidence ≤ 15 := by
  intro q hq
  simp only [Copy.clamped, mapEntries_toList, List.mem_map] at hq
  obtain ⟨p, _, rfl⟩ := hq
  exact Nat.min_le_right ..

/-- The buffer a copy leaves in a record. -/
def SheetRecord.combined (body : Vector Pair 48) (r : SheetRecord) : Buffer :=
  match r.buffer with
  | none => firstBuffer body
  | some b => voteBuffer b body

/-- R22 to R25: the record that combining a copy leaves. -/
theorem combine_eq (profile : Profile) (uptime : Nat) (cell : BitVec 16) (body : Vector Pair 48) (r : SheetRecord) :
    r.combine profile uptime cell body =
      if sheetCheck (r.combined body) then
        if profile.floor ≤ smallestScore (r.combined body) then
          { r with
            buffer := some (r.combined body), copies := bump 255 r.copies, margin := some (smallestScore (r.combined body))
            passingCell := some cell, state := .accepted, holdDeadline := none }
        else
          { r with
            buffer := some (r.combined body), copies := bump 255 r.copies, margin := some (smallestScore (r.combined body))
            passingCell := some cell, state := .held
            holdDeadline := some (r.holdDeadline.getD (addSeconds uptime profile.holdTime)) }
      else
        { r with
          buffer := some (r.combined body), copies := bump 255 r.copies, state := .combining, holdDeadline := none } := rfl

theorem combine_buffer (profile : Profile) (uptime : Nat) (cell : BitVec 16) (body : Vector Pair 48) (r : SheetRecord) :
    (r.combine profile uptime cell body).buffer = some (r.combined body) := by
  rw [combine_eq]
  split
  · split <;> rfl
  · rfl

/-- R19 to R25: combining a copy keeps a record in its form. -/
theorem combine_wf (profile : Profile) (uptime : Nat) (cell : BitVec 16) {body : Vector Pair 48} {r : SheetRecord}
    (h : r.wf) (ha : r.state ≠ .accepted) (hb : ∀ q ∈ body.toList, q.confidence ≤ 15) :
    (r.combine profile uptime cell body).wf := by
  have hold : r.onHold = false := by
    cases e : r.onHold with
    | false => rfl
    | true => exact absurd (h.onHold e) ha
  have hs : ∀ q ∈ (r.combined body).toList, q.score ≤ 63 := by
    unfold SheetRecord.combined
    split
    · exact firstBuffer_scores body hb
    · rename_i b e
      exact voteBuffer_scores b body (h.scores b e) hb
  have hm := smallestScore_le (r.combined body)
  have hc : bump 255 r.copies ≤ 255 := Nat.min_le_right ..
  rw [combine_eq]
  generalize r.combined body = b at *
  have hscore : ∀ b', some b = some b' → ∀ q ∈ b'.toList, q.score ≤ 63 := fun b' e => by cases e; exact hs
  split
  · rename_i hk
    split
    · exact ⟨by simp, by simp, hc, fun m e => by cases e; exact hm, hscore, fun b' e => by cases e; simp [hk], fun _ => rfl⟩
    · exact ⟨by simp, by simp, hc, fun m e => by cases e; exact hm, hscore, fun b' e => by cases e; simp [hk],
        fun e => by simp [hold] at e⟩
  · rename_i hk
    exact ⟨by simp, by simp, hc, fun m e => h.margin m e, hscore, fun b' e => by cases e; simp [hk],
      fun e => by simp [hold] at e⟩

/-! ## Slots and buffers -/

theorem Slot.withSheet_wf {x : Slot} (h : x.wf) {index : Nat} {f : SheetRecord → SheetRecord} {r : SheetRecord}
    (hr : x.sheets[index]? = some r) (hf : r.wf → (f r).wf) : (x.withSheet index f).wf := by
  refine ⟨?_, ?_, ?_⟩
  · simpa [Slot.withSheet] using h.count_pos
  · simpa [Slot.withSheet] using h.count_le
  · intro q hq
    simp only [Slot.withSheet] at hq
    rw [List.mem_iff_getElem?] at hq
    obtain ⟨k, hk⟩ := hq
    rw [List.getElem?_modify] at hk
    by_cases e : index = k
    · subst e
      rw [hr] at hk
      simp at hk
      subst hk
      exact hf (h.sheets r (List.mem_of_getElem? hr))
    · simp only [if_neg e] at hk
      have : x.sheets[k]? = some q := by simpa using hk
      exact h.sheets q (List.mem_of_getElem? this)

theorem countP_modify {α : Type} (p : α → Bool) (f : α → α) (l : List α) (k : Nat) (a : α) (h : l[k]? = some a) :
    (l.modify k f).countP p + (if p a then 1 else 0) = l.countP p + (if p (f a) then 1 else 0) := by
  induction l generalizing k with
  | nil => simp at h
  | cons b l ih =>
    cases k with
    | zero =>
      simp at h
      subst h
      simp [List.countP_cons]
      omega
    | succ k =>
      have := ih k (by simpa using h)
      simp [List.countP_cons]
      omega

/-- R47: the buffers of a slot after one of its records is changed. -/
theorem Slot.withSheet_buffers (x : Slot) {index : Nat} {f : SheetRecord → SheetRecord} {r : SheetRecord}
    (hr : x.sheets[index]? = some r) :
    (x.withSheet index f).buffers + (if r.buffer.isSome then 1 else 0) =
      x.buffers + (if (f r).buffer.isSome then 1 else 0) := countP_modify _ f x.sheets index r hr

theorem SheetRecord.wf_atCreation : SheetRecord.atCreation.wf :=
  ⟨by decide, by decide, by decide, fun _ e => (nomatch e), fun _ e => (nomatch e), fun _ e => (nomatch e),
    fun e => (nomatch e)⟩

/-- R39 step 4: a new slot is in its form, and holds no buffer yet. -/
theorem newSlot_wf (c : Copy) (uptime gatherTimeout : Nat) (p : Option SlotIndex) (h1 : 1 ≤ c.count) (h2 : c.count ≤ 12) :
    (newSlot c uptime gatherTimeout p).wf :=
  ⟨by simpa [newSlot] using h1, by simpa [newSlot] using h2, fun r hr => by
    rw [List.eq_of_mem_replicate hr]; exact SheetRecord.wf_atCreation⟩

theorem newSlot_buffers (c : Copy) (uptime gatherTimeout : Nat) (p : Option SlotIndex) :
    (newSlot c uptime gatherTimeout p).buffers = 0 := by
  simp [newSlot, Slot.buffers, SheetRecord.atCreation]

theorem newSlot_sheet (c : Copy) (uptime gatherTimeout : Nat) (p : Option SlotIndex) (h : c.index < c.count) :
    (newSlot c uptime gatherTimeout p).sheets[c.index]? = some .atCreation := by
  simp [newSlot, h]

/-! ## Reclaim (R47, R48) -/

/-- R47: what is picked is eligible, and is not the requester's own slot. -/
theorem pickSlot_spec {own : Option SlotIndex} {eligible : Slot → Bool} {better : Slot → Slot → Bool}
    {l : List SlotIndex} {best : Option SlotIndex} {v : SlotIndex} (h : pickSlot s own eligible better l best = some v) :
    best = some v ∨ own ≠ some v ∧ ∃ x, slotOf s v = some x ∧ eligible x = true := by
  induction l generalizing best with
  | nil => exact .inl h
  | cons i l ih =>
    simp only [pickSlot] at h
    split at h
    · exact ih h
    · rename_i x hx
      split at h
      · rename_i hc
        simp only [Bool.and_eq_true, decide_eq_true_eq] at hc
        split at h
        · rcases ih h with e | e
          · cases e; exact .inr ⟨hc.1, x, hx, hc.2⟩
          · exact .inr e
        · rcases ih h with e | e
          · split at e
            · cases e; exact .inr ⟨hc.1, x, hx, hc.2⟩
            · exact .inl e
          · exact .inr e
      · exact ih h

/-- R47: a victim is a DONE, GATHERING or ADMITTED slot other than the requester's own. -/
theorem victim_spec {rank : Nat} {own : Option SlotIndex} {v : SlotIndex} (h : victim s rank own = some v) :
    own ≠ some v ∧ ∃ x, slotOf s v = some x ∧ (x.state = .done ∨ x.state = .gathering ∨ x.state = .admitted) := by
  unfold victim at h
  rcases Option.or_eq_some_iff.1 h with h | ⟨_, h⟩
  · rcases pickSlot_spec h with e | ⟨e, x, hx, hp⟩
    · cases e
    · exact ⟨e, x, hx, .inl (by simpa using hp)⟩
  · rcases pickSlot_spec h with e | ⟨e, x, hx, hp⟩
    · cases e
    · simp only [Bool.and_eq_true, Bool.or_eq_true, decide_eq_true_eq] at hp
      exact ⟨e, x, hx, .inr hp.1⟩

/-- R48: reclaiming a slot. -/
theorem reclaim_keeps (i : SlotIndex) : Keeps [.slots, .pres, .events] s (reclaim i s) := by
  unfold reclaim
  refine Keeps.trans (l := [.events]) ?_ (freeSlot_keeps i)
  split
  · exact dropSlotEntry_keeps i
  · exact postSlot_keeps ..

theorem slotOf_of_same {s t : State} (h : t.slots = s.slots) (i : SlotIndex) : slotOf t i = slotOf s i := by
  simp only [slotOf, h]

theorem reclaim_entry_slots (i : SlotIndex) :
    (if stateAt s i = some .done then dropSlotEntry i s else postSlot i .abandoned s).slots = s.slots := by
  split
  · rfl
  · exact (postSlot_keeps i .abandoned).frame .slots (by simp)

/-- What slot `j` holds after a reclaim. -/
theorem slotOf_reclaim (i j : SlotIndex) :
    slotOf (reclaim i s) j = if i = j then none else (slotOf s j).map (Slot.forget i) := by
  rw [reclaim, slotOf_freeSlot, slotOf_of_same (reclaim_entry_slots i)]

/-- R47, R48: a reclaim returns the buffers the victim held. -/
theorem buffersUsed_reclaim (i : SlotIndex) :
    buffersUsed (reclaim i s) + placeBuffers (slotOf s i) = buffersUsed s := by
  have h := buffersUsed_freeSlot (s := if stateAt s i = some .done then dropSlotEntry i s else postSlot i .abandoned s) i
  rw [slotOf_of_same (reclaim_entry_slots i)] at h
  rw [reclaim, h]
  show buffersIn _ = buffersIn _
  rw [reclaim_entry_slots]

/-- R39 step 3, R40: a buffer is found. The requester's own slot is not the victim. -/
theorem roomForBuffer_spec {rank : Nat} {own : SlotIndex} {t : State} (h : roomForBuffer rank own s = some t) :
    Keeps [.slots, .pres, .events] s t ∧ (PoolWf s.slots → buffersUsed t < 48) ∧
      (slotOf t own = slotOf s own ∨ ∃ v, slotOf t own = (slotOf s own).map (Slot.forget v)) := by
  unfold roomForBuffer at h
  split at h
  · rename_i hb
    cases h
    exact ⟨.refl _ s, fun _ => hb, .inl rfl⟩
  · rename_i hb
    obtain ⟨v, hv, rfl⟩ := Option.map_eq_some_iff.1 h
    obtain ⟨hne, x, hx, _⟩ := victim_spec hv
    have ho : own ≠ v := fun e => hne (congrArg some e)
    refine ⟨reclaim_keeps v, fun hp => ?_, .inr ⟨v, ?_⟩⟩
    · have h1 := buffersUsed_reclaim (s := s) v
      have h2 : 1 ≤ placeBuffers (slotOf s v) := by
        rw [hx]; exact hp.held x (slotOf_mem hx)
      have h3 : buffersUsed s ≤ 48 := hp.within
      omega
    · rw [slotOf_reclaim, if_neg fun e => ho e.symm]

/-- R39 step 1: a slot is found. -/
theorem roomForSlot_keeps {rank : Nat} {t : State} (h : roomForSlot rank s = some t) :
    Keeps [.slots, .pres, .events] s t := by
  unfold roomForSlot at h
  split at h
  · cases h; exact .refl _ s
  · obtain ⟨v, _, rfl⟩ := Option.map_eq_some_iff.1 h
    exact reclaim_keeps v

theorem lowestFree_spec {i : SlotIndex} (h : lowestFree s = some i) : slotOf s i = none := by
  have := List.find?_some h
  simpa using this

/-! ## Discards (R14) -/

theorem discardFormat_keeps : Keeps [.modem] s (discardFormat s) :=
  .updModem fun w => { w with formatDiscards := Nat.min_le_right _ _ }

theorem discardMuted_keeps : Keeps [.modem] s (discardMuted s) :=
  .updModem fun w => { w with mutedDiscards := Nat.min_le_right _ _ }

theorem discardKnown_keeps : Keeps [.modem] s (discardKnown s) :=
  .updModem fun w => { w with knownDiscards := Nat.min_le_right _ _ }

theorem discardNoRoom_keeps : Keeps [.modem] s (discardNoRoom s) :=
  .updModem fun w => { w with noRoomDiscards := Nat.min_le_right _ _ }

/-! ## Into the presentation queue, and the lead -/

/-- R89: the predecessor of a slot that has reached QUEUED is ended. -/
theorem endPredecessor_keeps (i : SlotIndex) :
    Keeps [.slots, .history, .store, .pres, .cycle, .events] s (endPredecessor i s) := by
  unfold endPredecessor
  split
  · exact .refl _ s
  · simp only
    refine Keeps.trans (l := [.slots, .history, .store, .pres, .cycle, .events]) ?_ (modSlot_keeps i _ fun _ => rfl)
    split
    · exact (dropSlotEntry_keeps _).trans (freeSlot_keeps _)
    · split
      · exact (withdraw_keeps _ _).trans (freeSlot_keeps _)
      · exact .refl _ s
    · exact .refl _ s

/-- R52, R53: a slot becomes QUEUED. -/
theorem becomeQueued_keeps (i : SlotIndex) (isPartial : Bool) :
    Keeps [.slots, .history, .store, .pres, .cycle, .events] s (becomeQueued i isPartial s) := by
  unfold becomeQueued
  refine Keeps.trans (l := [.slots, .pres]) ?_ (endPredecessor_keeps i)
  refine Keeps.trans (l := [.slots]) ?_ (joinQueue_keeps i)
  exact modSlot_keeps i _ fun _ => rfl

/-- R51: admission. -/
theorem admitSlot_keeps (i : SlotIndex) (lead : Lead) : Keeps endingBlocks s (admitSlot i lead s) := by
  unfold admitSlot
  extract_lets now u
  have hu : Keeps [.slots, .events] s u := by
    refine Keeps.trans (l := [.slots]) ?_ (postSlot_keeps _ _)
    exact modSlot_keeps i _ fun _ => rfl
  split
  · exact hu.trans (becomeQueued_keeps i false)
  · exact hu.trans (modSlot_keeps i _ fun _ => rfl)

/-- R69: rejection. -/
theorem rejectSlot_keeps (i : SlotIndex) (lead : Lead) : Keeps endingBlocks s (rejectSlot i lead s) := by
  unfold rejectSlot
  split
  · exact .refl _ s
  · exact ((addHistory_keeps _).trans (m := [.history, .store, .events]) (postSlot_keeps ..)).trans (freeSlot_keeps i)

theorem cancelOther_keeps (i : SlotIndex) (key : Key) : Keeps endingBlocks s (cancelOther i key s) := by
  unfold cancelOther
  split
  · exact .refl _ s
  · split
    · exact (withdraw_keeps _ _).mono
    · exact .refl _ s

/-- R70: a cancel. -/
theorem applyCancel_keeps (i : SlotIndex) (lead : Lead) : Keeps endingBlocks s (applyCancel i lead s) := by
  unfold applyCancel
  split
  · exact .refl _ s
  · exact ((cancelOther_keeps i _).trans (m := endingBlocks) (addHistory_keeps _)).trans (freeSlot_keeps i)

/-- R50: the lead of a GATHERING slot accepted. -/
theorem acceptLead_keeps (i : SlotIndex) : Keeps endingBlocks s (acceptLead i s) := by
  unfold acceptLead
  split
  · exact .refl _ s
  · extract_lets lead u
    have hu : Keeps [.slots] s u := modSlot_keeps i _ fun _ => rfl
    split
    · exact hu.trans (applyCancel_keeps i lead)
    · split
      · exact hu.trans (admitSlot_keeps i lead)
      · exact hu.trans (rejectSlot_keeps i lead)

/-- R28: the table acts on an acceptance. -/
theorem reportAcceptance_keeps (i : SlotIndex) (index : Nat) : Keeps endingBlocks s (reportAcceptance i index s) := by
  unfold reportAcceptance
  extract_lets u
  have hu : Keeps endingBlocks s u := by
    show Keeps endingBlocks s (if _ then _ else _)
    split
    · exact Keeps.mono (l := [.slots]) (modSlot_keeps i _ fun _ => rfl)
    · exact .refl _ s
  have hp : Keeps endingBlocks s (postSlot i .updated u) := hu.trans (postSlot_keeps ..)
  split
  · exact hu
  · split
    · split
      · exact hu.trans (acceptLead_keeps i)
      · exact hu
    · split
      · exact hu.trans (becomeQueued_keeps i false)
      · exact hu.trans (modSlot_keeps i _ fun _ => rfl)
    all_goals (split; exacts [hp, hu])

/-! ## The decision for a copy -/

/-- What follows the combining of a copy: an acceptance is reported, and the step is closed. -/
theorem combineCopy_after (i : SlotIndex) (c : Copy) : Keeps tableBlocks
    (modSlot i (Slot.withSheet c.index (SheetRecord.combine s.settings.profile s.time.uptime c.cell c.body)) s)
    (combineCopy i c s) := by
  unfold combineCopy
  extract_lets u
  split
  · exact .refl _ u
  · split
    · exact (reportAcceptance_keeps i c.index).trans settle_keeps
    · exact .refl _ u

/-- R19, R20, R30: a copy combined into a record that is not ACCEPTED; the first copy of a sheet finds a free buffer. -/
theorem combineCopy_keeps {i : SlotIndex} {c : Copy} {x : Slot} {r : SheetRecord} (hx : slotOf s i = some x)
    (hr : x.sheets[c.index]? = some r) (ha : r.state ≠ .accepted) (hc : ∀ q ∈ c.body.toList, q.confidence ≤ 15)
    (hb : r.buffer.isSome = true ∨ buffersUsed s < 48) : Keeps tableBlocks s (combineCopy i c s) := by
  refine Keeps.trans (l := [.slots]) ?_ (combineCopy_after i c)
  refine putSlot_keeps i _ ?_ ?_ ?_
  · intro k y hy
    rw [hx] at hy
    cases hy
    exact Slot.withSheet_wf (k x (slotOf_mem hx)) hr fun w => combine_wf _ _ _ w ha hc
  · intro k y hy
    rw [hx] at hy
    cases hy
    have h1 := x.withSheet_buffers (f := SheetRecord.combine s.settings.profile s.time.uptime c.cell c.body) hr
    have h2 := k.held x (slotOf_mem hx)
    rw [combine_buffer] at h1
    simp only [Option.isSome_some, if_true] at h1
    split at h1 <;> omega
  · intro k
    rw [hx]
    have h1 := x.withSheet_buffers (f := SheetRecord.combine s.settings.profile s.time.uptime c.cell c.body) hr
    rw [combine_buffer] at h1
    simp only [Option.isSome_some, if_true] at h1
    simp only [Option.map_some, placeBuffers, Option.getD_some]
    have hw : buffersUsed s ≤ 48 := k.within
    rcases hb with hb | hb
    · rw [if_pos hb] at h1
      omega
    · split at h1 <;> omega

theorem combineCopy_frame (i : SlotIndex) (c : Copy) : changesOnly tableBlocks s (combineCopy i c s) :=
  changesOnly.trans (l := [.slots]) (fun b hb => by cases b <;> first | rfl | simp at hb) (combineCopy_after i c).frame
    (by decide) fun _ h => h

/-- A slot written twice. -/
theorem modSlot_putSlot (i : SlotIndex) (f : Slot → Slot) (x : Slot) :
    modSlot i f (putSlot i (some x) s) = putSlot i (some (f x)) s := by
  unfold modSlot
  rw [putSlot_same]
  simp [putSlot, State.updSlots]

/-- The record of a slot opened or restarted, with its first copy combined, takes the place of what slot `i` held. -/
theorem putNewSlot_keeps (i : SlotIndex) (c : Copy) (profile : Profile) (uptime gather : Nat) (p : Option SlotIndex)
    (h1 : c.index < c.count) (h2 : c.count ≤ 12) (hc : ∀ q ∈ c.body.toList, q.confidence ≤ 15)
    (hb : buffersUsed s < 48 ∨ (slotOf s i).isSome = true) :
    Keeps [.slots] s (putSlot i (some ((newSlot c uptime gather p).withSheet c.index
      (SheetRecord.combine profile uptime c.cell c.body))) s) := by
  have hr := newSlot_sheet c uptime gather p h1
  have hbuf := (newSlot c uptime gather p).withSheet_buffers
    (f := SheetRecord.combine profile uptime c.cell c.body) hr
  rw [combine_buffer, newSlot_buffers] at hbuf
  simp only [SheetRecord.atCreation, Option.isSome_some, if_true, Option.isSome_none, Bool.false_eq_true, if_false] at hbuf
  refine putSlot_keeps i _ ?_ ?_ ?_
  · intro _ x hx
    cases hx
    exact Slot.withSheet_wf (newSlot_wf c uptime gather p (by omega) h2) hr fun w => combine_wf _ _ _ w (by decide) hc
  · intro _ x hx
    cases hx
    omega
  · intro k
    have hw : buffersUsed s ≤ 48 := k.within
    simp only [placeBuffers, Option.map_some, Option.getD_some]
    rcases hb with hb | hb
    · omega
    · obtain ⟨y, hy⟩ := Option.isSome_iff_exists.1 hb
      have := k.held y (slotOf_mem hy)
      rw [hy]
      simp only [Option.map_some, Option.getD_some]
      omega

theorem putSlot_frame (i : SlotIndex) (o : Option Slot) : changesOnly [.slots] s (putSlot i o s) :=
  fun b hb => by cases b <;> first | rfl | simp at hb

/-- R39, R42: a slot opened for a copy. -/
theorem openSlot_keeps (existing : Option SlotIndex) {c : Copy} (h1 : c.index < c.count) (h2 : c.count ≤ 12)
    (hc : ∀ q ∈ c.body.toList, q.confidence ≤ 15) (hp : PoolWf s.slots) : Keeps tableBlocks s (openSlot existing c s) := by
  unfold openSlot
  split
  · exact Keeps.mono (l := [.modem]) discardNoRoom_keeps
  · rename_i t ht
    have kt := roomForSlot_keeps ht
    split
    · exact kt.trans (m := tableBlocks) discardNoRoom_keeps
    · rename_i i hi
      split
      · exact kt.trans (m := tableBlocks) discardNoRoom_keeps
      · rename_i u hu
        obtain ⟨ku, hb, -⟩ := roomForBuffer_spec hu
        refine (kt.trans (m := tableBlocks) ku).trans (m := tableBlocks) ?_ (fun _ h => h) fun _ h => h
        have h := combineCopy_after (s := putSlot i (some (newSlot c u.time.uptime u.settings.profile.gatherTimeout
          (existing.filter fun j => (slotOf u j).isSome))) u) i c
        rw [modSlot_putSlot] at h
        exact Keeps.trans (l := [.slots]) (putNewSlot_keeps i c _ _ _ _ h1 h2 hc (.inl (hb (kt.pool hp)))) h

theorem openSlot_frame (existing : Option SlotIndex) (c : Copy) : changesOnly tableBlocks s (openSlot existing c s) := by
  unfold openSlot
  split
  · exact (Keeps.mono (l := [.modem]) discardNoRoom_keeps).frame
  · rename_i t ht
    have kt := roomForSlot_keeps ht
    split
    · exact (kt.trans (m := tableBlocks) discardNoRoom_keeps).frame
    · split
      · exact (kt.trans (m := tableBlocks) discardNoRoom_keeps).frame
      · rename_i u hu
        have k : Keeps tableBlocks s u := kt.trans (roomForBuffer_spec hu).1
        exact k.frame.trans ((putSlot_frame _ _).trans (m := tableBlocks) (combineCopy_frame _ c) (by decide) fun _ h => h)
          (fun _ h => h) fun _ h => h

theorem modSlot_postSlot_putSlot (i : SlotIndex) (kind : SlotKind) (f : Slot → Slot) (x : Slot)
    (hk : (f x).key = x.key) (hr : (f x).revision = x.revision) :
    modSlot i f (postSlot i kind (putSlot i (some x) s)) = postSlot i kind (putSlot i (some (f x)) s) := by
  unfold postSlot
  rw [putSlot_same, putSlot_same]
  simp only [hk, hr]
  unfold modSlot
  rw [slotOf_of_same (t := (putSlot i (some x) s).updEvents _) (s := putSlot i (some x) s) rfl, putSlot_same]
  simp [putSlot, State.updSlots, State.updEvents]

/-- R41: a slot restarted in place for a copy of a higher revision. -/
theorem restartSlot_keeps (i : SlotIndex) {c : Copy} (h1 : c.index < c.count) (h2 : c.count ≤ 12)
    (hc : ∀ q ∈ c.body.toList, q.confidence ≤ 15) : Keeps tableBlocks s (restartSlot i c s) := by
  unfold restartSlot
  split
  · exact .refl _ s
  · rename_i x hx
    extract_lets t
    have put := fun p => putNewSlot_keeps (s := s) i c s.settings.profile s.time.uptime s.settings.profile.gatherTimeout p
      h1 h2 hc (.inr (by rw [hx]; rfl))
    split
    · have h := combineCopy_after (s := postSlot i .abandoned t) i c
      have hs : (postSlot i .abandoned t).settings = s.settings :=
        (postSlot_keeps (s := t) i .abandoned).frame .settings (by simp)
      have ht : (postSlot i .abandoned t).time = s.time := (postSlot_keeps (s := t) i .abandoned).frame .time (by simp)
      rw [hs, ht, modSlot_postSlot_putSlot i .abandoned _ _ rfl rfl] at h
      exact ((put x.predecessor).trans (m := [.slots, .events]) (postSlot_keeps _ _)).trans h
    · have h := combineCopy_after (s := t) i c
      rw [modSlot_putSlot] at h
      exact (put x.predecessor).trans h

theorem restartSlot_frame (i : SlotIndex) (c : Copy) : changesOnly tableBlocks s (restartSlot i c s) := by
  unfold restartSlot
  split
  · exact .refl _ s
  · extract_lets t
    have ht : changesOnly [.slots] s t := putSlot_frame _ _
    split
    · exact (ht.trans (m := tableBlocks) (postSlot_keeps i .abandoned).frame (by decide) (by decide)).trans
        (combineCopy_frame i c) (fun _ h => h) fun _ h => h
    · exact ht.trans (combineCopy_frame i c) (by decide) fun _ h => h

theorem Slot.forget_sheet (v : SlotIndex) (x : Slot) (k : Nat) : (x.forget v).sheets[k]? = x.sheets[k]? := by
  rw [Slot.forget_sheets]

theorem SheetRecord.wf.hasBuffer {r : SheetRecord} (h : r.wf) (he : r.state ≠ .empty) : r.buffer.isSome = true := by
  cases e : r.buffer with
  | some b => rfl
  | none => exact absurd (h.buffer.1 e) he

/-- R31: a further copy of an ACCEPTED sheet counts in its record. -/
theorem countCopy_keeps (i : SlotIndex) (k : Nat) :
    Keeps [.slots] s (modSlot i (Slot.withSheet k fun r => { r with copies := bump 255 r.copies }) s) := by
  have hs : ∀ x : Slot, (x.withSheet k fun r => { r with copies := bump 255 r.copies }).buffers = x.buffers := by
    intro x
    cases hr : x.sheets[k]? with
    | none =>
      have : x.withSheet k (fun r => { r with copies := bump 255 r.copies }) = x := by
        unfold Slot.withSheet
        rw [List.modify_eq_self (List.getElem?_eq_none_iff.1 hr)]
      rw [this]
    | some r =>
      have := x.withSheet_buffers (f := fun r => { r with copies := bump 255 r.copies }) hr
      simpa using this
  refine putSlot_keeps i _ ?_ ?_ ?_
  · intro w y hy
    obtain ⟨x, hx, rfl⟩ := Option.map_eq_some_iff.1 hy
    have hwx := w x (slotOf_mem hx)
    cases hr : x.sheets[k]? with
    | none =>
      unfold Slot.withSheet
      rw [List.modify_eq_self (List.getElem?_eq_none_iff.1 hr)]
      exact hwx
    | some r => exact Slot.withSheet_wf hwx hr fun h => { h with copies := Nat.min_le_right .. }
  · intro p y hy
    obtain ⟨x, hx, rfl⟩ := Option.map_eq_some_iff.1 hy
    rw [hs]
    exact p.held x (slotOf_mem hx)
  · intro p
    have : buffersUsed s ≤ 48 := p.within
    have e : placeBuffers ((slotOf s i).map (Slot.withSheet k fun r => { r with copies := bump 255 r.copies })) =
        placeBuffers (slotOf s i) := by
      cases slotOf s i <;> simp [placeBuffers, hs]
    omega

/-- R40: a copy routed to a slot that holds its revision. -/
theorem routeCopy_keeps (i : SlotIndex) {c : Copy} (hc : ∀ q ∈ c.body.toList, q.confidence ≤ 15) (hw : SlotsWf s.slots)
    (hp : PoolWf s.slots) : Keeps tableBlocks s (routeCopy i c s) := by
  unfold routeCopy
  split
  · exact .refl _ s
  · rename_i x hx
    split
    · exact Keeps.mono (l := [.modem]) discardFormat_keeps
    · extract_lets u
      have hu : Keeps [.slots] s u := modSlot_keeps i _ fun _ => rfl
      have hxu : slotOf u i = some (Slot.touch s.time.uptime s.settings.profile.gatherTimeout x) := by
        rw [slotOf_modSlot, if_pos rfl, hx]; rfl
      split
      · exact hu.mono
      · rename_i r hr
        have wr := (hw x (slotOf_mem hx)).sheets r (List.mem_of_getElem? hr)
        split
        · rename_i he
          split
          · exact hu.trans (m := tableBlocks) discardNoRoom_keeps
          · rename_i v hv
            obtain ⟨kv, hb, hs⟩ := roomForBuffer_spec hv
            have hb := hb (hu.pool hp)
            refine (hu.trans (m := tableBlocks) kv).trans (m := tableBlocks) ?_ (fun _ h => h) fun _ h => h
            rcases hs with hs | ⟨w, hs⟩
            · exact combineCopy_keeps (hs.trans hxu) hr (by rw [he]; decide) hc (.inr hb)
            · rw [hxu] at hs
              exact combineCopy_keeps hs (r := r) (by rw [Slot.forget_sheet]; exact hr) (by rw [he]; decide) hc (.inr hb)
        · rename_i he
          exact hu.trans (m := tableBlocks)
            (combineCopy_keeps hxu hr (by rw [he]; decide) hc (.inl (wr.hasBuffer (by rw [he]; decide))))
        · rename_i he
          exact hu.trans (m := tableBlocks)
            (combineCopy_keeps hxu hr (by rw [he]; decide) hc (.inl (wr.hasBuffer (by rw [he]; decide))))
        · exact (hu.trans (m := [.slots]) (countCopy_keeps i _)).trans (m := tableBlocks) discardKnown_keeps

theorem routeCopy_frame (i : SlotIndex) (c : Copy) : changesOnly tableBlocks s (routeCopy i c s) := by
  unfold routeCopy
  split
  · exact .refl _ s
  · split
    · exact (Keeps.mono (l := [.modem]) discardFormat_keeps).frame
    · extract_lets u
      have hu : changesOnly tableBlocks s u := (putSlot_frame (s := s) i _).mono (by decide)
      split
      · exact hu
      · split
        · split
          · exact hu.trans discardNoRoom_keeps.frame (fun _ h => h) (by decide)
          · rename_i v hv
            exact (hu.trans (m := tableBlocks) (roomForBuffer_spec hv).1.frame (fun _ h => h) (by decide)).trans
              (combineCopy_frame i c) (fun _ h => h) fun _ h => h
        · exact hu.trans (combineCopy_frame i c) (fun _ h => h) fun _ h => h
        · exact hu.trans (combineCopy_frame i c) (fun _ h => h) fun _ h => h
        · exact (hu.trans (m := tableBlocks) (putSlot_frame i _) (fun _ h => h) (by decide)).trans
            discardKnown_keeps.frame (fun _ h => h) (by decide)

/-- R37: the table's decision for a copy. -/
theorem tableDecision_keeps {c : Copy} (h1 : c.index < c.count) (h2 : c.count ≤ 12)
    (hc : ∀ q ∈ c.body.toList, q.confidence ≤ 15) (hw : SlotsWf s.slots) (hp : PoolWf s.slots) :
    Keeps tableBlocks s (tableDecision c s) := by
  unfold tableDecision
  split
  · exact Keeps.mono (l := [.modem]) discardKnown_keeps
  · extract_lets held
    split
    · exact routeCopy_keeps _ hc hw hp
    · split
      · exact Keeps.mono (l := [.modem]) discardKnown_keeps
      · split
        · exact restartSlot_keeps _ h1 h2 hc
        · exact openSlot_keeps _ h1 h2 hc hp

theorem tableDecision_frame (c : Copy) : changesOnly tableBlocks s (tableDecision c s) := by
  unfold tableDecision
  split
  · exact (Keeps.mono (l := [.modem]) discardKnown_keeps).frame
  · extract_lets held
    split
    · exact routeCopy_frame _ c
    · split
      · exact (Keeps.mono (l := [.modem]) discardKnown_keeps).frame
      · split
        · exact restartSlot_frame _ c
        · exact openSlot_frame _ c

/-- R5 to R8, R37: the intake of a sheet copy. -/
theorem intakeCopy_keeps (payload : List Octet) (hw : SlotsWf s.slots) (hp : PoolWf s.slots) :
    Keeps tableBlocks s (intakeCopy payload s) := by
  unfold intakeCopy
  extract_lets c
  split
  · exact Keeps.mono (l := [.modem]) discardFormat_keeps
  · rename_i hf
    split
    · exact Keeps.mono (l := [.modem]) discardMuted_keeps
    · split
      · exact Keeps.mono (l := [.modem]) discardKnown_keeps
      · simp only [Bool.or_eq_true, decide_eq_true_eq, not_or] at hf
        exact tableDecision_keeps (c := c.clamped) (show c.index < c.count by omega) (show c.count ≤ 12 by omega)
          (clamped_confidence c) hw hp

theorem intakeCopy_frame (payload : List Octet) : changesOnly tableBlocks s (intakeCopy payload s) := by
  unfold intakeCopy
  extract_lets c
  split
  · exact (Keeps.mono (l := [.modem]) discardFormat_keeps).frame
  · split
    · exact (Keeps.mono (l := [.modem]) discardMuted_keeps).frame
    · split
      · exact (Keeps.mono (l := [.modem]) discardKnown_keeps).frame
      · exact tableDecision_frame _

end Sys2Proof.Machine
end

