-- ==== Sys2Proof/Laws/Commands.lean ====
section
/-! SUPPORT. What the work of each command can do to the whole state. -/

namespace Sys2Proof.Machine

-- Checked one declaration at a time, so that the package as one text keeps within its memory limit.
set_option Elab.async false

variable {s : State}

theorem Keeps.wf {l : List Block} {s t : State} (h : Keeps l s t) (w : s.wf) : t.wf where
  modem := h.modem w.modem
  slots := h.slots w.slots
  pool := h.pool w.pool
  location := h.location w.location
  time := h.time w.time
  history := h.history w.history
  store := h.store w.store
  settings := h.settings w.settings
  cycle := h.cycle w.settings w.cycle
  keys := h.keys w.settings w.keys
  receipts := h.receipts w.receipts
  events := h.events w.events
  host := h.host w.events w.host

/-! ## The links -/

/-- R175: a receiver that goes on is in its form. -/
theorem receive_goesOn {rx rx' : Receiver} {o : RxOctet} (e : receive rx o = .goesOn rx') : rx'.wf := by
  cases rx with
  | waiting =>
    simp only [receive] at e
    split at e <;> cases e
    · exact .inl (by simp)
    · trivial
  | inside got bad =>
    simp only [receive] at e
    split at e
    · rename_i hl
      cases e
      exact .inl hl
    · split at e
      · cases e
      · split at e
        · rename_i h1 h2 h3
          cases e
          exact .inr ⟨by omega, by omega, h3⟩
        · simp only [frameEnd] at e
          split at e <;> cases e

/-- R175: a frame that passes has 1 to 250 payload octets. -/
theorem receive_passed {rx : Receiver} {o : RxOctet} {f : Frame} (e : receive rx o = .passed f) :
    1 ≤ f.payload.length ∧ f.payload.length ≤ 250 := by
  cases rx with
  | waiting =>
    simp only [receive] at e
    split at e <;> cases e
  | inside got bad =>
    simp only [receive] at e
    split at e
    · cases e
    · split at e
      · cases e
      · split at e
        · cases e
        · rename_i h1 h2 h3
          simp only [frameEnd] at e
          split at e
          · cases e
            simp only [List.length_take, List.length_drop]
            omega
          · cases e

theorem modemFrameError_keeps : Keeps [.modem] s (modemFrameError s) :=
  .updModem fun w => { w with frameErrors := Nat.min_le_right _ _ }

theorem hostFrameError_keeps : Keeps [.host] s (hostFrameError s) :=
  .updHost fun _ w => { w with frameErrors := Nat.min_le_right _ _ }

theorem modemReceiver_keeps {rx : Receiver} (h : s.modem.wf → rx.wf) : Keeps [.modem] s (s.updModem fun m => { m with rx := rx }) :=
  .updModem fun w => { w with rx := h w }

theorem hostReceiver_keeps {rx : Receiver} (h : s.host.wf → rx.wf) : Keeps [.host] s (s.updHost fun m => { m with rx := rx }) :=
  .updHost fun _ w => { w with rx := h w }

/-- R2, R3: a frame that passed the envelope's check. -/
theorem modemFrameEnd_keeps (f : Frame) : Keeps [.modem] s (modemFrameEnd f s) := by
  unfold modemFrameEnd
  split
  · rename_i hk
    refine .updModem fun w => ?_
    split
    · rename_i hl
      refine { w with fifo_length := ?_, fifo_frames := ?_ }
      · simp only [List.length_append, List.length_singleton, Config.fifoCapacity] at *; omega
      · intro g hg
        rcases List.mem_append.1 hg with hg | hg
        · exact w.fifo_frames g hg
        · rw [List.mem_singleton.1 hg]; exact hk
    · exact { w with overflow := Nat.min_le_right _ _ }
  · exact modemFrameError_keeps

/-- R176: a frame that passed the check. -/
theorem offerToStaging_keeps {f : Frame} (hf : s.host.wf → 1 ≤ f.payload.length ∧ f.payload.length ≤ 250) :
    Keeps [.host] s (offerToStaging f s) := by
  refine .updHost fun _ w => ?_
  split
  · refine { w with staging_length := ?_, staging_frames := ?_ }
    · simp only [List.length_append, List.length_singleton, Config.stagingCapacity] at *; omega
    · intro g hg
      rcases List.mem_append.1 hg with hg | hg
      · exact w.staging_frames g hg
      · rw [List.mem_singleton.1 hg]; exact hf w
  · exact { w with overflow := Nat.min_le_right _ _ }

theorem modemOctet_keeps (o : RxOctet) : Keeps [.modem] s (modemOctet o s) := by
  unfold modemOctet
  split
  · rename_i rx e
    exact modemReceiver_keeps fun _ => receive_goesOn e
  · exact (modemReceiver_keeps (rx := .waiting) fun _ => trivial).trans (m := [.modem]) modemFrameError_keeps
  · exact (modemReceiver_keeps (rx := .waiting) fun _ => trivial).trans (m := [.modem]) (modemFrameEnd_keeps _)

theorem modemOctets_keeps (l : List RxOctet) : Keeps [.modem] s (modemOctets l s) := by
  induction l generalizing s with
  | nil => exact .refl _ s
  | cons o l ih => exact (modemOctet_keeps o).trans (m := [.modem]) ih

theorem hostOctet_keeps (o : RxOctet) : Keeps [.host] s (hostOctet o s) := by
  unfold hostOctet
  split
  · rename_i rx e
    exact hostReceiver_keeps fun _ => receive_goesOn e
  · exact (hostReceiver_keeps (rx := .waiting) fun _ => trivial).trans (m := [.host]) hostFrameError_keeps
  · rename_i f e
    exact (hostReceiver_keeps (rx := .waiting) fun _ => trivial).trans (m := [.host])
      (offerToStaging_keeps fun _ => receive_passed e)

theorem hostOctets_keeps (l : List RxOctet) : Keeps [.host] s (hostOctets l s) := by
  induction l generalizing s with
  | nil => exact .refl _ s
  | cons o l ih => exact (hostOctet_keeps o).trans (m := [.host]) ih

theorem linkTimeout_keeps (link : Link) : Keeps (touches (.interOctetTimeout link)) s (linkTimeout link s) := by
  cases link
  · unfold linkTimeout
    simp only
    split
    · exact .refl _ s
    · exact (modemReceiver_keeps (rx := .waiting) fun _ => trivial).trans (m := [.modem]) modemFrameError_keeps
  · unfold linkTimeout
    simp only
    split
    · exact .refl _ s
    · exact (hostReceiver_keeps (rx := .waiting) fun _ => trivial).trans (m := [.host]) hostFrameError_keeps

theorem linkStart_keeps (link : Link) (badStop : Bool) :
    Keeps (touches (.startOctet link badStop)) s (linkStart link badStop s) := by
  cases link
  · exact modemOctet_keeps _
  · exact hostOctet_keeps _

/-! ## Frames taken from the intake FIFO -/

theorem withFifo_keeps {f : Frame} {rest : List Frame} (h : s.modem.fifo = f :: rest) :
    Keeps [.modem] s (s.updModem fun m => { m with fifo := rest }) := by
  refine .updModem fun w => { w with fifo_length := ?_, fifo_frames := ?_ }
  · have := w.fifo_length; rw [h] at this; exact (Nat.le_succ _).trans this
  · exact fun g hg => w.fifo_frames g (h ▸ List.mem_cons_of_mem _ hg)

theorem takeFrame_keeps (kind : Octet) {handle : List Octet → State → State} {l : List Block}
    (h : ∀ p t, Keeps l t (handle p t)) : Keeps (.modem :: l) s (takeFrame kind handle s) := by
  unfold takeFrame
  split
  · exact .refl _ s
  · split
    · exact .refl _ s
    · rename_i f rest hf
      split
      · exact (withFifo_keeps hf).trans (h _ _) (by simp) fun _ => List.mem_cons_of_mem _
      · exact .refl _ s

theorem writeLocation_keeps {l : Location} (h : s.location.wf → l.wf) : Keeps [.location, .history] s (writeLocation l s) := by
  unfold writeLocation
  have hl : Keeps [.location] s (s.updLocation fun _ => l) := .updLocation h
  simp only
  split
  · exact hl.mono
  · exact hl.trans dropRejected_keeps

/-- R9: a CELL frame. -/
theorem takeCell_keeps (p : List Octet) : Keeps [.modem, .location, .history] s (takeCell p s) := by
  unfold takeCell
  exact (Keeps.updModem (f := fun m => { m with servingCell := some (word16At p 0) }) fun w => { w with }).trans
    (writeLocation_keeps fun w => w)

/-- R10: a CHANNEL STATE frame. -/
theorem takeChannelState_keeps (p : List Octet) : Keeps [.modem, .receipts] s (takeChannelState p s) := by
  unfold takeChannelState
  simp only
  refine Keeps.trans (l := [.modem]) ?_ beginHandoff_keeps
  exact .updModem fun w => { w with }

/-- R169: a well-formed result. -/
theorem takeAnswer_keeps (a : UplinkAnswer) : Keeps [.modem, .receipts, .events] s (takeAnswer a s) := by
  unfold takeAnswer
  split
  · exact .refl _ s
  · rename_i r hr
    split
    · refine Keeps.trans (l := [.receipts, .events]) ?_ beginHandoff_keeps
      split
      · exact endHandoff_keeps.trans (postDevice_keeps _ _)
      · exact failHandoff_keeps hr
      · exact failHandoff_keeps hr
    · exact .refl _ s

theorem takeUplinkResult_keeps (p : List Octet) : Keeps [.modem, .receipts, .events] s (takeUplinkResult p s) := by
  unfold takeUplinkResult
  split
  · exact Keeps.mono (l := [.modem]) discardFormat_keeps
  · exact takeAnswer_keeps _

/-- R5 to R8: a SHEET frame, on a table in its form. -/
theorem takeSheet_keeps (hw : SlotsWf s.slots) (hp : PoolWf s.slots) :
    Keeps tableBlocks s (takeFrame kindSheet intakeCopy s) := by
  unfold takeFrame
  split
  · exact .refl _ s
  · split
    · exact .refl _ s
    · rename_i f rest hf
      split
      · exact (withFifo_keeps hf).trans (m := tableBlocks)
          (intakeCopy_keeps (s := s.updModem fun m => { m with fifo := rest }) _ hw hp) (by decide) fun _ h => h
      · exact .refl _ s

theorem takeSheet_frame : changesOnly tableBlocks s (takeFrame kindSheet intakeCopy s) := by
  unfold takeFrame
  split
  · exact .refl _ s
  · split
    · exact .refl _ s
    · rename_i f rest hf
      split
      · exact (withFifo_keeps hf).frame.trans (intakeCopy_frame _) (by decide) fun _ h => h
      · exact .refl _ s

/-! ## The outbound side and receipts -/

theorem transmit_keeps : Keeps [.modem] s (transmit s) := by
  unfold transmit
  split
  · exact .refl _ s
  · split
    · exact .updModem fun w => { w with }
    · split
      · exact .refl _ s
      · exact .updModem fun w => { w with }

theorem listenSent_keeps : Keeps [.modem] s (listenSent s) := by
  unfold listenSent
  split
  · exact .updModem fun w => { w with }
  · exact .refl _ s

theorem reportSent_keeps (frame : Nat) : Keeps [.receipts] s (reportSent frame s) := by
  unfold reportSent
  split
  · rename_i h
    exact .updReceipts fun w => { w with wait := fun _ => h.2.2 }
  · exact .refl _ s

theorem requestSent_keeps : Keeps [.modem, .receipts] s (requestSent s) := by
  unfold requestSent
  split
  · exact (Keeps.updModem (f := fun m => { m with sending := none }) fun w => { w with }).trans (reportSent_keeps _)
  · exact .refl _ s

theorem waitExpiry_keeps : Keeps [.modem, .receipts, .events] s (waitExpiry s) := by
  unfold waitExpiry
  split
  · rename_i d r hd hr
    split
    · exact (failHandoff_keeps hr).trans beginHandoff_keeps
    · exact .refl _ s
  · exact .refl _ s

/-! ## Timers of the table -/

/-- R26: the record of a HELD sheet whose hold deadline expires. -/
theorem holdAccept_keeps {i : SlotIndex} {k : Nat} {x : Slot} {r : SheetRecord} (hx : slotOf s i = some x)
    (hr : x.sheets[k]? = some r) (hh : r.state = .held) :
    Keeps [.slots] s (modSlot i (Slot.withSheet k fun q => { q with state := .accepted, holdDeadline := none, onHold := true }) s) := by
  have hb := x.withSheet_buffers (f := fun q => { q with state := .accepted, holdDeadline := none, onHold := true }) hr
  simp only at hb
  refine putSlot_keeps i _ ?_ ?_ ?_
  · intro w y hy
    rw [hx] at hy
    cases hy
    refine Slot.withSheet_wf (w x (slotOf_mem hx)) hr fun h => ?_
    refine { h with buffer := ?_, deadline := by simp, check := ?_, onHold := fun _ => rfl }
    · constructor
      · intro e
        have := h.buffer.1 e
        simp [hh] at this
      · intro e; cases e
    · intro b e
      have := h.check b e
      simp [hh] at this
      simp [this]
  · intro p y hy
    rw [hx] at hy
    cases hy
    have := p.held x (slotOf_mem hx)
    omega
  · intro p
    have : buffersUsed s ≤ 48 := p.within
    rw [hx]
    simp only [placeBuffers, Option.map_some, Option.getD_some]
    omega

theorem holdExpiry_keeps (i : SlotIndex) (k : Nat) : Keeps tableBlocks s (holdExpiry i k s) := by
  unfold holdExpiry
  split
  · exact .refl _ s
  · rename_i r hr
    obtain ⟨x, hx, hr⟩ := Option.bind_eq_some_iff.1 hr
    split
    · rename_i h
      refine Keeps.trans (l := endingBlocks) ?_ settle_keeps
      exact (holdAccept_keeps hx hr h.1).trans (m := endingBlocks) (reportAcceptance_keeps i k) (by decide) fun _ h => h
    · exact .refl _ s

theorem gatheringTimeout_keeps (i : SlotIndex) : Keeps [.slots, .pres, .events] s (gatheringTimeout i s) := by
  unfold gatheringTimeout
  split
  · exact .refl _ s
  · split
    · exact (postSlot_keeps i _).trans (freeSlot_keeps i)
    · exact .refl _ s

theorem assemblyLimit_keeps (i : SlotIndex) : Keeps tableBlocks s (assemblyLimit i s) := by
  unfold assemblyLimit
  split
  · exact .refl _ s
  · split
    · exact (becomeQueued_keeps i true).trans settle_keeps
    · exact .refl _ s

theorem slotExpiries_keeps : Keeps tableBlocks s (slotExpiries s) := by
  unfold slotExpiries
  split
  · exact (takeSlotExpiries_keeps _).trans settle_keeps
  · exact .refl _ s

theorem reminderExpiry_keeps : Keeps tableBlocks s (reminderExpiry s) := by
  unfold reminderExpiry
  split
  · exact .refl _ s
  · rename_i i hi
    split
    · exact .refl _ s
    · rename_i x hx
      split
      · extract_lets u
        have hu : Keeps [.pres] s u := .updPres
        split
        · refine Keeps.trans (l := [.pres, .slots, .cycle, .events]) ?_ settle_keeps
          refine Keeps.trans (l := [.pres, .slots, .cycle]) ?_ (postSlot_keeps _ _)
          refine Keeps.trans (l := [.pres, .slots]) ?_ (startCycle_keeps _ _)
          refine Keeps.trans (l := [.pres, .slots]) ?_ (enterState_keeps _ _)
          refine hu.trans (l' := [.slots]) ?_
          exact modSlot_keeps i _ fun _ => rfl
        · refine Keeps.trans (l := [.pres, .slots, .events]) ?_ settle_keeps
          refine Keeps.trans (l := [.pres, .slots]) ?_ (postSlot_keeps _ _)
          exact (hu.trans (m := [.pres]) .updPres).trans (enterState_keeps _ _)
      · exact .refl _ s

theorem countSecond_wf {t : Timebase} (h : t.wf) : (countSecond t).wf := by
  unfold countSecond
  split
  · rename_i hu
    refine ⟨Nat.succ_le_of_lt hu, ?_, ?_⟩
    · simp only; split
      · exact Nat.min_le_right _ _
      · exact h.wall
    · intro hc
      simp only at hc
      simp only [hc, Bool.false_eq_true, if_false]
      exact h.unset hc
  · exact h

theorem second_keeps (order : SecondOrder) : Keeps (touches (.uptimeSecond order)) s (second order s) := by
  unfold second
  have h : Keeps [.time, .history] s (pruneHistory (s.updTime countSecond)) :=
    (Keeps.updTime countSecond_wf).trans pruneHistory_keeps
  simp only
  split
  · exact (h.trans (m := [.time, .history, .receipts, .events]) dropStale_keeps).trans beginHandoff_keeps
  · exact (h.trans (m := [.time, .history, .modem, .receipts]) beginHandoff_keeps).trans dropStale_keeps

/-! ## Attention -/

theorem completion_keeps (o : Owner) : Keeps tableBlocks s (completion o s) := by
  unfold completion
  split
  · exact Keeps.mono (l := [.pres]) .updPres
  · split
    · exact (becomeShown_keeps _).trans settle_keeps
    · exact .refl _ s

theorem CadenceWf.segment_le {l : List Segment} (h : CadenceWf l) {k : Nat} {g : Segment} (hg : l[k]? = some g) :
    g.length ≤ 255 := (h.segments g (List.mem_of_getElem? hg)).2

theorem segmentBoundary_keeps : Keeps tableBlocks s (segmentBoundary s) := by
  unfold segmentBoundary
  split
  · exact .refl _ s
  · rename_i c hc
    split_ifs with h0 hlt
    · exact .refl _ s
    · exact stopCycle_keeps.trans (m := tableBlocks) (completion_keeps _)
    · refine Keeps.mono (l := [.cycle]) (.updCycle fun _ w => ?_)
      intro y hy
      cases hy
      have wc := w c hc
      have hatt := wc.attention
      have hpos := wc.segments.pos
      have hidx : (nextSegment s.settings.profile.quiet c).index < c.segments.length := by
        simp only [nextSegment]; split <;> omega
      have hctr : ∀ g, c.segments[(nextSegment s.settings.profile.quiet c).index]? = some g →
          (nextSegment s.settings.profile.quiet c).counter = g.length := by
        intro g hg
        simp only [nextSegment] at hg ⊢
        rw [hg]; rfl
      have hg := List.getElem?_eq_getElem hidx
      have h1 := hctr _ hg
      have h2 := wc.segments.segment_le hg
      refine ⟨wc.segments, wc.toneA, wc.toneB, hatt, hidx, fun g e => (hctr g e).le, ?_⟩
      show c.elapsed + (nextSegment s.settings.profile.quiet c).counter ≤ 3254
      omega

theorem tickCycle_wf {c : Cycle} (h : c.wf) : (tickCycle c).wf := by
  unfold tickCycle
  split
  · exact h
  · rename_i h0
    have hl := h.left
    split
    · exact { h with
        counter := fun g e => (Nat.sub_le _ _).trans (h.counter g e)
        left := by simp only; omega }
    · exact { h with }

theorem idle_keeps : Keeps [.cycle] s (idle s) := by
  unfold idle
  refine .whenRunning (.updCycle fun _ w => ?_)
  intro y hy
  obtain ⟨x, hx, rfl⟩ := Option.map_eq_some_iff.1 hy
  exact tickCycle_wf (w x hx)

end Sys2Proof.Machine
end

