-- ==== Sys2Proof/Laws/Requests.lean ====
section
/-! SUPPORT. What the work of each host request can do to the whole state, and that every reply fits the envelope. -/

namespace Sys2Proof.Machine

-- Checked one declaration at a time, so that the package as one text keeps within its memory limit.
set_option Elab.async false

variable {s : State}

/-- R175, R177: a body of 1 to 249 octets; with the sequence octet it fits a payload. -/
def fitsReply (body : List Octet) : Prop := 1 ≤ body.length ∧ body.length ≤ 249

theorem withStaging_keeps {f : Frame} {rest : List Frame} (h : s.host.staging = f :: rest) :
    Keeps [.host] s (s.updHost fun h => { h with staging := rest }) := by
  refine .updHost fun _ w => { w with staging_length := ?_, staging_frames := ?_ }
  · have := w.staging_length; rw [h] at this; exact (Nat.le_succ _).trans this
  · exact fun g hg => w.staging_frames g (h ▸ List.mem_cons_of_mem _ hg)

theorem respond_keeps (f : Frame) {body : List Octet} (h : EventsWf s.events → fitsReply body) :
    Keeps [.host] s (respond f body s) := by
  refine .updHost fun he w => { w with reply := fun g e => ?_ }
  cases e
  have := h he
  simp only [fitsReply] at this
  simp only [List.length_cons]
  omega

/-- R177: a request taken from staging, carried out and answered. -/
theorem takeRequest_keeps (kind : Octet) {carry : List Octet → State → State × List Octet} {l : List Block}
    (h : ∀ p t, Keeps l t (carry p t).1) (hb : ∀ p t, EventsWf t.events → fitsReply (carry p t).2) :
    Keeps (.host :: l) s (takeRequest kind carry s) := by
  unfold takeRequest
  split
  · exact .refl _ s
  · split
    · exact .refl _ s
    · rename_i f rest hf
      split
      · simp only
        refine .ofFrame ?_ (modem := ?_) (slots := ?_) (pool := ?_) (location := ?_) (time := ?_) (history := ?_)
          (store := ?_) (settings := ?_) (cycle := ?_) (keys := ?_) (receipts := ?_) (events := ?_) (host := ?_)
        all_goals
          have k := h f.payload (s.updHost fun h => { h with staging := rest })
          have w := withStaging_keeps hf
          have u := w.trans (m := .host :: l) k (by simp) fun _ => List.mem_cons_of_mem _
        · exact u.frame.trans (l' := [.host]) (fun b hb => by cases b <;> first | rfl | simp at hb) (fun _ h => h) (by simp)
        · exact fun _ => u.modem
        · exact fun _ => u.slots
        · exact fun _ => u.pool
        · exact fun _ => u.location
        · exact fun _ => u.time
        · exact fun _ => u.history
        · exact fun _ => u.store
        · exact fun _ => u.settings
        · exact fun _ => u.cycle
        · exact fun _ => u.keys
        · exact fun _ => u.receipts
        · exact fun _ => u.events
        · intro _ he hh
          have hfit := hb f.payload (s.updHost fun h => { h with staging := rest }) he
          exact (respond_keeps f fun _ => hfit).host (u.events he) (u.host he hh)
      · exact .refl _ s

theorem whenReady_keeps (fits : List Octet → Bool) (tail : List Octet) {carry : List Octet → State → State × List Octet}
    {l : List Block} (h : ∀ p t, fits p = true → Keeps l t (carry p t).1) (p : List Octet) (t : State) :
    Keeps l t (whenReady fits tail carry p t).1 := by
  unfold whenReady
  split
  · exact .refl _ t
  · split
    · exact .refl _ t
    · rename_i hf
      exact h p t (by simpa using hf)

theorem whenReady_fits (fits : List Octet → Bool) {tail : List Octet} (ht : tail.length ≤ 1)
    {carry : List Octet → State → State × List Octet} (h : ∀ p t, EventsWf t.events → fitsReply (carry p t).2)
    (p : List Octet) (t : State) (he : EventsWf t.events) : fitsReply (whenReady fits tail carry p t).2 := by
  have hl : ∀ o : Octet, fitsReply (o :: tail) := fun o => by simp only [fitsReply, List.length_cons]; omega
  unfold whenReady
  split
  · exact hl _
  · split
    · exact hl _
    · exact h p t he

theorem fitsReply_one (o : Octet) : fitsReply [o] := ⟨by simp, by simp⟩

theorem fitsReply_two (o q : Octet) : fitsReply [o, q] := ⟨by simp, by simp⟩

/-! ## Lengths of the replies -/

theorem statusBody_length (s : State) : (statusBody s).length = 37 := by
  simp [statusBody, octets16, octets32]

@[simp] theorem keyOctets_length (k : Key) : (keyOctets k).length = 3 := rfl

@[simp] theorem zoneOctets_length (z : Zone) : (zoneOctets z).length = 3 := rfl

@[simp] theorem octets16_length (n : Nat) : (octets16 n).length = 2 := rfl

@[simp] theorem octets32_length (n : Nat) : (octets32 n).length = 4 := rfl

theorem flatten_length {α β : Type} (g : α → List β) (n : Nat) (h : ∀ a, (g a).length = n) (l : List α) :
    ((l.map g).flatten).length = n * l.length := by
  induction l with
  | nil => simp
  | cons a l ih =>
    simp only [List.map_cons, List.flatten_cons, List.length_append, List.length_cons, ih, h]
    rw [Nat.mul_succ]
    omega

theorem listBody_length (s : State) :
    (listBody s).length = 2 + 11 * (allSlots.filterMap fun i => (slotOf s i).map fun x => (i, x)).length := by
  simp only [listBody, List.length_append]
  rw [flatten_length (fun p : SlotIndex × Slot => listLine p.1 p.2) 11 (fun p => by simp [listLine])]
  rfl

theorem slotSection_length (x : Slot) : (slotSection x).length = 139 := by
  have hl : ∀ l : Option Lead, (leadOctets l).length = 47 := by
    intro l
    cases l with
    | none => simp [leadOctets]
    | some l =>
      simp only [leadOctets, List.length_append, octets16_length, List.length_map, List.length_range]
      rw [flatten_length _ 3 (fun j => by cases l.zones[j]? <;> simp)]
      simp
  have hm : ((List.range 12).map fun j => sheetMapEntry x.sheets[j]?).flatten.length = 48 := by
    rw [flatten_length _ 4 (fun j => by cases x.sheets[j]? <;> simp [sheetMapEntry])]
    simp
  simp only [slotSection, List.length_append, hl, hm, octets16_length, octets32_length, timeOctets, List.length_cons,
    List.length_nil]

theorem readBody_length (named part : Nat) (s : State) :
    1 ≤ (readBody named part s).length ∧ (readBody named part s).length ≤ 146 := by
  unfold readBody
  split
  · simp
  · split
    · simp
    · rename_i x hx
      split
      · simp
      · split
        · simp only [List.length_append, slotSection_length, readHeader, keyOctets_length, List.length_cons, List.length_nil]
          omega
        · split
          · simp
          · rename_i r hr
            have : (sheetSection (part - 1) r).length ≤ 47 := by
              unfold sheetSection
              split
              · split <;> simp [Buffer.values]
              · simp
            simp only [List.length_append, readHeader, keyOctets_length, List.length_cons, List.length_nil]
            omega

theorem historyBody_length (first : Nat) (s : State) :
    3 ≤ (historyBody first s).length ∧ (historyBody first s).length ≤ 243 := by
  simp only [historyBody, List.length_append]
  rw [flatten_length _ 10 (fun h => by simp [historyOctets])]
  simp only [List.length_cons, List.length_nil, List.length_take]
  omega

/-- R184: the event set holds at most 20 entries. -/
theorem EventsWf.length {l : List EventEntry} (h : EventsWf l) : l.length ≤ 20 := by
  have h1 : (l.filterMap EventEntry.slotIndex).length ≤ 16 := by
    have := h.slots.length_le_card
    simpa using this
  have h2 : (l.filterMap EventEntry.deviceKind).length ≤ 4 := by
    have hs : ∀ m : List DeviceKind, m.Nodup → m.length ≤ 4 := by
      intro m hm
      have : m ⊆ [.receiptSent, .receiptDropped, .storeFailed, .loadDone] := by
        intro k _; cases k <;> simp
      exact (List.subperm_of_subset hm this).length_le
    exact hs _ h.devices
  have h3 : ∀ m : List EventEntry,
      m.length = (m.filterMap EventEntry.slotIndex).length + (m.filterMap EventEntry.deviceKind).length := by
    intro m
    induction m with
    | nil => rfl
    | cons e m ih => cases e <;> simp [EventEntry.slotIndex, EventEntry.deviceKind, List.filterMap_cons] at ih ⊢ <;> omega
  have := h3 l
  omega

theorem eventsBody_length (s : State) : (eventsBody s).length = 2 + 8 * s.events.length := by
  simp only [eventsBody, List.length_append]
  rw [flatten_length _ 8 (fun e => by cases e with
    | slot => simp [eventOctets]
    | device k n d => cases d <;> simp [eventOctets, detailOctets])]
  rfl

/-! ## Bodies of work -/

theorem carryStatus_keeps (p : List Octet) (t : State) : Keeps [] t (carryStatus p t).1 := by
  unfold carryStatus; split <;> exact .refl _ t

theorem carryStatus_fits (p : List Octet) (t : State) : fitsReply (carryStatus p t).2 := by
  unfold carryStatus
  split
  · exact fitsReply_one _
  · simp only [fitsReply, statusBody_length]; omega

theorem listBody_fits (t : State) : fitsReply (listBody t) := by
  have h : (allSlots.filterMap fun i => (slotOf t i).map fun x => (i, x)).length ≤ 16 := List.length_filterMap_le _ _
  simp only [fitsReply, listBody_length]
  omega

theorem readBody_fits (named part : Nat) (t : State) : fitsReply (readBody named part t) := by
  have := readBody_length named part t
  simp only [fitsReply]
  omega

theorem historyBody_fits (first : Nat) (t : State) : fitsReply (historyBody first t) := by
  have := historyBody_length first t
  simp only [fitsReply]
  omega

theorem eventsBody_fits {t : State} (h : EventsWf t.events) : fitsReply (eventsBody t) := by
  have := h.length
  simp only [fitsReply, eventsBody_length]
  omega

/-! ### Settings -/

theorem SlotsWf.mapExpiry {v : Vector (Option Slot) 16} (h : SlotsWf v) (f : Expiry → Expiry) :
    SlotsWf (mapEntries (Option.map fun x => { x with expiry := x.expiry.map f }) v) := by
  intro x hx
  rw [mapEntries_toList] at hx
  obtain ⟨o, ho, e⟩ := List.mem_map.1 hx
  obtain ⟨y, rfl, rfl⟩ := Option.map_eq_some_iff.1 e
  have w := h y ho
  exact ⟨w.count_pos, w.count_le, w.sheets⟩

theorem PoolWf.mapExpiry {v : Vector (Option Slot) 16} (h : PoolWf v) (f : Expiry → Expiry) :
    PoolWf (mapEntries (Option.map fun x => { x with expiry := x.expiry.map f }) v) where
  within := by
    have : buffersIn (mapEntries (Option.map fun x => { x with expiry := x.expiry.map f }) v) = buffersIn v := by
      simp only [buffersIn, mapEntries_toList, List.map_map]
      congr 2
      funext o
      cases o <;> rfl
    rw [this]; exact h.within
  held := by
    intro x hx
    rw [mapEntries_toList] at hx
    obtain ⟨o, ho, e⟩ := List.mem_map.1 hx
    obtain ⟨y, rfl, rfl⟩ := Option.map_eq_some_iff.1 e
    exact h.held y ho

/-- R63: a payload whose length fits names at most four zone codes. -/
theorem zonesOf_length {p : List Octet} (h : zoneListFits p = true) : (zonesOf p).length ≤ 4 := by
  simp only [zoneListFits, Bool.and_eq_true, decide_eq_true_eq] at h
  simp only [zonesOf, List.length_map, List.length_range]
  omega

theorem setTag_keeps (w : BitVec 32) : Keeps [.settings] s (s.updSettings fun c => { c with tag := w }) :=
  .updSettings fun k => { k with }

theorem emptyEvents_keeps : Keeps [.events] s (s.updEvents fun _ => []) := .updEvents fun _ => EventsWf.nil

/-- R79: the conversion of every uptime-scale expiry. -/
theorem convertAll_keeps (w : Nat) : Keeps [.slots, .history, .receipts] s (convertAll w s) := by
  unfold convertAll
  extract_lets conv
  refine ((Keeps.updSlots (fun h => h.mapExpiry conv) fun h => h.mapExpiry conv).trans (m := [.slots, .history])
    (Keeps.updHistory fun h => ?_)).trans (Keeps.updReceipts fun h => ?_)
  · exact h.map _ fun _ => rfl
  · exact h.withExpiries (fun r => conv r.expiry) (·.expiryReached)

theorem word32At_le (p : List Octet) (i : Nat) : (word32At p i).toNat ≤ maxSeconds := by
  have := (word32At p i).isLt
  simp only [maxSeconds]
  omega

/-- R78 to R80: the wall clock set. -/
theorem setWallClock_keeps {w : Nat} (hw : w ≤ maxSeconds) : Keeps (.time :: tableBlocks) s (setWallClock w s) := by
  unfold setWallClock
  split
  · exact .refl _ s
  · extract_lets t
    have ht : Keeps [.slots, .history, .receipts] s t := by
      show Keeps _ s (if _ then _ else _)
      split
      · exact keepReached_keeps.mono
      · exact convertAll_keeps w
    refine Keeps.trans (l := .time :: endingBlocks) ?_ settle_keeps
    refine Keeps.trans (l := [.time, .slots, .history, .receipts]) ?_ takeReached_keeps
    refine ht.trans (l' := [.time]) (.updTime fun h => ⟨h.uptime, hw, fun e => by cases e⟩)

theorem setHostZones_keeps {l : List Zone} (h : l.length ≤ 4) : Keeps [.location, .history] s (setHostZones l s) := by
  unfold setHostZones
  have hl : Keeps [.location] s (s.updLocation fun _ => { s.location with hostZones := l }) := .updLocation fun _ => h
  simp only
  split
  · exact hl.mono
  · exact hl.trans dropRejected_keeps

theorem clampTo_range {low high : Nat} (h : low ≤ high) (n : Nat) : low ≤ clampTo low high n ∧ clampTo low high n ≤ high := by
  unfold clampTo; omega

/-- R179: every numeric setting taken is in its range. -/
theorem profileOf_wf (p : List Octet) : (profileOf p).wf where
  floor := clampTo_range (by omega) _
  holdTime := clampTo_range (by omega) _
  assemblyLimit := clampTo_range (by omega) _
  gatherTimeout := clampTo_range (by omega) _
  retention := (clampTo_range (Nat.zero_le _) _).2
  attentionTime := clampTo_range (by omega) _
  reminderInterval := clampTo_range (by omega) _
  reminderCount := (clampTo_range (Nat.zero_le _) _).2
  checkTime := by
    simp only [profileOf, takenCheckTime]
    split
    · decide
    · split
      · decide
      · split
        · decide
        · split <;> decide
  chordTime := clampTo_range (by omega) _

theorem restartFilters_wf {k : Keys} (h : k.wf) : (restartFilters k).wf :=
  ⟨Nat.zero_le _, Nat.zero_le _, h.chord⟩

theorem replaceProfile_keeps {q : Profile} (h : q.wf) :
    Keeps [.settings, .modem, .history, .keys] s (replaceProfile q s) := by
  unfold replaceProfile
  extract_lets old u v w
  have hu : Keeps [.settings] s u := .updSettings fun k => { k with profile := h }
  have hv : Keeps [.settings, .modem] s v := by
    show Keeps _ s (if _ then _ else _)
    split
    · exact hu.mono
    · exact hu.trans (.updModem fun k => { k with })
  have hw : Keeps [.settings, .modem, .history] s w := by
    show Keeps _ s (if _ then _ else _)
    split
    · exact hv.trans pruneHistory_keeps
    · exact hv.mono
  split
  · exact hw.mono
  · exact hw.trans (.updKeys fun _ k => restartFilters_wf k)

theorem carryProfile_keeps (p : List Octet) (t : State) : Keeps [.settings, .modem, .history, .keys] t (carryProfile p t).1 := by
  unfold carryProfile
  split
  · exact .refl _ t
  · exact replaceProfile_keeps (profileOf_wf p)

theorem carryProfile_fits (p : List Octet) (t : State) : fitsReply (carryProfile p t).2 := by
  unfold carryProfile
  split <;> exact fitsReply_one _

theorem natAt_le (p : List Octet) (i : Nat) : natAt p i ≤ 255 := by
  have := (octetAt p i).isLt
  unfold natAt
  omega

theorem segmentAt_wf {p : List Octet} {i : Nat} {g : Segment} (h : segmentAt p i = some g) : g.wf := by
  unfold segmentAt at h
  split at h
  · cases h
  · split at h
    · cases h
      have := natAt_le p (i + 2)
      exact ⟨Nat.le_max_left _ _, by simp only; omega⟩
    · cases h

theorem segmentsAt_wf (p : List Octet) (n : Nat) :
    ∀ (i : Nat) (l : List Segment), segmentsAt p i n = some l → l.length = n ∧ ∀ g ∈ l, g.wf := by
  induction n with
  | zero => intro i l h; cases h; simp
  | succ n ih =>
    intro i l h
    simp only [segmentsAt] at h
    split at h
    · rename_i g m hg hm
      cases h
      obtain ⟨h1, h2⟩ := ih _ _ hm
      refine ⟨by simp [h1], fun k hk => ?_⟩
      rcases List.mem_cons.1 hk with rfl | hk
      · exact segmentAt_wf hg
      · exact h2 k hk
    · cases h

theorem tonesAt_wf (p : List Octet) (n : Nat) : (tonesAt p n).1.wf ∧ (tonesAt p n).2.wf := by
  have h : ∀ i, max 1 (natAt p i) ≤ 255 := fun i => by have := natAt_le p i; omega
  exact ⟨⟨Nat.le_max_left _ _, h _, Nat.le_max_left _ _, h _⟩, ⟨Nat.le_max_left _ _, h _, Nat.le_max_left _ _, h _⟩⟩

theorem carryCadence_keeps (p : List Octet) (t : State) : Keeps [.settings] t (carryCadence p t).1 := by
  unfold carryCadence
  extract_lets rank n
  split
  · exact .refl _ t
  · split
    · exact .refl _ t
    · rename_i hn
      split
      · exact .refl _ t
      · rename_i l hl
        obtain ⟨h1, h2⟩ := segmentsAt_wf p n _ _ hl
        have hc : CadenceWf l := ⟨by omega, by omega, h2⟩
        have ht := tonesAt_wf p n
        have hk : ∀ k : Settings, k.wf → ({ k with
            cadences := k.cadences.withRank rank l, toneA := (tonesAt p n).1, toneB := (tonesAt p n).2 } : Settings).wf := by
          intro k w
          simp only [Cadences.withRank]
          split
          · exact { w with rank4 := hc, toneA := ht.1, toneB := ht.2 }
          · split
            · exact { w with rank3 := hc, toneA := ht.1, toneB := ht.2 }
            · split
              · exact { w with rank2 := hc, toneA := ht.1, toneB := ht.2 }
              · exact { w with rank1 := hc, toneA := ht.1, toneB := ht.2 }
        exact Keeps.updSettings (s := t) (f := fun k => { k with
          cadences := k.cadences.withRank rank l, toneA := (tonesAt p n).1, toneB := (tonesAt p n).2 }) (hk t.settings)

theorem carryCadence_fits (p : List Octet) (t : State) : fitsReply (carryCadence p t).2 := by
  unfold carryCadence
  extract_lets rank n
  split
  · exact fitsReply_one _
  · split
    · exact fitsReply_one _
    · split <;> exact fitsReply_one _

/-! ### Requests that act on slots -/

theorem carryAck_keeps (p : List Octet) (t : State) : Keeps tableBlocks t (carryAck p t).1 := by
  have many : ∀ l, Keeps tableBlocks t (ackMany l t).1 := by
    intro l
    unfold ackMany
    split
    · exact .refl _ t
    · exact (acknowledgeAll_keeps _ l).trans settle_keeps
  unfold carryAck
  extract_lets target
  split
  · exact many _
  · split
    · exact many _
    · split
      · exact .refl _ t
      · unfold ackSlot
        split
        · exact .refl _ t
        · split
          · exact (acknowledge_keeps _ _).trans settle_keeps
          · exact .refl _ t

theorem carryAck_fits (p : List Octet) (t : State) : fitsReply (carryAck p t).2 := by
  have many : ∀ l, fitsReply (ackMany l t).2 := by
    intro l
    unfold ackMany
    split <;> exact fitsReply_two _ _
  unfold carryAck
  extract_lets target
  split
  · exact many _
  · split
    · exact many _
    · split
      · exact fitsReply_two _ _
      · unfold ackSlot
        split
        · exact fitsReply_two _ _
        · split <;> exact fitsReply_two _ _

theorem carryRelease_keeps (p : List Octet) (t : State) : Keeps [.slots, .pres, .events] t (carryRelease p t).1 := by
  unfold carryRelease
  split
  · exact .refl _ t
  · split
    · exact .refl _ t
    · exact (dropSlotEntry_keeps _).trans (freeSlot_keeps _)
    · exact .refl _ t

theorem carryRelease_fits (p : List Octet) (t : State) : fitsReply (carryRelease p t).2 := by
  unfold carryRelease
  split
  · exact fitsReply_one _
  · split <;> exact fitsReply_one _

theorem carryPreview_keeps (p : List Octet) (t : State) : Keeps [.pres, .cycle] t (carryPreview p t).1 := by
  unfold carryPreview
  extract_lets rank
  split
  · exact .refl _ t
  · split
    · exact .refl _ t
    · refine Keeps.trans (l := [.pres, .cycle]) ?_ (startCycle_keeps _ _)
      exact stopPreview_keeps.trans .updPres

theorem carryPreview_fits (p : List Octet) (t : State) : fitsReply (carryPreview p t).2 := by
  unfold carryPreview
  extract_lets rank
  split
  · exact fitsReply_one _
  · split <;> exact fitsReply_one _

theorem SlotsWf.empty : SlotsWf (Vector.replicate 16 none) := fun _ h => by simp [Vector.toList] at h

theorem PoolWf.empty : PoolWf (Vector.replicate 16 none) :=
  ⟨by decide, fun _ h => by simp [Vector.toList] at h⟩

theorem Keys.wf_atReset : Keys.atReset.wf := ⟨Nat.zero_le _, Nat.zero_le _, fun _ e => (nomatch e)⟩

/-- R183: what RESTART clears. -/
theorem clearAll_keeps : Keeps [.slots, .pres, .cycle, .keys, .receipts, .events, .modem] s (clearAll s) :=
  .ofFrame (fun b hb => by cases b <;> first | rfl | simp at hb)
    (modem := fun _ h => { h with fifo_length := Nat.zero_le _, fifo_frames := fun _ e => (nomatch e) })
    (slots := fun _ _ => SlotsWf.empty) (pool := fun _ _ => PoolWf.empty)
    (cycle := fun _ _ _ _ e => (nomatch e)) (keys := fun _ _ _ => Keys.wf_atReset)
    (receipts := fun _ _ => Receipts.wf_atReset _) (events := fun _ _ => EventsWf.nil)

theorem takeUnknown_keeps : Keeps [.host] s (takeUnknown s) := by
  unfold takeUnknown
  split
  · exact .refl _ s
  · split
    · exact .refl _ s
    · rename_i f rest hf
      split
      · exact .refl _ s
      · exact (withStaging_keeps hf).trans (m := [.host]) (respond_keeps f fun _ => fitsReply_one _)

theorem replySent_keeps : Keeps [.host] s (s.updHost fun h => { h with reply := none }) :=
  .updHost fun _ w => { w with reply := fun _ e => (nomatch e) }

end Sys2Proof.Machine
end

