-- ==== Sys2Proof/Laws/Lines.lean ====
section
/-! SUPPORT. What the work of the key inputs, of the journal store and of the two lines can do to the whole state. -/

namespace Sys2Proof.Machine

-- Checked one declaration at a time, so that the package as one text keeps within its memory limit.
set_option Elab.async false

variable {s : State}

/-! ## Keys -/

theorem sampleFilter_run (low : Bool) (f : Filter) : (sampleFilter low f).run ≤ 64 := by
  unfold sampleFilter
  split
  · exact Nat.zero_le _
  · exact Nat.min_le_right _ _

@[simp] theorem sampleFilter_pressed (low : Bool) (f : Filter) : (sampleFilter low f).pressed = f.pressed := by
  unfold sampleFilter; split <;> rfl

@[simp] theorem sampleFilter_consumed (low : Bool) (f : Filter) : (sampleFilter low f).consumed = f.consumed := by
  unfold sampleFilter; split <;> rfl

theorem sampleKeys_wf (a b : Bool) {k : Keys} (h : k.wf) : (sampleKeys a b k).wf where
  ackRun := sampleFilter_run _ _
  silenceRun := sampleFilter_run _ _
  chord := by
    intro c e
    obtain ⟨d, hd, rfl⟩ := Option.map_eq_some_iff.1 e
    have := h.chord d hd
    simp only [sampleKeys, sampleFilter_pressed, sampleFilter_consumed]
    exact ⟨this.1, this.2.1, this.2.2.1, this.2.2.2.1, Nat.min_le_right _ _, this.2.2.2.2.2⟩

theorem keySample_keeps (a b : Bool) : Keeps [.keys] s (s.updKeys (sampleKeys a b)) := .updKeys fun _ => sampleKeys_wf a b

theorem startChord_wf {k : Keys} {chordTime : Nat} (h : k.ack.run ≤ 64 ∧ k.silence.run ≤ 64) (hk : k.chord = none)
    (hc : 1 ≤ chordTime ∧ chordTime ≤ 10) : (startChord chordTime k).wf := by
  unfold startChord
  split
  · rename_i hp
    simp only [Bool.and_eq_true, Bool.not_eq_true'] at hp
    refine ⟨h.1, h.2, fun c e => ?_⟩
    cases e
    exact ⟨hp.1.1.1, hp.1.1.2, hp.1.2, hp.2, Nat.zero_le _, hc⟩
  · exact ⟨h.1, h.2, fun c e => by rw [hk] at e; cases e⟩

/-- R151, R154: a press recognition; the other key alone was PRESSED before, so no chord timer ran. -/
theorem recognisePress_keeps (key : KeyLine) : Keeps [.keys] s (recognisePress key s) := by
  unfold recognisePress
  extract_lets f
  split
  · rename_i hf
    simp only [Bool.and_eq_true, Bool.not_eq_true'] at hf
    refine .updKeys fun hs w => ?_
    have hn : s.keys.chord = none := by
      cases e : s.keys.chord with
      | none => rfl
      | some c =>
        have := w.chord c e
        cases key
        · exact absurd (this.1.symm.trans hf.1) (by decide)
        · exact absurd (this.2.1.symm.trans hf.1) (by decide)
    cases key
    · exact startChord_wf (k := s.keys.withFilter .ack ⟨true, 0, false⟩) ⟨Nat.zero_le _, w.silenceRun⟩ hn hs.profile.chordTime
    · exact startChord_wf (k := s.keys.withFilter .silence ⟨true, 0, false⟩) ⟨w.ackRun, Nat.zero_le _⟩ hn hs.profile.chordTime
  · exact .refl _ s

theorem ackKeyAction_keeps : Keeps tableBlocks s (ackKeyAction s) := by
  unfold ackKeyAction
  split
  · exact (acknowledge_keeps _ _).trans settle_keeps
  · split
    · exact (acknowledge_keeps _ _).trans settle_keeps
    · exact stopPreview_keeps.mono

theorem silenceKeyAction_keeps : Keeps tableBlocks s (silenceKeyAction s) := by
  unfold silenceKeyAction
  split
  · exact stopPreview_keeps.mono
  · split
    · exact (stopCycle_keeps.trans (m := [.slots, .pres, .events, .cycle]) (becomeShown_keeps _)).trans settle_keeps
    · exact .refl _ s

theorem keyAction_keeps (key : KeyLine) : Keeps tableBlocks s (keyAction key s) := by
  cases key
  · exact ackKeyAction_keeps
  · exact silenceKeyAction_keeps

theorem recogniseRelease_keeps (key : KeyLine) : Keeps (.keys :: tableBlocks) s (recogniseRelease key s) := by
  unfold recogniseRelease
  extract_lets f t
  split
  · have ht : Keeps [.keys] s t := by
      refine .updKeys fun _ w => ?_
      cases key
      · exact ⟨Nat.zero_le _, w.silenceRun, fun _ e => (nomatch e)⟩
      · exact ⟨w.ackRun, Nat.zero_le _, fun _ e => (nomatch e)⟩
    split
    · exact ht.mono
    · exact ht.trans (keyAction_keeps key)
  · exact .refl _ s

theorem chordAction_keeps : Keeps tableBlocks s (chordAction s) := by
  unfold chordAction
  extract_lets t
  have ht : Keeps [.cycle, .pres] s t := stopPreview_keeps
  split
  · exact ht.mono
  · exact (ht.trans (m := endingBlocks) (acknowledgeAll_keeps _ _)).trans settle_keeps

theorem fireChord_keeps : Keeps (.keys :: tableBlocks) s (fireChord s) := by
  unfold fireChord
  split
  · exact .refl _ s
  · split
    · refine Keeps.trans (l := [.keys]) ?_ chordAction_keeps
      exact .updKeys fun _ w => ⟨w.ackRun, w.silenceRun, fun _ e => (nomatch e)⟩
    · exact .refl _ s

/-! ## The store's own steps -/

theorem replay_wf (l : List (BitVec 64)) {h : List HistoryEntry} (w : HistoryWf h) : HistoryWf (replay l h) := by
  induction l generalizing h with
  | nil => exact w
  | cons x l ih =>
    unfold replay
    split
    · exact ih (placeEntry_wf _ w)
    · exact ih w

theorem nextWritePosition_le (v : Vector (BitVec 64) 128) : nextWritePosition v ≤ 128 := by
  have h : ∀ (l : List Nat) (n : Nat), n ≤ 128 → (∀ p ∈ l, p < 128) →
      l.foldl (fun n p => if readsErased (positionOf v p) then n else p + 1) n ≤ 128 := by
    intro l
    induction l with
    | nil => exact fun n hn _ => hn
    | cons p l ih =>
      intro n hn hl
      refine ih _ ?_ fun q hq => hl q (List.mem_cons_of_mem _ hq)
      dsimp only
      split
      · exact hn
      · exact hl p List.mem_cons_self
  exact h _ 0 (Nat.zero_le _) fun p hp => by simpa [Config.journalPositions] using hp

/-- R103: the end of the reload. -/
theorem finishReload_keeps : Keeps [.modem, .history, .store, .events] s (finishReload s) := by
  unfold finishReload
  split
  · extract_lets t u v
    have ht : Keeps [.history] s t := .updHistory fun _ => replay_wf _ HistoryWf.nil
    have hu : Keeps [.history, .store] s u := ht.trans (.updStore fun w =>
      ⟨nextWritePosition_le _, w.eraseFails, fun _ _ e => (nomatch e), fun _ _ e => (nomatch e), fun _ _ e => (nomatch e)⟩)
    have hv : Keeps [.history, .store, .events] s v := hu.trans (postDevice_keeps _ _)
    refine Keeps.trans (l := [.modem, .history, .store, .events]) ?_ storeSelect_keeps
    exact hv.trans (.updModem fun w => { w with })
  · exact .refl _ s

theorem programAttempt_keeps (unset : BitVec 64) : Keeps [.store, .history] s (programAttempt unset s) := by
  unfold programAttempt
  split
  · rename_i phase e n replaced hs
    extract_lets p w t
    have ht : Keeps [.store] s t := setJournal_keeps fun j => setPosition p w j.journal
    have wf : StoreWf s.lines s.store → s.store.writePos < 128 ∧ 1 ≤ n ∧ n ≤ 8 ∧ (phase = none ∨ phase = some .rewriting) :=
      fun h => (h.busy _ _ hs).2
    split
    · exact (ht.trans (m := [.store, .history]) (markPersisted_keeps e _)).trans (positionDone_keeps phase)
    · split
      · rename_i hn
        refine .ofFrame ?_ (store := fun _ h => ?_) (history := fun _ h => h)
        · exact ht.frame.trans (startOperation_frame _ _) (by decide) (by decide)
        · have := wf h
          simp only [Config.programAttempts] at hn
          exact startOperation_wf (s := t) (op := .program e (n + 1) _) (ht.store h).base
            ⟨this.1, by omega, by omega, this.2.2.2⟩
      · refine .ofFrame ?_ (store := fun _ h => ?_) (history := fun _ h => h)
        · exact ht.frame.trans (startOperation_frame _ _) (by decide) (by decide)
        · exact startOperation_wf (s := t) (op := .void) (ht.store h).base ⟨(wf h).1, (wf h).2.2.2⟩
  · exact .refl _ s

theorem voidDone_keeps : Keeps [.store, .history] s (voidDone s) := by
  unfold voidDone
  split
  · rename_i phase _
    refine Keeps.trans (l := [.store]) ?_ (positionDone_keeps phase)
    exact setJournal_keeps fun j => setPosition j.writePos 0 j.journal
  · exact .refl _ s

/-- R109: the failed attempts of a running compaction are short of the fifth. -/
theorem StoreWf.erasing {l : Lines} {t : Store} (h : StoreWf l t) {phase : Option Phase} (hs : t.state = .busy phase .erase) :
    t.eraseFails < 5 := (h.busy _ _ hs).2.1

theorem eraseAttempt_frame (unerased : List (Nat × BitVec 64)) :
    changesOnly [.store, .history, .events] s (eraseAttempt unerased s) := by
  unfold eraseAttempt
  split
  · extract_lets v t
    have ht : changesOnly [.store] s t := fun b hb => by cases b <;> first | rfl | simp at hb
    split
    · exact (ht.trans (m := [.store]) (l' := [.store]) (fun b hb => by cases b <;> first | rfl | simp at hb)
        (fun _ h => h) fun _ h => h).trans rewriteNext_frame (by decide) (by decide)
    · exact ht.trans eraseFailed_frame (by decide) (by decide)
  · exact .refl _ s

/-- R109: an erase attempt completes. -/
theorem eraseAttempt_keeps (unerased : List (Nat × BitVec 64)) (h : StoreWf s.lines s.store) :
    Keeps [.store, .history, .events] s (eraseAttempt unerased s) := by
  unfold eraseAttempt
  split
  · rename_i phase hs
    extract_lets v t
    have ht : Keeps [.store] s t := setJournal_keeps fun _ => v
    have he : t.store.eraseFails < 5 := h.erasing hs
    split
    · refine .ofFrame ?_ (history := fun _ h => ?_) (store := fun _ h => ?_) (events := fun _ h => ?_)
      · exact (ht.frame.trans (m := [.store]) (l' := [.store]) (fun b hb => by cases b <;> first | rfl | simp at hb)
          (fun _ h => h) fun _ h => h).trans rewriteNext_frame (by decide) (by decide)
      · exact rewriteNext_history (s := t.updStore fun j => { j with writePos := 0 }) h
      · exact rewriteNext_wf (s := t.updStore fun j => { j with writePos := 0 }) ⟨Nat.zero_le _, h.eraseFails⟩
      · have f := rewriteNext_frame (s := t.updStore fun j => { j with writePos := 0 }) .events (by decide)
        simp only [Block.same] at f
        rw [f]
        exact h
    · exact ht.trans (eraseFailed_keeps he)
  · exact .refl _ s

theorem prefillDone_frame : changesOnly [.store] s (prefillDone s) := by
  unfold prefillDone
  split
  · exact changesOnly.trans (l := [.store]) (fun b hb => by cases b <;> first | rfl | simp at hb) (prefillFrom_frame _)
      (fun _ h => h) fun _ h => h
  · exact .refl _ s

/-- R108: a prefill program completes. -/
theorem prefillDone_keeps : Keeps [.store] s (prefillDone s) := by
  refine .ofFrame prefillDone_frame (store := fun _ h => ?_)
  unfold prefillDone
  split
  · rename_i phase p hs
    have hp : s.store.eraseFails = 0 := (h.busy _ _ hs).2.2.1
    exact prefillFrom_wf (s := s.updStore fun j => { j with journal := setPosition p 0 j.journal }) _
      ⟨h.writePos, h.eraseFails⟩ hp
  · exact h

/-! ## SUPPLY_OK -/

theorem deferOperation_frame : changesOnly [.store, .events, .draws] s (deferOperation s) := by
  unfold deferOperation
  split
  · exact (stopOperation_frame _).trans eraseFailed_frame (by decide) (by decide)
  · exact (stopOperation_frame _).trans (l' := [.store]) (fun b hb => by cases b <;> first | rfl | simp at hb)
      (by decide) (by decide)
  · exact .refl _ s

theorem supplyFall_frame : changesOnly [.lines, .store, .events, .draws] s (supplyFall s) := by
  unfold supplyFall
  split
  · have h : changesOnly [.lines] s (s.updLines fun l => { l with supplyOk := false }) :=
      fun b hb => by cases b <;> first | rfl | simp at hb
    unfold whenRunning
    split
    · exact h.mono (by decide)
    · exact h.trans deferOperation_frame (by decide) (by decide)
  · exact .refl _ s

theorem StoreWf.loading {l l' : Lines} {t : Store} (h : StoreWf l t) (hs : t.state = .loading) : StoreWf l' t :=
  ⟨h.writePos, h.eraseFails, fun _ _ e => (nomatch hs.symm.trans e), fun _ _ e => (nomatch hs.symm.trans e),
    fun _ _ e => (nomatch hs.symm.trans e)⟩

/-- R112, R159: SUPPLY_OK falls; while RESET is low the store stands LOADING. -/
theorem supplyFall_keeps (h : s.lines.resetLow = true → s.store.state = .loading) :
    Keeps [.lines, .store, .events, .draws] s (supplyFall s) := by
  refine .ofFrame supplyFall_frame (store := fun _ w => ?_) (events := fun _ w => ?_)
  · unfold supplyFall
    split
    · unfold whenRunning
      split
      · rename_i hl
        exact w.loading (h hl)
      · unfold deferOperation
        split
        · rename_i e
          exact eraseFailed_wf (s := stopOperation .erase _) w.base (w.busy _ _ e).2.1
        · rename_i phase op _ e
          refine ⟨w.writePos, w.eraseFails, fun _ _ e => (nomatch e), fun _ _ _ => rfl, fun _ _ e' => ?_⟩
          cases e'
          have := (w.busy _ _ e).2
          cases op <;> exact this
        · rename_i n1 n2
          refine ⟨w.writePos, w.eraseFails, fun a b e => ?_, fun _ _ _ => rfl, w.noted⟩
          exact absurd e (by cases b <;> first | exact n1 _ | exact n2 _ _)
    · exact w
  · unfold supplyFall
    split
    · unfold whenRunning
      split
      · exact w
      · unfold deferOperation
        split
        · exact eraseFailed_events (s := stopOperation .erase _) w
        · exact w
        · exact w
    · exact w

theorem resumeStore_frame : changesOnly [.store, .history] s (resumeStore s) := by
  unfold resumeStore
  split
  · exact changesOnly.trans (l := [.store]) (fun b hb => by cases b <;> first | rfl | simp at hb) storeSelect_keeps.frame
      (by decide) (by decide)
  · exact (startOperation_frame _ _).mono (by decide)
  · exact (startOperation_frame _ _).mono (by decide)
  · exact .refl _ s

theorem supplyRise_frame : changesOnly [.lines, .store, .history] s (supplyRise s) := by
  unfold supplyRise
  split
  · exact .refl _ s
  · have h : changesOnly [.lines] s (s.updLines fun l => { l with supplyOk := true }) :=
      fun b hb => by cases b <;> first | rfl | simp at hb
    unfold whenRunning
    split
    · exact h.mono (by decide)
    · exact h.trans resumeStore_frame (by decide) (by decide)

/-- R112: the DEFERRED store resumes. -/
theorem resumeStore_keeps : Keeps [.store, .history] s (resumeStore s) := by
  unfold resumeStore
  split
  · exact (Keeps.updStore fun w => w.base.quiet _ (.inl rfl)).trans storeSelect_keeps
  · rename_i e
    refine Keeps.mono (startOperation_keeps fun w => ?_)
    exact ⟨(w.noted _ _ e).1, (w.noted _ _ e).2.2.2⟩
  · rename_i e
    exact Keeps.mono (startOperation_keeps fun w => w.noted _ _ e)
  · exact .refl _ s

/-- R112, R159: SUPPLY_OK rises; while RESET is low the store stands LOADING. -/
theorem supplyRise_keeps (h : s.lines.resetLow = true → s.store.state = .loading) :
    Keeps [.lines, .store, .history] s (supplyRise s) := by
  refine .ofFrame supplyRise_frame (history := fun _ w => ?_) (store := fun _ w => ?_)
  · unfold supplyRise
    split
    · exact w
    · unfold whenRunning
      split
      · exact w
      · exact (resumeStore_keeps (s := s.updLines fun l => { l with supplyOk := true })).history w
  · unfold supplyRise
    split
    · exact w
    · unfold whenRunning
      split
      · rename_i hl
        exact w.loading (h hl)
      · unfold resumeStore
        split
        · exact storeSelect_keeps.store (s := State.updStore _ _) (w.base.quiet _ (.inl rfl))
        · rename_i e
          exact startOperation_wf w.base ⟨(w.noted _ _ e).1, (w.noted _ _ e).2.2.2⟩
        · rename_i e
          exact startOperation_wf w.base (w.noted _ _ e)
        · rename_i n1 n2 n3
          refine ⟨w.writePos, w.eraseFails, fun a b e => ⟨rfl, (w.busy a b e).2⟩, fun a b e => ?_, w.noted⟩
          cases b with
          | none => exact absurd e (n1 _)
          | some b => exact absurd e (n3 _ _)

/-! ## RESET -/

theorem Settings.wf_atReset : Settings.atReset.wf := by
  refine ⟨by constructor <;> decide, ?_, ?_, ?_, ?_, by constructor <;> decide, by constructor <;> decide⟩
  all_goals refine ⟨by decide, by decide, ?_⟩
  all_goals (simp only [Segment.wf]; decide)

theorem ModemPort.wf_atReset : ModemPort.atReset.wf :=
  ⟨trivial, by decide, fun _ e => (nomatch e), by decide, by decide, by decide, by decide, by decide, by decide⟩

theorem HostLink.wf_atReset : HostLink.atReset.wf :=
  ⟨trivial, by decide, fun _ e => (nomatch e), fun _ e => (nomatch e), by decide, by decide⟩

/-- R157: blocks at their reset values are in their form. -/
theorem blocksAtReset_wf (b : Bool) : (blocksAtReset b s).wf where
  modem := ModemPort.wf_atReset
  slots := SlotsWf.empty
  pool := PoolWf.empty
  location := Nat.zero_le _
  time := ⟨Nat.zero_le _, Nat.zero_le _, fun _ => rfl⟩
  history := HistoryWf.nil
  store := ⟨Nat.zero_le _, Nat.zero_le _, fun _ _ e => (nomatch e), fun _ _ e => (nomatch e), fun _ _ e => (nomatch e)⟩
  settings := Settings.wf_atReset
  cycle := fun _ e => (nomatch e)
  keys := Keys.wf_atReset
  receipts := Receipts.wf_atReset 0
  events := EventsWf.nil
  host := HostLink.wf_atReset

end Sys2Proof.Machine
end

