-- ==== Sys2Proof/Laws/Order.lean ====
section
/-! SUPPORT. Presentation's form (R115 to R124): what each of its operations keeps of `PresWf`, and that the
decision settles it (`presentationDecision_settles`, `settle_settles`). -/

namespace Sys2Proof.Machine

-- Checked one declaration at a time, so that the package as one text keeps within its memory limit.
set_option Elab.async false

variable {s t u : State}

theorem whenRunning_frame {f : State → State} {l} (h : changesOnly l s (f s)) : changesOnly l s (whenRunning f s) := by
  unfold whenRunning; split
  · exact .refl l s
  · exact h


/-- Nothing that presentation looks at changes. -/
structure PresSame (s t : State) : Prop where
  state : ∀ j, stateAt t j = stateAt s j
  rank : ∀ j, rankAt t j = rankAt s j
  admission : ∀ j, admissionAt t j = admissionAt s j
  pres : t.pres = s.pres
  owner : ownerOf t = ownerOf s

theorem PresSame.refl (s : State) : PresSame s s := ⟨fun _ => rfl, fun _ => rfl, fun _ => rfl, rfl, rfl⟩
theorem PresSame.trans {u} (h : PresSame s u) (k : PresSame u t) : PresSame s t :=
  ⟨fun j => (k.state j).trans (h.state j), fun j => (k.rank j).trans (h.rank j),
   fun j => (k.admission j).trans (h.admission j), k.pres.trans h.pres, k.owner.trans h.owner⟩

theorem PresSame.ofSlots (h : t.slots = s.slots) (hp : t.pres = s.pres) (hc : ownerOf t = ownerOf s) : PresSame s t := by
  have e : ∀ j, slotOf t j = slotOf s j := slotOf_of_same h
  exact ⟨fun j => by simp only [stateAt, e], fun j => by simp only [rankAt, e], fun j => by simp only [admissionAt, e], hp, hc⟩

theorem PresSame.ofFrame {l} (h : changesOnly l s t) (h1 : .slots ∉ l := by decide) (h2 : .pres ∉ l := by decide)
   (h3 : .cycle ∉ l := by decide) : PresSame s t :=
  .ofSlots (h _ h1) (h _ h2) (by have := h _ h3; simp only [Block.same] at this; simp only [ownerOf, this])

theorem PresSame.wf (h : PresSame s t) (w : PresWf s) : PresWf t := by
  constructor
  · rw [h.pres]; exact w.queueNodup
  · rw [h.pres]; exact w.pendingNodup
  · simp only [h.pres, h.state]; exact w.queue
  · simp only [h.pres, h.state]; exact w.pending
  · simp only [h.pres, h.state]; exact w.active
  · simp only [h.owner, h.state]; exact w.sounding
  · simp only [h.owner, h.pres]; exact w.preview
  · simp only [h.pres]; exact w.alone
  · simp only [h.pres, h.state]; exact w.shown
  · simp only [h.pres, h.rank, h.admission]; exact w.sorted

theorem PresSame.settled (h : PresSame s t) (w : PresSettled s) : PresSettled t := by
  constructor
  · rw [h.pres]; exact w.none
  · simp only [h.pres, h.rank, h.state]; exact w.sounding
  · simp only [h.pres, h.rank, h.state]; exact w.shown

/-! views after ops -/
theorem stateAt_modSlot (i j : SlotIndex) (f : Slot → Slot) :
    stateAt (modSlot i f s) j = if i = j then (slotOf s i).map (fun x => (f x).state) else stateAt s j := by
  unfold stateAt; rw [slotOf_modSlot]; split <;> simp [Function.comp_def]

theorem rankAt_modSlot (i j : SlotIndex) (f : Slot → Slot) (hf : ∀ x, (f x).cls = x.cls) :
    rankAt (modSlot i f s) j = rankAt s j := by
  unfold rankAt; rw [slotOf_modSlot]; split
  · rename_i e; subst e; cases slotOf s i <;> simp [Slot.rank, hf]
  · rfl

theorem admissionAt_modSlot (i j : SlotIndex) (f : Slot → Slot) (hf : ∀ x, (f x).admission = x.admission) :
    admissionAt (modSlot i f s) j = admissionAt s j := by
  unfold admissionAt; rw [slotOf_modSlot]; split
  · rename_i e; subst e; cases slotOf s i <;> simp [hf]
  · rfl

theorem PresSame.modSlot (i : SlotIndex) (f : Slot → Slot) (h1 : ∀ x, (f x).state = x.state) (h2 : ∀ x, (f x).cls = x.cls)
   (h3 : ∀ x, (f x).admission = x.admission) : PresSame s (modSlot i f s) :=
  ⟨fun j => by
     rw [stateAt_modSlot]; split
     · rename_i e; subst e; unfold stateAt; cases slotOf s i <;> simp [h1]
     · rfl,
   fun j => rankAt_modSlot i j f h2, fun j => admissionAt_modSlot i j f h3, rfl, rfl⟩

theorem stateAt_freeSlot (i j : SlotIndex) : stateAt (freeSlot i s) j = if i = j then none else stateAt s j := by
  unfold stateAt; rw [slotOf_freeSlot]; split
  · rfl
  · cases slotOf s j with
    | none => rfl
    | some x => simp only [Option.map_some, Slot.forget]; split <;> rfl

theorem rankAt_freeSlot (i j : SlotIndex) (h : i ≠ j) : rankAt (freeSlot i s) j = rankAt s j := by
  unfold rankAt; rw [slotOf_freeSlot, if_neg h]
  cases slotOf s j with
  | none => rfl
  | some x => simp only [Option.map_some, Slot.forget]; split <;> rfl

theorem admissionAt_freeSlot (i j : SlotIndex) (h : i ≠ j) : admissionAt (freeSlot i s) j = admissionAt s j := by
  unfold admissionAt; rw [slotOf_freeSlot, if_neg h]
  cases slotOf s j with
  | none => rfl
  | some x => simp only [Option.map_some, Slot.forget]; split <;> rfl

/-- A slot not in presentation. -/
def Aside (s : State) (i : SlotIndex) : Prop :=
  stateAt s i = none ∨ stateAt s i = some .gathering ∨ stateAt s i = some .admitted ∨ stateAt s i = some .done

theorem erase_of_not_mem' {l : List SlotIndex} {i : SlotIndex} (h : i ∉ l) : l.erase i = l := List.erase_of_not_mem h

theorem PresWf.aside (w : PresWf s) {i : SlotIndex} (h : Aside s i) :
   i ∉ s.pres.queue ∧ i ∉ s.pres.pendingList ∧ s.pres.active ≠ some i ∧ ownerOf s ≠ some (.slot i) ∧ stateAt s i ≠ some .shown := by
  refine ⟨?_, ?_, ?_, ?_, ?_⟩
  · rw [w.queue]; rcases h with h | h | h | h <;> simp [h]
  · rw [w.pending]; rcases h with h | h | h | h <;> simp [h]
  · rw [ne_eq, w.active]; rcases h with h | h | h | h <;> simp [h]
  · rw [ne_eq, w.sounding]; rcases h with h | h | h | h <;> simp [h]
  · rcases h with h | h | h | h <;> simp [h]

/-- Changes at a slot set aside, with presentation and the cycle as they were. -/
structure AsideChange (i : SlotIndex) (s t : State) : Prop where
  before : Aside s i
  after : Aside t i
  state : ∀ j, j ≠ i → stateAt t j = stateAt s j
  rank : ∀ j, j ≠ i → rankAt t j = rankAt s j
  admission : ∀ j, j ≠ i → admissionAt t j = admissionAt s j
  pres : t.pres = s.pres
  owner : ownerOf t = ownerOf s

theorem AsideChange.wf {i} (c : AsideChange i s t) (w : PresWf s) : PresWf t := by
  have a := w.aside c.before
  have key : ∀ (st : SlotState), (st ≠ .gathering ∧ st ≠ .admitted ∧ st ≠ .done) → ∀ j, stateAt t j = some st ↔ stateAt s j = some st := by
    intro st hst j
    by_cases e : j = i
    · subst e
      have h1 := c.before; have h2 := c.after
      constructor
      · intro h; rcases h2 with h2 | h2 | h2 | h2 <;> rw [h2] at h <;> cases h <;> simp at hst
      · intro h; rcases h1 with h2 | h2 | h2 | h2 <;> rw [h2] at h <;> cases h <;> simp at hst
    · rw [c.state j e]
  have kq := key .queued (by simp)
  have kp := key .pending (by simp)
  have ks := key .sounding (by simp)
  have kh := key .shown (by simp)
  constructor
  · rw [c.pres]; exact w.queueNodup
  · rw [c.pres]; exact w.pendingNodup
  · simp only [c.pres, kq]; exact w.queue
  · simp only [c.pres, kp]; exact w.pending
  · simp only [c.pres, ks, kh]; exact w.active
  · simp only [c.owner, ks]; exact w.sounding
  · simp only [c.owner, c.pres]; exact w.preview
  · simp only [c.pres]; exact w.alone
  · simp only [c.pres, kh]; exact w.shown
  · rw [c.pres]
    refine w.sorted.imp_of_mem ?_
    intro x y hx hy h
    have nx : x ≠ i := fun e => a.1 (e ▸ hx)
    have ny : y ≠ i := fun e => a.1 (e ▸ hy)
    rw [c.rank x nx, c.rank y ny, c.admission x nx, c.admission y ny]
    exact h

theorem AsideChange.settled {i} (c : AsideChange i s t) (w : PresWf s) (k : PresSettled s) : PresSettled t := by
  have a := w.aside c.before
  have hh : ∀ h, s.pres.queue.head? = some h → h ≠ i := fun h e e' => a.1 (e' ▸ List.mem_of_mem_head? e)
  constructor
  · rw [c.pres]; exact k.none
  · intro x h hx hs hq
    rw [c.pres] at hx hq
    have nx : x ≠ i := fun e => a.2.2.1 (e ▸ hx)
    rw [c.state x nx] at hs
    rw [c.rank x nx, c.rank h (hh h hq)]
    exact k.sounding x h hx hs hq
  · intro x h hx hs hq
    rw [c.pres] at hx hq
    have nx : x ≠ i := fun e => a.2.2.1 (e ▸ hx)
    rw [c.state x nx] at hs
    rw [c.rank x nx, c.rank h (hh h hq)]
    exact k.shown x h hx hs hq

theorem freeSlot_aside (w : PresWf s) {i : SlotIndex} (h : Aside s i) : AsideChange i s (freeSlot i s) where
  before := h
  after := .inl (by rw [stateAt_freeSlot, if_pos rfl])
  state := fun j e => by rw [stateAt_freeSlot, if_neg (Ne.symm e)]
  rank := fun j e => rankAt_freeSlot i j (Ne.symm e)
  admission := fun j e => admissionAt_freeSlot i j (Ne.symm e)
  pres := by
    have a := w.aside h
    simp only [freeSlot, State.updPres_pres, State.updSlots_pres, List.erase_of_not_mem a.1, List.erase_of_not_mem a.2.1]
  owner := rfl

theorem putSlot_aside {i : SlotIndex} (h : Aside s i) (o : Option Slot)
   (ho : o.map (·.state) = none ∨ o.map (·.state) = some .gathering ∨ o.map (·.state) = some .admitted ∨ o.map (·.state) = some .done) :
   AsideChange i s (putSlot i o s) where
  before := h
  after := by unfold Aside stateAt; rw [putSlot_same]; exact ho
  state := fun j e => by unfold stateAt; rw [putSlot_other _ (Ne.symm e)]
  rank := fun j e => by unfold rankAt; rw [putSlot_other _ (Ne.symm e)]
  admission := fun j e => by unfold admissionAt; rw [putSlot_other _ (Ne.symm e)]
  pres := rfl
  owner := rfl


theorem slot_of_state {i : SlotIndex} {st : SlotState} (h : stateAt s i = some st) : ∃ x, slotOf s i = some x ∧ x.state = st := by
  unfold stateAt at h
  exact Option.map_eq_some_iff.1 h

theorem stateAt_setState {i j : SlotIndex} {f : Slot → Slot} {st old : SlotState} (hf : ∀ x, (f x).state = st)
   (h : stateAt s i = some old) : stateAt (modSlot i f s) j = if j = i then some st else stateAt s j := by
  rw [stateAt_modSlot]
  obtain ⟨x, hx, _⟩ := slot_of_state h
  by_cases e : i = j
  · rw [if_pos e, if_pos e.symm, hx]; simp [hf]
  · rw [if_neg e, if_neg (Ne.symm e)]

/-- The order of the queue (R115). -/
def Before (s : State) (a b : SlotIndex) : Prop :=
  rankAt s b < rankAt s a ∨ (rankAt s a = rankAt s b ∧ admissionAt s a ≤ admissionAt s b)

theorem standsAhead_iff (i e : SlotIndex) : standsAhead s i e = true ↔ Before s e i := by
  unfold standsAhead Before admissionAt
  simp only [Bool.or_eq_true, Bool.and_eq_true, decide_eq_true_eq]
  constructor
  · rintro (h | ⟨h, k⟩)
    · exact .inl h
    · exact .inr ⟨h.symm, k⟩
  · rintro (h | ⟨h, k⟩)
    · exact .inl h
    · exact .inr ⟨h.symm, k⟩

theorem Before.total {a b : SlotIndex} (h : ¬ Before s a b) : Before s b a := by
  unfold Before at *; omega

theorem Before.trans {a b c : SlotIndex} (h : Before s a b) (k : Before s b c) : Before s a c := by
  unfold Before at *; omega

theorem insert_perm (p : SlotIndex → Bool) (i : SlotIndex) (l : List SlotIndex) :
   (l.takeWhile p ++ i :: l.dropWhile p).Perm (i :: l) := by
  refine List.perm_middle.trans ?_
  rw [List.takeWhile_append_dropWhile]

theorem insert_sorted (i : SlotIndex) {l : List SlotIndex} (h : l.Pairwise (Before s)) :
   (l.takeWhile (standsAhead s i) ++ i :: l.dropWhile (standsAhead s i)).Pairwise (Before s) := by
  induction l with
  | nil => simp
  | cons a l ih =>
    have hl := List.pairwise_cons.1 h
    by_cases hp : standsAhead s i a = true
    · rw [List.takeWhile_cons_of_pos hp, List.dropWhile_cons_of_pos hp, List.cons_append]
      refine List.pairwise_cons.2 ⟨?_, ih hl.2⟩
      intro b hb
      have := (insert_perm (standsAhead s i) i l).mem_iff.1 hb
      rcases List.mem_cons.1 this with rfl | hb
      · exact (standsAhead_iff _ _).1 hp
      · exact hl.1 b hb
    · rw [List.takeWhile_cons_of_neg hp, List.dropWhile_cons_of_neg hp, List.nil_append]
      have ha : Before s i a := Before.total fun k => hp ((standsAhead_iff _ _).2 k)
      refine List.pairwise_cons.2 ⟨?_, h⟩
      intro b hb
      rcases List.mem_cons.1 hb with rfl | hb
      · exact ha
      · exact ha.trans (hl.1 b hb)

/-- In its form but for slot i, which is QUEUED and not yet in the queue. -/
structure Joining (i : SlotIndex) (s : State) : Prop where
  here : stateAt s i = some .queued
  notIn : i ∉ s.pres.queue
  queueNodup : s.pres.queue.Nodup
  pendingNodup : s.pres.pendingList.Nodup
  queue : ∀ j, j ≠ i → (j ∈ s.pres.queue ↔ stateAt s j = some .queued)
  pending : ∀ j, j ∈ s.pres.pendingList ↔ stateAt s j = some .pending
  active : ∀ j, s.pres.active = some j ↔ stateAt s j = some .sounding ∨ stateAt s j = some .shown
  sounding : ∀ j, ownerOf s = some (.slot j) ↔ stateAt s j = some .sounding
  preview : ownerOf s = some .preview ↔ s.pres.preview.isSome = true
  alone : ∀ a, s.pres.active = some a → s.pres.preview.isSome = false
  shown : s.pres.reminder.isSome = true ↔ ∃ j, stateAt s j = some .shown
  sorted : s.pres.queue.Pairwise (Before s)

theorem Joining.wf {i} (w : Joining i s) : PresWf (joinQueue i s) := by
  have hm : ∀ j, j ∈ (joinQueue i s).pres.queue ↔ j = i ∨ j ∈ s.pres.queue := fun j => by
    simp only [joinQueue, State.updPres_pres]
    rw [(insert_perm _ i _).mem_iff, List.mem_cons]
  constructor
  · simp only [joinQueue, State.updPres_pres]
    exact (insert_perm _ i _).nodup_iff.2 (List.nodup_cons.2 ⟨w.notIn, w.queueNodup⟩)
  · exact w.pendingNodup
  · intro j
    rw [hm]
    show _ ↔ stateAt s j = _
    by_cases e : j = i
    · subst e; simp [w.here]
    · rw [← w.queue j e]; simp [e]
  · exact w.pending
  · exact w.active
  · exact w.sounding
  · exact w.preview
  · exact w.alone
  · exact w.shown
  · exact insert_sorted i w.sorted

/-- R52, R53: a slot not in presentation becomes QUEUED. -/
theorem join_wf (w : PresWf s) {i : SlotIndex} (h : Aside s i) (f : Slot → Slot) (h0 : (slotOf s i).isSome = true)
   (hs : ∀ x, (f x).state = .queued) (hc : ∀ x, (f x).cls = x.cls) (ha : ∀ x, (f x).admission = x.admission) :
   PresWf (joinQueue i (modSlot i f s)) := by
  have a := w.aside h
  have hst : ∃ old, stateAt s i = some old := by
    obtain ⟨x, hx⟩ := Option.isSome_iff_exists.1 h0; exact ⟨x.state, by simp [stateAt, hx]⟩
  obtain ⟨old, hold⟩ := hst
  have st : ∀ j, stateAt (modSlot i f s) j = if j = i then some .queued else stateAt s j := fun j => stateAt_setState hs hold
  have other : ∀ (x : SlotState), x ≠ .queued → x ≠ .gathering → x ≠ .admitted → x ≠ .done → ∀ j, stateAt (modSlot i f s) j = some x ↔ stateAt s j = some x := by
    intro x h1 h2 h3 h4 j
    rw [st]
    split
    · rename_i e; subst e
      rcases h with h | h | h | h <;> rw [h] <;> simp <;> first | exact fun e => h1 e.symm | (constructor <;> intro e <;> (subst e; simp at *))
    · rfl
  apply Joining.wf
  refine ⟨by rw [st, if_pos rfl], a.1, w.queueNodup, w.pendingNodup, ?_, ?_, ?_, ?_, w.preview, w.alone, ?_, ?_⟩
  · intro j e; rw [st, if_neg e]; exact w.queue j
  · intro j; rw [other .pending (by simp) (by simp) (by simp) (by simp)]; exact w.pending j
  · intro j; rw [other .sounding (by simp) (by simp) (by simp) (by simp), other .shown (by simp) (by simp) (by simp) (by simp)]; exact w.active j
  · intro j; rw [other .sounding (by simp) (by simp) (by simp) (by simp)]; exact w.sounding j
  · simp only [other .shown (by simp) (by simp) (by simp) (by simp)]; exact w.shown
  · have : Before (modSlot i f s) = Before s := by
      funext x y; simp only [Before, rankAt_modSlot i _ f hc, admissionAt_modSlot i _ f ha]
    rw [this]; exact w.sorted

@[simp] theorem stopCycle_pres (s : State) : (stopCycle s).pres = s.pres := rfl

theorem leavePresentation_slots (i : SlotIndex) (s : State) : (leavePresentation i s).slots = s.slots :=
  (leavePresentation_keeps i).frame .slots (by simp)

theorem stateAt_leave (i j : SlotIndex) : stateAt (leavePresentation i s) j = stateAt s j := by
  simp only [stateAt, slotOf_of_same (leavePresentation_slots i s)]
theorem rankAt_leave (i j : SlotIndex) : rankAt (leavePresentation i s) j = rankAt s j := by
  simp only [rankAt, slotOf_of_same (leavePresentation_slots i s)]
theorem admissionAt_leave (i j : SlotIndex) : admissionAt (leavePresentation i s) j = admissionAt s j := by
  simp only [admissionAt, slotOf_of_same (leavePresentation_slots i s)]

theorem leave_wf (w : PresWf s) {i : SlotIndex} {old : SlotState} (h : stateAt s i = some old) (hw : old.withdrawable = true)
   (f : Slot → Slot) (hs : ∀ x, (f x).state = .done) (hc : ∀ x, (f x).cls = x.cls) (ha : ∀ x, (f x).admission = x.admission) :
   PresWf (modSlot i f (leavePresentation i s)) := by
  have st : ∀ j, stateAt (modSlot i f (leavePresentation i s)) j = if j = i then some .done else stateAt s j := fun j => by
    rw [stateAt_setState (old := old) hs (by rw [stateAt_leave]; exact h), stateAt_leave]
  have bf : Before (modSlot i f (leavePresentation i s)) = Before s := by
    funext x y; simp only [Before, rankAt_modSlot i _ f hc, admissionAt_modSlot i _ f ha, rankAt_leave, admissionAt_leave]
  -- what leaving does to presentation
  have q : (modSlot i f (leavePresentation i s)).pres.queue = s.pres.queue.erase i := by
    show (leavePresentation i s).pres.queue = _
    have : old ≠ .queued → s.pres.queue.erase i = s.pres.queue := fun e => List.erase_of_not_mem (by rw [w.queue, h]; simpa using e)
    unfold leavePresentation
    rw [h]
    cases old <;> simp [SlotState.withdrawable] at hw <;> simp [this]
  have p : (modSlot i f (leavePresentation i s)).pres.pendingList = s.pres.pendingList.erase i := by
    show (leavePresentation i s).pres.pendingList = _
    have : old ≠ .pending → s.pres.pendingList.erase i = s.pres.pendingList := fun e => List.erase_of_not_mem (by rw [w.pending, h]; simpa using e)
    unfold leavePresentation
    rw [h]
    cases old <;> simp [SlotState.withdrawable] at hw <;> simp [this]
  have act : ∀ j, (modSlot i f (leavePresentation i s)).pres.active = some j ↔ s.pres.active = some j ∧ j ≠ i := by
    intro j
    show (leavePresentation i s).pres.active = some j ↔ _
    have hi := w.active i
    unfold leavePresentation
    rw [h] at hi ⊢
    cases old <;> simp [SlotState.withdrawable] at hw <;> simp at hi ⊢
    · intro e e'; subst e'; exact hi e
    · intro e; rw [hi] at e; cases e; rfl
    · intro e; rw [hi] at e; cases e; rfl
    · intro e e'; subst e'; exact hi e
  have own : ∀ j, ownerOf (modSlot i f (leavePresentation i s)) = some (.slot j) ↔ ownerOf s = some (.slot j) ∧ j ≠ i := by
    intro j
    show ownerOf (leavePresentation i s) = some (.slot j) ↔ _
    have hi := w.sounding i
    unfold leavePresentation
    rw [h] at hi ⊢
    cases old <;> simp [SlotState.withdrawable] at hw <;> simp [stopCycle, ownerOf] at hi ⊢
    · intro c e k e'; subst e'; exact hi c e k
    · intro c e k; obtain ⟨c', e', k'⟩ := hi; rw [e] at e'; cases e'; rw [k] at k'; cases k'; rfl
    · intro c e k e'; subst e'; exact hi c e k
    · intro c e k e'; subst e'; exact hi c e k
  have prev : (ownerOf (modSlot i f (leavePresentation i s)) = some .preview ↔ (modSlot i f (leavePresentation i s)).pres.preview.isSome = true) := by
    show ownerOf (leavePresentation i s) = some .preview ↔ (leavePresentation i s).pres.preview.isSome = true
    have hi := w.sounding i
    have hp := w.preview
    unfold leavePresentation
    rw [h] at hi ⊢
    cases old <;> simp [SlotState.withdrawable] at hw
    · exact hp
    · have hi := hi.2 rfl
      simp [stopCycle, ownerOf] at hi ⊢
      obtain ⟨c, e, k⟩ := hi
      rw [ownerOf, e] at hp
      simp [k] at hp
      exact hp
    · exact hp
    · exact hp
  have rem : (modSlot i f (leavePresentation i s)).pres.reminder.isSome = true ↔ s.pres.reminder.isSome = true ∧ old ≠ .shown := by
    show (leavePresentation i s).pres.reminder.isSome = true ↔ _
    unfold leavePresentation
    rw [h]
    cases old <;> simp [SlotState.withdrawable] at hw <;> simp
  have unique : ∀ j, stateAt s j = some .shown → j ≠ i → old ≠ .shown := by
    intro j hj ne e
    subst e
    have h1 := (w.active j).2 (.inr hj)
    have h2 := (w.active i).2 (.inr h)
    rw [h1] at h2; cases h2; exact ne rfl
  constructor
  · rw [q]; exact w.queueNodup.erase i
  · rw [p]; exact w.pendingNodup.erase i
  · intro j; rw [q, st, w.queueNodup.mem_erase_iff, w.queue]; by_cases e : j = i <;> simp [e]
  · intro j; rw [p, st, w.pendingNodup.mem_erase_iff, w.pending]; by_cases e : j = i <;> simp [e]
  · intro j; rw [act, st, w.active]; by_cases e : j = i <;> simp [e]
  · intro j; rw [own, st, w.sounding]; by_cases e : j = i <;> simp [e]
  · exact prev
  · intro a ha
    have pe : (modSlot i f (leavePresentation i s)).pres.preview = s.pres.preview := by
      show (leavePresentation i s).pres.preview = _
      unfold leavePresentation
      split <;> rfl
    rw [pe]
    exact w.alone a ((act a).1 ha).1
  · rw [rem, w.shown]
    constructor
    · rintro ⟨⟨j, hj⟩, ne⟩
      refine ⟨j, ?_⟩
      rw [st, if_neg]; exact hj
      rintro rfl; rw [h] at hj; cases hj; exact ne rfl
    · rintro ⟨j, hj⟩
      rw [st] at hj
      split at hj
      · cases hj
      · rename_i e; exact ⟨⟨j, hj⟩, unique j hj e⟩
  · rw [q]
    show List.Pairwise (Before _) _
    rw [bf]
    exact w.sorted.sublist List.erase_sublist

theorem stateAt_updPres (f) (j : SlotIndex) : stateAt (s.updPres f) j = stateAt s j := rfl

/-- R118: the head becomes active. -/
theorem activate_wf (w : PresWf s) {h : SlotIndex} (hq : h ∈ s.pres.queue) (hn : s.pres.active = none) :
   PresWf (activate h s) ∧ (activate h s).pres.queue = s.pres.queue.erase h ∧ (activate h s).pres.active = some h ∧
     stateAt (activate h s) h = some .sounding ∧ (∀ j, rankAt (activate h s) j = rankAt s j) ∧ (∀ j, j ≠ h → stateAt (activate h s) j = stateAt s j)
     ∧ (activate h s).pres.pendingList = s.pres.pendingList := by
  have hh := (w.queue h).1 hq
  unfold activate
  extract_lets a b
  have hsame : PresSame (startCycle (.slot h) (rankAt b h) b) (presentFirst h (postSlot h .presenting (startCycle (.slot h) (rankAt b h) b))) := by
    refine PresSame.trans (PresSame.ofFrame (postSlot_keeps h .presenting).frame) ?_
    unfold presentFirst
    split
    · exact .refl _
    · split
      · exact .refl _
      · extract_lets u
        have hu : PresSame (postSlot h .presenting (startCycle (.slot h) (rankAt b h) b)) u := PresSame.modSlot _ _ (fun _ => rfl) (fun _ => rfl) fun _ => rfl
        split
        · exact hu.trans (PresSame.ofFrame (requestReceipt_keeps ..).frame)
        · exact hu
  have hbs : b.slots = a.slots := stopPreview_keeps.frame .slots (by simp)
  have pb : b.pres = { s.pres with queue := s.pres.queue.erase h, active := some h, preview := none } := by
    show (stopPreview a).pres = _
    unfold stopPreview
    split
    · rfl
    · rename_i e
      simp only [a, enterState, modSlot, putSlot, State.updSlots_pres, State.updPres_pres] at e ⊢
      simp at e
      rw [← e]
  have st : ∀ j, stateAt (startCycle (.slot h) (rankAt b h) b) j = if j = h then some .sounding else stateAt s j := by
    intro j
    have : stateAt (startCycle (.slot h) (rankAt b h) b) j = stateAt a j := by
      unfold stateAt; rw [slotOf_of_same (s := a) (t := startCycle (.slot h) _ b) hbs]
    rw [this]
    exact stateAt_setState (s := s.updPres _) (fun _ => rfl) hh
  have rk : ∀ j, rankAt (startCycle (.slot h) (rankAt b h) b) j = rankAt s j := by
    intro j
    have : rankAt (startCycle (.slot h) (rankAt b h) b) j = rankAt a j :=
      congrArg (fun o => (Option.map Slot.rank o).getD 0) (slotOf_of_same (s := a) (t := startCycle (.slot h) _ b) hbs j)
    rw [this]
    exact rankAt_modSlot (s := s.updPres _) h j _ fun _ => rfl
  have ad : ∀ j, admissionAt (startCycle (.slot h) (rankAt b h) b) j = admissionAt s j := by
    intro j
    have : admissionAt (startCycle (.slot h) (rankAt b h) b) j = admissionAt a j := by
      unfold admissionAt; rw [slotOf_of_same (s := a) (t := startCycle (.slot h) _ b) hbs]
    rw [this]
    exact admissionAt_modSlot (s := s.updPres _) h j _ fun _ => rfl
  have pc : (startCycle (.slot h) (rankAt b h) b).pres = { s.pres with queue := s.pres.queue.erase h, active := some h, preview := none } := pb
  have oc : ownerOf (startCycle (.slot h) (rankAt b h) b) = some (.slot h) := rfl
  have na : ∀ j, ¬ (stateAt s j = some .sounding ∨ stateAt s j = some .shown) := fun j => by
    rw [← w.active, hn]; simp
  have hw : PresWf (startCycle (.slot h) (rankAt b h) b) := by
    constructor
    · rw [pc]; exact w.queueNodup.erase h
    · rw [pc]; exact w.pendingNodup
    · intro j; rw [pc, st, w.queueNodup.mem_erase_iff, w.queue]; by_cases e : j = h <;> simp [e]
    · intro j; rw [pc, st]; show j ∈ s.pres.pendingList ↔ _; rw [w.pending]
      by_cases e : j = h
      · subst e; simp [hh]
      · simp [e]
    · intro j; rw [pc, st]
      by_cases e : j = h
      · simp [e]
      · simp only [e, if_false, na j, iff_false]; simp [Ne.symm e]
    · intro j; rw [oc, st]
      by_cases e : j = h
      · simp [e]
      · have := na j; simp only [not_or] at this; simp [e, this.1, Ne.symm e]
    · rw [oc, pc]; simp
    · rw [pc]; intro _ _; rfl
    · rw [pc]
      show s.pres.reminder.isSome = true ↔ _
      rw [w.shown]
      have : (∃ i, stateAt s i = some SlotState.shown) ↔ False := by
        simp only [iff_false, not_exists]; intro j hj; exact na j (.inr hj)
      rw [this]
      simp only [false_iff, not_exists]
      intro j hj
      rw [st] at hj
      split at hj
      · cases hj
      · exact na j (.inr hj)
    · rw [pc]
      show List.Pairwise (Before _) _
      have bf : Before (startCycle (.slot h) (rankAt b h) b) = Before s := by
        funext x y; simp only [Before, rk, ad]
      rw [bf]
      exact w.sorted.sublist List.erase_sublist
  refine ⟨hsame.wf hw, ?_, ?_, ?_, ?_, ?_, ?_⟩
  · rw [hsame.pres, pc]
  · rw [hsame.pres, pc]
  · rw [hsame.state, st, if_pos rfl]
  · intro j; rw [hsame.rank, rk]
  · intro j e; rw [hsame.state, st, if_neg e]
  · rw [hsame.pres, pc]

theorem PresWf.active_unique (w : PresWf s) {a : SlotIndex} (ha : s.pres.active = some a) {j : SlotIndex}
   (h : stateAt s j = some .sounding ∨ stateAt s j = some .shown) : j = a := by
  have := (w.active j).2 h; rw [ha] at this; cases this; rfl

theorem PresWf.no_preview (w : PresWf s) {a : SlotIndex} (hs : stateAt s a = some .sounding) : s.pres.preview.isSome = false := by
  have h := (w.sounding a).2 hs
  have p := w.preview
  rw [h] at p
  cases e : s.pres.preview.isSome
  · rfl
  · have := p.2 e; cases this

theorem PresWf.no_reminder (w : PresWf s) {a : SlotIndex} (hs : stateAt s a = some .sounding) : s.pres.reminder.isSome = false := by
  cases e : s.pres.reminder.isSome
  · rfl
  · obtain ⟨j, hj⟩ := w.shown.1 e
    have ha := (w.active a).2 (.inl hs)
    have := w.active_unique ha (.inr hj)
    subst this; rw [hs] at hj; cases hj

/-- R120. -/
theorem interrupt_wf (w : PresWf s) {a : SlotIndex} (hs : stateAt s a = some .sounding) :
    PresWf (interrupt a s) ∧ (interrupt a s).pres.active = none ∧ (∀ j, rankAt (interrupt a s) j = rankAt s j) ∧
      (∀ h rest, s.pres.queue = h :: rest → rankAt s a < rankAt s h → ∃ rest', (interrupt a s).pres.queue = h :: rest') := by
  have ha := (w.active a).2 (.inl hs)
  unfold interrupt
  generalize hu : (stopCycle s).updPres (fun p => { p with active := none }) = u
  have us : u.slots = s.slots := by subst hu; rfl
  have up : u.pres = { s.pres with active := none } := by subst hu; rfl
  have uo : ownerOf u = none := by subst hu; rfl
  have st : ∀ j, stateAt (enterState .queued a u) j = if j = a then some .queued else stateAt s j := by
    intro j
    have : ∀ k, stateAt u k = stateAt s k := fun k => by unfold stateAt; rw [slotOf_of_same us]
    rw [← this]; exact stateAt_setState (fun _ => rfl) ((this a).trans hs)
  have rk : ∀ j, rankAt (enterState .queued a u) j = rankAt s j := by
    intro j
    unfold enterState
    rw [rankAt_modSlot]; swap; exact fun _ => rfl
    unfold rankAt; rw [slotOf_of_same us]
  have ad : ∀ j, admissionAt (enterState .queued a u) j = admissionAt s j := by
    intro j
    unfold enterState
    rw [admissionAt_modSlot]; swap; exact fun _ => rfl
    unfold admissionAt; rw [slotOf_of_same us]
  have pp : (enterState .queued a u).pres = { s.pres with active := none } := up
  have oo : ownerOf (enterState .queued a u) = none := uo
  have others : ∀ j, j ≠ a → ¬ (stateAt s j = some .sounding ∨ stateAt s j = some .shown) := fun j e h => e (w.active_unique ha h)
  have bf : Before (enterState .queued a u) = Before s := by funext x y; simp only [Before, rk, ad]
  have J : Joining a (enterState .queued a u) := by
    refine ⟨by rw [st, if_pos rfl], ?_, ?_, ?_, ?_, ?_, ?_, ?_, ?_, ?_, ?_, ?_⟩
    · rw [pp]; show a ∉ s.pres.queue; rw [w.queue, hs]; simp
    · rw [pp]; exact w.queueNodup
    · rw [pp]; exact w.pendingNodup
    · intro j e; rw [pp, st, if_neg e]; exact w.queue j
    · intro j; rw [pp, st]; show j ∈ s.pres.pendingList ↔ _; rw [w.pending]
      by_cases e : j = a
      · subst e; simp [hs]
      · simp [e]
    · intro j; rw [pp, st]
      by_cases e : j = a
      · subst e; simp
      · rw [if_neg e]; simp only [others j e, iff_false]; simp
    · intro j; rw [oo, st]
      by_cases e : j = a
      · subst e; simp
      · rw [if_neg e]; have := others j e; simp only [not_or] at this; simp [this.1]
    · rw [oo, pp]; simp [w.no_preview hs]
    · rw [pp]; intro _ h; cases h
    · rw [pp]
      have r := w.no_reminder hs
      simp only [r]
      constructor
      · intro h; cases h
      · rintro ⟨j, hj⟩
        rw [st] at hj
        split at hj
        · cases hj
        · rename_i e; exact absurd (.inr hj) (others j e)
    · rw [pp, bf]; exact w.sorted
  refine ⟨J.wf, ?_, ?_, ?_⟩
  · show (enterState .queued a u).pres.active = none; rw [pp]
  · exact rk
  · intro h rest hq hr
    simp only [joinQueue, State.updPres_pres, pp, hq]
    have : standsAhead (enterState .queued a u) a h = true := (standsAhead_iff _ _).2 (.inl (by rw [rk, rk]; exact hr))
    rw [List.takeWhile_cons_of_pos this]
    exact ⟨_, rfl⟩

/-- A SHOWN active slot, or one just SHOWN whose reminder runs, put on the pending list: R121, R124. -/
theorem toPending_wf (w : PresWf s) {a : SlotIndex} (hs : stateAt s a = some .shown) :
    PresWf (displace a s) ∧ (displace a s).pres.active = none ∧ (∀ j, rankAt (displace a s) j = rankAt s j) ∧
      (displace a s).pres.queue = s.pres.queue := by
  have ha := (w.active a).2 (.inr hs)
  unfold displace
  generalize hu : s.updPres (fun p => { p with reminder := none, active := none, pendingList := p.pendingList ++ [a] }) = u
  have us : u.slots = s.slots := by subst hu; rfl
  have up : u.pres = { s.pres with reminder := none, active := none, pendingList := s.pres.pendingList ++ [a] } := by subst hu; rfl
  have uo : ownerOf u = ownerOf s := by subst hu; rfl
  have st : ∀ j, stateAt (enterState .pending a u) j = if j = a then some .pending else stateAt s j := by
    intro j
    have : ∀ k, stateAt u k = stateAt s k := fun k => by unfold stateAt; rw [slotOf_of_same us]
    rw [← this]; exact stateAt_setState (fun _ => rfl) ((this a).trans hs)
  have rk : ∀ j, rankAt (enterState .pending a u) j = rankAt s j := by
    intro j
    unfold enterState
    rw [rankAt_modSlot]; swap; exact fun _ => rfl
    unfold rankAt; rw [slotOf_of_same us]
  have ad : ∀ j, admissionAt (enterState .pending a u) j = admissionAt s j := by
    intro j
    unfold enterState
    rw [admissionAt_modSlot]; swap; exact fun _ => rfl
    unfold admissionAt; rw [slotOf_of_same us]
  have pp : (enterState .pending a u).pres = { s.pres with reminder := none, active := none, pendingList := s.pres.pendingList ++ [a] } := up
  have oo : ownerOf (enterState .pending a u) = ownerOf s := uo
  have others : ∀ j, j ≠ a → ¬ (stateAt s j = some .sounding ∨ stateAt s j = some .shown) := fun j e h => e (w.active_unique ha h)
  have bf : Before (enterState .pending a u) = Before s := by funext x y; simp only [Before, rk, ad]
  have np : a ∉ s.pres.pendingList := by rw [w.pending, hs]; simp
  have W : PresWf (enterState .pending a u) := by
    constructor
    · rw [pp]; exact w.queueNodup
    · rw [pp]
      refine List.nodup_append.2 ⟨w.pendingNodup, by simp, ?_⟩
      intro x hx y hy; rw [List.mem_singleton.1 hy]; exact fun e => np (e ▸ hx)
    · intro j; rw [pp, st]; show j ∈ s.pres.queue ↔ _; rw [w.queue]
      by_cases e : j = a
      · subst e; simp [hs]
      · simp [e]
    · intro j; rw [pp, st]; show j ∈ s.pres.pendingList ++ [a] ↔ _; rw [List.mem_append, w.pending]
      by_cases e : j = a
      · subst e; simp
      · simp [e]
    · intro j; rw [pp, st]
      by_cases e : j = a
      · subst e; simp
      · rw [if_neg e]; simp only [others j e, iff_false]; simp
    · intro j; rw [oo, st, w.sounding]
      by_cases e : j = a
      · subst e; simp [hs]
      · rw [if_neg e]
    · rw [oo, pp]; exact w.preview
    · rw [pp]; intro _ h; cases h
    · rw [pp]
      simp only [Option.isSome_none, Bool.false_eq_true, false_iff, not_exists]
      intro j hj
      rw [st] at hj
      split at hj
      · cases hj
      · rename_i e; exact absurd (.inr hj) (others j e)
    · rw [pp]; show List.Pairwise (Before _) _; rw [bf]; exact w.sorted
  have k : PresSame (enterState .pending a u) (postSlot a .pending (enterState .pending a u)) := PresSame.ofFrame (postSlot_keeps ..).frame
  refine ⟨k.wf W, ?_, ?_, ?_⟩
  · rw [k.pres, pp]
  · intro j; rw [k.rank, rk]
  · rw [k.pres, pp]

theorem activate_settled (w : PresWf s) {h : SlotIndex} {rest} (hq : s.pres.queue = h :: rest) (hn : s.pres.active = none) :
    PresWf (activate h s) ∧ PresSettled (activate h s) ∧ (activate h s).pres.active = some h := by
  obtain ⟨W, q, a, so, rk, -, -⟩ := activate_wf w (h := h) (by simp [hq]) hn
  refine ⟨W, ⟨?_, ?_, ?_⟩, a⟩
  · intro e; rw [a] at e; cases e
  · intro b k hb hs hk
    rw [a] at hb; cases hb
    rw [rk, rk]
    have hk : k ∈ (activate h s).pres.queue := List.mem_of_mem_head? hk
    rw [q, hq, List.erase_cons_head] at hk
    have := (List.pairwise_cons.1 (hq ▸ w.sorted)).1 k hk
    omega
  · intro b k hb hs hk
    rw [a] at hb; cases hb
    rw [so] at hs; cases hs

theorem head_cons {l : List SlotIndex} {h} (e : l.head? = some h) : ∃ rest, l = h :: rest := by
  cases l with
  | nil => cases e
  | cons a l => cases e; exact ⟨l, rfl⟩

/-- R117: the decision settles presentation. -/
theorem decideOnce_settles (w : PresWf s) : PresWf (decideOnce s) ∧ PresSettled (decideOnce s) := by
  unfold decideOnce
  split
  · rename_i e
    refine ⟨w, ⟨fun _ => by simpa using e, ?_, ?_⟩⟩ <;> (intro a h _ _ hk; rw [e] at hk; cases hk)
  · rename_i h e
    obtain ⟨rest, hq⟩ := head_cons e
    split
    · rename_i hn
      have := activate_settled w hq hn
      exact ⟨this.1, this.2.1⟩
    · rename_i a ha
      split
      · rename_i hs
        split
        · rename_i hr
          obtain ⟨W, n, rk, hd⟩ := interrupt_wf w hs
          obtain ⟨rest', hq'⟩ := hd h rest hq hr
          have := activate_settled W hq' n
          exact ⟨this.1, this.2.1⟩
        · rename_i hr
          refine ⟨w, ⟨fun k => ?_, ?_, ?_⟩⟩
          · rw [ha] at k; cases k
          · intro b k hb _ hk; rw [ha] at hb; cases hb; rw [e] at hk; cases hk; omega
          · intro b k hb h2 _; rw [ha] at hb; cases hb; rw [hs] at h2; cases h2
      · rename_i hs
        split
        · rename_i hr
          obtain ⟨W, n, rk, hd⟩ := toPending_wf w hs
          have := activate_settled W (hd.trans hq) n
          exact ⟨this.1, this.2.1⟩
        · rename_i hr
          refine ⟨w, ⟨fun k => ?_, ?_, ?_⟩⟩
          · rw [ha] at k; cases k
          · intro b k hb h2 _; rw [ha] at hb; cases hb; rw [hs] at h2; cases h2
          · intro b k hb _ hk; rw [ha] at hb; cases hb; rw [e] at hk; cases hk; omega
      · rename_i n1 n2
        have := (w.active a).1 ha
        rcases this with h | h
        · exact absurd h n1
        · exact absurd h n2

theorem presentationDecision_settles (w : PresWf s) : PresWf (presentationDecision s) ∧ PresSettled (presentationDecision s) := by
  unfold presentationDecision
  split
  · exact decideOnce_settles (decideOnce_settles w).1
  · exact decideOnce_settles w

theorem settle_settles (w : PresWf s) : PresWf (settle s) ∧ PresSettled (settle s) := by
  have h := presentationDecision_settles w
  have k : PresSame (presentationDecision s) (settle s) :=
    (PresSame.ofFrame beginHandoff_keeps.frame).trans (PresSame.ofFrame storeSelect_keeps.frame)
  exact ⟨k.wf h.1, k.settled h.2⟩

end Sys2Proof.Machine
end

