-- ==== Sys2Proof/Laws/Story.lean ====
section
/-! SUPPORT. Presentation between two steps (`Story`): what the operations of the commands keep of it. -/

namespace Sys2Proof.Machine

-- Checked one declaration at a time, so that the package as one text keeps within its memory limit.
set_option Elab.async false

variable {s t u : State}

theorem PresSame.story (h : PresSame s t) (w : Story s) : Story t := ⟨h.wf w.1, h.settled w.2⟩
theorem AsideChange.story {i} (h : AsideChange i s t) (w : Story s) : Story t := ⟨h.wf w.1, h.settled w.1 w.2⟩

theorem withdraw_wf (w : PresWf s) {i : SlotIndex} {old : SlotState} (h : stateAt s i = some old) (hw : old.withdrawable = true)
   (o : Settled) : PresWf (withdraw i o s) ∧ stateAt (withdraw i o s) i = some .done ∧
     (∀ j, j ≠ i → stateAt (withdraw i o s) j = stateAt s j) := by
  unfold withdraw
  obtain ⟨x, hx, _⟩ := slot_of_state h
  rw [hx]
  simp only
  generalize hu : modSlot i (fun y => { y with state := .done, withdrawal := some o, doneTime := some s.time.uptime, lastActivity := s.time.uptime }) (leavePresentation i s) = u
  have W : PresWf u := by subst hu; exact leave_wf w h hw _ (fun _ => rfl) (fun _ => rfl) fun _ => rfl
  have st : ∀ j, stateAt u j = if j = i then some .done else stateAt s j := fun j => by
    subst hu
    refine (stateAt_setState (st := .done) (old := old) ?_ ?_).trans ?_
    · exact fun _ => rfl
    · rw [stateAt_leave]; exact h
    · rw [stateAt_leave]
  have k : PresSame u (postSlot i .withdrawn (addSlotHistory x o u)) :=
    (PresSame.ofFrame (addSlotHistory_keeps ..).frame).trans (PresSame.ofFrame (postSlot_keeps ..).frame)
  refine ⟨k.wf W, ?_, ?_⟩
  · rw [k.state, st, if_pos rfl]
  · intro j e; rw [k.state, st, if_neg e]

theorem acknowledge_wf (w : PresWf s) {i : SlotIndex} {old : SlotState} (h : stateAt s i = some old) (hw : old.acknowledgeable = true)
   (o : AckSource) : PresWf (acknowledge o i s) ∧ stateAt (acknowledge o i s) i = some .done ∧
     (∀ j, j ≠ i → stateAt (acknowledge o i s) j = stateAt s j) := by
  have hw' : old.withdrawable = true := by cases old <;> simp [SlotState.acknowledgeable, SlotState.withdrawable] at hw ⊢
  unfold acknowledge
  obtain ⟨x, hx, _⟩ := slot_of_state h
  rw [hx]
  simp only
  generalize hd : min (s.time.uptime - x.firstPresentation.getD s.time.uptime) 65535 = d
  generalize hu : modSlot i (fun y => { y with state := .done, doneTime := some s.time.uptime, lastActivity := s.time.uptime, ack := some ⟨s.time.uptime, o, d⟩ }) (leavePresentation i s) = u
  have W : PresWf u := by subst hu; exact leave_wf w h hw' _ (fun _ => rfl) (fun _ => rfl) fun _ => rfl
  have st : ∀ j, stateAt u j = if j = i then some .done else stateAt s j := fun j => by
    subst hu
    refine (stateAt_setState (st := .done) (old := old) ?_ ?_).trans ?_
    · exact fun _ => rfl
    · rw [stateAt_leave]; exact h
    · rw [stateAt_leave]
  have k : PresSame u (postSlot i .acknowledged (addSlotHistory x .presented u)) :=
    (PresSame.ofFrame (addSlotHistory_keeps ..).frame).trans (PresSame.ofFrame (postSlot_keeps ..).frame)
  have k2 : PresSame u (if x.lead.map (·.mode) = some .onAck then requestReceipt x .acknowledged d (postSlot i .acknowledged (addSlotHistory x .presented u)) else postSlot i .acknowledged (addSlotHistory x .presented u)) := by
    split
    · exact k.trans (PresSame.ofFrame (requestReceipt_keeps ..).frame)
    · exact k
  refine ⟨k2.wf W, ?_, ?_⟩
  · rw [k2.state, st, if_pos rfl]
  · intro j e; rw [k2.state, st, if_neg e]

theorem acknowledgeAll_wf (src : AckSource) (l : List SlotIndex) (hn : l.Nodup) (w : PresWf s)
   (h : ∀ i ∈ l, ∃ st, stateAt s i = some st ∧ st.acknowledgeable = true) : PresWf (acknowledgeAll src l s) := by
  induction l generalizing s with
  | nil => exact w
  | cons i l ih =>
    obtain ⟨st, hs, ha⟩ := h i List.mem_cons_self
    obtain ⟨W, _, ho⟩ := acknowledge_wf w hs ha src
    have hn := List.nodup_cons.1 hn
    refine ih hn.2 W ?_
    intro j hj
    have : j ≠ i := fun e => hn.1 (e ▸ hj)
    rw [ho j this]
    exact h j (List.mem_cons_of_mem _ hj)

theorem PresWf.active_ack (w : PresWf s) {a} (h : s.pres.active = some a) : ∃ st, stateAt s a = some st ∧ st.acknowledgeable = true := by
  rcases (w.active a).1 h with h | h <;> exact ⟨_, h, rfl⟩

theorem PresWf.pending_ack (w : PresWf s) {a} (h : a ∈ s.pres.pendingList) : ∃ st, stateAt s a = some st ∧ st.acknowledgeable = true :=
  ⟨_, (w.pending a).1 h, rfl⟩

theorem PresWf.presented (w : PresWf s) : (presentedSlots s).Nodup ∧ ∀ i ∈ presentedSlots s, ∃ st, stateAt s i = some st ∧ st.acknowledgeable = true := by
  unfold presentedSlots
  refine ⟨List.nodup_append.2 ⟨?_, w.pendingNodup, ?_⟩, ?_⟩
  · cases s.pres.active <;> simp
  · intro a ha b hb e
    subst e
    have ha : s.pres.active = some a := by simpa using ha
    have h1 := (w.active a).1 ha
    have h2 := (w.pending a).1 hb
    rw [h2] at h1; simp at h1
  · intro i hi
    rcases List.mem_append.1 hi with hi | hi
    · exact w.active_ack (by simpa using hi)
    · exact w.pending_ack hi

theorem stopPreview_story (w : Story s) : Story (stopPreview s) := by
  unfold stopPreview
  split
  · rename_i hp
    have ho := w.1.preview.2 hp
    have hns : ∀ i, stateAt s i ≠ some .sounding := fun i h => by
      have := (w.1.sounding i).2 h; rw [ho] at this; cases this
    refine ⟨⟨w.1.queueNodup, w.1.pendingNodup, w.1.queue, w.1.pending, w.1.active, ?_, ?_, fun _ _ => rfl, w.1.shown, w.1.sorted⟩, ⟨w.2.none, w.2.sounding, w.2.shown⟩⟩
    · intro i
      constructor
      · intro h; cases h
      · intro h; exact absurd h (hns i)
    · constructor
      · intro h; cases h
      · intro h; cases h
  · exact w

/-- R123, R131: the SOUNDING slot becomes SHOWN, its cycle over. -/
theorem shown_wf (w : PresWf s) {a : SlotIndex} (hs : stateAt s a = some .sounding) : PresWf (becomeShown a (stopCycle s)) := by
  have ha := (w.active a).2 (.inl hs)
  unfold becomeShown
  generalize hv : enterState .shown a (stopCycle s) = v
  have st : ∀ j, stateAt v j = if j = a then some .shown else stateAt s j := fun j => by
    subst hv; exact stateAt_setState (s := stopCycle s) (fun _ => rfl) hs
  have rk : ∀ j, rankAt v j = rankAt s j := fun j => by
    subst hv; unfold enterState; rw [rankAt_modSlot]; rfl; exact fun _ => rfl
  have ad : ∀ j, admissionAt v j = admissionAt s j := fun j => by
    subst hv; unfold enterState; rw [admissionAt_modSlot]; rfl; exact fun _ => rfl
  have pv : v.pres = s.pres := by subst hv; rfl
  have ov : ownerOf v = none := by subst hv; rfl
  have k : PresSame v (postSlot a .shown v) := PresSame.ofFrame (postSlot_keeps ..).frame
  generalize postSlot a .shown v = u at k
  have others : ∀ j, j ≠ a → ¬ (stateAt s j = some .sounding ∨ stateAt s j = some .shown) := fun j e h => e (w.active_unique ha h)
  have st' : ∀ j, stateAt u j = if j = a then some .shown else stateAt s j := fun j => by rw [k.state, st]
  have up : u.pres = s.pres := k.pres.trans pv
  have ou : ownerOf u = none := k.owner.trans ov
  have bf : Before u = Before s := by funext x y; simp only [Before, k.rank, k.admission, rk, ad]
  constructor
  · show u.pres.queue.Nodup; rw [up]; exact w.queueNodup
  · show u.pres.pendingList.Nodup; rw [up]; exact w.pendingNodup
  · intro j; show j ∈ u.pres.queue ↔ stateAt u j = _
    rw [up, st', w.queue]
    by_cases e : j = a
    · subst e; simp [hs]
    · simp [e]
  · intro j; show j ∈ u.pres.pendingList ↔ stateAt u j = _
    rw [up, st', w.pending]
    by_cases e : j = a
    · subst e; simp [hs]
    · simp [e]
  · intro j; show u.pres.active = some j ↔ stateAt u j = _ ∨ stateAt u j = _
    rw [up, st', ha]
    by_cases e : j = a
    · subst e; simp
    · rw [if_neg e]; simp only [others j e, iff_false]; simpa using Ne.symm e
  · intro j; show ownerOf u = _ ↔ stateAt u j = _
    rw [ou, st']
    by_cases e : j = a
    · subst e; simp
    · have := others j e; simp only [not_or] at this; simp [e, this.1]
  · show ownerOf u = _ ↔ u.pres.preview.isSome = true
    rw [ou, up]; simp [w.no_preview hs]
  · show ∀ b, u.pres.active = some b → u.pres.preview.isSome = false
    rw [up]; exact w.alone
  · show true = true ↔ ∃ i, stateAt u i = _
    simp only [true_iff]
    exact ⟨a, by rw [st', if_pos rfl]⟩
  · show List.Pairwise (Before u) u.pres.queue; rw [up, bf]; exact w.sorted

/-- R124: a reminder sounds. -/
theorem remind_wf (w : PresWf s) {a : SlotIndex} (hs : stateAt s a = some .shown) {n : Nat} (f : Slot → Slot)
   (h1 : ∀ x, (f x).state = x.state) (h2 : ∀ x, (f x).cls = x.cls) (h3 : ∀ x, (f x).admission = x.admission) :
   PresWf (postSlot a .presenting (startCycle (.slot a) n (enterState .sounding a (modSlot a f (s.updPres fun p => { p with reminder := none }))))) := by
  have ha := (w.active a).2 (.inr hs)
  refine (PresSame.ofFrame (postSlot_keeps ..).frame).wf ?_
  have k0 : PresSame (s.updPres fun p => { p with reminder := none }) (modSlot a f (s.updPres fun p => { p with reminder := none })) := PresSame.modSlot a f h1 h2 h3
  generalize modSlot a f (s.updPres fun p => { p with reminder := none }) = v at k0
  have st : ∀ j, stateAt (enterState .sounding a v) j = if j = a then some .sounding else stateAt s j := fun j => by
    refine (stateAt_setState (s := v) (st := .sounding) ?_ ((k0.state a).trans hs)).trans ?_
    · exact fun _ => rfl
    · rw [k0.state]; rfl
  have rk : ∀ j, rankAt (enterState .sounding a v) j = rankAt s j := fun j => by
    unfold enterState; rw [rankAt_modSlot]; exact k0.rank j; exact fun _ => rfl
  have ad : ∀ j, admissionAt (enterState .sounding a v) j = admissionAt s j := fun j => by
    unfold enterState; rw [admissionAt_modSlot]; exact k0.admission j; exact fun _ => rfl
  have pv : (enterState .sounding a v).pres = { s.pres with reminder := none } := k0.pres
  generalize enterState .sounding a v = u at *
  have others : ∀ j, j ≠ a → ¬ (stateAt s j = some .sounding ∨ stateAt s j = some .shown) := fun j e h => e (w.active_unique ha h)
  have bf : Before u = Before s := by funext x y; simp only [Before, rk, ad]
  have hnp := w.alone a ha
  constructor
  · show u.pres.queue.Nodup; rw [pv]; exact w.queueNodup
  · show u.pres.pendingList.Nodup; rw [pv]; exact w.pendingNodup
  · intro j; show j ∈ u.pres.queue ↔ stateAt u j = _
    rw [pv, st]
    show j ∈ s.pres.queue ↔ _
    rw [w.queue]
    by_cases e : j = a
    · subst e; simp [hs]
    · simp [e]
  · intro j; show j ∈ u.pres.pendingList ↔ stateAt u j = _
    rw [pv, st]
    show j ∈ s.pres.pendingList ↔ _
    rw [w.pending]
    by_cases e : j = a
    · subst e; simp [hs]
    · simp [e]
  · intro j; show u.pres.active = some j ↔ stateAt u j = _ ∨ stateAt u j = _
    rw [pv, st]
    show s.pres.active = some j ↔ _
    rw [ha]
    by_cases e : j = a
    · subst e; simp
    · rw [if_neg e]; simp only [others j e, iff_false]; simpa using Ne.symm e
  · intro j; show some (Owner.slot a) = _ ↔ stateAt u j = _
    rw [st]
    by_cases e : j = a
    · subst e; simp
    · have := others j e; simp only [not_or] at this; simp [e, this.1, Ne.symm e]
  · show some (Owner.slot a) = _ ↔ u.pres.preview.isSome = true
    rw [pv]; simp [hnp]
  · show ∀ b, u.pres.active = some b → u.pres.preview.isSome = false
    rw [pv]; exact w.alone
  · show u.pres.reminder.isSome = true ↔ ∃ j, stateAt u j = _
    rw [pv]
    simp only [Option.isSome_none, Bool.false_eq_true, false_iff, not_exists]
    intro j hj
    rw [st] at hj
    split at hj
    · cases hj
    · rename_i e; exact others j e (.inr hj)
  · show List.Pairwise (Before u) u.pres.queue; rw [pv, bf]; exact w.sorted

theorem stateAt_of_slot {i : SlotIndex} {x : Slot} (h : slotOf s i = some x) : stateAt s i = some x.state := by
  unfold stateAt; rw [h]; rfl

theorem endPredecessor_wf (w : PresWf s) (i : SlotIndex) : PresWf (endPredecessor i s) := by
  unfold endPredecessor
  split
  · exact w
  · rename_i p _
    simp only
    refine (PresSame.modSlot i _ (by intro _; rfl) (by intro _; rfl) (by intro _; rfl)).wf ?_
    split
    · rename_i hd
      have k : PresSame s (dropSlotEntry p s) := PresSame.ofFrame (dropSlotEntry_keeps p).frame
      exact (freeSlot_aside (k.wf w) (.inr (.inr (.inr ((k.state p).trans hd))))).wf (k.wf w)
    · rename_i st _ hst
      split
      · rename_i hw
        obtain ⟨W, d, _⟩ := withdraw_wf w hst hw .superseded
        exact (freeSlot_aside W (.inr (.inr (.inr d)))).wf W
      · exact w
    · exact w

theorem becomeQueued_wf (w : PresWf s) {i : SlotIndex} (h : stateAt s i = some .admitted) (b : Bool) : PresWf (becomeQueued i b s) := by
  unfold becomeQueued
  refine endPredecessor_wf ?_ i
  obtain ⟨x, hx, _⟩ := slot_of_state h
  exact join_wf w (.inr (.inr (.inl h))) _ (by rw [hx]; rfl) (fun _ => rfl) (fun _ => rfl) fun _ => rfl

theorem slotOf_set_same {i : SlotIndex} {f : Slot → Slot} {x : Slot} (h : slotOf s i = some x) : slotOf (modSlot i f s) i = some (f x) := by
  rw [slotOf_modSlot, if_pos rfl, h]; rfl

theorem admitSlot_wf (w : PresWf s) {i : SlotIndex} (h : stateAt s i = some .gathering) (l : Lead) : PresWf (admitSlot i l s) := by
  unfold admitSlot
  extract_lets now u
  obtain ⟨x, hx, _⟩ := slot_of_state h
  obtain ⟨v, hv⟩ : ∃ v, v = modSlot i (fun x => { x with state := .admitted, admission := some now, lastActivity := now, gatherDeadline := none, expiry := some (expiryFrom s.time l.validity) }) s := ⟨_, rfl⟩
  have ha : AsideChange i s v := by
    subst hv
    refine putSlot_aside (.inr (.inl h)) _ ?_
    rw [hx]; exact .inr (.inr (.inl rfl))
  have hs : stateAt v i = some .admitted := by
    subst hv; exact stateAt_of_slot (slotOf_set_same hx)
  have k : PresSame v u := by
    subst hv
    exact PresSame.ofFrame (postSlot_keeps i .admitted).frame
  have W : PresWf u := k.wf (ha.wf w)
  split
  · exact becomeQueued_wf W ((k.state i).trans hs) false
  · exact (PresSame.modSlot i _ (by intro _; rfl) (by intro _; rfl) (by intro _; rfl)).wf W

theorem rejectSlot_wf (w : PresWf s) {i : SlotIndex} (h : Aside s i) (l : Lead) : PresWf (rejectSlot i l s) := by
  unfold rejectSlot
  split
  · exact w
  · rename_i x hx
    have k : PresSame s (postSlot i .rejected (addHistory ⟨x.key, x.revision, .rejected, expiryFrom s.time l.validity, false⟩ s)) :=
      (PresSame.ofFrame (addHistory_keeps _).frame).trans (PresSame.ofFrame (postSlot_keeps ..).frame)
    refine (freeSlot_aside (k.wf w) ?_).wf (k.wf w)
    unfold Aside; rw [k.state]; exact h

theorem cancelOther_wf (w : PresWf s) {i : SlotIndex} (h : Aside s i) (key : Key) : PresWf (cancelOther i key s) ∧ Aside (cancelOther i key s) i := by
  unfold cancelOther
  split
  · exact ⟨w, h⟩
  · rename_i j hj
    split
    · rename_i hw
      obtain ⟨st, hst, hw⟩ := (Option.any_eq_true _ _).1 hw
      obtain ⟨W, _, o⟩ := withdraw_wf w hst hw .cancelled
      refine ⟨W, ?_⟩
      have ne : i ≠ j := by
        have := List.find?_some hj
        simp only [Bool.and_eq_true, decide_eq_true_eq] at this
        exact Ne.symm this.1
      unfold Aside; rw [o i ne]; exact h
    · exact ⟨w, h⟩

theorem applyCancel_wf (w : PresWf s) {i : SlotIndex} (h : Aside s i) (l : Lead) : PresWf (applyCancel i l s) := by
  unfold applyCancel
  split
  · exact w
  · rename_i x hx
    obtain ⟨W, A⟩ := cancelOther_wf w h x.key
    have k : PresSame (cancelOther i x.key s) (addHistory ⟨x.key, x.revision, .cancelled, expiryFrom s.time l.validity, false⟩ (cancelOther i x.key s)) :=
      PresSame.ofFrame (addHistory_keeps _).frame
    refine (freeSlot_aside (k.wf W) ?_).wf (k.wf W)
    unfold Aside; rw [k.state]; exact A

theorem acceptLead_wf (w : PresWf s) {i : SlotIndex} (h : stateAt s i = some .gathering) : PresWf (acceptLead i s) := by
  unfold acceptLead
  split
  · exact w
  · extract_lets lead u
    have k : PresSame s u := PresSame.modSlot i _ (by intro _; rfl) (by intro _; rfl) (by intro _; rfl)
    have hu : stateAt u i = some .gathering := (k.state i).trans h
    split
    · exact applyCancel_wf (k.wf w) (.inr (.inl hu)) lead
    · split
      · exact admitSlot_wf (k.wf w) hu lead
      · exact rejectSlot_wf (k.wf w) (.inr (.inl hu)) lead

theorem reportAcceptance_wf (w : PresWf s) (i : SlotIndex) (n : Nat) : PresWf (reportAcceptance i n s) := by
  unfold reportAcceptance
  extract_lets u
  have W : PresWf u := by
    show PresWf (if _ then _ else _)
    split
    · exact (PresSame.modSlot i _ (by intro _; rfl) (by intro _; rfl) (by intro _; rfl)).wf w
    · exact w
  split
  · exact W
  · rename_i x hx
    have P : PresWf (postSlot i .updated u) := (PresSame.ofFrame (postSlot_keeps ..).frame).wf W
    split
    · rename_i hs
      split
      · exact acceptLead_wf W ((stateAt_of_slot hx).trans (congrArg some hs))
      · exact W
    · rename_i hs
      split
      · exact becomeQueued_wf W ((stateAt_of_slot hx).trans (congrArg some hs)) false
      · exact (PresSame.modSlot i _ (by intro _; rfl) (by intro _; rfl) (by intro _; rfl)).wf W
    all_goals (split; exacts [P, W])

theorem combineCopy_story (w : Story s) (i : SlotIndex) (c : Copy) : Story (combineCopy i c s) := by
  unfold combineCopy
  extract_lets u
  have k : PresSame s u := PresSame.modSlot i _ (by intro _; rfl) (by intro _; rfl) (by intro _; rfl)
  split
  · exact k.story w
  · split
    · exact settle_settles (reportAcceptance_wf (k.wf w.1) i _)
    · exact k.story w

theorem reclaim_story (w : Story s) {v : SlotIndex} (h : Aside s v) : Story (reclaim v s) := by
  unfold reclaim
  generalize hu : (if stateAt s v = some .done then dropSlotEntry v s else postSlot v .abandoned s) = u
  have k : PresSame s u := by
    subst hu
    split
    · exact PresSame.ofFrame (dropSlotEntry_keeps v).frame
    · exact PresSame.ofFrame (postSlot_keeps ..).frame
  have W := k.story w
  exact (freeSlot_aside W.1 (by unfold Aside; rw [k.state]; exact h)).story W

theorem victim_aside {r : Nat} {own : Option SlotIndex} {v : SlotIndex} (h : victim s r own = some v) : Aside s v := by
  obtain ⟨_, x, hx, h⟩ := victim_spec h
  unfold Aside
  rw [stateAt_of_slot hx]
  rcases h with h | h | h <;> simp [h]

theorem roomForBuffer_story (w : Story s) {r : Nat} {own : SlotIndex} (h : roomForBuffer r own s = some t) : Story t ∧ (stateAt t own = stateAt s own) := by
  unfold roomForBuffer at h
  split at h
  · cases h; exact ⟨w, rfl⟩
  · obtain ⟨v, hv, rfl⟩ := Option.map_eq_some_iff.1 h
    refine ⟨reclaim_story w (victim_aside hv), ?_⟩
    have ne := (victim_spec hv).1
    unfold stateAt
    rw [slotOf_reclaim, if_neg (fun e => ne (congrArg some e.symm))]
    cases slotOf s own with
    | none => rfl
    | some x => simp only [Option.map_some, Slot.forget]; split <;> rfl

theorem roomForSlot_story (w : Story s) {r : Nat} (h : roomForSlot r s = some t) : Story t := by
  unfold roomForSlot at h
  split at h
  · cases h; exact w
  · obtain ⟨v, hv, rfl⟩ := Option.map_eq_some_iff.1 h
    exact reclaim_story w (victim_aside hv)

theorem discard_story (w : Story s) : Story (discardFormat s) ∧ Story (discardMuted s) ∧ Story (discardKnown s) ∧ Story (discardNoRoom s) :=
  ⟨(PresSame.ofFrame discardFormat_keeps.frame).story w, (PresSame.ofFrame discardMuted_keeps.frame).story w,
   (PresSame.ofFrame discardKnown_keeps.frame).story w, (PresSame.ofFrame discardNoRoom_keeps.frame).story w⟩

theorem openSlot_story (w : Story s) (e : Option SlotIndex) (c : Copy) : Story (openSlot e c s) := by
  unfold openSlot
  split
  · exact (discard_story w).2.2.2
  · rename_i u hu
    have wu := roomForSlot_story w hu
    split
    · exact (discard_story wu).2.2.2
    · rename_i i hi
      split
      · exact (discard_story wu).2.2.2
      · rename_i v hv
        obtain ⟨wv, hs⟩ := roomForBuffer_story wu hv
        have hf : stateAt v i = none := by rw [hs]; unfold stateAt; rw [lowestFree_spec hi]; rfl
        exact combineCopy_story ((putSlot_aside (.inl hf) _ (.inr (.inl rfl))).story wv) i c

theorem restartSlot_story (w : Story s) {i : SlotIndex} (h : stateAt s i = some .gathering ∨ stateAt s i = some .admitted) (c : Copy) :
   Story (restartSlot i c s) := by
  unfold restartSlot
  split
  · exact w
  · extract_lets u
    have wu : Story u := (putSlot_aside (by rcases h with h | h; exact .inr (.inl h); exact .inr (.inr (.inl h))) _ (.inr (.inl rfl))).story w
    refine combineCopy_story ?_ i c
    split
    · exact (PresSame.ofFrame (postSlot_keeps ..).frame).story wu
    · exact wu

theorem routeCopy_story (w : Story s) (i : SlotIndex) (c : Copy) : Story (routeCopy i c s) := by
  unfold routeCopy
  split
  · exact w
  · split
    · exact (discard_story w).1
    · extract_lets u
      have wu : Story u := (PresSame.modSlot i _ (by intro _; rfl) (by intro _; rfl) (by intro _; rfl)).story w
      split
      · exact wu
      · split
        · split
          · exact (discard_story wu).2.2.2
          · rename_i v hv
            exact combineCopy_story (roomForBuffer_story wu hv).1 i c
        · exact combineCopy_story wu i c
        · exact combineCopy_story wu i c
        · exact (discard_story ((PresSame.modSlot i _ (by intro _; rfl) (by intro _; rfl) (by intro _; rfl)).story wu)).2.2.1

theorem tableDecision_story (w : Story s) (c : Copy) : Story (tableDecision c s) := by
  unfold tableDecision
  split
  · exact (discard_story w).2.2.1
  · extract_lets held
    split
    · exact routeCopy_story w _ c
    · split
      · exact (discard_story w).2.2.1
      · split
        · rename_i hf
          have := List.find?_some hf
          simp only [Bool.or_eq_true, decide_eq_true_eq] at this
          exact restartSlot_story w this c
        · exact openSlot_story w _ c

theorem intakeCopy_story (w : Story s) (p : List Octet) : Story (intakeCopy p s) := by
  unfold intakeCopy
  extract_lets c
  split
  · exact (discard_story w).1
  · split
    · exact (discard_story w).2.1
    · split
      · exact (discard_story w).2.2.1
      · exact tableDecision_story w _

theorem takeSlotExpiry_wf (w : PresWf s) (i : SlotIndex) : PresWf (takeSlotExpiry i s) := by
  unfold takeSlotExpiry
  split
  · exact w
  · rename_i x hx
    have hs := stateAt_of_slot hx
    have wd : ∀ st : SlotState, st.withdrawable = true → x.state = st → PresWf (modSlot i (fun y => { y with expiry := none }) (withdraw i .expired s)) := by
      intro st hst e
      exact (PresSame.modSlot i _ (by intro _; rfl) (by intro _; rfl) (by intro _; rfl)).wf (withdraw_wf w (hs.trans (congrArg some e)) hst .expired).1
    split
    · exact w
    · rename_i e
      have k : PresSame s (postSlot i .withdrawn (addSlotHistory x .expired s)) :=
        (PresSame.ofFrame (addSlotHistory_keeps ..).frame).trans (PresSame.ofFrame (postSlot_keeps ..).frame)
      exact (freeSlot_aside (k.wf w) (.inr (.inr (.inl ((k.state i).trans (hs.trans (congrArg some e))))))).wf (k.wf w)
    · rename_i e; exact wd _ rfl e
    · rename_i e; exact wd _ rfl e
    · rename_i e; exact wd _ rfl e
    · rename_i e; exact wd _ rfl e
    · rename_i e
      have k : PresSame s (dropSlotEntry i s) := PresSame.ofFrame (dropSlotEntry_keeps i).frame
      exact (freeSlot_aside (k.wf w) (.inr (.inr (.inr ((k.state i).trans (hs.trans (congrArg some e))))))).wf (k.wf w)

theorem takeSlotExpiries_wf (l : List SlotIndex) (w : PresWf s) : PresWf (takeSlotExpiries l s) := by
  induction l generalizing s with
  | nil => exact w
  | cons i l ih =>
    unfold takeSlotExpiries
    refine ih ?_
    split
    · exact takeSlotExpiry_wf w i
    · exact w

theorem takeReached_wf (w : PresWf s) : PresWf (takeReached s) := by
  unfold takeReached
  exact (PresSame.ofFrame dropStale_keeps.frame).wf (takeSlotExpiries_wf _ ((PresSame.ofFrame pruneHistory_keeps.frame).wf w))

theorem convertAll_same (n : Nat) : PresSame s (convertAll n s) := by
  have e : ∀ j, slotOf (convertAll n s) j = (slotOf s j).map fun x => { x with expiry := x.expiry.map (convertExpiry s.time.uptime n) } := by
    intro j
    have h : ∀ (v : Vector (Option Slot) 16) (g : Option Slot → Option Slot), (mapEntries g v)[j.val] = g (v[j.val]) := by
      intro v g; simp [mapEntries]
    exact h _ _
  refine ⟨?_, ?_, ?_, rfl, rfl⟩ <;> intro j
  · simp only [stateAt, e]; cases slotOf s j <;> rfl
  · simp only [rankAt, e]; cases slotOf s j <;> rfl
  · simp only [admissionAt, e]; cases slotOf s j <;> rfl

theorem setWallClock_story (w : Story s) (n : Nat) : Story (setWallClock n s) := by
  unfold setWallClock
  split
  · exact w
  · extract_lets u
    have k : PresSame s u := by
      show PresSame s (if _ then _ else _)
      split
      · exact .ofFrame keepReached_keeps.frame
      · exact convertAll_same n
    have k2 : PresSame u (u.updTime fun c => { c with wall := n, clockSet := true }) := .ofSlots rfl rfl rfl
    exact settle_settles (takeReached_wf ((k.trans k2).wf w.1))

theorem holdExpiry_story (w : Story s) (i : SlotIndex) (n : Nat) : Story (holdExpiry i n s) := by
  unfold holdExpiry
  split
  · exact w
  · split
    · exact settle_settles (reportAcceptance_wf ((PresSame.modSlot i _ (by intro _; rfl) (by intro _; rfl) (by intro _; rfl)).wf w.1) i n)
    · exact w

theorem gatheringTimeout_story (w : Story s) (i : SlotIndex) : Story (gatheringTimeout i s) := by
  unfold gatheringTimeout
  split
  · exact w
  · rename_i x hx
    split
    · rename_i h
      have k : PresSame s (postSlot i .abandoned s) := PresSame.ofFrame (postSlot_keeps ..).frame
      exact (freeSlot_aside (k.wf w.1) (.inr (.inl ((k.state i).trans ((stateAt_of_slot hx).trans (congrArg some h.1)))))).story (k.story w)
    · exact w

theorem assemblyLimit_story (w : Story s) (i : SlotIndex) : Story (assemblyLimit i s) := by
  unfold assemblyLimit
  split
  · exact w
  · rename_i x hx
    split
    · rename_i h
      exact settle_settles (becomeQueued_wf w.1 ((stateAt_of_slot hx).trans (congrArg some h.1)) true)
    · exact w

theorem reminderExpiry_story (w : Story s) : Story (reminderExpiry s) := by
  unfold reminderExpiry
  split
  · exact w
  · rename_i i hi
    split
    · exact w
    · rename_i x hx
      split
      · rename_i h
        have hs := (stateAt_of_slot hx).trans (congrArg some h.1)
        extract_lets u
        split
        · exact settle_settles (remind_wf w.1 hs _ (fun _ => rfl) (fun _ => rfl) fun _ => rfl)
        · exact settle_settles (toPending_wf w.1 hs).1
      · exact w

theorem ownerOf_some {c : Cycle} (h : s.cycle = some c) : ownerOf s = some c.owner := by unfold ownerOf; rw [h]; rfl

theorem segmentBoundary_story (w : Story s) : Story (segmentBoundary s) := by
  unfold segmentBoundary
  split
  · exact w
  · rename_i c hc
    split_ifs with h0
    · exact w
    · unfold completion
      split
      · rename_i ho
        have op : ownerOf s = some .preview := (ownerOf_some hc).trans (congrArg some ho)
        have hns : ∀ i, stateAt s i ≠ some .sounding := fun i h => by
          have := (w.1.sounding i).2 h; rw [op] at this; cases this
        refine ⟨⟨w.1.queueNodup, w.1.pendingNodup, w.1.queue, w.1.pending, w.1.active, ?_, ?_, fun _ _ => rfl, w.1.shown, w.1.sorted⟩, ⟨w.2.none, w.2.sounding, w.2.shown⟩⟩
        · intro i
          constructor
          · intro h; cases h
          · intro h; exact absurd h (hns i)
        · constructor
          · intro h; cases h
          · intro h; cases h
      · rename_i i ho
        have os : ownerOf s = some (.slot i) := (ownerOf_some hc).trans (congrArg some ho)
        have hs := (w.1.sounding i).1 os
        have ha := (w.1.active i).2 (.inl hs)
        rw [if_pos ⟨ha, hs⟩]
        exact settle_settles (shown_wf w.1 hs)
    · have k : PresSame s (s.updCycle fun _ => some (nextSegment s.settings.profile.quiet c)) := by
        refine .ofSlots rfl rfl ?_
        rw [ownerOf_some hc]; rfl
      exact k.story w

theorem preview_story (w : Story s) (p : List Octet) : Story (carryPreview p s).1 := by
  unfold carryPreview
  extract_lets rank
  split
  · exact w
  · split
    · exact w
    · rename_i hn
      have hn : s.pres.active = none := by simpa using hn
      have na : ∀ j, ¬ (stateAt s j = some .sounding ∨ stateAt s j = some .shown) := fun j => by
        rw [← w.1.active, hn]; simp
      have W := stopPreview_story w
      have e1 : (stopPreview s).pres.active = none := by unfold stopPreview; split <;> exact hn
      have na' : ∀ j, ¬ (stateAt (stopPreview s) j = some .sounding ∨ stateAt (stopPreview s) j = some .shown) := fun j => by
        rw [← W.1.active, e1]; simp
      generalize stopPreview s = u at *
      refine ⟨⟨W.1.queueNodup, W.1.pendingNodup, W.1.queue, W.1.pending, W.1.active, ?_, ?_, ?_, W.1.shown, W.1.sorted⟩, ⟨W.2.none, W.2.sounding, W.2.shown⟩⟩
      · intro i
        constructor
        · intro h; cases h
        · intro h; exact absurd (.inl h) (na' i)
      · exact ⟨fun _ => rfl, fun _ => rfl⟩
      · intro a ha; exact absurd ((W.1.active a).1 ha) (na' a)

theorem ackKeyAction_story (w : Story s) : Story (ackKeyAction s) := by
  unfold ackKeyAction
  split
  · rename_i i hi
    obtain ⟨st, h, ha⟩ := w.1.active_ack hi
    exact settle_settles (acknowledge_wf w.1 h ha .key).1
  · split
    · rename_i i l hl
      obtain ⟨st, h, ha⟩ := w.1.pending_ack (a := i) (by rw [hl]; simp)
      exact settle_settles (acknowledge_wf w.1 h ha .key).1
    · exact stopPreview_story w

theorem silenceKeyAction_story (w : Story s) : Story (silenceKeyAction s) := by
  unfold silenceKeyAction
  split
  · exact stopPreview_story w
  · split
    · rename_i h
      exact settle_settles (shown_wf w.1 h)
    · exact w

theorem chordAction_story (w : Story s) : Story (chordAction s) := by
  unfold chordAction
  extract_lets u
  have W : Story u := stopPreview_story w
  split
  · exact W
  · obtain ⟨n, h⟩ := W.1.presented
    exact settle_settles (acknowledgeAll_wf .chord _ n W.1 h)

theorem keys_same (f : Keys → Keys) : PresSame s (s.updKeys f) := .ofSlots rfl rfl rfl

theorem recogniseRelease_story (w : Story s) (k : KeyLine) : Story (recogniseRelease k s) := by
  unfold recogniseRelease
  extract_lets f u
  split
  · have W : Story u := (keys_same _).story w
    split
    · exact W
    · cases k
      · exact ackKeyAction_story W
      · exact silenceKeyAction_story W
  · exact w

theorem fireChord_story (w : Story s) : Story (fireChord s) := by
  unfold fireChord
  split
  · exact w
  · split
    · exact chordAction_story ((keys_same _).story w)
    · exact w

theorem carryAck_story (w : Story s) (p : List Octet) : Story (carryAck p s).1 := by
  have many : ∀ l : List SlotIndex, l.Nodup → (∀ i ∈ l, ∃ st, stateAt s i = some st ∧ st.acknowledgeable = true) → Story (ackMany l s).1 := by
    intro l hn h
    unfold ackMany
    split
    · exact w
    · exact settle_settles (acknowledgeAll_wf .link l hn w.1 h)
  unfold carryAck
  extract_lets target
  split
  · refine many _ ?_ ?_
    · cases s.pres.active <;> simp
    · intro i hi; exact w.1.active_ack (by simpa using hi)
  · split
    · exact many _ w.1.presented.1 w.1.presented.2
    · split
      · exact w
      · unfold ackSlot
        split
        · exact w
        · rename_i x hx
          split
          · rename_i ha
            exact settle_settles (acknowledge_wf w.1 (stateAt_of_slot hx) ha .link).1
          · exact w

theorem carryRelease_story (w : Story s) (p : List Octet) : Story (carryRelease p s).1 := by
  unfold carryRelease
  split
  · exact w
  · split
    · exact w
    · rename_i i _ _ h
      have k : PresSame s (dropSlotEntry i s) := PresSame.ofFrame (dropSlotEntry_keeps i).frame
      exact (freeSlot_aside (k.wf w.1) (.inr (.inr (.inr ((k.state i).trans h))))).story (k.story w)
    · exact w

theorem story_empty (h : ∀ j, stateAt s j = none) (hp : s.pres = .atReset) (hc : s.cycle = none) : Story s := by
  refine ⟨⟨?_, ?_, ?_, ?_, ?_, ?_, ?_, ?_, ?_, ?_⟩, ⟨?_, ?_, ?_⟩⟩ <;> simp [hp, h, hc, ownerOf, Presentation.atReset]

theorem stateAt_empty (h : s.slots = Vector.replicate 16 none) (j : SlotIndex) : stateAt s j = none := by
  unfold stateAt slotOf; rw [h]; simp

theorem whenRunning_story (w : Story s) {f : State → State} (h : Story (f s)) : Story (whenRunning f s) := by
  unfold whenRunning; split
  · exact w
  · exact h

theorem takeFrame_story (w : Story s) {k} {h : List Octet → State → State} (hh : ∀ p u, Story u → Story (h p u)) : Story (takeFrame k h s) := by
  unfold takeFrame
  split
  · exact w
  · split
    · exact w
    · split
      · refine hh _ _ (PresSame.story (s := s) ?_ w); exact .ofSlots rfl rfl rfl
      · exact w

theorem takeRequest_story (w : Story s) {k f tl} {h : List Octet → State → State × List Octet} (hh : ∀ p u, Story u → Story (h p u).1) :
   Story (takeRequest k (whenReady f tl h) s) := by
  unfold takeRequest
  split
  · exact w
  · split
    · exact w
    · rename_i fr rest _
      split
      · have w1 : Story (s.updHost fun h => { h with staging := rest }) := PresSame.story (s := s) (by exact .ofSlots rfl rfl rfl) w
        have w2 : Story (whenReady f tl h fr.payload (s.updHost fun h => { h with staging := rest })).1 := by
          unfold whenReady
          split
          · exact w1
          · split
            · exact w1
            · exact hh _ _ w1
        refine PresSame.story ?_ w2; exact .ofSlots rfl rfl rfl
      · exact w


end Sys2Proof.Machine
end

