-- ==== Sys2Proof/Laws/Selection.lean ====
section
/-! SUPPORT. The store's selection (R104): what the operations of the commands keep of `StoreSettled`. -/

namespace Sys2Proof.Machine

-- Checked one declaration at a time, so that the package as one text keeps within its memory limit.
set_option Elab.async false

variable {s t u : State}

theorem StoreSettled.same (w : StoreSettled s) (h1 : t.store = s.store) (h2 : t.history = s.history) : StoreSettled t := by
  unfold StoreSettled oldestWaiting at *; rw [h1, h2]; exact w

theorem StoreSettled.ofFrame {l} (w : StoreSettled s) (h : changesOnly l s t) (h1 : .store ∉ l := by decide) (h2 : .history ∉ l := by decide) : StoreSettled t :=
  w.same (h _ h1) (h _ h2)

theorem StoreSettled.sub (w : StoreSettled s) (h1 : t.store = s.store) (h2 : ∀ e ∈ t.history, e ∈ s.history) : StoreSettled t := by
  unfold StoreSettled oldestWaiting at *
  intro h
  rw [h1] at h
  have := w h
  simp only [List.find?_eq_none] at this ⊢
  exact fun e he => this e (h2 e he)

theorem startOperation_settled (p o) : StoreSettled (startOperation p o s) := by
  intro h
  simp only [startOperation, State.updStore_store] at h
  split at h <;> cases h

theorem prefillFrom_settled (p) : StoreSettled (prefillFrom p s) := by
  unfold prefillFrom; split <;> exact startOperation_settled _ _

theorem storeSelect_settled : StoreSettled (storeSelect s) := by
  unfold storeSelect
  split
  · split
    · rename_i h; exact fun _ => h
    · split
      · intro h; cases h
      · split
        · exact startOperation_settled _ _
        · exact prefillFrom_settled _
  · rename_i h; intro h'; exact absurd h' (by intro e; exact h e)

theorem settle_store : StoreSettled (settle s) := storeSelect_settled

theorem rewriteNext_settled : StoreSettled (rewriteNext s) := by
  unfold rewriteNext
  split
  · rename_i h; exact fun _ => h
  · split
    · exact startOperation_settled _ _
    · exact prefillFrom_settled _

theorem positionDone_settled (p) : StoreSettled (positionDone p s) := by
  unfold positionDone
  simp only
  split
  · exact storeSelect_settled
  · exact rewriteNext_settled

theorem prune_settled (w : StoreSettled s) : StoreSettled (pruneHistory s) := w.sub rfl fun _ he => List.mem_of_mem_filter he
theorem dropRejected_settled (w : StoreSettled s) : StoreSettled (dropRejected s) := w.sub rfl fun _ he => List.mem_of_mem_filter he

theorem eraseFailed_settled : StoreSettled (eraseFailed s) := by
  unfold eraseFailed
  extract_lets u
  split
  · intro h; cases h
  · exact startOperation_settled _ _

theorem whenRunning_settled (w : StoreSettled s) {f : State → State} (h : StoreSettled (f s)) : StoreSettled (whenRunning f s) := by
  unfold whenRunning; split
  · exact w
  · exact h

theorem combine_settled (w : StoreSettled s) (i c) : StoreSettled (combineCopy i c s) := by
  unfold combineCopy
  extract_lets u
  have k : StoreSettled u := w.same rfl rfl
  split
  · exact k
  · split
    · exact settle_store
    · exact k

theorem intake_settled (w : StoreSettled s) (p) : StoreSettled (intakeCopy p s) := by
  have disc : ∀ u : State, StoreSettled u → StoreSettled (discardFormat u) ∧ StoreSettled (discardMuted u) ∧ StoreSettled (discardKnown u) ∧ StoreSettled (discardNoRoom u) :=
    fun u w => ⟨w.same rfl rfl, w.same rfl rfl, w.same rfl rfl, w.same rfl rfl⟩
  have rb : ∀ (u v : State) r own, StoreSettled u → roomForBuffer r own u = some v → StoreSettled v :=
    fun u v r own w h => w.ofFrame (roomForBuffer_spec h).1.frame
  have rs : ∀ (u v : State) r, StoreSettled u → roomForSlot r u = some v → StoreSettled v :=
    fun u v r w h => w.ofFrame (roomForSlot_keeps h).frame
  unfold intakeCopy
  extract_lets c
  split
  · exact (disc _ w).1
  · split
    · exact (disc _ w).2.1
    · split
      · exact (disc _ w).2.2.1
      · unfold tableDecision
        split
        · exact (disc _ w).2.2.1
        · extract_lets held
          split
          · unfold routeCopy
            split
            · exact w
            · split
              · exact (disc _ w).1
              · extract_lets u
                have wu : StoreSettled u := w.same rfl rfl
                split
                · exact wu
                · split
                  · split
                    · exact (disc _ wu).2.2.2
                    · rename_i v hv
                      exact combine_settled (rb _ _ _ _ wu hv) _ _
                  · exact combine_settled wu _ _
                  · exact combine_settled wu _ _
                  · exact wu.same rfl rfl
          · split
            · exact (disc _ w).2.2.1
            · split
              · unfold restartSlot
                split
                · exact w
                · extract_lets u
                  refine combine_settled ?_ _ _
                  have wu : StoreSettled u := w.same rfl rfl
                  split
                  · exact wu.ofFrame (postSlot_keeps ..).frame
                  · exact wu
              · unfold openSlot
                split
                · exact (disc _ w).2.2.2
                · rename_i u hu
                  have wu := rs _ _ _ w hu
                  split
                  · exact (disc _ wu).2.2.2
                  · split
                    · exact (disc _ wu).2.2.2
                    · rename_i v hv
                      extract_lets pr
                      refine combine_settled ?_ _ _
                      exact (rb _ _ _ _ wu hv).same rfl rfl

theorem takeFrame_settled (w : StoreSettled s) {k} {h : List Octet → State → State} (hh : ∀ p u, StoreSettled u → StoreSettled (h p u)) : StoreSettled (takeFrame k h s) := by
  unfold takeFrame
  split
  · exact w
  · split
    · exact w
    · split
      · refine hh _ _ ?_; exact w.same rfl rfl
      · exact w

theorem takeRequest_settled (w : StoreSettled s) {k f tl} {h : List Octet → State → State × List Octet} (hh : ∀ p u, StoreSettled u → StoreSettled (h p u).1) :
   StoreSettled (takeRequest k (whenReady f tl h) s) := by
  unfold takeRequest
  split
  · exact w
  · split
    · exact w
    · rename_i fr rest _
      split
      · have w1 : StoreSettled (s.updHost fun h => { h with staging := rest }) := w.same rfl rfl
        have w2 : StoreSettled (whenReady f tl h fr.payload (s.updHost fun h => { h with staging := rest })).1 := by
          unfold whenReady
          split
          · exact w1
          · split
            · exact w1
            · exact hh _ _ w1
        exact w2.same rfl rfl
      · exact w


end Sys2Proof.Machine
end

