-- ==== Sys2Proof/Laws/Pairs.lean ====
section
/-! SUPPORT. The two slots of a key (R45): what the operations of the commands keep of `KeyLaw`. -/

namespace Sys2Proof.Machine

-- Checked one declaration at a time, so that the package as one text keeps within its memory limit.
set_option Elab.async false

variable {s t u : State}

def Slot.core (x : Slot) : Key × BitVec 4 × Option SlotIndex × Bool := (x.key, x.revision, x.predecessor, x.state.assembling)

def KeySame (s t : State) : Prop := ∀ j, (slotOf t j).map Slot.core = (slotOf s j).map Slot.core

theorem KeySame.refl (s : State) : KeySame s s := fun _ => rfl
theorem KeySame.trans (h : KeySame s u) (k : KeySame u t) : KeySame s t := fun j => (k j).trans (h j)
theorem KeySame.ofSlots (h : t.slots = s.slots) : KeySame s t := fun j => by rw [slotOf_of_same h]
theorem KeySame.ofFrame {l} (h : changesOnly l s t) (h1 : .slots ∉ l := by decide) : KeySame s t := .ofSlots (h _ h1)

theorem KeySame.get (h : KeySame s t) {j : SlotIndex} {y : Slot} (e : slotOf t j = some y) : ∃ x, slotOf s j = some x ∧ x.core = y.core := by
  have := h j
  rw [e] at this
  obtain ⟨x, hx, hc⟩ := Option.map_eq_some_iff.1 this.symm
  exact ⟨x, hx, hc⟩

theorem KeySame.get' (h : KeySame s t) {j : SlotIndex} {y : Slot} (e : slotOf s j = some y) : ∃ x, slotOf t j = some x ∧ x.core = y.core := by
  have := h j
  rw [e] at this
  obtain ⟨x, hx, hc⟩ := Option.map_eq_some_iff.1 this
  exact ⟨x, hx, hc⟩

theorem core_eq {x y : Slot} (h : x.core = y.core) : x.key = y.key ∧ x.revision = y.revision ∧ x.predecessor = y.predecessor ∧ x.state.assembling = y.state.assembling := by
  simpa [Slot.core] using h

theorem KeySame.law (h : KeySame s t) (w : KeyLaw s) : KeyLaw t where
  pair := by
    intro i j x y ne hx hy hk
    obtain ⟨x', hx', cx⟩ := h.get hx
    obtain ⟨y', hy', cy⟩ := h.get hy
    have cx := core_eq cx; have cy := core_eq cy
    have := w.pair i j x' y' ne hx' hy' (by rw [cx.1, cy.1, hk])
    rwa [cx.2.2.1, cy.2.2.1] at this
  succ := by
    intro i j x hx hp
    obtain ⟨x', hx', cx⟩ := h.get hx
    have cx := core_eq cx
    obtain ⟨a, y, hy, b, c, d⟩ := w.succ i j x' hx' (by rw [cx.2.2.1, hp])
    obtain ⟨y', hy', cy⟩ := h.get' hy
    have cy := core_eq cy
    exact ⟨by rw [← cx.2.2.2, a], y', hy', by rw [cy.2.2.2, b], by rw [cy.1, c, cx.1], by rw [cy.2.1, ← cx.2.1]; exact d⟩

theorem KeySame.modS (i : SlotIndex) (f : Slot → Slot) (h : ∀ x, slotOf s i = some x → (f x).core = x.core) : KeySame s (modSlot i f s) := by
  intro j
  rw [slotOf_modSlot]
  split
  · rename_i e; subst e
    cases hx : slotOf s i with
    | none => rfl
    | some x => simp [h x hx]
  · rfl

theorem KeySame.setState {i : SlotIndex} {st old : SlotState} (h : stateAt s i = some old) (ha : st.assembling = old.assembling) (f : Slot → Slot)
   (hf : ∀ x, (f x).core = (x.key, x.revision, x.predecessor, st.assembling)) : KeySame s (modSlot i f s) := by
  refine .modS i f fun x hx => ?_
  rw [hf]
  have : x.state = old := by have := stateAt_of_slot hx; rw [h] at this; cases this; rfl
  simp [Slot.core, this, ha]

theorem enter_same {i : SlotIndex} {st old : SlotState} (h : stateAt s i = some old) (ha : st.assembling = old.assembling) :
    KeySame s (enterState st i s) := by
  unfold enterState
  exact .setState h ha _ fun x => rfl

theorem freeSlot_law (w : KeyLaw s) (v : SlotIndex) : KeyLaw (freeSlot v s) := by
  have get : ∀ {j y}, slotOf (freeSlot v s) j = some y → v ≠ j ∧ ∃ x, slotOf s j = some x ∧ y = x.forget v := by
    intro j y h
    rw [slotOf_freeSlot] at h
    split at h
    · cases h
    · rename_i ne
      obtain ⟨x, hx, e⟩ := Option.map_eq_some_iff.1 h
      exact ⟨ne, x, hx, e.symm⟩
  have fk : ∀ x : Slot, (x.forget v).key = x.key ∧ (x.forget v).revision = x.revision ∧ (x.forget v).state = x.state := by
    intro x; unfold Slot.forget; split <;> exact ⟨rfl, rfl, rfl⟩
  have fp : ∀ (x : Slot) j, j ≠ v → ((x.forget v).predecessor = some j ↔ x.predecessor = some j) := by
    intro x j ne; unfold Slot.forget; split
    · rename_i e; rw [e]; simp [Ne.symm ne]
    · rfl
  have fn : ∀ (x : Slot), (x.forget v).predecessor ≠ some v := by
    intro x; unfold Slot.forget; split
    · simp
    · assumption
  constructor
  · intro i j x y ne hx hy hk
    obtain ⟨vi, x', hx', rfl⟩ := get hx
    obtain ⟨vj, y', hy', rfl⟩ := get hy
    rw [fp _ _ (Ne.symm vj), fp _ _ (Ne.symm vi)]
    exact w.pair i j x' y' ne hx' hy' (by rw [(fk x').1, (fk y').1] at hk; exact hk)
  · intro i j x hx hp
    obtain ⟨vi, x', hx', rfl⟩ := get hx
    have nj : j ≠ v := fun e => fn x' (e ▸ hp)
    obtain ⟨a, y, hy, b, c, d⟩ := w.succ i j x' hx' ((fp _ _ nj).1 hp)
    refine ⟨by rw [(fk x').2.2]; exact a, y.forget v, ?_, by rw [(fk y).2.2]; exact b, by rw [(fk y).1, (fk x').1]; exact c, by rw [(fk y).2.1, (fk x').2.1]; exact d⟩
    rw [slotOf_freeSlot, if_neg (Ne.symm nj), hy]; rfl

/-! presentation ops -/
theorem presentFirst_same (i) : KeySame s (presentFirst i s) := by
  unfold presentFirst
  split
  · exact .refl s
  · split
    · exact .refl s
    · extract_lets v
      have k : KeySame s v := .modS _ _ (by intro x _; rfl)
      split
      · exact k.trans (.ofFrame (requestReceipt_keeps ..).frame)
      · exact k

theorem activate_same {h : SlotIndex} {old : SlotState} (hs : stateAt s h = some old) (ha : old.assembling = false) : KeySame s (activate h s) := by
  unfold activate
  extract_lets a b
  have ka : KeySame s a := by
    refine KeySame.trans (u := s.updPres fun p => { p with queue := p.queue.erase h, active := some h }) (.ofSlots rfl) ?_
    exact enter_same (s := s.updPres _) hs (by rw [ha]; rfl)
  have kb : KeySame a b := .ofFrame stopPreview_keeps.frame
  refine (ka.trans kb).trans (KeySame.trans (u := startCycle (.slot h) (rankAt b h) b) (.ofSlots rfl) ?_)
  exact KeySame.trans (.ofFrame (postSlot_keeps ..).frame) (presentFirst_same h)

theorem interrupt_same {a : SlotIndex} (hs : stateAt s a = some .sounding) : KeySame s (interrupt a s) := by
  unfold interrupt
  refine KeySame.trans (u := (stopCycle s).updPres fun p => { p with active := none }) (.ofSlots rfl) ?_
  refine KeySame.trans (u := enterState .queued a ((stopCycle s).updPres fun p => { p with active := none })) ?_ (.ofSlots rfl)
  exact enter_same (s := (stopCycle s).updPres _) hs rfl

theorem displace_same {a : SlotIndex} (hs : stateAt s a = some .shown) : KeySame s (displace a s) := by
  unfold displace
  refine KeySame.trans ?_ (.ofFrame (postSlot_keeps ..).frame)
  refine KeySame.trans (u := s.updPres fun p => { p with reminder := none, active := none, pendingList := p.pendingList ++ [a] }) (.ofSlots rfl) ?_
  exact enter_same (s := s.updPres _) hs rfl

theorem decideOnce_same (w : PresWf s) : KeySame s (decideOnce s) := by
  unfold decideOnce
  split
  · exact .refl s
  · rename_i h e
    have hq := (w.queue h).1 (List.mem_of_mem_head? e)
    obtain ⟨rest, hr⟩ := head_cons e
    split
    · exact activate_same hq rfl
    · split
      · rename_i hs
        split
        · rename_i hr'
          obtain ⟨W, n, rk, hd⟩ := interrupt_wf w hs
          obtain ⟨rest', hq'⟩ := hd h rest hr hr'
          exact (interrupt_same hs).trans (activate_same ((W.queue h).1 (by rw [hq']; simp)) rfl)
        · exact .refl s
      · rename_i hs
        split
        · obtain ⟨W, n, rk, hd⟩ := toPending_wf w hs
          exact (displace_same hs).trans (activate_same ((W.queue h).1 (by rw [hd, hr]; simp)) rfl)
        · exact .refl s
      · exact .refl s

theorem settle_same (w : PresWf s) : KeySame s (settle s) := by
  have : KeySame s (presentationDecision s) := by
    unfold presentationDecision
    split
    · exact (decideOnce_same w).trans (decideOnce_same (decideOnce_settles w).1)
    · exact decideOnce_same w
  exact (this.trans (.ofFrame beginHandoff_keeps.frame)).trans (.ofFrame storeSelect_keeps.frame)

theorem withdraw_same {i : SlotIndex} {old : SlotState} (h : stateAt s i = some old) (hw : old.withdrawable = true) (o : Settled) : KeySame s (withdraw i o s) := by
  unfold withdraw
  split
  · exact .refl s
  · extract_lets now v
    refine KeySame.trans ?_ ((KeySame.ofFrame (addSlotHistory_keeps ..).frame).trans (.ofFrame (postSlot_keeps ..).frame))
    refine KeySame.trans (u := leavePresentation i s) (.ofFrame (leavePresentation_keeps i).frame) ?_
    refine .setState (st := .done) (old := old) ((stateAt_leave i i).trans h) ?_ _ ?_
    swap
    · exact fun _ => rfl
    cases old <;> simp [SlotState.withdrawable] at hw <;> rfl

theorem acknowledge_same {i : SlotIndex} {old : SlotState} (h : stateAt s i = some old) (hw : old.acknowledgeable = true) (o) : KeySame s (acknowledge o i s) := by
  unfold acknowledge
  split
  · exact .refl s
  · extract_lets now d v v2
    have k : KeySame s v2 := by
      refine KeySame.trans ?_ ((KeySame.ofFrame (addSlotHistory_keeps ..).frame).trans (.ofFrame (postSlot_keeps ..).frame))
      refine KeySame.trans (u := leavePresentation i s) (.ofFrame (leavePresentation_keeps i).frame) ?_
      refine .setState (st := .done) (old := old) ((stateAt_leave i i).trans h) ?_ _ ?_
      swap
      · exact fun _ => rfl
      cases old <;> simp [SlotState.acknowledgeable] at hw <;> rfl
    split
    · exact k.trans (.ofFrame (requestReceipt_keeps ..).frame)
    · exact k

theorem acknowledgeAll_same (src : AckSource) (l : List SlotIndex) (hn : l.Nodup) (w : PresWf s)
   (h : ∀ i ∈ l, ∃ st, stateAt s i = some st ∧ st.acknowledgeable = true) : KeySame s (acknowledgeAll src l s) := by
  induction l generalizing s with
  | nil => exact .refl s
  | cons i l ih =>
    obtain ⟨st, hs, ha⟩ := h i List.mem_cons_self
    obtain ⟨W, _, ho⟩ := acknowledge_wf w hs ha src
    have hn := List.nodup_cons.1 hn
    refine (acknowledge_same hs ha src).trans (ih hn.2 W ?_)
    intro j hj
    have : j ≠ i := fun e => hn.1 (e ▸ hj)
    rw [ho j this]
    exact h j (List.mem_cons_of_mem _ hj)

/-- R45: the successor reaches QUEUED and its predecessor is ended. -/
theorem becomeQueued_law (w : PresWf s) (k : KeyLaw s) {i : SlotIndex} (h : stateAt s i = some .admitted) (b : Bool) : KeyLaw (becomeQueued i b s) := by
  obtain ⟨x, hx, hxs⟩ := slot_of_state h
  -- slots of the result
  unfold becomeQueued
  generalize hf : (fun x : Slot => ({ x with state := .queued, isPartial := b, assemblyDeadline := none, lastActivity := s.time.uptime } : Slot)) = f
  have fcore : ∀ y, (f y).core = (y.key, y.revision, y.predecessor, false) := by subst hf; intro y; rfl
  have fst : ∀ y, (f y).state = .queued := by subst hf; intro y; rfl
  have W : PresWf (joinQueue i (modSlot i f s)) := by
    subst hf
    exact join_wf w (.inr (.inr (.inl h))) _ (by rw [hx]; rfl) (fun _ => rfl) (fun _ => rfl) fun _ => rfl
  generalize hv : joinQueue i (modSlot i f s) = v at W
  have sv : ∀ j, slotOf v j = if i = j then some (f x) else slotOf s j := by
    intro j; subst hv
    rw [slotOf_of_same (s := modSlot i f s) (t := joinQueue i (modSlot i f s)) rfl, slotOf_modSlot, hx]; rfl
  have pf : (f x).predecessor = x.predecessor := by have := fcore x; simp [Slot.core] at this; exact this.2.2.1
  have kf : (f x).key = x.key := by have := fcore x; simp [Slot.core] at this; exact this.1
  have hb : (slotOf v i).bind (·.predecessor) = x.predecessor := by rw [sv i, if_pos rfl]; exact pf
  cases hp : x.predecessor with
  | none =>
    have : endPredecessor i v = v := by unfold endPredecessor; rw [hb, hp]
    rw [this]
    -- no predecessor: no other slot of the key below; another slot may not have i as predecessor since i is assembling
    constructor
    · intro a c y z ne hy hz hk
      rw [sv] at hy hz
      split at hy
      · rename_i e; subst e
        rw [if_neg ne] at hz
        cases hy
        have := k.pair i c x z ne hx hz (by rw [← kf]; exact hk)
        rw [pf]; exact this
      · split at hz
        · rename_i e1 e; subst e
          cases hz
          have := k.pair a i y x ne hy hx (by rw [← kf]; exact hk)
          rw [pf]; exact this
        · exact k.pair a c y z ne hy hz hk
    · intro a c y hy hpy
      rw [sv] at hy
      split at hy
      · cases hy; rw [pf, hp] at hpy; cases hpy
      · obtain ⟨A, z, hz, B, C, D⟩ := k.succ a c y hy hpy
        have ic : i ≠ c := by
          rintro rfl
          rw [hx] at hz; cases hz
          rw [hxs] at B; cases B
        exact ⟨A, z, by rw [sv, if_neg ic]; exact hz, B, C, D⟩
  | some p =>
    obtain ⟨_, y, hy, B, C, D⟩ := k.succ i p x hx hp
    have ip : i ≠ p := by
      rintro rfl
      rw [hx] at hy; cases hy; rw [hxs] at B; cases B
    have vp : stateAt v p = some y.state := by
      unfold stateAt; rw [sv, if_neg ip, hy]; rfl
    -- the predecessor is freed in every case
    have freed : ∃ u, KeySame v u ∧ endPredecessor i v = modSlot i (fun y => { y with predecessor := none }) (freeSlot p u) := by
      unfold endPredecessor
      rw [hb, hp]
      simp only [vp]
      cases e : y.state
      · rw [e] at B; cases B
      · rw [e] at B; cases B
      · exact ⟨_, withdraw_same (old := .queued) (vp.trans (congrArg some e)) rfl _, rfl⟩
      · exact ⟨_, withdraw_same (old := .sounding) (vp.trans (congrArg some e)) rfl _, rfl⟩
      · exact ⟨_, withdraw_same (old := .shown) (vp.trans (congrArg some e)) rfl _, rfl⟩
      · exact ⟨_, withdraw_same (old := .pending) (vp.trans (congrArg some e)) rfl _, rfl⟩
      · exact ⟨_, .ofFrame (dropSlotEntry_keeps p).frame, rfl⟩
    obtain ⟨u, ku, hu⟩ := freed
    rw [hu]
    -- slots of the result: p gone, i queued without a predecessor, others as in s but forgetting p
    have su : ∀ j z, slotOf (modSlot i (fun y => { y with predecessor := none }) (freeSlot p u)) j = some z →
        j ≠ p ∧ ((j = i ∧ z.key = x.key ∧ z.predecessor = none ∧ z.state.assembling = false) ∨
          (j ≠ i ∧ ∃ z', slotOf s j = some z' ∧ z.key = z'.key ∧ z.revision = z'.revision ∧ z.state.assembling = z'.state.assembling ∧ z.predecessor = (z'.forget p).predecessor)) := by
      intro j z hz
      rw [slotOf_modSlot] at hz
      split at hz
      · rename_i e; subst e
        rw [slotOf_freeSlot, if_neg (Ne.symm ip)] at hz
        obtain ⟨z1, hz1, rfl⟩ := Option.map_eq_some_iff.1 hz
        obtain ⟨z2, hz2, rfl⟩ := Option.map_eq_some_iff.1 hz1
        obtain ⟨z3, hz3, c3⟩ := ku.get hz2
        rw [sv, if_pos rfl] at hz3
        cases hz3
        have c3 := core_eq c3
        have f1 := fcore x
        simp [Slot.core] at f1
        have g : (Slot.forget p z2).key = z2.key ∧ (Slot.forget p z2).state = z2.state := by unfold Slot.forget; split <;> exact ⟨rfl, rfl⟩
        refine ⟨ip, .inl ⟨rfl, ?_, rfl, ?_⟩⟩
        · show (Slot.forget p z2).key = _; rw [g.1, ← c3.1, kf]
        · show (Slot.forget p z2).state.assembling = _; rw [g.2, ← c3.2.2.2, f1.2.2.2]
      · rename_i ne
        rw [slotOf_freeSlot] at hz
        split at hz
        · cases hz
        · rename_i pj
          obtain ⟨z2, hz2, rfl⟩ := Option.map_eq_some_iff.1 hz
          obtain ⟨z3, hz3, c3⟩ := ku.get hz2
          rw [sv, if_neg ne] at hz3
          have c3 := core_eq c3
          refine ⟨Ne.symm pj, .inr ⟨Ne.symm ne, z3, hz3, ?_⟩⟩
          unfold Slot.forget
          rw [← c3.2.2.1]
          split <;> (refine ⟨c3.1.symm, c3.2.1.symm, c3.2.2.2.symm, ?_⟩) <;> simp [c3.2.2.1]
    have back : ∀ j z', j ≠ p → j ≠ i → slotOf s j = some z' → ∃ z, slotOf (modSlot i (fun y => { y with predecessor := none }) (freeSlot p u)) j = some z ∧
        z.key = z'.key ∧ z.revision = z'.revision ∧ z.state.assembling = z'.state.assembling := by
      intro j z' jp ji hz'
      obtain ⟨z2, hz2, c2⟩ := ku.get' (show slotOf v j = some z' by rw [sv, if_neg (Ne.symm ji)]; exact hz')
      have c2 := core_eq c2
      refine ⟨z2.forget p, ?_, ?_⟩
      · rw [slotOf_modSlot, if_neg (Ne.symm ji), slotOf_freeSlot, if_neg (Ne.symm jp), hz2]; rfl
      · unfold Slot.forget; split <;> exact ⟨c2.1, c2.2.1, c2.2.2.2⟩
    have third : ∀ j z, j ≠ i → j ≠ p → slotOf s j = some z → z.key ≠ x.key := by
      intro j z ji jp hz hk
      rcases k.pair i j x z (Ne.symm ji) hx hz hk.symm with e | e
      · rw [hp] at e; cases e; exact jp rfl
      · obtain ⟨_, w', hw', B', _, _⟩ := k.succ j i z hz e
        rw [hx] at hw'; cases hw'; rw [hxs] at B'; cases B'
    have ff : ∀ (z : Slot) c, c ≠ p → ((z.forget p).predecessor = some c ↔ z.predecessor = some c) := by
      intro z c ne; unfold Slot.forget; split
      · rename_i e; rw [e]; simp [Ne.symm ne]
      · rfl
    constructor
    · intro a c y1 z1 ne hy1 hz1 hk
      obtain ⟨ap, ha⟩ := su a y1 hy1
      obtain ⟨cp, hc⟩ := su c z1 hz1
      rcases ha with ⟨ai, k1, _⟩ | ⟨ai, y', hy', k1, _, _, p1⟩
      · rcases hc with ⟨ci, _⟩ | ⟨ci, z', hz', k2, _⟩
        · exact absurd (ai.trans ci.symm) ne
        · exact absurd (by rw [← k2, ← hk, k1]) (third c z' ci cp hz')
      · rcases hc with ⟨ci, k2, _⟩ | ⟨ci, z', hz', k2, _, _, p2⟩
        · exact absurd (by rw [← k1, hk, k2]) (third a y' ai ap hy')
        · rw [p1, p2, ff _ _ cp, ff _ _ ap]
          exact k.pair a c y' z' ne hy' hz' (by rw [← k1, ← k2, hk])
    · intro a c y1 hy1 hpy
      obtain ⟨ap, ha⟩ := su a y1 hy1
      rcases ha with ⟨_, _, e, _⟩ | ⟨ai, y', hy', k1, r1, s1, p1⟩
      · rw [e] at hpy; cases hpy
      · rw [p1] at hpy
        have cp : c ≠ p := by
          intro e; subst e; unfold Slot.forget at hpy
          split at hpy
          · cases hpy
          · rename_i n; exact n hpy
        rw [ff _ _ cp] at hpy
        obtain ⟨A, z', hz', B', C', D'⟩ := k.succ a c y' hy' hpy
        have ci : c ≠ i := by
          rintro rfl
          rw [hx] at hz'; cases hz'; rw [hxs] at B'; cases B'
        obtain ⟨z, hz, kz, rz, sz⟩ := back c z' cp ci hz'
        exact ⟨by rw [s1]; exact A, z, hz, by rw [sz]; exact B', by rw [kz, k1]; exact C', by rw [rz, r1]; exact D'⟩

theorem admitSlot_law (w : PresWf s) (k : KeyLaw s) {i : SlotIndex} (h : stateAt s i = some .gathering) (l : Lead) : KeyLaw (admitSlot i l s) := by
  unfold admitSlot
  extract_lets now u
  obtain ⟨x, hx, _⟩ := slot_of_state h
  obtain ⟨v, hv⟩ : ∃ v, v = modSlot i (fun x => { x with state := .admitted, admission := some now, lastActivity := now, gatherDeadline := none, expiry := some (expiryFrom s.time l.validity) }) s := ⟨_, rfl⟩
  have ha : AsideChange i s v := by
    subst hv
    refine putSlot_aside (.inr (.inl h)) _ ?_
    rw [hx]; exact .inr (.inr (.inl rfl))
  have hs : stateAt v i = some .admitted := by
    subst hv; exact stateAt_of_slot (slotOf_set_same hx)
  have kv : KeySame s v := by
    subst hv; refine .setState (st := .admitted) (old := .gathering) h rfl _ ?_; exact fun _ => rfl
  have p : PresSame v u := by
    subst hv
    exact PresSame.ofFrame (postSlot_keeps i .admitted).frame
  have q : KeySame v u := by
    subst hv
    exact KeySame.ofFrame (postSlot_keeps i .admitted).frame
  have W : PresWf u := p.wf (ha.wf w)
  have K : KeyLaw u := (kv.trans q).law k
  split
  · exact becomeQueued_law W K ((p.state i).trans hs) false
  · exact (KeySame.modS i _ (by intro x _; rfl)).law K

theorem rejectSlot_law (k : KeyLaw s) (i : SlotIndex) (l : Lead) : KeyLaw (rejectSlot i l s) := by
  unfold rejectSlot
  split
  · exact k
  · exact freeSlot_law (KeySame.law ((KeySame.ofFrame (addHistory_keeps _).frame).trans (.ofFrame (postSlot_keeps ..).frame)) k) i

theorem applyCancel_law (k : KeyLaw s) (i : SlotIndex) (l : Lead) : KeyLaw (applyCancel i l s) := by
  unfold applyCancel
  split
  · exact k
  · rename_i x hx
    refine freeSlot_law (KeySame.law ?_ k) i
    refine KeySame.trans ?_ (.ofFrame (addHistory_keeps _).frame)
    unfold cancelOther
    split
    · exact .refl s
    · split
      · rename_i hw
        obtain ⟨st, hst, hw⟩ := (Option.any_eq_true _ _).1 hw
        exact withdraw_same hst hw _
      · exact .refl s

theorem acceptLead_law (w : PresWf s) (k : KeyLaw s) {i : SlotIndex} (h : stateAt s i = some .gathering) : KeyLaw (acceptLead i s) := by
  unfold acceptLead
  split
  · exact k
  · extract_lets lead u
    have p : PresSame s u := PresSame.modSlot i _ (by intro _; rfl) (by intro _; rfl) (by intro _; rfl)
    have q : KeySame s u := KeySame.modS i _ (by intro x _; rfl)
    have hu : stateAt u i = some .gathering := (p.state i).trans h
    split
    · exact applyCancel_law (q.law k) i lead
    · split
      · exact admitSlot_law (p.wf w) (q.law k) hu lead
      · exact rejectSlot_law (q.law k) i lead

theorem reportAcceptance_law (w : PresWf s) (k : KeyLaw s) (i : SlotIndex) (n : Nat) : KeyLaw (reportAcceptance i n s) := by
  unfold reportAcceptance
  extract_lets u
  have W : PresWf u ∧ KeyLaw u := by
    show PresWf (if _ then _ else _) ∧ KeyLaw (if _ then _ else _)
    split
    · exact ⟨(PresSame.modSlot i _ (by intro _; rfl) (by intro _; rfl) (by intro _; rfl)).wf w, (KeySame.modS i _ (by intro x _; rfl)).law k⟩
    · exact ⟨w, k⟩
  split
  · exact W.2
  · rename_i x hx
    have P : KeyLaw (postSlot i .updated u) := (KeySame.ofFrame (postSlot_keeps ..).frame).law W.2
    split
    · rename_i hs
      split
      · exact acceptLead_law W.1 W.2 ((stateAt_of_slot hx).trans (congrArg some hs))
      · exact W.2
    · rename_i hs
      split
      · exact becomeQueued_law W.1 W.2 ((stateAt_of_slot hx).trans (congrArg some hs)) false
      · exact (KeySame.modS i _ (by intro x _; rfl)).law W.2
    all_goals (split; exacts [P, W.2])

theorem combineCopy_law (w : PresWf s) (k : KeyLaw s) (i : SlotIndex) (c : Copy) : KeyLaw (combineCopy i c s) := by
  unfold combineCopy
  extract_lets u
  have p : PresSame s u := PresSame.modSlot i _ (by intro _; rfl) (by intro _; rfl) (by intro _; rfl)
  have q : KeySame s u := KeySame.modS i _ (by intro x _; rfl)
  split
  · exact q.law k
  · split
    · exact (settle_same (reportAcceptance_wf (p.wf w) i _)).law (reportAcceptance_law (p.wf w) (q.law k) i _)
    · exact q.law k

/-- Slots may only go, others keep what matters but for a predecessor freed. -/
def Shrinks (s t : State) : Prop := ∀ j y, slotOf t j = some y → ∃ x, slotOf s j = some x ∧ y.key = x.key ∧ y.revision = x.revision ∧ y.state = x.state

theorem Shrinks.refl (s : State) : Shrinks s s := fun _ y h => ⟨y, h, rfl, rfl, rfl⟩
theorem Shrinks.trans (h : Shrinks s u) (k : Shrinks u t) : Shrinks s t := fun j y e => by
  obtain ⟨x, hx, a, b, c⟩ := k j y e
  obtain ⟨z, hz, a', b', c'⟩ := h j x hx
  exact ⟨z, hz, a.trans a', b.trans b', c.trans c'⟩

theorem reclaim_law (k : KeyLaw s) (v : SlotIndex) : KeyLaw (reclaim v s) ∧ Shrinks s (reclaim v s) := by
  refine ⟨freeSlot_law (KeySame.law ?_ k) v, ?_⟩
  · split
    · exact .ofFrame (dropSlotEntry_keeps v).frame
    · exact .ofFrame (postSlot_keeps ..).frame
  · intro j y h
    rw [slotOf_reclaim] at h
    split at h
    · cases h
    · obtain ⟨x, hx, rfl⟩ := Option.map_eq_some_iff.1 h
      refine ⟨x, hx, ?_⟩
      unfold Slot.forget; split <;> exact ⟨rfl, rfl, rfl⟩

theorem roomForBuffer_law (k : KeyLaw s) {r own} (h : roomForBuffer r own s = some t) : KeyLaw t ∧ Shrinks s t := by
  unfold roomForBuffer at h
  split at h
  · cases h; exact ⟨k, .refl s⟩
  · obtain ⟨v, hv, rfl⟩ := Option.map_eq_some_iff.1 h
    exact reclaim_law k v

theorem roomForSlot_law (k : KeyLaw s) {r} (h : roomForSlot r s = some t) : KeyLaw t ∧ Shrinks s t := by
  unfold roomForSlot at h
  split at h
  · cases h; exact ⟨k, .refl s⟩
  · obtain ⟨v, hv, rfl⟩ := Option.map_eq_some_iff.1 h
    exact reclaim_law k v

theorem law_slots {t u : State} (h : u.slots = t.slots) (k : KeyLaw t) : KeyLaw u := (KeySame.ofSlots h).law k

theorem discard_law (k : KeyLaw s) : KeyLaw (discardFormat s) ∧ KeyLaw (discardMuted s) ∧ KeyLaw (discardKnown s) ∧ KeyLaw (discardNoRoom s) :=
  ⟨law_slots (t := s) rfl k, law_slots (t := s) rfl k, law_slots (t := s) rfl k, law_slots (t := s) rfl k⟩

theorem mem_allSlots (i : SlotIndex) : i ∈ allSlots := by revert i; decide

theorem openSlot_law (w : Story s) (k : KeyLaw s) {c : Copy}
   (hheld : ∀ i ∈ slotsOfKey s c.key, ∀ x, slotOf s i = some x → x.state.assembling = false ∧ x.revision.toNat < c.revision.toNat) :
   KeyLaw (openSlot (slotsOfKey s c.key).head? c s) := by
  unfold openSlot
  split
  · exact (discard_law k).2.2.2
  · rename_i u hu
    have wu := roomForSlot_story w hu
    obtain ⟨ku, su⟩ := roomForSlot_law k hu
    split
    · exact (discard_law ku).2.2.2
    · rename_i i hi
      split
      · exact (discard_law ku).2.2.2
      · rename_i v hv
        obtain ⟨wv, hs⟩ := roomForBuffer_story wu hv
        obtain ⟨kv, sv⟩ := roomForBuffer_law ku hv
        have hf : stateAt v i = none := by rw [hs]; unfold stateAt; rw [lowestFree_spec hi]; rfl
        have hfi : slotOf v i = none := by unfold stateAt at hf; simpa using hf
        extract_lets pr
        have sh := su.trans sv
        -- the key's slots
        have mem : ∀ j x, slotOf s j = some x → x.key = c.key → j ∈ slotsOfKey s c.key := by
          intro j x hx hk
          unfold slotsOfKey
          refine List.mem_filter.2 ⟨mem_allSlots j, ?_⟩
          rw [hx]; simp [hk]
        have one : ∀ j x, slotOf s j = some x → x.key = c.key → (slotsOfKey s c.key).head? = some j := by
          intro j x hx hk
          have hm := mem j x hx hk
          cases e : slotsOfKey s c.key with
          | nil => rw [e] at hm; cases hm
          | cons a l =>
            have ha : a ∈ slotsOfKey s c.key := by rw [e]; simp
            obtain ⟨y, hy, hky⟩ : ∃ y, slotOf s a = some y ∧ y.key = c.key := by
              have := (List.mem_filter.1 ha).2
              simp only [decide_eq_true_eq, Option.map_eq_some_iff] at this
              exact this
            by_cases ej : a = j
            · rw [ej]; rfl
            · rcases k.pair a j y x ej hy hx (hky.trans hk.symm) with p | p
              · have := (k.succ a j y hy p).1
                rw [(hheld a ha y hy).1] at this; cases this
              · have := (k.succ j a x hx p).1
                rw [(hheld j hm x hx).1] at this; cases this
        have law : KeyLaw (putSlot i (some (newSlot c v.time.uptime v.settings.profile.gatherTimeout pr)) v) := by
          have sl : ∀ j, slotOf (putSlot i (some (newSlot c v.time.uptime v.settings.profile.gatherTimeout pr)) v) j =
              if i = j then some (newSlot c v.time.uptime v.settings.profile.gatherTimeout pr) else slotOf v j := fun j => slotOf_putSlot i j _
          have predOf : ∀ j y, slotOf v j = some y → y.key = c.key → pr = some j := by
            intro j y hy hk
            obtain ⟨x, hx, a, b, d⟩ := sh j y hy
            have := one j x hx (a ▸ hk)
            show Option.filter _ _ = _
            rw [this]
            simp [hy]
          constructor
          · intro a b x y ne hx hy hk
            rw [sl] at hx hy
            split at hx
            · rename_i e; subst e
              rw [if_neg ne] at hy
              cases hx
              exact .inl (predOf b y hy hk.symm)
            · split at hy
              · rename_i e1 e; subst e
                cases hy
                exact .inr (predOf a x hx hk)
              · exact kv.pair a b x y ne hx hy hk
          · intro a b x hx hp
            rw [sl] at hx
            split at hx
            · rename_i e; subst e
              cases hx
              have hp : pr = some b := hp
              have hp' : ((slotsOfKey s c.key).head? = some b ∧ (slotOf v b).isSome = true) := by
                have := Option.filter_eq_some_iff.1 hp
                exact this
              obtain ⟨y, hy⟩ := Option.isSome_iff_exists.1 hp'.2
              obtain ⟨x, hx, a1, b1, d1⟩ := sh b y hy
              have hb : b ∈ slotsOfKey s c.key := List.mem_of_mem_head? hp'.1
              have hkey : x.key = c.key := by
                have := (List.mem_filter.1 hb).2
                rw [hx] at this; simpa using this
              have hh := hheld b hb x hx
              have ib : i ≠ b := by rintro rfl; rw [hfi] at hy; cases hy
              exact ⟨rfl, y, by rw [sl, if_neg ib]; exact hy, by rw [d1]; exact hh.1, a1.trans hkey, by rw [b1]; exact hh.2⟩
            · obtain ⟨A, y, hy, B, C, D⟩ := kv.succ a b x hx hp
              have ib : i ≠ b := by rintro rfl; rw [hfi] at hy; cases hy
              exact ⟨A, y, by rw [sl, if_neg ib]; exact hy, B, C, D⟩
        exact combineCopy_law ((putSlot_aside (.inl hf) _ (.inr (.inl rfl))).story wv).1 law i c

theorem restartSlot_law (w : Story s) (k : KeyLaw s) {i : SlotIndex} {c : Copy} {x : Slot} (hx : slotOf s i = some x)
   (h : x.state.assembling = true) (hk : x.key = c.key) (hr : x.revision.toNat < c.revision.toNat) : KeyLaw (restartSlot i c s) := by
  have hst : stateAt s i = some .gathering ∨ stateAt s i = some .admitted := by
    rw [stateAt_of_slot hx]
    cases e : x.state <;> simp [e, SlotState.assembling] at h ⊢
  unfold restartSlot
  rw [hx]
  simp only
  obtain ⟨u, hu⟩ : ∃ u, u = putSlot i (some (newSlot c s.time.uptime s.settings.profile.gatherTimeout x.predecessor)) s := ⟨_, rfl⟩
  rw [← hu]
  have wu : Story u := by
    subst hu
    exact (putSlot_aside (by rcases hst with h | h; exact .inr (.inl h); exact .inr (.inr (.inl h))) _ (.inr (.inl rfl))).story w
  have law : KeyLaw u := by
    have sl : ∀ j, slotOf u j = if i = j then some (newSlot c s.time.uptime s.settings.profile.gatherTimeout x.predecessor) else slotOf s j := fun j => by
      subst hu; exact slotOf_putSlot i j _
    constructor
    · intro a b y z ne hy hz hkey
      rw [sl] at hy hz
      split at hy
      · rename_i e; subst e
        rw [if_neg ne] at hz
        cases hy
        exact k.pair i b x z ne hx hz (hk.trans hkey)
      · split at hz
        · rename_i e1 e; subst e
          cases hz
          exact k.pair a i y x ne hy hx (hkey.trans hk.symm)
        · exact k.pair a b y z ne hy hz hkey
    · intro a b y hy hp
      rw [sl] at hy
      split at hy
      · rename_i e; subst e
        cases hy
        obtain ⟨A, z, hz, B, C, D⟩ := k.succ i b x hx hp
        have ib : i ≠ b := by rintro rfl; rw [hx] at hz; cases hz; rw [h] at B; cases B
        exact ⟨rfl, z, by rw [sl, if_neg ib]; exact hz, B, C.trans hk, Nat.lt_trans D hr⟩
      · obtain ⟨A, z, hz, B, C, D⟩ := k.succ a b y hy hp
        have ib : i ≠ b := by rintro rfl; rw [hx] at hz; cases hz; rw [h] at B; cases B
        exact ⟨A, z, by rw [sl, if_neg ib]; exact hz, B, C, D⟩
  split
  · exact combineCopy_law ((PresSame.ofFrame (postSlot_keeps ..).frame).wf wu.1) ((KeySame.ofFrame (postSlot_keeps ..).frame).law law) i c
  · exact combineCopy_law wu.1 law i c

theorem routeCopy_law (w : Story s) (k : KeyLaw s) (i : SlotIndex) (c : Copy) : KeyLaw (routeCopy i c s) := by
  unfold routeCopy
  split
  · exact k
  · split
    · exact (discard_law k).1
    · extract_lets u
      have wu : Story u := (PresSame.modSlot i _ (by intro _; rfl) (by intro _; rfl) (by intro _; rfl)).story w
      have ku : KeyLaw u := (KeySame.modS i _ (by intro x _; rfl)).law k
      split
      · exact ku
      · split
        · split
          · exact (discard_law ku).2.2.2
          · rename_i v hv
            exact combineCopy_law (roomForBuffer_story wu hv).1.1 (roomForBuffer_law ku hv).1 i c
        · exact combineCopy_law wu.1 ku i c
        · exact combineCopy_law wu.1 ku i c
        · exact (discard_law ((KeySame.modS i _ (by intro x _; rfl)).law ku)).2.2.1

theorem tableDecision_law (w : Story s) (k : KeyLaw s) (c : Copy) : KeyLaw (tableDecision c s) := by
  unfold tableDecision
  split
  · exact (discard_law k).2.2.1
  · extract_lets held
    split
    · exact routeCopy_law w k _ c
    · rename_i hne
      split
      · exact (discard_law k).2.2.1
      · rename_i hnh
        have low : ∀ i ∈ held, ∀ x, slotOf s i = some x → x.revision.toNat < c.revision.toNat := by
          intro i hi x hx
          have h1 : ¬ revisionAt s i = c.revision.toNat := by
            have := List.find?_eq_none.1 hne i hi; simpa using this
          have h2 : ¬ c.revision.toNat < revisionAt s i := by
            intro h; exact hnh (List.any_eq_true.2 ⟨i, hi, by simpa using h⟩)
          have : revisionAt s i = x.revision.toNat := by unfold revisionAt; rw [hx]; rfl
          omega
        split
        · rename_i i hf
          have h1 := List.find?_some hf
          have h2 := List.mem_of_find?_eq_some hf
          simp only [Bool.or_eq_true, decide_eq_true_eq] at h1
          obtain ⟨x, hx, hk⟩ : ∃ y, slotOf s i = some y ∧ y.key = c.key := by
            have := (List.mem_filter.1 h2).2
            simp only [decide_eq_true_eq, Option.map_eq_some_iff] at this
            exact this
          refine restartSlot_law w k hx ?_ hk (low i h2 x hx)
          rw [stateAt_of_slot hx] at h1
          rcases h1 with h1 | h1 <;> (cases h1' : x.state <;> simp [h1', SlotState.assembling] at h1 ⊢)
        · rename_i hf
          refine openSlot_law w k fun i hi x hx => ⟨?_, low i hi x hx⟩
          have := List.find?_eq_none.1 hf i hi
          rw [stateAt_of_slot hx] at this
          cases h1' : x.state <;> simp [h1', SlotState.assembling] at this ⊢

theorem intakeCopy_law (w : Story s) (k : KeyLaw s) (p : List Octet) : KeyLaw (intakeCopy p s) := by
  unfold intakeCopy
  extract_lets c
  split
  · exact (discard_law k).1
  · split
    · exact (discard_law k).2.1
    · split
      · exact (discard_law k).2.2.1
      · exact tableDecision_law w k _

theorem takeSlotExpiry_law (k : KeyLaw s) (i : SlotIndex) : KeyLaw (takeSlotExpiry i s) := by
  unfold takeSlotExpiry
  split
  · exact k
  · rename_i x hx
    have hs := stateAt_of_slot hx
    have wd : ∀ st : SlotState, st.withdrawable = true → x.state = st → KeyLaw (modSlot i (fun y => { y with expiry := none }) (withdraw i .expired s)) := by
      intro st hst e
      exact (KeySame.modS i _ (by intro x _; rfl)).law ((withdraw_same (hs.trans (congrArg some e)) hst .expired).law k)
    split
    · exact k
    · exact freeSlot_law (KeySame.law ((KeySame.ofFrame (addSlotHistory_keeps ..).frame).trans (.ofFrame (postSlot_keeps ..).frame)) k) i
    · rename_i e; exact wd _ rfl e
    · rename_i e; exact wd _ rfl e
    · rename_i e; exact wd _ rfl e
    · rename_i e; exact wd _ rfl e
    · exact freeSlot_law (KeySame.law (.ofFrame (dropSlotEntry_keeps i).frame) k) i

theorem takeSlotExpiries_law (l : List SlotIndex) (k : KeyLaw s) : KeyLaw (takeSlotExpiries l s) := by
  induction l generalizing s with
  | nil => exact k
  | cons i l ih =>
    unfold takeSlotExpiries
    refine ih ?_
    split
    · exact takeSlotExpiry_law k i
    · exact k

theorem convertAll_key (n : Nat) : KeySame s (convertAll n s) := by
  have e : ∀ j, slotOf (convertAll n s) j = (slotOf s j).map fun x => { x with expiry := x.expiry.map (convertExpiry s.time.uptime n) } := by
    intro j
    have h : ∀ (v : Vector (Option Slot) 16) (g : Option Slot → Option Slot), (mapEntries g v)[j.val] = g (v[j.val]) := by
      intro v g; simp [mapEntries]
    exact h _ _
  intro j; rw [e]; cases slotOf s j <;> rfl

theorem setWallClock_law (w : Story s) (k : KeyLaw s) (n : Nat) : KeyLaw (setWallClock n s) := by
  unfold setWallClock
  split
  · exact k
  · extract_lets u
    have p : PresSame s u ∧ KeySame s u := by
      show PresSame s (if _ then _ else _) ∧ KeySame s (if _ then _ else _)
      split
      · exact ⟨.ofFrame keepReached_keeps.frame, .ofFrame keepReached_keeps.frame⟩
      · exact ⟨convertAll_same n, convertAll_key n⟩
    have p2 : PresWf (u.updTime fun c => { c with wall := n, clockSet := true }) := PresSame.wf (s := u) (.ofSlots rfl rfl rfl) (p.1.wf w.1)
    have k2 : KeyLaw (u.updTime fun c => { c with wall := n, clockSet := true }) := law_slots (t := u) rfl (p.2.law k)
    refine (settle_same (takeReached_wf p2)).law ?_
    unfold takeReached
    exact (KeySame.ofFrame dropStale_keeps.frame).law (takeSlotExpiries_law _ ((KeySame.ofFrame pruneHistory_keeps.frame).law k2))

theorem whenRunning_law (k : KeyLaw s) {f : State → State} (h : KeyLaw (f s)) : KeyLaw (whenRunning f s) := by
  unfold whenRunning; split
  · exact k
  · exact h

theorem law_empty (h : ∀ j, slotOf s j = none) : KeyLaw s where
  pair := by intro i _ x _ _ e; rw [h] at e; cases e
  succ := by intro i _ x e; rw [h] at e; cases e
theorem slotOf_empty (h : s.slots = Vector.replicate 16 none) (j : SlotIndex) : slotOf s j = none := by
  unfold slotOf; rw [h]; simp

theorem takeRequest_law (w : Story s) (q : KeyLaw s) {k f tl} {h : List Octet → State → State × List Octet} (hh : ∀ p u, Story u → KeyLaw u → KeyLaw (h p u).1) :
   KeyLaw (takeRequest k (whenReady f tl h) s) := by
  unfold takeRequest
  split
  · exact q
  · split
    · exact q
    · rename_i fr rest _
      split
      · have w1 : Story (s.updHost fun h => { h with staging := rest }) := PresSame.story (s := s) (by exact .ofSlots rfl rfl rfl) w
        have q1 : KeyLaw (s.updHost fun h => { h with staging := rest }) := KeySame.law (s := s) (by exact .ofSlots rfl) q
        have w2 : KeyLaw (whenReady f tl h fr.payload (s.updHost fun h => { h with staging := rest })).1 := by
          unfold whenReady
          split
          · exact q1
          · split
            · exact q1
            · exact hh _ _ w1 q1
        refine KeySame.law ?_ w2; exact .ofSlots rfl
      · exact q


end Sys2Proof.Machine
end

