-- ==== Sys2Proof/Laws/Fields.lean ====
section
/-! SUPPORT. Which fields of a slot are present in which state (R34, R35): what the operations of the commands keep of
`FieldsOk`. -/

namespace Sys2Proof.Machine

-- Checked one declaration at a time, so that the package as one text keeps within its memory limit.
set_option Elab.async false

variable {s t u : State}

theorem FieldsOk.ofSlots (h : t.slots = s.slots) (k : FieldsOk s) : FieldsOk t := fun i x e => k i x (by rw [← e, slotOf_of_same h])
theorem FieldsOk.ofFrame {l} (k : FieldsOk s) (h : changesOnly l s t) (h1 : .slots ∉ l := by decide) : FieldsOk t := k.ofSlots (h _ h1)

theorem FieldsOk.modSlot (k : FieldsOk s) {i : SlotIndex} {f : Slot → Slot} (h : ∀ x, slotOf s i = some x → x.fieldsOk → (f x).fieldsOk) :
    FieldsOk (modSlot i f s) := by
  intro j y e
  rw [slotOf_modSlot] at e
  split at e
  · rename_i ej; subst ej
    obtain ⟨x, hx, rfl⟩ := Option.map_eq_some_iff.1 e
    exact h x hx (k i x hx)
  · exact k j y e

theorem Slot.fieldsOk.forget {x : Slot} (h : x.fieldsOk) (i : SlotIndex) : (x.forget i).fieldsOk := by
  unfold Slot.forget; split
  · exact ⟨h.1, h.2, h.3, h.4, h.5, h.6, h.7, h.8, h.9, h.10, h.11, h.12, h.13, h.14, h.15, h.16⟩
  · exact h

/-- The fields of every slot but one are as its state has them. -/
def FieldsBut (i : SlotIndex) (s : State) : Prop := ∀ j x, j ≠ i → slotOf s j = some x → x.fieldsOk

theorem FieldsOk.but (k : FieldsOk s) (i : SlotIndex) : FieldsBut i s := fun j x _ h => k j x h
theorem FieldsBut.ofSlots {i} (h : t.slots = s.slots) (k : FieldsBut i s) : FieldsBut i t := fun j x n e => k j x n (by rw [← e, slotOf_of_same h])
theorem FieldsBut.ofFrame {l i} (k : FieldsBut i s) (h : changesOnly l s t) (h1 : .slots ∉ l := by decide) : FieldsBut i t := k.ofSlots (h _ h1)
theorem FieldsBut.mod {i} (k : FieldsBut i s) (f : Slot → Slot) : FieldsBut i (modSlot i f s) := by
  intro j x n e
  rw [slotOf_modSlot, if_neg (Ne.symm n)] at e
  exact k j x n e
theorem FieldsBut.modOther {i a} (k : FieldsBut i s) {f : Slot → Slot} (h : ∀ x, slotOf s a = some x → x.fieldsOk → (f x).fieldsOk) :
    FieldsBut i (modSlot a f s) := by
  intro j x n e
  rw [slotOf_modSlot] at e
  split at e
  · rename_i ej; subst ej
    obtain ⟨x, hx, rfl⟩ := Option.map_eq_some_iff.1 e
    exact h x hx (k a x n hx)
  · exact k j x n e
theorem FieldsBut.put {i} (k : FieldsBut i s) (h : ∀ x, slotOf s i = some x → x.fieldsOk) : FieldsOk s := fun j x e => by
  by_cases n : j = i
  · subst n; exact h x e
  · exact k j x n e

theorem FieldsBut.free {i} (k : FieldsBut i s) : FieldsOk (freeSlot i s) := by
  intro j y e
  rw [slotOf_freeSlot] at e
  split at e
  · cases e
  · rename_i n
    obtain ⟨x, hx, rfl⟩ := Option.map_eq_some_iff.1 e
    exact (k j x (Ne.symm n) hx).forget i
theorem FieldsOk.free (k : FieldsOk s) (i : SlotIndex) : FieldsOk (freeSlot i s) := (k.but i).free

theorem Slot.fieldsOk.shownFields {x : Slot} (h : x.fieldsOk) (st : SlotState) (hs : x.state = .sounding ∨ x.state = .shown ∨ x.state = .pending)
    (ht : st = .queued ∨ st = .sounding ∨ st = .shown ∨ st = .pending) (now : Nat) : ({ x with state := st, lastActivity := now } : Slot).fieldsOk := by
  obtain ⟨h1, h2, h3, h4, h5, h6, h7, h8, h9, h10, h11, h12, h13, h14, h15, h16⟩ := h
  constructor <;> rcases hs with hs | hs | hs <;> rcases ht with ht | ht | ht | ht <;> simp_all [SlotState.assembling]

theorem Slot.fieldsOk.activeFields {x : Slot} (h : x.fieldsOk) (hs : x.state = .queued) (now : Nat) :
    ({ x with state := .sounding, lastActivity := now, firstPresentation := some (x.firstPresentation.getD now) } : Slot).fieldsOk := by
  obtain ⟨h1, h2, h3, h4, h5, h6, h7, h8, h9, h10, h11, h12, h13, h14, h15, h16⟩ := h
  constructor <;> simp_all [SlotState.assembling]

theorem Slot.fieldsOk.withdrawnFields {x : Slot} (h : x.fieldsOk) (hs : x.state.withdrawable = true) (now : Nat) (o : Settled) :
    ({ x with state := .done, withdrawal := some o, doneTime := some now, lastActivity := now } : Slot).fieldsOk := by
  obtain ⟨h1, h2, h3, h4, h5, h6, h7, h8, h9, h10, h11, h12, h13, h14, h15, h16⟩ := h
  constructor <;> cases hx : x.state <;> simp_all [SlotState.assembling, SlotState.withdrawable]

theorem Slot.fieldsOk.acknowledgedFields {x : Slot} (h : x.fieldsOk) (hs : x.state.acknowledgeable = true) (now d : Nat) (hd : d ≤ 65535) (o : AckSource) :
    ({ x with state := .done, doneTime := some now, lastActivity := now, ack := some ⟨now, o, d⟩ } : Slot).fieldsOk := by
  obtain ⟨h1, h2, h3, h4, h5, h6, h7, h8, h9, h10, h11, h12, h13, h14, h15, h16⟩ := h
  constructor <;> cases hx : x.state <;> simp_all [SlotState.assembling, SlotState.acknowledgeable]

theorem Slot.fieldsOk.noExpiryFields {x : Slot} (h : x.fieldsOk) (hs : x.state = .done) : ({ x with expiry := none } : Slot).fieldsOk := by
  obtain ⟨h1, h2, h3, h4, h5, h6, h7, h8, h9, h10, h11, h12, h13, h14, h15, h16⟩ := h
  constructor <;> simp_all [SlotState.assembling]

theorem Slot.fieldsOk.queuedFields {x : Slot} (h : x.fieldsOk) (hs : x.state = .admitted) (b : Bool) (hb : b = false → ∀ r ∈ x.sheets, r.state = .accepted) (now : Nat) :
    ({ x with state := .queued, isPartial := b, assemblyDeadline := none, lastActivity := now } : Slot).fieldsOk := by
  obtain ⟨h1, h2, h3, h4, h5, h6, h7, h8, h9, h10, h11, h12, h13, h14, h15, h16⟩ := h
  constructor <;> simp_all [SlotState.assembling]

theorem Slot.fieldsOk.predecessorFields {x : Slot} (h : x.fieldsOk) (p : Option SlotIndex) : ({ x with predecessor := p } : Slot).fieldsOk :=
  ⟨h.1, h.2, h.3, h.4, h.5, h.6, h.7, h.8, h.9, h.10, h.11, h.12, h.13, h.14, h.15, h.16⟩

theorem Slot.fieldsOk.admittedFields {x : Slot} (h : x.fieldsOk) (hs : x.state = .gathering) (l : Lead) (cell : BitVec 16) (now d : Nat) (e : Expiry) :
    ({ x with lead := some l, leadCell := some cell, state := .admitted, admission := some now, lastActivity := now, gatherDeadline := none, expiry := some e, assemblyDeadline := some d } : Slot).fieldsOk := by
  obtain ⟨h1, h2, h3, h4, h5, h6, h7, h8, h9, h10, h11, h12, h13, h14, h15, h16⟩ := h
  constructor <;> simp_all [SlotState.assembling]

theorem Slot.fieldsOk.reminderFields {x : Slot} (h : x.fieldsOk) (hs : x.state = .shown) (hr : x.reminders < 5) (now : Nat) :
    ({ x with reminders := x.reminders + 1, state := .sounding, lastActivity := now } : Slot).fieldsOk := by
  obtain ⟨h1, h2, h3, h4, h5, h6, h7, h8, h9, h10, h11, h12, h13, h14, h15, h16⟩ := h
  constructor <;> simp_all [SlotState.assembling]

theorem Slot.fieldsOk.touchFields {x : Slot} (h : x.fieldsOk) (n g : Nat) : (x.touch n g).fieldsOk := by
  obtain ⟨h1, h2, h3, h4, h5, h6, h7, h8, h9, h10, h11, h12, h13, h14, h15, h16⟩ := h
  unfold Slot.touch
  constructor <;> try assumption
  simp only
  by_cases hs : x.state = .gathering <;> simp_all

theorem newSlot_fields (c : Copy) (n g : Nat) (p) : (newSlot c n g p).fieldsOk := by
  unfold newSlot
  constructor <;> simp [SlotState.assembling, SheetRecord.atCreation]

/-- A record of the sheet list changed. -/
theorem Slot.fieldsOk.sheetFields {x : Slot} (h : x.fieldsOk) (n : Nat) (f : SheetRecord → SheetRecord)
    (hp : ∀ r, x.sheets[n]? = some r → (f r).state = .held ∨ (f r).state = .accepted → (f r).passingCell.isSome = true ∧ (f r).margin.isSome = true)
    (hc : ∀ r, x.sheets[n]? = some r → r.state = .accepted → (f r).state = .accepted) : (x.withSheet n f).fieldsOk := by
  have get : ∀ q ∈ (x.withSheet n f).sheets, q ∈ x.sheets ∨ ∃ r, x.sheets[n]? = some r ∧ q = f r := by
    intro q hq
    have hq : q ∈ x.sheets.modify n f := hq
    obtain ⟨m, hm⟩ := List.mem_iff_getElem?.1 hq
    rw [List.getElem?_modify] at hm
    obtain ⟨a, ha, e⟩ := Option.map_eq_some_iff.1 hm
    split at e
    · rename_i e'; subst e'; exact .inr ⟨a, ha, e.symm⟩
    · left; rw [← e]; exact List.mem_of_getElem? ha
  refine ⟨h.1, h.2, h.3, h.4, h.5, h.6, h.7, h.8, h.9, h.10, h.11, h.12, h.13, h.14, ?_, ?_⟩
  · intro a b r hr
    rcases get r hr with h1 | ⟨q, hq, rfl⟩
    · exact h.complete a b r h1
    · exact hc q hq (h.complete a b q (List.mem_of_getElem? hq))
  · intro r hr hs
    rcases get r hr with h1 | ⟨q, hq, rfl⟩
    · exact h.passing r h1 hs
    · exact hp q hq hs

/-! ## Presentation -/

theorem slotOf_enterState (st : SlotState) (i j : SlotIndex) (s : State) :
    slotOf (enterState st i s) j = if i = j then (slotOf s i).map (fun x => { x with state := st, lastActivity := s.time.uptime }) else slotOf s j :=
  slotOf_modSlot ..

theorem slotOf_presentFirst (i j : SlotIndex) (s : State) : slotOf (presentFirst i s) j =
    if i = j then (slotOf s i).map (fun x => { x with firstPresentation := some (x.firstPresentation.getD s.time.uptime) }) else slotOf s j := by
  unfold presentFirst
  cases hx : slotOf s i with
  | none => simp only [Option.map_none]; split
            · rename_i e; rw [← e, hx]
            · rfl
  | some x =>
    simp only [Option.map_some]
    split
    · rename_i hp
      split
      · rename_i e; rw [← e, hx]
        obtain ⟨p, hp⟩ := Option.isSome_iff_exists.1 hp
        rcases x with ⟨⟩; simp_all
      · rfl
    · rename_i hp
      have : x.firstPresentation = none := by simpa using hp
      have e : ∀ a b c u, (requestReceipt a b c u).slots = u.slots := fun a b c u => (requestReceipt_keeps (s := u) ..).frame .slots (by decide)
      have g : slotOf (modSlot i (fun y => { y with firstPresentation := some s.time.uptime }) s) j =
          if i = j then some { x with firstPresentation := some (x.firstPresentation.getD s.time.uptime) } else slotOf s j := by
        rw [slotOf_modSlot, hx, this]; rfl
      split
      · rw [slotOf_of_same (e _ _ _ _), g]
      · rw [g]

theorem stopPreview_slots : (stopPreview s).slots = s.slots := stopPreview_keeps.frame .slots (by decide)
theorem stopPreview_time : (stopPreview s).time = s.time := stopPreview_keeps.frame .time (by decide)
theorem postSlot_slots (i k) (s : State) : (postSlot i k s).slots = s.slots := (postSlot_keeps (s := s) i k).frame .slots (by decide)
theorem postSlot_time (i k) (s : State) : (postSlot i k s).time = s.time := (postSlot_keeps (s := s) i k).frame .time (by decide)

/-- R118: what activation writes to the slots. -/
theorem slotOf_activate (i j : SlotIndex) (s : State) : slotOf (activate i s) j =
    if i = j then (slotOf s i).map (fun x => { x with
      state := .sounding
      lastActivity := s.time.uptime
      firstPresentation := some (x.firstPresentation.getD s.time.uptime) }) else slotOf s j := by
  unfold activate
  extract_lets a b
  have e : ∀ j, slotOf (postSlot i .presenting (startCycle (.slot i) (rankAt b i) b)) j = slotOf a j := fun j => by
    rw [slotOf_of_same (postSlot_slots ..)]
    exact (slotOf_of_same (s := b) (t := startCycle (.slot i) (rankAt b i) b) rfl j).trans (slotOf_of_same (stopPreview_slots (s := a)) j)
  have et : (postSlot i .presenting (startCycle (.slot i) (rankAt b i) b)).time = s.time := by
    rw [postSlot_time]; exact stopPreview_time (s := a)
  have ea : ∀ j, slotOf a j = if i = j then (slotOf s i).map (fun x => { x with state := .sounding, lastActivity := s.time.uptime }) else slotOf s j :=
    fun j => slotOf_enterState ..
  rw [slotOf_presentFirst, e, e, ea, et, if_pos rfl]
  split
  · cases slotOf s i <;> rfl
  · rw [ea, if_neg ‹_›]

theorem activate_fields (k : FieldsOk s) {i : SlotIndex} (h : stateAt s i = some .queued) : FieldsOk (activate i s) := by
  obtain ⟨x, hx, hs⟩ := slot_of_state h
  intro j y e
  rw [slotOf_activate] at e
  split at e
  · rename_i e'; subst e'
    rw [hx] at e; cases e
    exact (k i x hx).activeFields hs _
  · exact k j y e

theorem enter_fields (k : FieldsOk s) {i : SlotIndex} {old st : SlotState} (h : stateAt s i = some old)
    (ho : old = .sounding ∨ old = .shown ∨ old = .pending) (ht : st = .queued ∨ st = .sounding ∨ st = .shown ∨ st = .pending) : FieldsOk (enterState st i s) := by
  refine k.modSlot fun x hx f => f.shownFields st ?_ ht _
  have := stateAt_of_slot hx
  rw [h] at this; cases this; exact ho

theorem interrupt_fields (k : FieldsOk s) {a : SlotIndex} (h : stateAt s a = some .sounding) : FieldsOk (interrupt a s) :=
  FieldsOk.ofSlots (s := enterState .queued a ((stopCycle s).updPres fun p => { p with active := none })) rfl
    (enter_fields (FieldsOk.ofSlots (s := s) rfl k) h (.inl rfl) (.inl rfl))

theorem displace_fields (k : FieldsOk s) {a : SlotIndex} (h : stateAt s a = some .shown) : FieldsOk (displace a s) :=
  FieldsOk.ofSlots (postSlot_slots ..) (enter_fields (s := s.updPres fun p => { p with reminder := none, active := none, pendingList := p.pendingList ++ [a] })
    (FieldsOk.ofSlots (s := s) rfl k) h (.inr (.inl rfl)) (.inr (.inr (.inr rfl))))

theorem decideOnce_fields (w : PresWf s) (k : FieldsOk s) : FieldsOk (decideOnce s) := by
  unfold decideOnce
  split
  · exact k
  · rename_i h e
    have hq := (w.queue h).1 (List.mem_of_mem_head? e)
    obtain ⟨rest, hr⟩ := head_cons e
    split
    · exact activate_fields k hq
    · split
      · rename_i hs
        split
        · rename_i hr'
          obtain ⟨W, n, rk, hd⟩ := interrupt_wf w hs
          obtain ⟨rest', hq'⟩ := hd h rest hr hr'
          exact activate_fields (interrupt_fields k hs) ((W.queue h).1 (by rw [hq']; simp))
        · exact k
      · rename_i hs
        split
        · obtain ⟨W, n, rk, hd⟩ := toPending_wf w hs
          exact activate_fields (displace_fields k hs) ((W.queue h).1 (by rw [hd, hr]; simp))
        · exact k
      · exact k

theorem settle_fields (w : PresWf s) (k : FieldsOk s) : FieldsOk (settle s) := by
  have : FieldsOk (presentationDecision s) := by
    unfold presentationDecision
    split
    · exact decideOnce_fields (decideOnce_settles w).1 (decideOnce_fields w k)
    · exact decideOnce_fields w k
  exact (this.ofFrame beginHandoff_keeps.frame).ofFrame storeSelect_keeps.frame

theorem leave_slots (i : SlotIndex) (s : State) : (leavePresentation i s).slots = s.slots := (leavePresentation_keeps i).frame .slots (by decide)

theorem withdraw_but (b : SlotIndex) (k : FieldsBut b s) {i : SlotIndex} {old : SlotState} (h : stateAt s i = some old) (hw : old.withdrawable = true) (o : Settled) :
    FieldsBut b (withdraw i o s) := by
  unfold withdraw
  split
  · exact k
  · extract_lets now v
    have kv : FieldsBut b v := by
      refine FieldsBut.modOther (s := leavePresentation i s) (k.ofSlots (leave_slots i s)) fun x hx f => f.withdrawnFields ?_ _ _
      have := stateAt_of_slot hx
      rw [stateAt_leave, h] at this; cases this; exact hw
    exact (kv.ofFrame (addSlotHistory_keeps ..).frame).ofFrame (postSlot_keeps ..).frame

theorem withdraw_fields (k : FieldsOk s) {i : SlotIndex} {old : SlotState} (h : stateAt s i = some old) (hw : old.withdrawable = true) (o : Settled) :
    FieldsOk (withdraw i o s) := by
  unfold withdraw
  split
  · exact k
  · extract_lets now v
    have kv : FieldsOk v := by
      refine FieldsOk.modSlot (s := leavePresentation i s) (k.ofSlots (leave_slots i s)) fun x hx f => f.withdrawnFields ?_ _ _
      have := stateAt_of_slot hx
      rw [stateAt_leave, h] at this; cases this; exact hw
    exact (kv.ofFrame (addSlotHistory_keeps ..).frame).ofFrame (postSlot_keeps ..).frame

theorem acknowledge_fields (k : FieldsOk s) {i : SlotIndex} {old : SlotState} (h : stateAt s i = some old) (hw : old.acknowledgeable = true) (o) :
    FieldsOk (acknowledge o i s) := by
  unfold acknowledge
  split
  · exact k
  · extract_lets now d v v2
    have kv : FieldsOk v := by
      refine FieldsOk.modSlot (s := leavePresentation i s) (k.ofSlots (leave_slots i s)) fun x hx f => f.acknowledgedFields ?_ _ _ (Nat.min_le_right _ _) _
      have := stateAt_of_slot hx
      rw [stateAt_leave, h] at this; cases this; exact hw
    have kv2 : FieldsOk v2 := (kv.ofFrame (addSlotHistory_keeps ..).frame).ofFrame (postSlot_keeps ..).frame
    split
    · exact kv2.ofFrame (requestReceipt_keeps ..).frame
    · exact kv2

theorem acknowledgeAll_fields (src : AckSource) (l : List SlotIndex) (hn : l.Nodup) (w : PresWf s) (k : FieldsOk s)
   (h : ∀ i ∈ l, ∃ st, stateAt s i = some st ∧ st.acknowledgeable = true) : FieldsOk (acknowledgeAll src l s) := by
  induction l generalizing s with
  | nil => exact k
  | cons i l ih =>
    obtain ⟨st, hs, ha⟩ := h i List.mem_cons_self
    obtain ⟨W, _, ho⟩ := acknowledge_wf w hs ha src
    have hn := List.nodup_cons.1 hn
    refine ih hn.2 W (acknowledge_fields k hs ha src) ?_
    intro j hj
    have : j ≠ i := fun e => hn.1 (e ▸ hj)
    rw [ho j this]
    exact h j (List.mem_cons_of_mem _ hj)

/-! ## The table -/

theorem endPredecessor_fields (k : FieldsOk s) (i : SlotIndex) : FieldsOk (endPredecessor i s) := by
  unfold endPredecessor
  split
  · exact k
  · rename_i p hp
    extract_lets v
    have kv : FieldsOk v := by
      show FieldsOk (match stateAt s p with | some .done => _ | some st => _ | none => _)
      split
      · exact (k.ofFrame (dropSlotEntry_keeps _).frame).free _
      · rename_i st _ hs
        split
        · rename_i hw; exact (withdraw_fields k hs hw _).free _
        · exact k
      · exact k
    exact kv.modSlot fun x _ f => f.predecessorFields none

theorem FieldsOk.join (k : FieldsOk s) (i : SlotIndex) : FieldsOk (joinQueue i s) := FieldsOk.ofSlots (s := s) rfl k

theorem becomeQueued_fields (k : FieldsOk s) {i : SlotIndex} {x : Slot} (hx : slotOf s i = some x) (hs : x.state = .admitted) (b : Bool)
    (hb : b = false → ∀ r ∈ x.sheets, r.state = .accepted) : FieldsOk (becomeQueued i b s) := by
  unfold becomeQueued
  have e : ∀ f : Slot → Slot, (∀ x', slotOf s i = some x' → x'.fieldsOk → (f x').fieldsOk) → FieldsOk (endPredecessor i (joinQueue i (modSlot i f s))) :=
    fun f h => endPredecessor_fields ((k.modSlot h).join i) i
  refine e _ fun y hy f => ?_
  rw [hx] at hy; cases hy
  exact f.queuedFields hs b hb _

theorem complete_spec {x : Slot} (h : x.complete = true) : ∀ r ∈ x.sheets, r.state = .accepted := by
  unfold Slot.complete at h
  intro r hr
  exact of_decide_eq_true (List.all_eq_true.1 h r hr)

/-- R50, R51: an admission, over the slot as it was before its lead. -/
theorem admitSlot_fields {i : SlotIndex} (k : FieldsBut i s) {x : Slot} (f : x.fieldsOk) (hs : x.state = .gathering) (lead lead' : Lead) (cell : BitVec 16)
    (hx : slotOf s i = some { x with lead := some lead, leadCell := some cell }) : FieldsOk (admitSlot i lead' s) := by
  unfold admitSlot
  extract_lets now v
  obtain ⟨e, he⟩ : ∃ e, e = expiryFrom s.time lead'.validity := ⟨_, rfl⟩
  have sv : slotOf v i = some { x with
      lead := some lead, leadCell := some cell, state := .admitted, admission := some now, lastActivity := now
      gatherDeadline := none, expiry := some e } := by
    show slotOf (postSlot i .admitted _) i = _
    rw [slotOf_of_same (postSlot_slots ..), slotOf_modSlot, if_pos rfl, hx, he]; rfl
  have kv : FieldsBut i v := by
    show FieldsBut i (postSlot i .admitted _)
    exact (k.mod _).ofSlots (postSlot_slots ..)
  split
  · rename_i hc
    rw [sv] at hc
    have hc := complete_spec (x := { x with
      lead := some lead, leadCell := some cell, state := .admitted, admission := some now, lastActivity := now
      gatherDeadline := none, expiry := some e }) hc
    -- becoming QUEUED at once
    unfold becomeQueued
    refine endPredecessor_fields (FieldsOk.join ?_ i) i
    refine FieldsBut.put (i := i) (kv.mod _) fun y hy => ?_
    rw [slotOf_modSlot, if_pos rfl, sv] at hy
    cases hy
    have := (f.admittedFields hs lead cell now 0 e).queuedFields rfl false (fun _ => hc) v.time.uptime
    exact this
  · refine FieldsBut.put (i := i) (kv.mod _) fun y hy => ?_
    rw [slotOf_modSlot, if_pos rfl, sv] at hy
    cases hy
    exact f.admittedFields hs lead cell now _ e

theorem acceptLead_fields {i : SlotIndex} (k : FieldsBut i s) {x : Slot} (f : x.fieldsOk) (hs : x.state = .gathering) (cell : BitVec 16)
    (hx : slotOf s i = some { x with leadCell := some cell }) {r : SheetRecord} {b : Buffer} (hr : x.sheets.head? = some r) (hb : r.buffer = some b) :
    FieldsOk (acceptLead i s) := by
  unfold acceptLead
  have e : ((slotOf s i).bind (·.sheets.head?)).bind (·.buffer) = some b := by
    rw [hx]; simp [hr, hb]
  rw [e]
  simp only
  obtain ⟨lead, hl⟩ : ∃ l, l = leadOf b.values := ⟨_, rfl⟩
  rw [← hl]
  obtain ⟨v, hv⟩ : ∃ v, v = modSlot i (fun x => { x with lead := some lead }) s := ⟨_, rfl⟩
  rw [← hv]
  have kv : FieldsBut i v := hv ▸ k.mod _
  have sv : slotOf v i = some { x with lead := some lead, leadCell := some cell } := by
    rw [hv, slotOf_modSlot, if_pos rfl, hx]; rfl
  split
  · unfold applyCancel
    rw [sv]
    simp only
    refine FieldsBut.free ?_
    refine FieldsBut.ofFrame ?_ (addHistory_keeps _).frame
    unfold cancelOther
    split
    · exact kv
    · split
      · rename_i hw
        obtain ⟨st, hst, hw⟩ := (Option.any_eq_true _ _).1 hw
        exact withdraw_but i kv hst hw _
      · exact kv
  · split
    · exact admitSlot_fields kv f hs lead lead cell sv
    · unfold rejectSlot
      rw [sv]
      exact ((kv.ofFrame (addHistory_keeps _).frame).ofFrame (postSlot_keeps ..).frame).free

theorem Slot.fieldsOk.leadCellFields {x : Slot} (h : x.fieldsOk) (hs : x.state ≠ .gathering) (cell : BitVec 16) : ({ x with leadCell := some cell } : Slot).fieldsOk :=
  ⟨h.1, h.2, h.3, by simp [hs], h.5, h.6, h.7, h.8, h.9, h.10, h.11, h.12, h.13, h.14, h.15, h.16⟩

theorem Slot.fieldsOk.activityFields {x : Slot} (h : x.fieldsOk) (n : Nat) : ({ x with lastActivity := n } : Slot).fieldsOk :=
  ⟨h.1, h.2, h.3, h.4, h.5, h.6, h.7, h.8, h.9, h.10, h.11, h.12, h.13, h.14, h.15, h.16⟩

theorem reportAcceptance_fields (k : FieldsOk s) {i : SlotIndex} {n : Nat} {x : Slot} (hx : slotOf s i = some x) {r : SheetRecord} {b : Buffer}
    (hr : x.sheets[n]? = some r) (ha : r.state = .accepted) (hb : r.buffer = some b) : FieldsOk (reportAcceptance i n s) := by
  have f := k i x hx
  -- what follows when the slot is past GATHERING
  have later : ∀ {u : State} {y : Slot}, FieldsOk u → slotOf u i = some y → y.state ≠ .gathering →
      FieldsOk (match y.state with
        | .gathering => if n = 0 then acceptLead i u else u
        | .admitted => if y.complete then becomeQueued i false u else modSlot i (fun y => { y with lastActivity := u.time.uptime }) u
        | .queued | .sounding | .shown | .pending | .done => if y.isPartial then postSlot i .updated u else u) := by
    intro u y ku hy hg
    have P : FieldsOk (postSlot i .updated u) := ku.ofFrame (postSlot_keeps ..).frame
    split
    · rename_i h; exact absurd h hg
    · rename_i h
      split
      · rename_i hc
        exact becomeQueued_fields ku hy h false fun _ => complete_spec hc
      · exact ku.modSlot fun x _ f => f.activityFields _
    all_goals (split; exacts [P, ku])
  unfold reportAcceptance
  by_cases hn : n = 0
  · subst hn
    simp only [if_true]
    have hh : x.sheets.head? = some r := by rw [List.head?_eq_getElem?]; exact hr
    obtain ⟨cell, hc⟩ := Option.isSome_iff_exists.1 (f.passing r (List.mem_of_getElem? hr) (.inr ha)).1
    obtain ⟨v, hv⟩ : ∃ v, v = modSlot i (fun x => { x with leadCell := x.sheets.head?.bind (·.passingCell) }) s := ⟨_, rfl⟩
    rw [← hv]
    have sv : slotOf v i = some { x with leadCell := some cell } := by
      rw [hv, slotOf_modSlot, if_pos rfl, hx]
      simp [hh, hc]
    rw [sv]
    simp only
    by_cases hg : x.state = .gathering
    · simp only [hg]
      exact acceptLead_fields (hv ▸ (k.but i).mod _) f hg cell sv hh hb
    · have kv : FieldsOk v := by
        refine FieldsBut.put (i := i) (hv ▸ (k.but i).mod _) fun y hy => ?_
        rw [sv] at hy; cases hy
        exact f.leadCellFields hg cell
      exact later (y := { x with leadCell := some cell }) kv sv hg
  · simp only [if_neg hn]
    rw [hx]
    simp only
    by_cases hg : x.state = .gathering
    · simp only [hg]; exact k
    · have := later k hx hg
      simp only [if_neg hn] at this
      exact this

theorem combine_fields (p : Profile) (n : Nat) (cell : BitVec 16) (body : Vector Pair 48) (r : SheetRecord) :
    (r.combine p n cell body).state = .held ∨ (r.combine p n cell body).state = .accepted →
      (r.combine p n cell body).passingCell.isSome = true ∧ (r.combine p n cell body).margin.isSome = true := by
  unfold SheetRecord.combine
  extract_lets b r1 m r2
  split
  · split <;> (intro _; exact ⟨rfl, rfl⟩)
  · intro h; rcases h with h | h <;> cases h

theorem combineCopy_fields (w : PresWf s) (k : FieldsOk s) {i : SlotIndex} {c : Copy}
    (h : ∀ x r, slotOf s i = some x → x.sheets[c.index]? = some r → r.state ≠ .accepted) : FieldsOk (combineCopy i c s) := by
  unfold combineCopy
  extract_lets u
  have p : PresSame s u := PresSame.modSlot i _ (by intro _; rfl) (by intro _; rfl) (by intro _; rfl)
  have ku : FieldsOk u := k.modSlot fun x hx f => f.sheetFields _ _ (fun r _ => combine_fields _ _ _ _ r) fun r hr ha => absurd ha (h x r hx hr)
  split
  · exact ku
  · rename_i r hr
    split
    · rename_i ha
      obtain ⟨y, hy, hyr⟩ := Option.bind_eq_some_iff.1 hr
      have hb : ∃ b, r.buffer = some b := by
        have e : slotOf u i = (slotOf s i).map (Slot.withSheet c.index (SheetRecord.combine s.settings.profile s.time.uptime c.cell c.body)) := by
          show slotOf (modSlot _ _ _) _ = _
          rw [slotOf_modSlot, if_pos rfl]
        rw [hy] at e
        obtain ⟨x, hx, e⟩ := Option.map_eq_some_iff.1 e.symm
        subst e
        have hyr : (x.sheets.modify c.index _)[c.index]? = some r := hyr
        rw [List.getElem?_modify] at hyr
        obtain ⟨q, hq, e⟩ := Option.map_eq_some_iff.1 hyr
        rw [if_pos rfl] at e
        rw [← e]
        unfold SheetRecord.combine
        extract_lets b r1 m r2
        split
        · split <;> exact ⟨_, rfl⟩
        · exact ⟨_, rfl⟩
      obtain ⟨b, hb⟩ := hb
      exact settle_fields (reportAcceptance_wf (p.wf w) i _) (reportAcceptance_fields ku hy hyr ha hb)
    · exact ku

theorem reclaim_fields (k : FieldsOk s) (v : SlotIndex) : FieldsOk (reclaim v s) := by
  unfold reclaim
  refine FieldsOk.free ?_ v
  split
  · exact k.ofFrame (dropSlotEntry_keeps v).frame
  · exact k.ofFrame (postSlot_keeps ..).frame

theorem roomForBuffer_fields (k : FieldsOk s) {r own} (h : roomForBuffer r own s = some t) : FieldsOk t := by
  unfold roomForBuffer at h
  split at h
  · cases h; exact k
  · obtain ⟨v, hv, rfl⟩ := Option.map_eq_some_iff.1 h
    exact reclaim_fields k v

theorem roomForSlot_fields (k : FieldsOk s) {r} (h : roomForSlot r s = some t) : FieldsOk t := by
  unfold roomForSlot at h
  split at h
  · cases h; exact k
  · obtain ⟨v, hv, rfl⟩ := Option.map_eq_some_iff.1 h
    exact reclaim_fields k v

theorem discard_fields (k : FieldsOk s) : FieldsOk (discardFormat s) ∧ FieldsOk (discardMuted s) ∧ FieldsOk (discardKnown s) ∧ FieldsOk (discardNoRoom s) :=
  ⟨k.ofSlots rfl, k.ofSlots rfl, k.ofSlots rfl, k.ofSlots rfl⟩

theorem putNew_fields (k : FieldsOk s) (i : SlotIndex) (c n g p) : FieldsOk (putSlot i (some (newSlot c n g p)) s) := by
  intro j y e
  rw [slotOf_putSlot] at e
  split at e
  · cases e; exact newSlot_fields c n g p
  · exact k j y e

theorem newSlot_unaccepted {c' : Copy} {n g p} {i : SlotIndex} {x : Slot} {r : SheetRecord} {k : Nat}
    (h : slotOf s i = some (newSlot c' n g p)) (hx : slotOf s i = some x) (hr : x.sheets[k]? = some r) : r.state ≠ .accepted := by
  rw [h] at hx; cases hx
  have := List.eq_of_mem_replicate (List.mem_of_getElem? hr)
  rw [this]; simp [SheetRecord.atCreation]

theorem openSlot_fields (w : Story s) (k : FieldsOk s) (p : Option SlotIndex) (c : Copy) : FieldsOk (openSlot p c s) := by
  unfold openSlot
  split
  · exact (discard_fields k).2.2.2
  · rename_i u hu
    have wu := roomForSlot_story w hu
    have ku := roomForSlot_fields k hu
    split
    · exact (discard_fields ku).2.2.2
    · rename_i i hi
      split
      · exact (discard_fields ku).2.2.2
      · rename_i v hv
        obtain ⟨wv, hs⟩ := roomForBuffer_story wu hv
        have kv := roomForBuffer_fields ku hv
        have hf : stateAt v i = none := by rw [hs]; unfold stateAt; rw [lowestFree_spec hi]; rfl
        extract_lets pr
        refine combineCopy_fields ((putSlot_aside (.inl hf) _ (.inr (.inl rfl))).story wv).1 (putNew_fields kv i c _ _ _) fun x r hx hr => ?_
        exact newSlot_unaccepted (by rw [slotOf_putSlot, if_pos rfl]) hx hr

theorem restartSlot_fields (w : Story s) (k : FieldsOk s) {i : SlotIndex} {x : Slot} (hx : slotOf s i = some x) (h : x.state.assembling = true) (c : Copy) :
    FieldsOk (restartSlot i c s) := by
  have hst : stateAt s i = some .gathering ∨ stateAt s i = some .admitted := by
    rw [stateAt_of_slot hx]
    cases e : x.state <;> simp [e, SlotState.assembling] at h ⊢
  unfold restartSlot
  rw [hx]
  simp only
  obtain ⟨u, hu⟩ : ∃ u, u = putSlot i (some (newSlot c s.time.uptime s.settings.profile.gatherTimeout x.predecessor)) s := ⟨_, rfl⟩
  rw [← hu]
  have wu : Story u := by
    subst hu
    exact (putSlot_aside (by rcases hst with h | h; exact .inr (.inl h); exact .inr (.inr (.inl h))) _ (.inr (.inl rfl))).story w
  have ku : FieldsOk u := hu ▸ putNew_fields k i c _ _ _
  have su : slotOf u i = some (newSlot c s.time.uptime s.settings.profile.gatherTimeout x.predecessor) := by rw [hu, slotOf_putSlot, if_pos rfl]
  split
  · exact combineCopy_fields ((PresSame.ofFrame (postSlot_keeps ..).frame).wf wu.1) (ku.ofFrame (postSlot_keeps ..).frame)
      fun y r hy hr => newSlot_unaccepted ((slotOf_of_same (postSlot_slots ..) i).trans su) hy hr
  · exact combineCopy_fields wu.1 ku fun y r hy hr => newSlot_unaccepted su hy hr

theorem routeCopy_fields (w : Story s) (k : FieldsOk s) (i : SlotIndex) (c : Copy) : FieldsOk (routeCopy i c s) := by
  unfold routeCopy
  split
  · exact k
  · rename_i x hx
    split
    · exact (discard_fields k).1
    · obtain ⟨u, hu⟩ : ∃ u, u = modSlot i (Slot.touch s.time.uptime s.settings.profile.gatherTimeout) s := ⟨_, rfl⟩
      simp only [← hu]
      have wu : Story u := hu ▸ (PresSame.modSlot i _ (by intro _; rfl) (by intro _; rfl) (by intro _; rfl)).story w
      have ku : FieldsOk u := hu ▸ k.modSlot fun x _ f => f.touchFields _ _
      have su : slotOf u i = some (x.touch s.time.uptime s.settings.profile.gatherTimeout) := by rw [hu, slotOf_modSlot, if_pos rfl, hx]; rfl
      split
      · exact ku
      · rename_i r hr
        have same : ∀ {v : State}, (slotOf v i = none ∨ ∃ p : Slot → Option SlotIndex, slotOf v i = (slotOf u i).map (fun y => { y with predecessor := p y })) → r.state ≠ .accepted →
            ∀ y q, slotOf v i = some y → y.sheets[c.index]? = some q → q.state ≠ .accepted := by
          intro v hv hn y q hy hq
          rcases hv with hv | ⟨p, hv⟩
          · rw [hv] at hy; cases hy
          · rw [su] at hv
            rw [hv] at hy
            cases hy
            have : x.sheets[c.index]? = some q := hq
            rw [hr] at this; cases this; exact hn
        have self : slotOf u i = none ∨ ∃ p : Slot → Option SlotIndex, slotOf u i = (slotOf u i).map (fun y => { y with predecessor := p y }) :=
          .inr ⟨fun y => y.predecessor, by cases slotOf u i <;> rfl⟩
        split
        · rename_i he
          split
          · exact (discard_fields ku).2.2.2
          · rename_i v hv
            refine combineCopy_fields (roomForBuffer_story wu hv).1.1 (roomForBuffer_fields ku hv) (same ?_ (by rw [he]; simp))
            unfold roomForBuffer at hv
            split at hv
            · cases hv; exact self
            · obtain ⟨z, hz, rfl⟩ := Option.map_eq_some_iff.1 hv
              rw [slotOf_reclaim]
              split
              · exact .inl rfl
              · right
                refine ⟨fun y => if y.predecessor = some z then none else y.predecessor, ?_⟩
                congr 1; funext y; unfold Slot.forget
                split
                · rename_i e; simp only [e, if_true]
                · rename_i e; simp only [e, if_false]
        · rename_i he; exact combineCopy_fields wu.1 ku (same self (by rw [he]; simp))
        · rename_i he; exact combineCopy_fields wu.1 ku (same self (by rw [he]; simp))
        · refine (discard_fields (ku.modSlot fun y hy f => ?_)).2.2.1
          refine f.sheetFields _ _ (fun q hq hs => ?_) fun q hq hs => hs
          exact f.passing q (List.mem_of_getElem? hq) hs

theorem tableDecision_fields (w : Story s) (k : FieldsOk s) (c : Copy) : FieldsOk (tableDecision c s) := by
  unfold tableDecision
  split
  · exact (discard_fields k).2.2.1
  · extract_lets held
    split
    · exact routeCopy_fields w k _ c
    · split
      · exact (discard_fields k).2.2.1
      · split
        · rename_i i hf
          have h1 := List.find?_some hf
          have h2 := List.mem_of_find?_eq_some hf
          simp only [Bool.or_eq_true, decide_eq_true_eq] at h1
          obtain ⟨x, hx, hk⟩ : ∃ y, slotOf s i = some y ∧ y.key = c.key := by
            have := (List.mem_filter.1 h2).2
            simp only [decide_eq_true_eq, Option.map_eq_some_iff] at this
            exact this
          refine restartSlot_fields w k hx ?_ c
          rw [stateAt_of_slot hx] at h1
          rcases h1 with h1 | h1 <;> (cases h1' : x.state <;> simp [h1', SlotState.assembling] at h1 ⊢)
        · exact openSlot_fields w k _ c

theorem intakeCopy_fields (w : Story s) (k : FieldsOk s) (p : List Octet) : FieldsOk (intakeCopy p s) := by
  unfold intakeCopy
  extract_lets c
  split
  · exact (discard_fields k).1
  · split
    · exact (discard_fields k).2.1
    · split
      · exact (discard_fields k).2.2.1
      · exact tableDecision_fields w k _

/-! ## Expiries and the timers -/

theorem slotOf_withdraw {i : SlotIndex} {x : Slot} (hx : slotOf s i = some x) (o : Settled) (j : SlotIndex) : slotOf (withdraw i o s) j =
    if i = j then some { x with state := .done, withdrawal := some o, doneTime := some s.time.uptime, lastActivity := s.time.uptime } else slotOf s j := by
  unfold withdraw
  rw [hx]
  simp only
  rw [slotOf_of_same (postSlot_slots ..), slotOf_of_same ((addSlotHistory_keeps (s := modSlot i _ (leavePresentation i s)) x o).frame .slots (by decide)), slotOf_modSlot,
    slotOf_of_same (leave_slots i s), slotOf_of_same (leave_slots i s), hx]
  rfl

theorem takeSlotExpiry_fields (k : FieldsOk s) (i : SlotIndex) : FieldsOk (takeSlotExpiry i s) := by
  unfold takeSlotExpiry
  split
  · exact k
  · rename_i x hx
    have hs := stateAt_of_slot hx
    have wd : ∀ st : SlotState, st.withdrawable = true → x.state = st → FieldsOk (modSlot i (fun y => { y with expiry := none }) (withdraw i .expired s)) := by
      intro st hst e
      refine (withdraw_fields k (hs.trans (congrArg some e)) hst .expired).modSlot fun y hy f => f.noExpiryFields ?_
      rw [slotOf_withdraw hx, if_pos rfl] at hy
      cases hy; rfl
    split
    · exact k
    · exact ((k.ofFrame (addSlotHistory_keeps ..).frame).ofFrame (postSlot_keeps ..).frame).free i
    · rename_i e; exact wd _ rfl e
    · rename_i e; exact wd _ rfl e
    · rename_i e; exact wd _ rfl e
    · rename_i e; exact wd _ rfl e
    · exact (k.ofFrame (dropSlotEntry_keeps i).frame).free i

theorem takeSlotExpiries_fields (l : List SlotIndex) (k : FieldsOk s) : FieldsOk (takeSlotExpiries l s) := by
  induction l generalizing s with
  | nil => exact k
  | cons i l ih =>
    unfold takeSlotExpiries
    refine ih ?_
    split
    · exact takeSlotExpiry_fields k i
    · exact k

theorem slotOf_convertAll (n : Nat) (j : SlotIndex) :
    slotOf (convertAll n s) j = (slotOf s j).map fun x => { x with expiry := x.expiry.map (convertExpiry s.time.uptime n) } := by
  have h : ∀ (v : Vector (Option Slot) 16) (g : Option Slot → Option Slot), (mapEntries g v)[j.val] = g (v[j.val]) := by
    intro v g; simp [mapEntries]
  exact h _ _

theorem convertAll_fields (k : FieldsOk s) (n : Nat) : FieldsOk (convertAll n s) := by
  intro j y e
  rw [slotOf_convertAll] at e
  obtain ⟨x, hx, rfl⟩ := Option.map_eq_some_iff.1 e
  have h := k j x hx
  exact ⟨h.1, h.2, h.3, h.4, h.5, fun e => by simp [h.6 e], fun a b => by simp [h.7 a b], h.8, h.9, h.10, h.11, h.12, h.13, h.14, h.15, h.16⟩

theorem setWallClock_fields (w : Story s) (k : FieldsOk s) (n : Nat) : FieldsOk (setWallClock n s) := by
  unfold setWallClock
  split
  · exact k
  · extract_lets u
    have p : PresSame s u ∧ FieldsOk u := by
      show PresSame s (if _ then _ else _) ∧ FieldsOk (if _ then _ else _)
      split
      · exact ⟨.ofFrame keepReached_keeps.frame, k.ofFrame keepReached_keeps.frame⟩
      · exact ⟨convertAll_same n, convertAll_fields k n⟩
    have p2 : PresWf (u.updTime fun c => { c with wall := n, clockSet := true }) := PresSame.wf (s := u) (.ofSlots rfl rfl rfl) (p.1.wf w.1)
    have k2 : FieldsOk (u.updTime fun c => { c with wall := n, clockSet := true }) := FieldsOk.ofSlots (s := u) rfl p.2
    refine settle_fields (takeReached_wf p2) ?_
    unfold takeReached
    exact (takeSlotExpiries_fields _ (k2.ofFrame pruneHistory_keeps.frame)).ofFrame dropStale_keeps.frame

theorem becomeShown_fields (k : FieldsOk s) {i : SlotIndex} (h : stateAt s i = some .sounding) : FieldsOk (becomeShown i s) :=
  FieldsOk.ofSlots (s := postSlot i .shown (enterState .shown i s)) rfl
    (FieldsOk.ofFrame (enter_fields k h (.inl rfl) (.inr (.inr (.inl rfl)))) (postSlot_keeps ..).frame)

theorem whenRunning_fields (k : FieldsOk s) {f : State → State} (h : FieldsOk (f s)) : FieldsOk (whenRunning f s) := by
  unfold whenRunning; split
  · exact k
  · exact h

theorem fields_empty (h : s.slots = Vector.replicate 16 none) : FieldsOk s := fun i x e => by rw [slotOf_empty h] at e; cases e

theorem takeRequest_fields (w : Story s) (q : FieldsOk s) {k f tl} {h : List Octet → State → State × List Octet}
    (hh : ∀ p u, Story u → FieldsOk u → FieldsOk (h p u).1) : FieldsOk (takeRequest k (whenReady f tl h) s) := by
  unfold takeRequest
  split
  · exact q
  · split
    · exact q
    · rename_i fr rest _
      split
      · have w1 : Story (s.updHost fun h => { h with staging := rest }) := PresSame.story (s := s) (by exact .ofSlots rfl rfl rfl) w
        have q1 : FieldsOk (s.updHost fun h => { h with staging := rest }) := FieldsOk.ofSlots (s := s) rfl q
        refine FieldsOk.ofSlots (s := (whenReady f tl h fr.payload (s.updHost fun h => { h with staging := rest })).1) rfl ?_
        unfold whenReady
        split
        · exact q1
        · split
          · exact q1
          · exact hh _ _ w1 q1
      · exact q

theorem holdExpiry_fields (w : Story s) (ok : SlotsWf s.slots) (k : FieldsOk s) (i : SlotIndex) (n : Nat) : FieldsOk (holdExpiry i n s) := by
  unfold holdExpiry
  split
  · exact k
  · rename_i r hr
    split
    · rename_i hh
      obtain ⟨x, hx, hxr⟩ := Option.bind_eq_some_iff.1 hr
      have hmem := List.mem_of_getElem? hxr
      have f := k i x hx
      obtain ⟨b, hb⟩ : ∃ b, r.buffer = some b := by
        have := (ok x (slotOf_mem hx)).sheets r hmem
        cases e : r.buffer with
        | some b => exact ⟨b, rfl⟩
        | none => have := this.buffer.1 e; rw [hh.1] at this; cases this
      obtain ⟨u, hu⟩ : ∃ u, u = modSlot i (Slot.withSheet n fun q => { q with state := .accepted, holdDeadline := none, onHold := true }) s := ⟨_, rfl⟩
      rw [← hu]
      have p : PresSame s u := hu ▸ PresSame.modSlot _ _ (by intro _; rfl) (by intro _; rfl) (by intro _; rfl)
      have ku : FieldsOk u := by
        rw [hu]
        refine k.modSlot fun y hy f => f.sheetFields _ _ (fun q hq _ => ?_) fun q hq _ => rfl
        rw [hx] at hy; cases hy
        rw [hxr] at hq; cases hq
        exact f.passing r hmem (.inl hh.1)
      have su : slotOf u i = some (x.withSheet n fun q => { q with state := .accepted, holdDeadline := none, onHold := true }) := by
        rw [hu, slotOf_modSlot, if_pos rfl, hx]; rfl
      refine settle_fields (reportAcceptance_wf (p.wf w.1) i n) (reportAcceptance_fields ku su (r := { r with state := .accepted, holdDeadline := none, onHold := true }) ?_ rfl hb)
      show (x.sheets.modify n _)[n]? = _
      rw [List.getElem?_modify, hxr]; simp
    · exact k

theorem assemblyLimit_fields (w : Story s) (k : FieldsOk s) (i : SlotIndex) : FieldsOk (assemblyLimit i s) := by
  unfold assemblyLimit
  split
  · exact k
  · rename_i x hx
    split
    · rename_i h
      exact settle_fields (becomeQueued_wf w.1 ((stateAt_of_slot hx).trans (congrArg some h.1)) true) (becomeQueued_fields k hx h.1 true fun e => nomatch e)
    · exact k

theorem reminderExpiry_fields (w : Story s) (hp : s.settings.profile.reminderCount ≤ 5) (k : FieldsOk s) : FieldsOk (reminderExpiry s) := by
  unfold reminderExpiry
  split
  · exact k
  · rename_i i hi
    split
    · exact k
    · rename_i x hx
      split
      · rename_i h
        have hs := (stateAt_of_slot hx).trans (congrArg some h.1)
        extract_lets u
        have ku : FieldsOk u := FieldsOk.ofSlots (s := s) rfl k
        have hu : slotOf u i = some x := hx
        split
        · rename_i hr
          refine settle_fields (remind_wf w.1 hs _ (fun _ => rfl) (fun _ => rfl) fun _ => rfl) ?_
          refine FieldsOk.ofFrame ?_ (postSlot_keeps ..).frame
          refine FieldsOk.ofSlots (s := enterState .sounding i (modSlot i (fun y => { y with reminders := y.reminders + 1 }) u)) rfl ?_
          refine FieldsBut.put (i := i) (((ku.but i).mod _).mod _) fun y hy => ?_
          rw [slotOf_enterState, if_pos rfl, slotOf_modSlot, if_pos rfl, hu] at hy
          cases hy
          exact (k i x hx).reminderFields h.1 (Nat.lt_of_lt_of_le hr hp) _
        · refine settle_fields (toPending_wf w.1 hs).1 ?_
          exact FieldsOk.ofSlots (postSlot_slots ..) (enter_fields (s := u.updPres _) ku ((stateAt_of_slot (s := u) hu).trans (congrArg some h.1)) (.inr (.inl rfl)) (.inr (.inr (.inr rfl))))
      · exact k

theorem segmentBoundary_fields (w : Story s) (k : FieldsOk s) : FieldsOk (segmentBoundary s) := by
  unfold segmentBoundary
  split
  · exact k
  · split_ifs
    · exact k
    · unfold completion
      split
      · exact FieldsOk.ofSlots (s := s) rfl k
      · rename_i i _
        split
        · rename_i h
          have hs : stateAt s i = some .sounding := h.2
          exact settle_fields (shown_wf w.1 hs) (becomeShown_fields (s := stopCycle s) (FieldsOk.ofSlots (s := s) rfl k) h.2)
        · exact FieldsOk.ofSlots (s := s) rfl k
    · exact FieldsOk.ofSlots (s := s) rfl k

theorem acknowledgeOne_fields (w : PresWf s) (k : FieldsOk s) {i : SlotIndex} (h : ∃ st, stateAt s i = some st ∧ st.acknowledgeable = true) (o) :
    FieldsOk (settle (acknowledge o i s)) := by
  obtain ⟨st, hs, ha⟩ := h
  exact settle_fields (acknowledge_wf w hs ha o).1 (acknowledge_fields k hs ha o)

theorem keyAction_fields (w : Story s) (k : FieldsOk s) (key : KeyLine) : FieldsOk (keyAction key s) := by
  have sp : FieldsOk (stopPreview s) := k.ofSlots stopPreview_slots
  cases key
  · show FieldsOk (ackKeyAction s)
    unfold ackKeyAction
    split
    · rename_i i hi; exact acknowledgeOne_fields w.1 k (w.1.active_ack hi) _
    · split
      · rename_i i l hl; exact acknowledgeOne_fields w.1 k (w.1.pending_ack (by rw [hl]; simp)) _
      · exact sp
  · show FieldsOk (silenceKeyAction s)
    unfold silenceKeyAction
    split
    · exact sp
    · rename_i i hi
      split
      · rename_i hs
        exact settle_fields (shown_wf w.1 hs) (becomeShown_fields (s := stopCycle s) (FieldsOk.ofSlots (s := s) rfl k) hs)
      · exact k

theorem recogniseRelease_fields (w : Story s) (k : FieldsOk s) (key : KeyLine) : FieldsOk (recogniseRelease key s) := by
  unfold recogniseRelease
  extract_lets f u
  split
  · have W : Story u := (keys_same _).story w
    have K : FieldsOk u := FieldsOk.ofSlots (s := s) rfl k
    split
    · exact K
    · exact keyAction_fields W K key
  · exact k

theorem fireChord_fields (w : Story s) (k : FieldsOk s) : FieldsOk (fireChord s) := by
  unfold fireChord
  split
  · exact k
  · split
    · unfold chordAction
      extract_lets v
      have W : Story v := stopPreview_story ((keys_same _).story w)
      have K : FieldsOk v := FieldsOk.ofSlots (s := s) (stopPreview_slots (s := s.updKeys _)) k
      split
      · exact K
      · obtain ⟨n, h⟩ := W.1.presented
        exact settle_fields (acknowledgeAll_wf .chord _ n W.1 h) (acknowledgeAll_fields .chord _ n W.1 K h)
    · exact k

theorem carryAck_fields (w : Story s) (k : FieldsOk s) (p : List Octet) : FieldsOk (carryAck p s).1 := by
  have many : ∀ l : List SlotIndex, l.Nodup → (∀ i ∈ l, ∃ st, stateAt s i = some st ∧ st.acknowledgeable = true) → FieldsOk (ackMany l s).1 := by
    intro l hn h
    unfold ackMany
    split
    · exact k
    · exact settle_fields (acknowledgeAll_wf .link l hn w.1 h) (acknowledgeAll_fields .link l hn w.1 k h)
  unfold carryAck
  extract_lets target
  split
  · refine many _ ?_ ?_
    · cases s.pres.active <;> simp
    · intro i hi; exact w.1.active_ack (by simpa using hi)
  · split
    · exact many _ w.1.presented.1 w.1.presented.2
    · split
      · exact k
      · unfold ackSlot
        split
        · exact k
        · rename_i x hx
          split
          · rename_i ha
            exact acknowledgeOne_fields w.1 k ⟨_, stateAt_of_slot hx, ha⟩ .link
          · exact k

theorem carryRelease_fields (k : FieldsOk s) (p : List Octet) : FieldsOk (carryRelease p s).1 := by
  unfold carryRelease
  split
  · exact k
  · split
    · exact k
    · exact (k.ofFrame (dropSlotEntry_keeps _).frame).free _
    · exact k

theorem takeFrame_fields (w : Story s) (k : FieldsOk s) {kind : Octet} {f : List Octet → State → State}
    (h : ∀ p u, Story u → FieldsOk u → FieldsOk (f p u)) : FieldsOk (takeFrame kind f s) := by
  unfold takeFrame
  split
  · exact k
  · split
    · exact k
    · split
      · rename_i rest _ _
        exact h _ _ (PresSame.story (s := s) (by exact .ofSlots rfl rfl rfl) w) (FieldsOk.ofSlots (s := s) rfl k)
      · exact k

end Sys2Proof.Machine
end

