-- ==== Sys2Proof/Laws/Journal.lean ====
section
/-! SUPPORT. The journal's contents through the shared operations: a slot's ending adds to history, which may mark the
running attempt of the store, and the store selects at the end of a step, but neither writes a position (R101). -/

namespace Sys2Proof.Machine

-- Checked one declaration at a time, so that the package as one text keeps within its memory limit.
set_option Elab.async false

variable {s t : State}

/-- The journal reads the same in the two states. -/
def SameJournal (s t : State) : Prop := t.store.journal = s.store.journal

theorem SameJournal.refl (s : State) : SameJournal s s := rfl

theorem SameJournal.trans {u : State} (h : SameJournal s u) (k : SameJournal u t) : SameJournal s t := Eq.trans k h

/-- A change of other blocks. -/
theorem SameJournal.outside {l : List Block} (h : changesOnly l s t) (hl : .store ∉ l := by decide) : SameJournal s t :=
  congrArg Store.journal (h .store hl)

theorem SameJournal.whenRunning {f : State → State} (h : SameJournal s (f s)) : SameJournal s (whenRunning f s) := by
  unfold Machine.whenRunning
  split
  · exact .refl s
  · exact h

theorem prefillFrom_journal (p : Nat) (s : State) : SameJournal s (prefillFrom p s) := by
  unfold prefillFrom
  split <;> exact .refl s

theorem startCompaction_journal (s : State) : SameJournal s (startCompaction s) :=
  (SameJournal.refl s).trans (prefillFrom_journal 0 _)

theorem storeSelect_journal (s : State) : SameJournal s (storeSelect s) := by
  unfold storeSelect
  split
  · split
    · exact .refl s
    · split
      · exact .refl s
      · split
        · exact .refl s
        · exact startCompaction_journal s
  · exact .refl s

theorem settle_journal (s : State) : SameJournal s (settle s) :=
  ((SameJournal.outside presentationDecision_keeps.frame).trans (.outside beginHandoff_keeps.frame)).trans
    (storeSelect_journal _)

theorem addSlotHistory_journal (x : Slot) (outcome : Settled) (s : State) : SameJournal s (addSlotHistory x outcome s) := by
  unfold addSlotHistory
  split
  · exact .refl s
  · exact Store.noteAddition_journal _ _

theorem withdraw_journal (i : SlotIndex) (outcome : Settled) (s : State) : SameJournal s (withdraw i outcome s) := by
  unfold withdraw
  split
  · exact .refl s
  · refine SameJournal.trans (SameJournal.trans ?_ (addSlotHistory_journal ..)) (.outside (postSlot_keeps ..).frame)
    exact (SameJournal.outside (leavePresentation_keeps i).frame).trans (.refl _)

theorem acknowledge_journal (source : AckSource) (i : SlotIndex) (s : State) :
    SameJournal s (acknowledge source i s) := by
  unfold acknowledge
  split
  · exact .refl s
  · extract_lets now delay u v
    have hv : SameJournal s v := SameJournal.trans (SameJournal.trans
      ((SameJournal.outside (leavePresentation_keeps i).frame).trans (.refl u)) (addSlotHistory_journal ..))
      (.outside (postSlot_keeps ..).frame)
    split
    · exact hv.trans (.outside (requestReceipt_keeps ..).frame)
    · exact hv

theorem acknowledgeAll_journal (source : AckSource) (l : List SlotIndex) (s : State) :
    SameJournal s (acknowledgeAll source l s) := by
  induction l generalizing s with
  | nil => exact .refl s
  | cons i l ih => exact (acknowledge_journal source i s).trans (ih _)

theorem endPredecessor_journal (i : SlotIndex) (s : State) : SameJournal s (endPredecessor i s) := by
  unfold endPredecessor
  split
  · exact .refl s
  · rename_i p _
    extract_lets u
    refine SameJournal.trans (u := u) ?_ (.refl u)
    show SameJournal s (match stateAt s p with
      | some .done => freeSlot p (dropSlotEntry p s)
      | some st => if st.withdrawable then freeSlot p (withdraw p .superseded s) else s
      | none => s)
    split
    · exact .refl s
    · split
      · exact (withdraw_journal p .superseded s).trans (.refl _)
      · exact .refl s
    · exact .refl s

theorem becomeQueued_journal (i : SlotIndex) (isPartial : Bool) (s : State) : SameJournal s (becomeQueued i isPartial s) :=
  (SameJournal.refl s).trans (endPredecessor_journal i _)

theorem acceptLead_journal (i : SlotIndex) (s : State) : SameJournal s (acceptLead i s) := by
  unfold acceptLead
  split
  · exact .refl s
  · extract_lets lead u
    have hu : SameJournal s u := .refl s
    split
    · refine hu.trans ?_
      unfold applyCancel
      split
      · exact .refl u
      · refine SameJournal.trans ?_ (Store.noteAddition_journal _ _)
        unfold cancelOther
        split
        · exact .refl u
        · split
          · exact withdraw_journal ..
          · exact .refl u
    · split
      · refine hu.trans ?_
        unfold admitSlot
        extract_lets now v
        have hv : SameJournal u v := (SameJournal.refl u).trans (u := modSlot i _ u) (.outside (postSlot_keeps ..).frame)
        split
        · exact hv.trans (becomeQueued_journal ..)
        · exact hv
      · refine hu.trans ?_
        unfold rejectSlot
        split
        · exact .refl u
        · exact (show SameJournal u (addHistory _ u) from Store.noteAddition_journal _ _).trans
            ((SameJournal.outside (postSlot_keeps ..).frame).trans (.refl _))

theorem reportAcceptance_journal (i : SlotIndex) (index : Nat) (s : State) : SameJournal s (reportAcceptance i index s) := by
  unfold reportAcceptance
  extract_lets u
  have hu : SameJournal s u := by
    show SameJournal s (if _ then _ else _)
    split <;> exact .refl s
  refine hu.trans ?_
  split
  · exact .refl u
  · split
    · split
      · exact acceptLead_journal ..
      · exact .refl u
    · split
      · exact becomeQueued_journal ..
      · exact .refl u
    all_goals
      split
      · exact .outside (postSlot_keeps ..).frame
      · exact .refl u

theorem takeSlotExpiry_journal (i : SlotIndex) (s : State) : SameJournal s (takeSlotExpiry i s) := by
  unfold takeSlotExpiry
  split
  · exact .refl s
  · split
    · exact .refl s
    · exact ((addSlotHistory_journal ..).trans (.outside (postSlot_keeps ..).frame)).trans (.refl _)
    · exact (withdraw_journal i .expired s).trans (.refl _)
    · exact (withdraw_journal i .expired s).trans (.refl _)
    · exact (withdraw_journal i .expired s).trans (.refl _)
    · exact (withdraw_journal i .expired s).trans (.refl _)
    · exact .refl s

theorem takeSlotExpiries_journal (l : List SlotIndex) (s : State) : SameJournal s (takeSlotExpiries l s) := by
  induction l generalizing s with
  | nil => exact .refl s
  | cons i l ih =>
    refine SameJournal.trans ?_ (ih _)
    split
    · exact takeSlotExpiry_journal i s
    · exact .refl s

theorem takeReached_journal (s : State) : SameJournal s (takeReached s) :=
  ((SameJournal.outside pruneHistory_keeps.frame).trans (takeSlotExpiries_journal ..)).trans
    (.outside dropStale_keeps.frame)

end Sys2Proof.Machine
end

