-- ==== Sys2Proof/Tests/Slice0.lean ====
section
/-! SUPPORT. Tests: the smoke tests of WellFormed, the worked cases of the spec, one small step each for the commands,
and for every statement with hypotheses a witness that meets them. -/

namespace Sys2Proof.Tests

-- Checked one declaration at a time, so that the package as one text keeps within its memory limit.
set_option Elab.async false

open Sys2Proof.Machine

/-! ## WellFormed refuses an ill-formed term of each check -/

theorem test_no_octets_arrive : Instr.wellFormed (.modemFrameArrival []) = false ∧ Instr.wellFormed (.hostFrameArrival []) = false := by decide
theorem test_octets_arrive : Instr.wellFormed (.modemFrameArrival [⟨0, false⟩]) = true ∧ Instr.wellFormed (.hostFrameArrival [⟨0, false⟩]) = true := by decide
theorem test_sheet_index_range : Instr.wellFormed (.holdExpiry 15 12) = false ∧ Instr.wellFormed (.holdExpiry 15 11) = true := by decide
theorem test_position_range : Instr.wellFormed (.eraseAttempt [(128, 1)]) = false ∧ Instr.wellFormed (.eraseAttempt [(127, 1)]) = true := by decide

/-! ## Worked cases of the spec -/

/-- R22: the CRC of the nine octets 0x31 to 0x39 is 0x29B1. -/
theorem test_crc_reference : crc16 [0x31, 0x32, 0x33, 0x34, 0x35, 0x36, 0x37, 0x38, 0x39] = 0x29B1 := by decide +kernel
/-- R100: the octets 0x11 to 0x77 give a check octet of 0x79, and all 0xFF gives 0x5C. -/
theorem test_check_octet : checkOctet 0x11223344556677 = 0x79 ∧ checkOctet (BitVec.allOnes 56) = 0x5C := by decide
/-- 10 section 10.2, the worked case of the dispersal delay. -/
theorem test_dispersal_delay :
    dispersalHash 0x00031A2B ⟨17, 402⟩ 1 = 41118 ∧ dispersalDelay 0x00031A2B ⟨17, 402⟩ 1 18 = 112 ∧
    dispersalDelay 0x00031A2B ⟨17, 402⟩ 1 255 = 1599 ∧ dispersalHash 0x00031A2B ⟨17, 402⟩ 2 = 41119 ∧
    dispersalDelay 0x00031A2B ⟨17, 402⟩ 2 18 = 112 ∧ dispersalDelay 0x00031A2B ⟨17, 402⟩ 1 0 = 0 := by decide

/-- 02 section 2.2, the worked sequences at one position. -/
theorem test_vote_disagreement :
    ([⟨0x5A, 7⟩, ⟨0x52, 4⟩, ⟨0x52, 1⟩, ⟨0x52, 12⟩, ⟨0x5A, 15⟩, ⟨0x52, 9⟩, ⟨0x5A, 0⟩, ⟨0x52, 0⟩] : List Pair).foldl votePosition ⟨0x52, 3⟩
      = ⟨0x52, 7⟩ ∧
    votePosition ⟨0x5A, 4⟩ ⟨0x52, 4⟩ = ⟨0x5A, 0⟩ ∧ votePosition ⟨0x5A, 0⟩ ⟨0x52, 1⟩ = ⟨0x52, 1⟩ := by decide
theorem test_vote_saturation :
    ([⟨0xC4, 9⟩, ⟨0xC4, 15⟩] : List Pair).foldl votePosition ⟨0xC4, 58⟩ = ⟨0xC4, 63⟩ ∧
    ([⟨0x44, 15⟩, ⟨0xC4, 10⟩] : List Pair).foldl votePosition ⟨0xC4, 63⟩ = ⟨0xC4, 58⟩ := by decide

/-- 04 section 4.1, the zone overlap examples. -/
theorem test_zone_overlap :
    Zone.overlaps ⟨3, #v[2, 5, 1, 0, 0, 0]⟩ ⟨5, #v[2, 5, 1, 4, 0, 0]⟩ = true ∧
    Zone.overlaps ⟨5, #v[2, 5, 1, 4, 0, 0]⟩ ⟨3, #v[2, 5, 1, 0, 0, 0]⟩ = true ∧
    Zone.overlaps ⟨3, #v[2, 5, 1, 0, 0, 0]⟩ ⟨3, #v[2, 5, 0, 0, 0, 0]⟩ = false ∧
    Zone.overlaps ⟨2, #v[2, 5, 0, 0, 0, 0]⟩ ⟨4, #v[2, 6, 1, 1, 0, 0]⟩ = false ∧
    Zone.overlaps ⟨0, #v[1, 1, 1, 1, 1, 1]⟩ ⟨6, #v[7, 7, 7, 7, 7, 7]⟩ = true ∧
    Zone.overlaps ⟨7, #v[1, 0, 3, 3, 2, 6]⟩ ⟨6, #v[1, 0, 3, 3, 2, 6]⟩ = true ∧
    Zone.overlaps ⟨1, #v[4, 6, 6, 6, 6, 6]⟩ ⟨2, #v[4, 1, 0, 0, 0, 0]⟩ = true := by decide

/-- R188: a zone code, a key and a sheet header read from their bits, most significant first. -/
theorem test_octet_layouts :
    zoneAt [0x6A, 0x20, 0x00] 0 = ⟨3, #v[2, 4, 2, 0, 0, 0]⟩ ∧ zoneOctets ⟨3, #v[2, 4, 2, 0, 0, 0]⟩ = [0x6A, 0x20, 0x00] ∧
    keyAt [0x08, 0x86, 0x48] 0 = ⟨17, 402⟩ ∧ keyOctets ⟨17, 402⟩ = [0x08, 0x86, 0x48] ∧
    (copyOf [0x12, 0x34, 0x08, 0x86, 0x48, 0x50, 2, 3, 0xAA, 9]).key = ⟨17, 402⟩ ∧
    (copyOf [0x12, 0x34, 0x08, 0x86, 0x48, 0x50, 2, 3, 0xAA, 9]).revision = 1 ∧
    (copyOf [0x12, 0x34, 0x08, 0x86, 0x48, 0x50, 2, 3, 0xAA, 9]).cls = 2 := by decide

/-! ## Small states -/

/-- Hardware reset with the reload done: the store is IDLE. -/
def base : State := { State.reset with store := { State.reset.store with state := .idle } }
/-- The same with the clock set, at uptime 1000. -/
def late : State := { base with time := ⟨1000, 5000, true⟩ }
def key1 : Key := ⟨17, 402⟩
def key2 : Key := ⟨17, 403⟩

/-- 46 octets with the two check octets that make the sheet check hold. -/
def withCheck (l : List Octet) : List Octet :=
  let c := crc16 l
  l ++ [c.extractLsb' 8 8, c.extractLsb' 0 8]
/-- The 48 octets of a sheet 0: validity 60 minutes, these flags, and this many zones of level 0. -/
def leadValues (flags zones : Octet) : List Octet := withCheck ([0, 60, flags, 1, 0, zones] ++ List.replicate 40 0)
def bufferOf (l : List Octet) (score : Nat) : Buffer := tabulate 48 fun i => ⟨octetAt l i, score⟩
def leadBuffer (flags zones : Octet) (score : Nat) : Buffer := bufferOf (leadValues flags zones) score

def accepted (flags zones : Octet) : SheetRecord := ⟨.accepted, some (leadBuffer flags zones 6), 1, some 6, some 7, none, false⟩
def held (deadline : Nat) : SheetRecord := ⟨.held, some (leadBuffer 0 0 5), 1, some 5, some 7, some deadline, false⟩

/-- A GATHERING slot of one sheet. -/
def gathering (key : Key) (revision : BitVec 4) (cls : BitVec 3) (r : List SheetRecord) : Slot where
  state := .gathering
  key := key
  revision := revision
  cls := cls
  sheets := r
  lead := none
  leadCell := none
  firstCopy := 900
  lastActivity := 900
  gatherDeadline := some 1000
  admission := none
  assemblyDeadline := none
  expiry := none
  firstPresentation := none
  doneTime := none
  isPartial := false
  reminders := 0
  ack := none
  predecessor := none
  withdrawal := none
/-- The slot admitted at uptime 910, with a wall expiry. -/
def admitted (key : Key) (revision : BitVec 4) (cls : BitVec 3) (r : List SheetRecord) : Slot :=
  { gathering key revision cls r with
    state := .admitted
    lead := some (leadOf (leadValues 0 0))
    leadCell := some 7
    gatherDeadline := none
    admission := some 910
    assemblyDeadline := some 1000
    expiry := some ⟨.wall, 5000⟩ }
/-- The slot past ADMITTED, in this state. -/
def settledSlot (st : SlotState) (key : Key) (revision : BitVec 4) (cls : BitVec 3) (r : List SheetRecord) : Slot :=
  { admitted key revision cls r with
    state := st
    assemblyDeadline := none
    firstPresentation := if st = .queued then none else some 950
    doneTime := if st = .done then some 990 else none
    ack := if st = .done then some ⟨990, .key, 40⟩ else none }

def slotsAt (l : List (SlotIndex × Slot)) (s : State) : State := l.foldl (fun s p => putSlot p.1 (some p.2) s) s

/-- A SHEET payload: cell 7, this key, revision and class, sheet index and count, and values all of one confidence. -/
def sheetPayload (key : Key) (revision : BitVec 4) (cls : BitVec 3) (index count : Octet) (l : List Octet)
    (confidence : Octet) : List Octet :=
  let w : BitVec 32 := key.issuer ++ key.number ++ revision ++ cls ++ (0 : BitVec 3)
  [0, 7, w.extractLsb' 24 8, w.extractLsb' 16 8, w.extractLsb' 8 8, w.extractLsb' 0 8, index, count] ++
    (l.map fun v => [v, confidence]).flatten
def sheetFrame (key : Key) (revision : BitVec 4) (cls : BitVec 3) (index count : Octet) : Frame :=
  ⟨kindSheet, sheetPayload key revision cls index count (leadValues 0 0) 15⟩
/-- The frame is the oldest of the FIFO. -/
def offered (f : Frame) (s : State) : State := { s with modem := { s.modem with fifo := [f] } }
/-- The request is the oldest frame of staging. -/
def requested (f : Frame) (s : State) : State := { s with host := { s.host with staging := [f] } }

theorem frameReady (kind : Octet) (f : Frame) (s : State) (h : s.lines.resetLow = false := by rfl)
    (l : s.store.state ≠ .loading := by decide) (k : f.kind = kind := by rfl) : FrameReady kind f [] (offered f s) := ⟨h, l, rfl, k⟩
theorem requestReady (kind : Octet) (f : Frame) (s : State) (h : s.lines.resetLow = false := by rfl)
    (r : s.host.reply = none := by rfl) (k : f.kind = kind := by rfl) : RequestReady kind f [] (requested f s) := ⟨h, r, rfl, k⟩

/-! ## Witnesses: the machine as a whole -/

theorem witness_StepRunsTheFrontCommand : ({ base with pending := [.sheet, .cell] } : State).pending = .sheet :: [.cell] := rfl
theorem witness_EmptyQueueIsOneToneClockPeriod : base.pending = [] := rfl
theorem witness_NothingHappensWhileResetIsLow :
    ({ base with lines := ⟨true, true⟩ } : State).lines.resetLow = true ∧ Instr.sheet ≠ .resetRelease := by decide

def queuedReceipt (attempts : Nat) (inFlight : Bool) (e : Expiry) : Receipt :=
  ⟨key1, 2, .presented, 9, 7, 0, e, false, 1000, attempts, inFlight, 0⟩
def flying (r : Receipt) (s : State) : State := { s with receipts := ⟨[r], some 1000, some 0, 1, 1⟩ }

/-- A slot SOUNDING with its cycle, a slot QUEUED behind it, a successor of the first GATHERING, a receipt IN_FLIGHT and
a persisted history entry. -/
def rich : State :=
  { flying (queuedReceipt 0 true ⟨.wall, 5000⟩) (slotsAt [(0, settledSlot .sounding key1 2 2 [accepted 0 0]),
      (1, settledSlot .queued key2 1 2 [accepted 0 0]),
      (2, { gathering key1 3 2 [held 1010] with predecessor := some 0 })] late) with
    pending := [.segmentBoundary]
    history := [⟨⟨1, 1⟩, 1, .presented, ⟨.wall, 6000⟩, true⟩]
    pres := ⟨[1], [], some 0, none, none⟩
    cycle := some ⟨.slot 0, 2, Cadences.atReset.rank2, ⟨36, 36⟩, ⟨30, 30⟩, 12, 1, 0, 1200, false, 0⟩ }

theorem accepted_wf : (accepted 0 0).wf where
  buffer := ⟨nofun, nofun⟩
  deadline := ⟨nofun, nofun⟩
  copies := by decide
  margin := by intro m h; cases h; decide
  scores := by intro b h; cases h; decide +kernel
  check := by intro b h; cases h; exact ⟨fun _ => .inr rfl, fun _ => by decide +kernel⟩
  onHold := nofun
theorem held_wf (d : Nat) : (held d).wf where
  buffer := ⟨nofun, nofun⟩
  deadline := ⟨fun _ => rfl, fun _ => rfl⟩
  copies := by show 1 ≤ 255; decide
  margin := by intro m h; cases h; decide
  scores := by intro b h; cases h; decide +kernel
  check := by intro b h; cases h; exact ⟨fun _ => .inl rfl, fun _ => by decide +kernel⟩
  onHold := nofun

theorem rich_occupied : ∀ j : SlotIndex, j = 0 ∨ j = 1 ∨ j = 2 ∨ slotOf rich j = none := by decide +kernel
theorem rich_slot {j : SlotIndex} {x : Slot} (h : slotOf rich j = some x) :
    (j = 0 ∧ x = settledSlot .sounding key1 2 2 [accepted 0 0]) ∨ (j = 1 ∧ x = settledSlot .queued key2 1 2 [accepted 0 0]) ∨
    (j = 2 ∧ x = { gathering key1 3 2 [held 1010] with predecessor := some 0 }) := by
  rcases rich_occupied j with rfl | rfl | rfl | e
  · exact .inl ⟨rfl, (Option.some.inj h).symm⟩
  · exact .inr (.inl ⟨rfl, (Option.some.inj h).symm⟩)
  · exact .inr (.inr ⟨rfl, (Option.some.inj h).symm⟩)
  · rw [e] at h; cases h

theorem rich_fields : FieldsOk rich := by
  intro i x h
  rcases rich_slot h with ⟨-, rfl⟩ | ⟨-, rfl⟩ | ⟨-, rfl⟩ <;> constructor <;> decide
theorem rich_keys : KeyLaw rich where
  pair := by
    intro i j x y n hx hy k
    rcases rich_slot hx with ⟨rfl, rfl⟩ | ⟨rfl, rfl⟩ | ⟨rfl, rfl⟩ <;>
      rcases rich_slot hy with ⟨rfl, rfl⟩ | ⟨rfl, rfl⟩ | ⟨rfl, rfl⟩ <;> revert n k <;> decide
  succ := by
    intro i j x hx p
    rcases rich_slot hx with ⟨rfl, rfl⟩ | ⟨rfl, rfl⟩ | ⟨rfl, rfl⟩
    · cases p
    · cases p
    · cases p; exact ⟨rfl, _, rfl, by decide⟩
theorem rich_presentation : PresWf rich where
  queueNodup := by decide
  pendingNodup := by decide
  queue := by decide +kernel
  pending := by decide +kernel
  active := by decide +kernel
  sounding := by decide +kernel
  preview := by decide
  alone := by decide
  shown := by decide +kernel
  sorted := by decide
theorem rich_settled : PresSettled rich where
  none := by decide
  sounding := by decide +kernel
  shown := by decide +kernel
theorem rich_receipts : rich.receipts.wf := by constructor <;> decide
theorem rich_ok : rich.ok where
  held := fun h => nomatch h
  blocks :=
    { modem := by constructor <;> trivial
      slots := by
        intro x h
        have : x = settledSlot .sounding key1 2 2 [accepted 0 0] ∨ x = settledSlot .queued key2 1 2 [accepted 0 0] ∨
            x = { gathering key1 3 2 [held 1010] with predecessor := some 0 } := by
          obtain ⟨n, hn, e⟩ := List.getElem_of_mem h
          have hn' : n < 16 := by simpa using hn
          rcases rich_slot (j := ⟨n, hn'⟩) (x := x) (by rw [← e]; simp [slotOf]) with ⟨-, e⟩ | ⟨-, e⟩ | ⟨-, e⟩ <;> simp [e]
        rcases this with rfl | rfl | rfl <;> refine ⟨by decide, by decide, ?_⟩ <;> intro r hr <;>
          rcases List.mem_singleton.mp hr with rfl
        · exact accepted_wf
        · exact accepted_wf
        · exact held_wf 1010
      pool := by
        refine ⟨by decide +kernel, ?_⟩
        have : (rich.slots.toList.all fun o => o.all fun x => decide (1 ≤ x.buffers)) = true := by decide +kernel
        intro x h
        simpa using List.all_eq_true.mp this _ h
      location := by show 0 ≤ 4; decide
      time := by constructor <;> decide
      history := by constructor <;> decide
      store := by constructor <;> first | decide | nofun
      settings := by repeat' constructor <;> first | decide | (show ∀ g ∈ _, 1 ≤ Segment.length g ∧ g.length ≤ 255; decide) | skip
      cycle := by
        intro c h
        cases h
        refine ⟨⟨by decide, by decide, by show ∀ g ∈ _, 1 ≤ Segment.length g ∧ g.length ≤ 255; decide⟩, ⟨by decide, by decide, by decide, by decide⟩, ⟨by decide, by decide, by decide, by decide⟩, by decide, by decide, ?_, by decide⟩
        intro g h; cases h; decide
      keys := by constructor <;> decide
      receipts := rich_receipts
      events := by constructor <;> first | decide | nofun
      host := by constructor <;> trivial }

theorem witness_EveryStepKeepsEveryBlock : rich.ok ∧ ∃ t, step rich = .next t := ⟨rich_ok, _, rfl⟩
theorem witness_EveryStepSettlesPresentation : PresWf rich ∧ PresSettled rich ∧ ∃ t, step rich = .next t :=
  ⟨rich_presentation, rich_settled, _, rfl⟩
theorem witness_EveryStepKeepsTheKeyLaw :
    PresWf rich ∧ PresSettled rich ∧ KeyLaw rich ∧ ∃ t, step rich = .next t :=
  ⟨rich_presentation, rich_settled, rich_keys, _, rfl⟩
theorem witness_EveryStepLeavesTheIdleStoreWithoutWork : StoreSettled rich ∧ ∃ t, step rich = .next t :=
  ⟨fun _ => by decide, _, rfl⟩
theorem witness_EveryStepKeepsTheSlotFields :
    rich.ok ∧ PresWf rich ∧ PresSettled rich ∧ FieldsOk rich ∧ ∃ t, step rich = .next t :=
  ⟨rich_ok, rich_presentation, rich_settled, rich_fields, _, rfl⟩
theorem witness_OnlyStoreOperationsChangeTheJournal : exec .handoff base = .next base := rfl
theorem witness_ASheetIsCountedAtMostOnce : exec .sheet base = .next base := rfl

/-! ## Witnesses: the links and intake -/

def lineOf (l : List Octet) : List RxOctet := l.map fun v => ⟨v, false⟩
/-- Both receivers inside a frame. -/
def inside (got : List Octet) (s : State) : State :=
  { s with modem := { s.modem with rx := .inside got false }, host := { s.host with rx := .inside got false } }

theorem witness_ModemFrameArrivalDecides : base.lines.resetLow = false ∧ base.modem.rx = .waiting ∧
    (∀ payload ∈ [[7], List.replicate 250 (7 : Octet)], 1 ≤ payload.length ∧ payload.length ≤ 250 ∧
      (lineOf (0xC3 :: 0x53 :: octet payload.length :: payload ++ [1, 2])).map (·.value) =
        0xC3 :: 0x53 :: octet payload.length :: payload ++ [1, 2]) ∧
    ∀ n ∈ [(0 : Octet), 251, 255], (n.toNat = 0 ∨ 250 < n.toNat) ∧
      (lineOf [0xC3, 0x53, n]).map (·.value) = [0xC3, 0x53, n] := by decide +kernel
theorem witness_HostFrameArrivalDecides : base.lines.resetLow = false ∧ base.host.rx = .waiting ∧
    (∀ payload ∈ [[7], List.replicate 250 (7 : Octet)], 1 ≤ payload.length ∧ payload.length ≤ 250 ∧
      (lineOf (0xC3 :: 0x01 :: octet payload.length :: payload ++ [1, 2])).map (·.value) =
        0xC3 :: 0x01 :: octet payload.length :: payload ++ [1, 2]) ∧
    ∀ n ∈ [(0 : Octet), 251, 255], (n.toNat = 0 ∨ 250 < n.toNat) ∧
      (lineOf [0xC3, 0x01, n]).map (·.value) = [0xC3, 0x01, n] := by decide +kernel
theorem witness_IdleLinesAndStartOctets :
    (base.lines.resetLow = false ∧ base.modem.rx = .waiting ∧ base.host.rx = .waiting) ∧
    ∀ got ∈ [[(0x53 : Octet), 1], [0x53, 1, 7], [0x51, 250]], (inside got base).lines.resetLow = false ∧
      (inside got base).modem.rx = .inside got false ∧ (inside got base).host.rx = .inside got false ∧
      2 ≤ got.length ∧ 1 ≤ natAt got 1 ∧ natAt got 1 ≤ 250 ∧ got.length + 1 < natAt got 1 + 4 := by decide
/-- What one command leaves. -/
def after (i : Instr) (s : State) : State :=
  match exec i s with
  | .next t => t
  | .fault _ => s
  | .refused _ => s
/-- R2, R175: a CHANNEL STATE frame with the check of R22 is taken; the same frame with a bad stop bit is not. -/
theorem test_frame_arrival :
    (after (.modemFrameArrival (lineOf (frameOctets ⟨0x53, [3]⟩))) base).modem.fifo = [⟨0x53, [3]⟩] ∧
    (after (.modemFrameArrival ((lineOf (frameOctets ⟨0x53, [3]⟩)).map fun o => { o with badStop := true })) base).modem.frameErrors
      = 1 := by decide +kernel

/-- The fields of the copy that intake tests. -/
abbrev sane (f : Frame) : Prop := let c := copyOf f.payload; 1 ≤ c.count ∧ c.count ≤ 12 ∧ c.index < c.count
abbrev wanted (f : Frame) (s : State) : Prop :=
  let c := copyOf f.payload; c.cls = 0 ∨ s.settings.profile.muteMask.getLsbD c.cls.toNat = false
def entry (key : Key) (revision : BitVec 4) : HistoryEntry := ⟨key, revision, .presented, ⟨.wall, 5000⟩, false⟩

theorem witness_IntakeDiscardsInOrder :
    (∀ f ∈ [sheetFrame key1 1 2 0 0, sheetFrame key1 1 2 0 13, sheetFrame key1 1 2 3 3],
      FrameReady kindSheet f [] (offered f late) ∧
      ¬ (1 ≤ (copyOf f.payload).count ∧ (copyOf f.payload).count ≤ 12 ∧ (copyOf f.payload).index < (copyOf f.payload).count)) ∧
    (let f := sheetFrame key1 1 7 11 12
     FrameReady kindSheet f [] (offered f late) ∧ sane f ∧ ¬ wanted f (offered f late)) ∧
    (let f := sheetFrame key1 1 2 0 1
     let s := offered f { late with history := [entry key1 1] }
     FrameReady kindSheet f [] s ∧ sane f ∧ wanted f s ∧
       ∃ h ∈ s.history, h.key = (copyOf f.payload).key ∧ (copyOf f.payload).revision.toNat ≤ h.revision.toNat) := by
  refine ⟨?_, ?_, ?_⟩
  · intro f hf
    refine ⟨⟨rfl, nofun, rfl, ?_⟩, ?_⟩
    · rcases (by simpa using hf : _ ∨ _ ∨ _) with rfl | rfl | rfl <;> rfl
    · revert f; decide +kernel
  · exact ⟨frameReady .., by decide +kernel, by decide +kernel⟩
  · exact ⟨frameReady .., by decide +kernel, by decide +kernel, by decide +kernel⟩

theorem passes {f : Frame} {s : State} (h : sane f ∧ wanted f s ∧
    ∀ h ∈ s.history, h.key = (copyOf f.payload).key → h.revision.toNat < (copyOf f.payload).revision.toNat) :
    CopyPasses (copyOf f.payload) s := ⟨h.1.1, h.1.2.1, h.1.2.2, h.2.1, h.2.2⟩

/-! ## Witnesses: the table's decision. `∀ y ∈ slotOf s j, p` says `p` of slot `j`'s record, when it has one. -/

/-- QUEUED slots 0 to 2 of other keys with 36 buffers, and this slot 3. -/
def crowdWith (y : Slot) : State :=
  slotsAt ((3, y) :: [0, 1, 2].map fun i =>
    (i, settledSlot .queued ⟨1, BitVec.ofNat 13 i.val⟩ 1 0 (List.replicate 12 (accepted 0 0)))) late
/-- A fourth QUEUED slot, of `n` buffers. -/
def crowd (n : Nat) : State := crowdWith (settledSlot .queued ⟨1, 3⟩ 1 0 (List.replicate n (accepted 0 0)))
def copy1 (revision : BitVec 4) : Frame := sheetFrame key1 revision 2 1 2
def queued1 (revision : BitVec 4) : Slot := settledSlot .queued key1 revision 2 [accepted 0 0]
/-- Sixteen QUEUED slots of other keys, but for this slot 5. -/
def full (y : Slot) : State :=
  slotsAt (allSlots.map fun i =>
    (i, if i = 5 then y else settledSlot .queued ⟨1, BitVec.ofNat 13 i.val⟩ 1 0 [accepted 0 0])) late
/-- `OpensFor`, with the two cases as a decision over the sixteen slots. -/
theorem opensNew {c : Copy} {s : State} (h : ∀ j, ∀ y ∈ slotOf s j, y.key ≠ c.key) : OpensFor c s none := .inl ⟨rfl, h⟩
theorem opensSuccessor {c : Copy} {s : State} {j : SlotIndex} {x : Slot} (hx : slotOf s j = some x)
    (h : x.key = c.key ∧ x.revision.toNat < c.revision.toNat ∧
      (x.state = .queued ∨ x.state = .sounding ∨ x.state = .shown ∨ x.state = .pending ∨ x.state = .done) ∧
      ∀ k, ∀ y ∈ slotOf s k, k ≠ j → y.key ≠ c.key) : OpensFor c s (some j) :=
  .inr ⟨j, x, rfl, hx, h.1, h.2.1, h.2.2.1, fun k y n hy => h.2.2.2 k y hy n⟩

/-- The hypotheses for a copy of class 2 that opens slot `i`. -/
abbrev opening (f : Frame) (s t u : State) (i : SlotIndex) (existing : Option SlotIndex) : Prop :=
  FrameReady kindSheet f [] s ∧ CopyPasses (copyOf f.payload) s ∧ OpensFor (copyOf f.payload) s existing ∧
  SlotAtHand (rankOfClass (copyOf f.payload).cls) (withFifo [] s) t ∧ slotOf t i = none ∧ (∀ j, j < i → slotOf t j ≠ none) ∧
  BufferAtHand (rankOfClass (copyOf f.payload).cls) i t u
theorem witness_SheetOpensASlotOrASuccessor :
    (let t := withFifo [] (offered (copy1 1) (crowd 11))
     opening (copy1 1) (offered (copy1 1) (crowd 11)) t t 4 none ∧ buffersUsed t = 47) ∧
    (let t := withFifo [] (offered (copy1 2) (slotsAt [(0, queued1 1)] late))
     opening (copy1 2) (offered (copy1 2) (slotsAt [(0, queued1 1)] late)) t t 1 (some 0)) ∧
    (let s := offered (copy1 1) (full (settledSlot .done key2 1 2 [accepted 0 0]))
     opening (copy1 1) s (reclaim 5 (withFifo [] s)) (reclaim 5 (withFifo [] s)) 5 none) ∧
    (let s := offered (copy1 2) (crowdWith (settledSlot .done key1 1 2 (List.replicate 12 (accepted 0 0))))
     opening (copy1 2) s (withFifo [] s) (reclaim 3 (withFifo [] s)) 4 (some 3) ∧ buffersUsed s = 48 ∧
     slotOf (reclaim 3 (withFifo [] s)) 3 = none) :=
  ⟨⟨⟨frameReady .., passes (by decide +kernel), opensNew (by decide +kernel), .inl ⟨⟨4, rfl⟩, rfl⟩, rfl, by decide +kernel,
      .inl ⟨by decide +kernel, rfl⟩⟩, by decide +kernel⟩,
   ⟨frameReady .., passes (by decide +kernel), opensSuccessor rfl (by decide +kernel), .inl ⟨⟨1, rfl⟩, rfl⟩, rfl,
      by decide +kernel, .inl ⟨by decide +kernel, rfl⟩⟩,
   ⟨frameReady .., passes (by decide +kernel), opensNew (by decide +kernel),
      .inr ⟨by decide +kernel, 5, by decide +kernel, rfl⟩, by decide +kernel, by decide +kernel, .inl ⟨by decide +kernel, rfl⟩⟩,
   ⟨frameReady .., passes (by decide +kernel), opensSuccessor (j := 3) rfl (by decide +kernel), .inl ⟨⟨4, rfl⟩, rfl⟩, rfl,
      by decide +kernel, .inr ⟨by decide +kernel, 3, by decide +kernel, rfl⟩⟩, by decide +kernel, by decide +kernel⟩

theorem witness_SheetRestartsASlotInPlace : ∀ st ∈ [SlotState.gathering, .admitted],
    let x := { admitted key1 2 2 [accepted 0 0] with state := st, predecessor := some 1 }
    let s := offered (copy1 3) (slotsAt [(0, x), (1, settledSlot .done key1 1 2 [accepted 0 0])] late)
    FrameReady kindSheet (copy1 3) [] s ∧ CopyPasses (copyOf (copy1 3).payload) s ∧
    slotOf s 0 = some x ∧ x.key = (copyOf (copy1 3).payload).key ∧
    x.revision.toNat < (copyOf (copy1 3).payload).revision.toNat ∧ x.state.assembling = true ∧
    ∀ j, ∀ y ∈ slotOf s j, j ≠ 0 → y.key = (copyOf (copy1 3).payload).key →
      y.revision.toNat < (copyOf (copy1 3).payload).revision.toNat ∧ y.state.assembling = false := by
  intro st h x s
  refine ⟨⟨rfl, nofun, rfl, rfl⟩, passes ?_, rfl, ?_⟩ <;> revert st <;> decide +kernel

/-- The hypotheses for a copy that reaches record `r` of slot `i`. -/
abbrev reaching (f : Frame) (s : State) (i : SlotIndex) (x : Slot) (r : SheetRecord) : Prop :=
  slotOf s i = some x ∧ x.key = (copyOf f.payload).key ∧ x.revision = (copyOf f.payload).revision ∧
  x.sheets.length = (copyOf f.payload).count ∧ x.sheets[(copyOf f.payload).index]? = some r ∧
  ∀ j, ∀ y ∈ slotOf s j, j ≠ i → y.key = (copyOf f.payload).key → y.revision ≠ (copyOf f.payload).revision
theorem witness_SheetReachesTheSlotOfItsRevision :
    (∀ r ∈ [held 1010, .atCreation, accepted 0 0],
      let x := gathering key1 1 2 [held 1010, r]
      let s := offered (copy1 1) (slotsAt [(0, x), (1, settledSlot .done key1 0 2 [accepted 0 0])] late)
      FrameReady kindSheet (copy1 1) [] s ∧ CopyPasses (copyOf (copy1 1).payload) s ∧ reaching (copy1 1) s 0 x r ∧
      buffersUsed s < 48) ∧
    (let x := { gathering key1 1 2 [held 1010, .atCreation] with predecessor := some 3 }
     let y := settledSlot .done key1 0 2 (List.replicate 11 (accepted 0 0))
     let s := offered (copy1 1) (putSlot 4 (some x) (crowdWith y))
     FrameReady kindSheet (copy1 1) [] s ∧ CopyPasses (copyOf (copy1 1).payload) s ∧ reaching (copy1 1) s 4 x .atCreation ∧
     SheetRecord.atCreation.state = .empty ∧ 48 ≤ buffersUsed s ∧ victim s x.rank (some 4) = some 3) := by
  refine ⟨?_, frameReady .., passes (by decide +kernel), by decide +kernel⟩
  intro r h x s
  refine ⟨⟨rfl, nofun, rfl, rfl⟩, passes ?_, ?_⟩ <;> revert r <;> decide +kernel

theorem witness_TableDiscards :
    (let x := gathering key1 1 2 [held 1010]
     let s := offered (copy1 1) (slotsAt [(0, x)] late)
     FrameReady kindSheet (copy1 1) [] s ∧ CopyPasses (copyOf (copy1 1).payload) s ∧
     slotOf s 0 = some x ∧ x.key = (copyOf (copy1 1).payload).key ∧ x.revision = (copyOf (copy1 1).payload).revision ∧
     (∀ j, ∀ y ∈ slotOf s j, j ≠ 0 → y.key = (copyOf (copy1 1).payload).key → y.revision ≠ (copyOf (copy1 1).payload).revision) ∧
     x.sheets.length ≠ (copyOf (copy1 1).payload).count) ∧
    (let x := gathering key1 1 2 [held 1010, .atCreation]
     let s := offered (copy1 1) (putSlot 4 (some x) (crowd 11))
     FrameReady kindSheet (copy1 1) [] s ∧ CopyPasses (copyOf (copy1 1).payload) s ∧
     slotOf s 4 = some x ∧ x.key = (copyOf (copy1 1).payload).key ∧ x.revision = (copyOf (copy1 1).payload).revision ∧
     (∀ j, ∀ y ∈ slotOf s j, j ≠ 4 → y.key = (copyOf (copy1 1).payload).key → y.revision ≠ (copyOf (copy1 1).payload).revision) ∧
     x.sheets.length = (copyOf (copy1 1).payload).count ∧ x.sheets[(copyOf (copy1 1).payload).index]? = some .atCreation ∧
     48 ≤ buffersUsed s ∧ victim s x.rank (some 4) = none) ∧
    (let s := offered (copy1 1) (slotsAt [(0, queued1 2)] late)
     FrameReady kindSheet (copy1 1) [] s ∧ CopyPasses (copyOf (copy1 1).payload) s ∧
     (∀ j, ∀ y ∈ slotOf s j, y.key = (copyOf (copy1 1).payload).key → y.revision ≠ (copyOf (copy1 1).payload).revision) ∧
     ∃ j, ∃ y ∈ slotOf s j, y.key = (copyOf (copy1 1).payload).key ∧ (copyOf (copy1 1).payload).revision.toNat < y.revision.toNat) ∧
    (let y := settledSlot .queued ⟨1, 5⟩ 1 0 [accepted 0 0]
     FrameReady kindSheet (copy1 1) [] (offered (copy1 1) (full y)) ∧
     CopyPasses (copyOf (copy1 1).payload) (offered (copy1 1) (full y)) ∧
     OpensFor (copyOf (copy1 1).payload) (offered (copy1 1) (full y)) none ∧ (∀ j, slotOf (full y) j ≠ none) ∧
     victim (offered (copy1 1) (full y)) (rankOfClass (copyOf (copy1 1).payload).cls) none = none) ∧
    (let s := offered (copy1 2) (crowdWith (settledSlot .queued key1 1 2 (List.replicate 12 (accepted 0 0))))
     FrameReady kindSheet (copy1 2) [] s ∧ CopyPasses (copyOf (copy1 2).payload) s ∧
     OpensFor (copyOf (copy1 2).payload) s (some 3) ∧ slotOf s 4 = none ∧ 48 ≤ buffersUsed s ∧
     victim s (rankOfClass (copyOf (copy1 2).payload).cls) none = none) :=
  ⟨⟨frameReady .., passes (by decide +kernel), rfl, by decide +kernel⟩,
   ⟨frameReady .., passes (by decide +kernel), rfl, by decide +kernel⟩,
   ⟨frameReady .., passes (by decide +kernel), by decide +kernel, 0, _, rfl, by decide +kernel⟩,
   ⟨frameReady .., passes (by decide +kernel), opensNew (by decide +kernel), by decide +kernel, by decide +kernel⟩,
   frameReady .., passes (by decide +kernel), opensSuccessor (j := 3) rfl (by decide +kernel), rfl, by decide +kernel⟩

theorem witness_ReclaimFreesTheRightVictim :
    (let s := slotsAt [(2, settledSlot .done key1 1 7 [accepted 0 0]), (3, gathering key2 1 2 [held 1010])] late
     victim s 2 none = some 2 ∧ victim s 2 (some 2) = some 3 ∧ victim s 1 (some 2) = none ∧
     slotOf s 2 = some (settledSlot .done key1 1 7 [accepted 0 0]) ∧ slotOf s 3 = some (gathering key2 1 2 [held 1010])) := by
  decide +kernel

/-! ## Witnesses: combining, acceptance, screening -/

def bodyOf (l : List Octet) (confidence : Nat) : Vector Pair 48 := tabulate 48 fun i => ⟨octetAt l i, confidence⟩

theorem witness_VoteFoldsEachPosition : (held 1010).buffer = some (leadBuffer 0 0 5) := rfl
theorem witness_EvaluationPlacesTheSheet :
    SheetRecord.atCreation.buffer = none ∧
    (∀ n ∈ [5, 6], (SheetRecord.atCreation.combine Profile.atReset 0 7 (bodyOf (leadValues 0 0) n)).buffer = some (leadBuffer 0 0 n) ∧
      sheetCheck (leadBuffer 0 0 n) = true ∧ smallestScore (leadBuffer 0 0 n) = n ∧
      ∀ k : Fin 48, (leadBuffer 0 0 n)[k].score ≤ 63) ∧
    Profile.atReset.floor = 6 ∧
    let zeros := List.replicate 48 (0 : Octet)
    (SheetRecord.atCreation.combine Profile.atReset 0 7 (bodyOf zeros 15)).buffer = some (bufferOf zeros 15) ∧
      sheetCheck (bufferOf zeros 15) = false := by decide +kernel
theorem witness_HoldExpiryAcceptsTheSheet : ∀ d ∈ [1000, 1001],
    let s := slotsAt [(15, gathering key1 1 2 (List.replicate 12 (held d)))] late
    s.lines.resetLow = false ∧ slotOf s 15 = some (gathering key1 1 2 (List.replicate 12 (held d))) ∧
    (List.replicate 12 (held d))[11]? = some (held d) ∧ (held d).state = .held ∧ (held d).holdDeadline = some d ∧
    (d ≤ s.time.uptime ∨ s.time.uptime < d) := by
  intro d h s
  exact ⟨rfl, rfl, rfl, rfl, rfl, by omega⟩
/-- R26, R28, R52: the hold deadline of the only missing sheet completes an ADMITTED slot, which is presented. -/
theorem test_hold_expiry :
    stateAt (after (.holdExpiry 0 1) (slotsAt [(0, admitted key1 1 2 [accepted 0 0, held 1000])] late)) 0 = some .sounding ∧
    stateAt (after (.holdExpiry 0 1) (slotsAt [(0, admitted key1 1 2 [accepted 0 0, held 1001])] late)) 0 = some .admitted := by
  decide +kernel

/-- The fields that the outcome of an accepted lead depends on. -/
theorem witness_AcceptedSheetsDecide :
    let nationwide := { late with settings := { late.settings with profile := { Profile.atReset with policy := .nationwideOnly } } }
    let lead := fun (r : SheetRecord) => leadOf ((r.buffer.map fun b => b.toList.map (·.value)).getD [])
    (∀ p ∈ [(accepted 4 0, late), (accepted 0 1, nationwide), (accepted 0 0, late)], ∀ l ∈ [[p.1], [p.1, held 1010]],
      slotOf (slotsAt [(0, gathering key1 1 2 l)] p.2) 0 = some (gathering key1 1 2 l) ∧
      l.head? = some p.1 ∧ p.1.buffer.isSome = true) ∧
    (lead (accepted 4 0)).cancel = true ∧ (lead (accepted 0 1)).cancel = false ∧ (lead (accepted 0 0)).cancel = false ∧
    screensPresent (lead (accepted 0 1)) nationwide.location nationwide.settings.profile.policy = false ∧
    screensPresent (lead (accepted 0 0)) late.location late.settings.profile.policy = true ∧
    (accepted 0 0).state = .accepted ∧ (held 1010).state ≠ .accepted ∧
    (∀ st ∈ [SlotState.gathering, .admitted, .queued, .done], ∀ isPartial ∈ [true, false], ∀ l ∈ [[accepted 0 0], [accepted 0 0, held 1010]],
      let x := { gathering key1 1 2 l with state := st, isPartial := isPartial }
      slotOf (slotsAt [(0, x)] late) 0 = some x ∧ (x.state.assembling = false ↔ st = .queued ∨ st = .done)) ∧
    (∀ st ∈ [SlotState.done, .queued, .sounding, .shown, .pending],
      let x := gathering key1 2 2 [accepted 4 0]
      let y := settledSlot st key1 1 2 [accepted 0 0]
      let s := slotsAt [(0, x), (15, y)] late
      slotOf s 0 = some x ∧ x.sheets.head? = some (accepted 4 0) ∧ (15 : SlotIndex) ≠ 0 ∧ slotOf s 15 = some y ∧
      y.key = x.key ∧ (∀ k, ∀ z ∈ slotOf s k, k ≠ 0 → k ≠ 15 → z.key ≠ x.key) ∧ y.expiry = some ⟨.wall, 5000⟩ ∧
      (y.state = .done ∨ y.state = .queued ∨ y.state = .sounding ∨ y.state = .shown ∨ y.state = .pending)) := by decide +kernel

def zone3 : Zone := ⟨3, #v[2, 4, 2, 0, 0, 0]⟩
theorem witness_OverlapAndScreeningFollowTheirTables :
    (min 6 (zone3.level.toNat) ≤ min 6 (Zone.level ⟨7, zone3.digits⟩).toNat) ∧ (Zone.level ⟨0, zone3.digits⟩ = 0) ∧
    natAt (leadValues 0 0) 5 = 0 ∧ natAt (leadValues 0 9) 5 ≠ 0 ∧
    (Location.effective ⟨[zone3], none⟩ = some [zone3] ∧ Location.effective ⟨[], some zone3⟩ = some [zone3] ∧
      Location.effective ⟨[], none⟩ = none) ∧
    (∃ z ∈ (leadOf (leadValues 0 9)).zones, z.level = 0) := by
  decide +kernel

/-- A CELL frame of cell 7, with this zone-present octet and the zone 0x6A2000. -/
def cellFrame (present : Octet) : Frame := ⟨kindCell, [0, 7, present, 0x6A, 0x20, 0]⟩
theorem witness_LocationChangesRemoveRejections :
    (∀ present ∈ [(0 : Octet), 1], FrameReady kindCell (cellFrame present) [] (offered (cellFrame present) late)) ∧
    LocationsAgree none none ∧ ¬ LocationsAgree none (some [zone3]) ∧
    (let f : Frame := ⟨0x03, [9]⟩
     RequestReady 0x03 f [] (requested f late) ∧ (requested f late).store.state ≠ .loading ∧ f.payload.length = 1 + 3 * 0 ∧
       LocationsAgree (requested f late).location.effective none) ∧
    (let f : Frame := ⟨0x03, 9 :: List.replicate 12 0⟩
     RequestReady 0x03 f [] (requested f late) ∧ (requested f late).store.state ≠ .loading ∧ f.payload.length = 1 + 3 * 4) := by
  refine ⟨fun p h => ⟨rfl, nofun, rfl, rfl⟩, trivial, (nomatch ·), ⟨requestReady .., nofun, rfl, trivial⟩, requestReady .., nofun, rfl⟩
/-- R9, R64, R73: the first cell zone makes the location known, and the REJECTED entry goes; the serving cell is taken. -/
theorem test_cell :
    let s := offered (cellFrame 1) { late with history := [{ entry key1 1 with outcome := .rejected }, entry key2 1] }
    (after .cell s).history = [entry key2 1] ∧ (after .cell s).modem.servingCell = some 7 ∧
    (after .cell s).location = ⟨[], some zone3⟩ := by decide

/-! ## Witnesses: channel, uplink and receipts -/

def uplinked (s : State) : State := { s with modem := { s.modem with uplink := true } }
/-- This receipt WAITING, due at `due`. -/
def waitingAt (due : Nat) (s : State) : State :=
  { s with receipts := ⟨[{ queuedReceipt 0 false ⟨.wall, 6000⟩ with due := due }], none, none, 1, 1⟩ }
def sendingRequest (frame : Nat) (s : State) : State :=
  { s with modem := { s.modem with sending := some (.uplinkRequest ⟨key1, 2, .presented, 9, 7, 0, frame⟩) } }

theorem witness_ChannelStateAndHandoff :
    FrameReady kindChannelState ⟨kindChannelState, [3]⟩ [] (offered ⟨kindChannelState, [3]⟩ late) ∧
    (∀ due ∈ [1000, 1001], let s := uplinked (waitingAt due late)
      s.lines.resetLow = false ∧ s.modem.uplink = true ∧
      s.receipts.queue = [] ++ { queuedReceipt 0 false ⟨.wall, 6000⟩ with due := due } :: [] ∧
      (∀ x ∈ s.receipts.queue, x.inFlight = false) ∧ (due ≤ s.time.uptime ∨ ∀ x ∈ s.receipts.queue, s.time.uptime < x.due)) ∧
    (waitingAt 1000 late).modem.uplink = false ∧
    ∃ x ∈ (flying (queuedReceipt 0 true ⟨.wall, 6000⟩) late).receipts.queue, x.inFlight = true :=
  ⟨frameReady .., by decide, rfl, by decide⟩
/-- R10, R12, R167: broadcast and uplink become available: a LISTEN SET is staged and the due receipt is handed off. -/
theorem test_channel_state :
    let t := after .channelState (offered ⟨kindChannelState, [3]⟩ (waitingAt 1000 late))
    t.modem.listenStaged = true ∧ t.modem.uplinkStaged = some ⟨key1, 2, .presented, 9, 7, 0, 1⟩ ∧
    t.receipts.queue.map (·.inFlight) = [true] ∧ t.receipts.frame = some 1 := by decide

theorem witness_OutboundFramesAreSent :
    (let s := { late with modem := { late.modem with listenStaged := true } }
     s.lines.resetLow = false ∧ s.modem.sending = none ∧ s.modem.listenStaged = true) ∧
    (let s := { late with modem := { late.modem with uplinkStaged := some ⟨key1, 2, .presented, 9, 7, 0, 0⟩ } }
     s.lines.resetLow = false ∧ s.modem.sending = none ∧ s.modem.listenStaged = false ∧ s.modem.uplinkStaged ≠ none) ∧
    (let s := { late with modem := { late.modem with sending := some (.listenSet 0x3F) } }
     s.lines.resetLow = false ∧ s.modem.sending ≠ none ∧ s.modem.sending = some (.listenSet 0x3F)) ∧
    (∀ n ∈ [0, 1],
      let s := sendingRequest n ({ flying (queuedReceipt 0 true ⟨.wall, 6000⟩) late with receipts := ⟨[queuedReceipt 0 true ⟨.wall, 6000⟩], none, some 0, 1, 1⟩ })
      s.lines.resetLow = false ∧ s.modem.sending = some (.uplinkRequest ⟨key1, 2, .presented, 9, 7, 0, n⟩) ∧
      ((s.receipts.frame = some n ∧ s.receipts.wait = none ∧ ∃ x ∈ s.receipts.queue, x.inFlight = true) ↔ n = 0)) := by decide

/-- An UPLINK RESULT for key1 revision 2, PRESENTED, with this kind and result octet. -/
def resultFrame (kind result : Octet) : Frame := ⟨kindUplinkResult, keyOctets key1 ++ [2, kind, result]⟩
theorem witness_UplinkResultEndsTheHandoff :
    (∀ f ∈ [resultFrame 0 0, resultFrame 1 0, resultFrame 0 1, resultFrame 0 2, resultFrame 2 0, resultFrame 0 3],
      FrameReady kindUplinkResult f [] (offered f (flying (queuedReceipt 0 true ⟨.wall, 6000⟩) late))) ∧
    (let matching := fun (p : List Octet) (r : Receipt) => r.key = keyAt p 0 ∧ r.revision = (octetAt p 3).extractLsb' 0 4 ∧
       r.kind = (if octetAt p 4 = 0 then .presented else .acknowledged)
     let formed := fun (p : List Octet) => (octetAt p 4 = 0 ∨ octetAt p 4 = 1) ∧ (octetAt p 5 = 0 ∨ octetAt p 5 = 1 ∨ octetAt p 5 = 2)
     let r := queuedReceipt 0 true ⟨.wall, 6000⟩
     ¬ formed (resultFrame 2 0).payload ∧ ¬ formed (resultFrame 0 3).payload ∧
     formed (resultFrame 1 0).payload ∧ ¬ matching (resultFrame 1 0).payload r ∧
     ∀ n ∈ [0, 1, 2], formed (resultFrame 0 n).payload ∧ matching (resultFrame 0 n).payload r ∧
       (octetAt (resultFrame 0 n).payload 5 = 0 ↔ n = 0)) := by
  refine ⟨?_, by decide⟩
  intro f h
  refine ⟨rfl, nofun, rfl, ?_⟩
  revert f; decide
/-- R169, R170: SENT removes the entry and posts RECEIPT_SENT; REFUSED puts it back, due 30 s later. -/
theorem test_uplink_result :
    let s := flying (queuedReceipt 0 true ⟨.wall, 6000⟩) late
    (after .uplinkResult (offered (resultFrame 0 0) s)).receipts.queue = [] ∧
    (after .uplinkResult (offered (resultFrame 0 0) s)).events = [.device .receiptSent 1 (.sent key1 2 .presented 0)] ∧
    (after .uplinkResult (offered (resultFrame 0 1) s)).receipts.queue.map (fun r => (r.due, r.attempts, r.inFlight)) = [(1030, 1, false)] := by
  decide

theorem witness_HandoffFailureRetriesOrDrops :
    ∀ r ∈ [queuedReceipt 0 true ⟨.wall, 5001⟩, queuedReceipt 1 true ⟨.wall, 5001⟩, queuedReceipt 2 true ⟨.wall, 5001⟩,
        queuedReceipt 2 true ⟨.wall, 5000⟩, { queuedReceipt 0 true ⟨.wall, 5001⟩ with expiryReached := true },
        queuedReceipt 3 true ⟨.wall, 5001⟩],
      let s := flying r late
      s.lines.resetLow = false ∧ s.receipts.queue = [] ++ r :: [] ∧ r.inFlight = true ∧ (3 ≤ r.attempts ∨ r.attempts < 3) ∧
      (reached s.time r.expiry = true ↔ r.expiry.value = 5000) ∧
      s.receipts.wait = some 1000 ∧ 1000 ≤ s.time.uptime ∧ ({ s with time := ⟨999, 4999, true⟩ } : State).time.uptime < 1000 := by
  decide

theorem witness_ReceiptsAreAdmittedAndDropped :
    (∀ n ∈ [7, 8], let x := settledSlot .sounding key1 2 2 [accepted 0 0]
      let s := { late with receipts := ⟨List.replicate n (queuedReceipt 0 false ⟨.wall, 6000⟩), none, none, 8, 0⟩ }
      x.lead = some (leadOf (leadValues 0 0)) ∧ x.expiry = some ⟨.wall, 5000⟩ ∧ x.leadCell = some 7 ∧
      (s.receipts.queue.length < 8 ↔ n = 7)) ∧ late.lines.resetLow = false := by decide
/-- R172: a WAITING receipt whose bulletin has expired is dropped. -/
theorem test_receipt_stale :
    let s := { late with receipts := ⟨[queuedReceipt 0 false ⟨.wall, 5000⟩, queuedReceipt 0 false ⟨.wall, 5001⟩], none, none, 1, 0⟩ }
    (after .receiptStale s).receipts.queue = [queuedReceipt 0 false ⟨.wall, 5001⟩] ∧
    (after .receiptStale s).events = [.device .receiptDropped 1 (.dropped key1 2 .presented .stale)] := by decide
theorem witness_DispersalDelayIsExact : 0 ≤ 255 ∧ 255 ≤ 255 := by decide

/-! ## Witnesses: the host requests -/

/-- A request with sequence octet 9. -/
def ask (kind : Octet) (fields : List Octet) : Frame := ⟨kind, 9 :: fields⟩
/-- The state with slot 0 in this state, its list or its place filled accordingly. -/
def withSlot (st : SlotState) : State :=
  let s := slotsAt [(0, settledSlot st key1 2 2 [accepted 0 0])] late
  { s with pres := ⟨if st = .queued then [0] else [], if st = .pending then [0] else [],
    if st = .sounding ∨ st = .shown then some 0 else none, if st = .shown then some 1120 else none, none⟩ }
theorem askReady {kind : Octet} {fields : List Octet} {s : State} (h : s.lines.resetLow = false := by rfl)
    (r : s.host.reply = none := by rfl) : RequestReady kind (ask kind fields) [] (requested (ask kind fields) s) :=
  ⟨h, r, rfl, rfl⟩

theorem witness_RequestsAreTurnedAwayOrEnded :
    ((0x09, Instr.ack) ∈ requestKinds ∧ RequestReady 0x09 (ask 0x09 [0]) [] (requested (ask 0x09 [0]) State.reset) ∧
      (requested (ask 0x09 [0]) State.reset).store.state = .loading ∧ Instr.ack ≠ .status) ∧
    ((0x09, Instr.ack) ∈ requestKinds ∧ RequestReady 0x09 (ask 0x09 []) [] (requested (ask 0x09 []) late) ∧
      (requested (ask 0x09 []) late).store.state ≠ .loading ∧ ¬ fitsRequest .ack (ask 0x09 []).payload) ∧
    ((0x01, Instr.status) ∈ requestKinds ∧ RequestReady 0x01 (ask 0x01 [0]) [] (requested (ask 0x01 [0]) State.reset) ∧
      ¬ fitsRequest .status (ask 0x01 [0]).payload) ∧
    ∀ kind ∈ [(0 : Octet), 0x0F], (requested (ask kind []) late).lines.resetLow = false ∧
      (requested (ask kind []) late).host.reply = none ∧ (requested (ask kind []) late).host.staging = [ask kind []] ∧
      ((ask kind []).kind = 0 ∨ 0x0E < (ask kind []).kind.toNat) :=
  ⟨⟨by decide, askReady, rfl, nofun⟩, ⟨by decide, askReady, nofun, nofun⟩, ⟨by decide, askReady, nofun⟩, by decide⟩
theorem witness_StatusReportsThePart :
    RequestReady 0x01 (ask 0x01 []) [] (requested (ask 0x01 []) rich) ∧ (ask 0x01 []).payload.length = 1 := ⟨askReady, rfl⟩
/-- R178: the reply to STATUS after reset, while the store is LOADING. -/
theorem test_status : (after .status (requested (ask 0x01 []) State.reset)).host.reply =
    some ⟨0x81, [9, 0, 0, 216, 1, 0, 0, 0] ++ List.replicate 11 0 ++ [48] ++ List.replicate 18 0⟩ := by decide +kernel

def clockTo (wall : BitVec 32) : Frame := ask 0x02 (octets32 wall.toNat)
theorem witness_SetClockMovesTheWallClock :
    (∀ wall ∈ [(0 : BitVec 32), 5000, 4294967295], ∀ set ∈ [true, false],
      let s := requested (clockTo wall) { late with time := ⟨1000, if set then 5000 else 0, set⟩ }
      RequestReady 0x02 (clockTo wall) [] s ∧ s.store.state ≠ .loading ∧ (clockTo wall).payload.length = 5) ∧
    (word32At (clockTo 5000).payload 1).toNat = late.time.wall ∧ (word32At (clockTo 0).payload 1).toNat ≠ late.time.wall ∧
    (∃ t, exec .setClock (requested (clockTo 0) base) = .next t) ∧
    (∀ r : Receipt, let s := requested (clockTo 0) (flying r late)
      RequestReady 0x02 (clockTo 0) [] s ∧ s.store.state ≠ .loading ∧ (clockTo 0).payload.length = 5 ∧
      (∃ t, exec .setClock s = .next t) ∧ r ∈ s.receipts.queue ∧ s.time = late.time) ∧
    ∀ r ∈ [queuedReceipt 0 true ⟨.wall, 5000⟩, { queuedReceipt 0 true ⟨.wall, 5001⟩ with expiryReached := true }],
      r.inFlight = true ∧ (r.expiryReached = true ∨ reached late.time r.expiry = true) :=
  ⟨fun _ _ _ _ => ⟨askReady, nofun, rfl⟩, by decide, by decide, ⟨_, rfl⟩,
    fun _ => ⟨askReady, nofun, rfl, ⟨_, rfl⟩, List.mem_singleton.2 rfl, rfl⟩, by decide⟩
/-- R172, R80: a receipt whose expiry was reached while it was IN_FLIGHT is dropped STALE at its failure, though the
clock has moved back meanwhile. -/
theorem test_reached_expiry_stays :
    let t := after .setClock (requested (clockTo 0) (flying (queuedReceipt 0 true ⟨.wall, 5000⟩) late))
    let u := after .uplinkResult (offered (resultFrame 0 1) t)
    t.time.wall = 0 ∧ t.receipts.queue.map (·.inFlight) = [true] ∧ u.receipts.queue = [] ∧
    u.events = [.device .receiptDropped 1 (.dropped key1 2 .presented .stale)] := by decide +kernel
/-- R79: the first setting puts an expiry on the wall scale, as far ahead as it was. -/
theorem test_set_clock :
    let x := { settledSlot .queued key1 2 2 [accepted 0 0] with expiry := some ⟨.uptime, 1600⟩ }
    let t := after .setClock (requested (clockTo 7000) (slotsAt [(0, x)] { base with time := ⟨1000, 0, false⟩ }))
    t.time = ⟨1000, 7000, true⟩ ∧ (slotOf t 0).bind (·.expiry) = some ⟨.wall, 7600⟩ ∧
    t.host.reply = some ⟨0x82, [9, 0]⟩ := by decide +kernel

/-- SET-PROFILE with the default values but for the quiet octet and the policy octet. -/
def profileFrame (quiet policy : Octet) : Frame :=
  ask 0x04 [6, 20, 0, 60, 1, 44, 0, 0, 84, 96, 12, 0, 120, 2, 0xC0, quiet, policy, 8, 80, 16, 3]
theorem witness_SetProfileAndSetTagReplace :
    (∀ p ∈ [((0 : Octet), (0 : Octet)), (1, 1), (2, 0), (0, 2)],
      RequestReady 0x04 (profileFrame p.1 p.2) [] (requested (profileFrame p.1 p.2) late) ∧
      (profileFrame p.1 p.2).payload.length = 22 ∧
      natAt (profileFrame p.1 p.2).payload 16 = p.1.toNat ∧ natAt (profileFrame p.1 p.2).payload 17 = p.2.toNat) ∧
    late.store.state ≠ .loading ∧
    RequestReady 0x05 (ask 0x05 [1, 2, 3, 4]) [] (requested (ask 0x05 [1, 2, 3, 4]) late) ∧
    (ask 0x05 [1, 2, 3, 4]).payload.length = 5 ∧ ((8 : Nat) ∈ [0, 8, 16, 32, 64] ∧ 5 ≤ 8) :=
  ⟨fun _ _ => ⟨askReady, rfl, rfl, rfl⟩, nofun, askReady, rfl, by decide⟩
/-- R179: the default values give the default profile back, unclamped. -/
theorem test_profile_defaults :
    profileOf (profileFrame 0 0).payload = Profile.atReset ∧ profileClamped (profileFrame 0 0).payload = false := by decide

/-- SET-CADENCE for `rank` with `n` segments of TONE_B, vibrate on, 300 ms, and tones of 40. -/
def cadenceFrame (rank : Octet) (n : Nat) (kind : Octet) : Frame :=
  ask 0x06 ([rank, octet n] ++ (List.replicate n [kind, 1, 30]).flatten ++ [40, 40, 40, 40])
theorem witness_SetCadenceReplacesATable :
    (∀ p ∈ [((0 : Octet), 1, (2 : Octet)), (5, 1, 2), (1, 0, 2), (1, 9, 2), (1, 1, 3), (1, 1, 2), (4, 8, 2)],
      RequestReady 0x06 (cadenceFrame p.1 p.2.1 p.2.2) [] (requested (cadenceFrame p.1 p.2.1 p.2.2) late)) ∧
    late.store.state ≠ .loading ∧
    (∀ p ∈ [((0 : Octet), 1, (2 : Octet)), (5, 1, 2), (1, 0, 2), (1, 9, 2), (1, 1, 3), (1, 1, 2), (4, 8, 2)],
      let f := cadenceFrame p.1 p.2.1 p.2.2
      natAt f.payload 1 = p.1.toNat ∧ natAt f.payload 2 = p.2.1 ∧ f.payload.length = 7 + 3 * p.2.1 ∧
      ((∀ j, j < p.2.1 → (octetAt f.payload (3 + 3 * j) = 0 ∨ octetAt f.payload (3 + 3 * j) = 1 ∨ octetAt f.payload (3 + 3 * j) = 2) ∧
        (octetAt f.payload (4 + 3 * j) = 0 ∨ octetAt f.payload (4 + 3 * j) = 1)) ↔ p.2.2 ≠ 3)) :=
  ⟨fun _ _ => askReady, nofun, by decide +kernel⟩

theorem witness_ListAndHistoryReportTheirLines : late.store.state ≠ .loading ∧
    RequestReady 0x07 (ask 0x07 []) [] (requested (ask 0x07 []) rich) ∧ (ask 0x07 []).payload.length = 1 ∧
    ∀ first ∈ [(0 : Octet), 255], RequestReady 0x0C (ask 0x0C [first]) [] (requested (ask 0x0C [first]) rich) ∧
      (ask 0x0C [first]).payload.length = 2 := ⟨nofun, askReady, rfl, fun _ _ => ⟨askReady, rfl⟩⟩
/-- 11 section 11.6: a LIST line and a HISTORY line. -/
theorem test_list_and_history :
    (after .list (requested (ask 0x07 []) (withSlot .queued))).host.reply =
      some ⟨0x87, [9, 0, 1, 0, 0x08, 0x86, 0x48, 2, 2, 3, 1, 1, 0, 0xFF]⟩ ∧
    (after .history (requested (ask 0x0C [0]) { late with history := [entry key1 2] })).host.reply =
      some ⟨0x8C, [9, 0, 1, 0, 0x08, 0x86, 0x48, 2, 0, 0, 0, 0x13, 0x88, 1]⟩ := by decide +kernel

theorem witness_ReadReportsASlot :
    let s := slotsAt [(15, gathering key1 1 2 [accepted 0 0, held 1010]), (14, admitted key2 1 2 [accepted 0 0])] late
    (∀ p ∈ [((16 : Octet), (0 : Octet)), (255, 0), (0, 0), (15, 3), (15, 0), (14, 0), (15, 1), (15, 2)],
      let f := ask 0x08 [p.1, p.2]
      RequestReady 0x08 f [] (requested f s) ∧ f.payload.length = 3 ∧ natAt f.payload 1 = p.1.toNat ∧ natAt f.payload 2 = p.2.toNat) ∧
    s.store.state ≠ .loading ∧ slotOf s 0 = none ∧ slotOf s 15 = some (gathering key1 1 2 [accepted 0 0, held 1010]) ∧
    slotOf s 14 = some (admitted key2 1 2 [accepted 0 0]) ∧ (gathering key1 1 2 [accepted 0 0, held 1010]).lead = none ∧
    (admitted key2 1 2 [accepted 0 0]).lead = some (leadOf (leadValues 0 0)) ∧
    (accepted 0 0).state = .accepted ∧ (accepted 0 0).buffer = some (leadBuffer 0 0 6) ∧ (held 1010).state ≠ .accepted :=
  ⟨fun _ _ => ⟨askReady, rfl, rfl, rfl⟩, nofun, rfl, rfl, rfl, rfl, rfl, rfl, rfl, nofun⟩
/-- 11 section 11.6: the slot record of an ADMITTED slot of two sheets, one of them HELD. -/
theorem test_read_record :
    let s := slotsAt [(15, admitted key1 1 2 [accepted 0 0, held 1010])] late
    (after .read (requested (ask 0x08 [15, 0]) s)).host.reply = some ⟨0x88,
      [9, 0, 15, 0x08, 0x86, 0x48, 1, 0] ++ [0x01, 0x8C, 2, 2, 2, 2, 0, 0, 0, 0] ++
      [0, 0, 3, 0x84, 0, 0, 3, 0x84, 0, 0, 3, 0x8E, 0, 0, 0x13, 0x88, 1] ++ List.replicate 15 0 ++
      [0, 7, 0, 60, 0, 0, 1, 0, 0] ++ List.replicate 40 0 ++ [3, 1, 6, 0, 2, 1, 5, 0] ++ List.replicate 40 0⟩ := by decide +kernel
/-- R181: sheet 1's state alone, when it is HELD; a section above the sheet count is BAD_VALUE, a FREE slot NO_SUCH_SLOT. -/
theorem test_read :
    let s := slotsAt [(15, gathering key1 1 2 [accepted 0 0, held 1010])] late
    (after .read (requested (ask 0x08 [15, 2]) s)).host.reply = some ⟨0x88, [9, 0, 15, 0x08, 0x86, 0x48, 1, 2, 2]⟩ ∧
    (after .read (requested (ask 0x08 [15, 3]) s)).host.reply = some ⟨0x88, [9, codeBadValue]⟩ ∧
    (after .read (requested (ask 0x08 [3, 0]) s)).host.reply = some ⟨0x88, [9, codeNoSuchSlot]⟩ := by decide +kernel

theorem witness_AckRequestAcknowledges :
    (∀ st ∈ [SlotState.gathering, .admitted, .queued, .sounding, .shown, .pending, .done],
      ∀ target ∈ [(0 : Octet), 15, 16, 0xFD, 0xFE, 0xFF],
        RequestReady 0x09 (ask 0x09 [target]) [] (requested (ask 0x09 [target]) (withSlot st)) ∧
        (requested (ask 0x09 [target]) (withSlot st)).store.state ≠ .loading ∧ (ask 0x09 [target]).payload.length = 2 ∧
        natAt (ask 0x09 [target]).payload 1 = target.toNat ∧ stateAt (withSlot st) 0 = some st ∧ stateAt (withSlot st) 15 = none) ∧
    (withSlot .shown).pres.active = some 0 ∧ (withSlot .pending).pres.active = none ∧
    (withSlot .pending).pres.pendingList ≠ [] ∧ (withSlot .queued).pres.active.toList ++ (withSlot .queued).pres.pendingList = [] :=
  ⟨fun _ _ _ _ => ⟨askReady, nofun, rfl, rfl, rfl, rfl⟩, rfl, rfl, nofun, rfl⟩
/-- R129: ACK of a PENDING slot, and of a QUEUED one. -/
theorem test_ack :
    (after .ack (requested (ask 0x09 [0]) (withSlot .pending))).host.reply = some ⟨0x89, [9, 0, 1]⟩ ∧
    stateAt (after .ack (requested (ask 0x09 [0]) (withSlot .pending))) 0 = some .done ∧
    (after .ack (requested (ask 0x09 [0]) (withSlot .queued))).host.reply = some ⟨0x89, [9, codeWrongState, 0]⟩ := by decide +kernel
theorem witness_ReleaseAndEventsGiveUpWhatTheyReport :
    (∀ st ∈ [SlotState.gathering, .queued, .done], ∀ target ∈ [(0 : Octet), 15, 16, 255],
      let s := requested (ask 0x0A [target]) (withSlot st)
      RequestReady 0x0A (ask 0x0A [target]) [] s ∧ s.store.state ≠ .loading ∧ (ask 0x0A [target]).payload.length = 2 ∧
      natAt (ask 0x0A [target]).payload 1 = target.toNat ∧ stateAt s 0 = some st ∧ stateAt s 15 = none) ∧
    RequestReady 0x0B (ask 0x0B []) [] (requested (ask 0x0B []) late) ∧ (ask 0x0B []).payload.length = 1 :=
  ⟨fun _ _ _ _ => ⟨askReady, nofun, rfl, rfl, rfl, rfl⟩, askReady, rfl⟩
/-- 11 section 11.6: a slot entry with kinds ADMITTED and PRESENTING, and two device entries. -/
theorem test_events :
    let s := { withSlot .sounding with events :=
      [.slot 0 key1 2 3, .device .loadDone 1 (.entries 4), .device .receiptDropped 2 (.dropped key1 2 .acknowledged .stale)] }
    (after .events (requested (ask 0x0B []) s)).host.reply =
      some ⟨0x8B, [9, 0, 3, 0, 0x08, 0x86, 0x48, 2, 4, 0, 3, 0x8C, 1, 4, 0, 0, 0, 0, 0, 0x8A, 2, 0x08, 0x86, 0x48, 2, 1, 2]⟩ ∧
    (after .events (requested (ask 0x0B []) s)).events = [] := by decide +kernel
theorem witness_PreviewStartsACycle :
    (∀ rank ∈ [(0 : Octet), 1, 4, 5], ∀ st ∈ [SlotState.shown, .pending],
      let s := requested (ask 0x0D [rank]) (withSlot st)
      RequestReady 0x0D (ask 0x0D [rank]) [] s ∧ s.store.state ≠ .loading ∧ (ask 0x0D [rank]).payload.length = 2 ∧
      natAt (ask 0x0D [rank]).payload 1 = rank.toNat) ∧
    (withSlot .shown).pres.active ≠ none ∧ (withSlot .pending).pres.active = none ∧
    (late.settings.cadences.rank1 = ⟨.toneA, true, 20⟩ :: [⟨.pause, false, 180⟩]) :=
  ⟨fun _ _ _ _ => ⟨askReady, nofun, rfl, rfl⟩, nofun, rfl, rfl⟩
theorem witness_RestartClears :
    RequestReady 0x0E (ask 0x0E []) [] (requested (ask 0x0E []) rich) ∧ (requested (ask 0x0E []) rich).store.state ≠ .loading ∧
    (ask 0x0E []).payload.length = 1 := ⟨askReady, nofun, rfl⟩

/-! ## Witnesses: timers, expiries, history -/

theorem witness_DeadlinesAndSuccession :
    (∀ d ∈ [1000, 1001], ∀ x ∈ [{ gathering key1 1 2 [held 1010] with gatherDeadline := some d },
        { admitted key1 1 2 [accepted 0 0, held 1010] with assemblyDeadline := some d }],
      (slotsAt [(0, x)] late).lines.resetLow = false ∧ slotOf (slotsAt [(0, x)] late) 0 = some x ∧
      (x.state = .gathering ∧ x.gatherDeadline = some d ∨ x.state = .admitted ∧ x.assemblyDeadline = some d) ∧
      (d ≤ (slotsAt [(0, x)] late).time.uptime ↔ d = 1000)) ∧
    (∀ st ∈ [SlotState.done, .queued, .shown],
      let x := { queued1 2 with predecessor := some 1 }
      let y := settledSlot st key1 1 2 [accepted 0 0]
      let s := slotsAt [(0, x), (1, y)] late
      slotOf s 0 = some x ∧ slotOf s 1 = some y ∧ (1 : SlotIndex) ≠ 0 ∧ x.predecessor = some 1 ∧ y.state.assembling = false ∧
      y.expiry = some ⟨.wall, 5000⟩ ∧ (y.state = .done ↔ st = .done)) := by decide +kernel
/-- R53, R55: the gathering timeout frees the slot and posts ABANDONED; the assembly limit makes it partial. -/
theorem test_deadlines :
    let g := slotsAt [(0, gathering key1 1 2 [held 1010])] late
    let a := slotsAt [(0, admitted key1 1 2 [accepted 0 0, held 1010])] late
    stateAt (after (.gatheringTimeout 0) g) 0 = none ∧ (after (.gatheringTimeout 0) g).events = [.slot 0 key1 1 256] ∧
    (slotOf (after (.assemblyLimit 0) a) 0).map (fun x => (x.state, x.isPartial)) = some (.sounding, true) := by decide +kernel

theorem late_free : ∀ i, slotOf late i = none := by decide +kernel
theorem late_fields : FieldsOk late := fun i x h => by rw [late_free i] at h; cases h
theorem witness_SlotExpiriesAct :
    (∀ st ∈ [SlotState.admitted, .queued, .sounding, .shown, .pending, .done],
      let x := if st = .admitted then admitted key1 2 2 [accepted 0 0] else settledSlot st key1 2 2 [accepted 0 0]
      slotOf (slotsAt [(0, x)] late) 0 = some x ∧ x.expiry = some ⟨.wall, 5000⟩ ∧ x.state = st) ∧
    (FieldsOk late ∧ late.lines.resetLow = false ∧ ∀ i, slotReached late i = false) ∧
    FieldsOk rich ∧ rich.lines.resetLow = false ∧ ∃ i, slotReached rich i = true :=
  ⟨by decide +kernel, ⟨late_fields, rfl, by decide +kernel⟩,
    rich_fields, rfl, 0, rfl⟩
/-- R82, R84, R117: the SOUNDING and the QUEUED slot are both withdrawn before presentation acts, so none is presented. -/
theorem test_slot_expiry :
    let t := after .slotExpiry rich
    stateAt t 0 = some .done ∧ stateAt t 1 = some .done ∧ t.pres.active = none ∧ t.cycle = none ∧
    t.history.map (fun h => (h.key, h.outcome)) = [(⟨1, 1⟩, .presented), (key1, .expired), (key2, .expired)] := by decide +kernel

/-- `n` entries of keys of issuer 1. -/
def entries (n : Nat) : List HistoryEntry := (List.range n).map fun k => entry ⟨1, BitVec.ofNat 13 k⟩ 5
theorem witness_HistoryAddition :
    (∀ n ∈ [0, 63, 64], ((entries n).map (·.key)).Nodup ∧ (entries n).length = n ∧ n ≤ 64 ∧
      ∀ h ∈ entries n, h.key ≠ (entry key1 1).key) ∧
    (entries 64 = (entries 64).head (by decide) :: (entries 64).tail) ∧
    (∀ r ∈ [(4 : BitVec 4), 5, 6], (entries 3).map (·.key) ≠ [] ∧
      entries 3 = [entry ⟨1, 0⟩ 5] ++ entry ⟨1, 1⟩ 5 :: [entry ⟨1, 2⟩ 5] ∧ (entry ⟨1, 1⟩ 5).key = (entry ⟨1, 1⟩ r).key ∧
      ((entry ⟨1, 1⟩ 5).revision.toNat ≤ (entry ⟨1, 1⟩ r).revision.toNat ∨ r = 4)) ∧
    (∀ retention ∈ [0, 1], ∀ n ∈ [0, 3, 63, 64],
      let s := { late with
        history := entries n
        settings := { late.settings with profile := { Profile.atReset with retention := retention } } }
      (s.history.map (·.key)).Nodup ∧ s.history.length = n ∧
      (reached s.time ⟨.wall, min (5000 + s.settings.profile.retention) maxSeconds⟩ = true ↔ retention = 0)) := by decide +kernel

theorem witness_UptimeSecondCounts : late.lines.resetLow = false := rfl
/-- R76, R96: a second is counted, and the entry whose retention end it reaches is removed; at its maximum uptime stops. -/
theorem test_uptime_second :
    (let s := { late with history := [{ entry key1 1 with expiry := ⟨.uptime, 1001⟩ }, entry key2 1]
                          settings := { late.settings with profile := { Profile.atReset with retention := 0 } } }
     (after (.uptimeSecond .staleFirst) s).time = ⟨1001, 5001, true⟩ ∧ (after (.uptimeSecond .staleFirst) s).history = [] ∧
     (after .retentionPruning s).history = [{ entry key1 1 with expiry := ⟨.uptime, 1001⟩ }]) ∧
    (after (.uptimeSecond .handoffFirst) { late with time := ⟨4294967295, 7, true⟩ }).time = ⟨4294967295, 7, true⟩ := by decide

/-! ## Witnesses: presentation and attention -/

def playing (owner : Owner) (rank index counter elapsed : Nat) (quiet : Bool) : Cycle :=
  ⟨owner, rank, Cadences.atReset.ofRank rank, ⟨36, 36⟩, ⟨30, 30⟩, 12, index, counter, elapsed, quiet, 0⟩
/-- Slot 0 in this state with class `cls`, and slot 1 QUEUED with class `cls'`. -/
def duel (st : SlotState) (cls cls' : BitVec 3) : State :=
  { slotsAt [(0, settledSlot st key1 1 cls [accepted 0 0]), (1, settledSlot .queued key2 1 cls' [accepted 0 0])] late with
    pres := ⟨[1], if st = .pending then [0] else [], if st = .pending then none else some 0, if st = .shown then some 1000 else none, none⟩
    cycle := if st = .sounding then some (playing (.slot 0) (rankOfClass cls) 0 20 0 false) else none }

theorem witness_PresentationDecides :
    (∀ p ∈ [(SlotState.pending, (2 : BitVec 3), (2 : BitVec 3)), (.sounding, 2, 0), (.sounding, 2, 2), (.shown, 2, 2), (.shown, 2, 7)],
      PresWf (duel p.1 p.2.1 p.2.2) ∧ (duel p.1 p.2.1 p.2.2).pres.queue = 1 :: []) ∧
    PresWf late ∧ late.pres.queue = [] ∧ (∀ rank ∈ [1, 2, 3, 4], late.settings.cadences.ofRank rank ≠ []) ∧
    ((duel .pending 2 2).pres.active = none ∧ (duel .sounding 2 0).pres.active = some 0 ∧
      stateAt (duel .sounding 2 0) 0 = some .sounding ∧ stateAt (duel .shown 2 0) 0 = some .shown ∧
      rankAt (duel .sounding 2 0) 0 < rankAt (duel .sounding 2 0) 1 ∧ rankAt (duel .sounding 2 2) 1 ≤ rankAt (duel .sounding 2 2) 0 ∧
      rankAt (duel .shown 2 2) 0 ≤ rankAt (duel .shown 2 2) 1 ∧ rankAt (duel .shown 2 7) 1 < rankAt (duel .shown 2 7) 0) ∧
    (∀ mode ∈ [ReceiptMode.none, .onPresent], ∀ first ∈ [none, some 950],
      let x := { queued1 2 with lead := some { leadOf (leadValues 0 0) with mode := mode }, firstPresentation := first }
      slotOf (slotsAt [(0, x)] late) 0 = some x ∧
      ((x.firstPresentation ≠ none ∨ x.lead.map (·.mode) ≠ some .onPresent) ∨
        (x.firstPresentation = none ∧ x.lead.map (·.mode) = some .onPresent))) := by
  refine ⟨?_, ?_, by decide, by decide, by decide +kernel, by decide +kernel⟩
  · intro p h
    refine ⟨?_, rfl⟩
    constructor <;> revert p <;> decide +kernel
  · constructor <;> decide +kernel
/-- R117, R120, R118: the QUEUED slot of higher rank interrupts; the other goes back to the queue. -/
theorem test_interruption :
    let t := presentationDecision (duel .sounding 2 0)
    stateAt t 1 = some .sounding ∧ stateAt t 0 = some .queued ∧ t.pres.queue = [0] ∧ t.pres.active = some 1 := by decide +kernel

theorem witness_RemindersAndCompletions :
    (∀ d ∈ [1000, 1001], ∀ n ∈ [1, 2],
      let x := { settledSlot .shown key1 1 2 [accepted 0 0] with reminders := n }
      let s := { slotsAt [(0, x)] late with pres := ⟨[], [], some 0, some d, none⟩ }
      s.lines.resetLow = false ∧ s.pres.active = some 0 ∧ slotOf s 0 = some x ∧ x.state = .shown ∧ s.pres.reminder = some d ∧
      s.settings.profile.reminderCount = 2) ∧
    (∀ owner ∈ [Owner.preview, .slot 0], ∀ p ∈ [(0, 1199), (0, 1200), (1, 1199), (20, 1200)], ∀ index ∈ [0, 3],
      let c := playing owner 2 index p.1 p.2 false
      let s := { withSlot .sounding with cycle := some c }
      s.lines.resetLow = false ∧ s.cycle = some c ∧ (c.counter = 0 ↔ p.1 = 0) ∧ (c.elapsed < c.attentionTime * 100 ↔ p.2 = 1199) ∧
      c.segments[if c.index + 1 < c.segments.length then c.index + 1 else 0]?.isSome = true ∧
      s.pres.active = some 0 ∧ stateAt s 0 = some .sounding) := by decide +kernel
/-- R124: a reminder is left, and the slot sounds again; R144, R123: elapsed has reached the attention time, and it is
SHOWN. R149: inside a segment there is no boundary. -/
theorem test_reminder_and_completion :
    let s := { withSlot .shown with pres := ⟨[], [], some 0, some 1000, none⟩ }
    let c := { withSlot .sounding with cycle := some (playing (.slot 0) 2 3 0 1200 false) }
    let inner := { withSlot .sounding with cycle := some (playing (.slot 0) 2 0 20 1200 false) }
    after .segmentBoundary inner = inner ∧
    (slotOf (after .reminderExpiry s) 0).map (fun x => (x.state, x.reminders)) = some (.sounding, 1) ∧
    stateAt (after .segmentBoundary c) 0 = some .shown ∧ (after .segmentBoundary c).cycle = none ∧
    (after .segmentBoundary c).pres.reminder = some 1120 := by decide +kernel

theorem witness_AcknowledgementEndsTheSlot : ∀ st ∈ [SlotState.sounding, .shown, .pending], ∀ mode ∈ [ReceiptMode.none, .onAck],
    let x := { settledSlot st key1 2 2 [accepted 0 0] with lead := some { leadOf (leadValues 0 0) with mode := mode } }
    slotOf (slotsAt [(0, x)] late) 0 = some x ∧ (x.state = .sounding ∨ x.state = .shown ∨ x.state = .pending) ∧
    x.expiry = some ⟨.wall, 5000⟩ ∧ x.firstPresentation = some 950 ∧ (x.lead.map (·.mode) = some .onAck ↔ mode = .onAck) := by
  decide +kernel

theorem witness_OutputLinesFollowTheState :
    late.lines.resetLow = false ∧ late.cycle = none ∧
    ∀ p ∈ [(2, 0), (2, 1), (4, 0), (1, 0)], ∀ quiet ∈ [true, false],
      let c := playing .preview p.1 p.2 20 0 quiet
      let s := { late with cycle := some c }
      s.lines.resetLow = false ∧ s.cycle = some c ∧ c.segments[c.index]?.isSome = true ∧ c.counter ≠ 0 ∧
      c.segments[c.index]?.map (·.kind) = some (if p = (2, 0) then .toneB else if p = (2, 1) then .pause else .toneA) ∧
      ((c.quiet = true ∧ c.rank ≤ 3) ∨ c.quiet = false ∨ 4 ≤ c.rank) := by decide
/-- R141, R146: TONE in the first period after the high count, and under quiet. -/
theorem test_outputs :
    (∀ p ∈ [(0, true), (29, true), (30, false), (59, false), (60, true)],
      ({ late with cycle := some { playing .preview 2 0 20 0 false with phase := p.1 } } : State).tone = p.2) ∧
    ({ late with cycle := some (playing .preview 2 0 20 0 true) } : State).tone = false ∧
    ({ late with cycle := some (playing .preview 2 0 20 0 true) } : State).vib = true ∧
    ({ late with events := [.slot 0 key1 1 1] } : State).evt = false ∧ ({ late with events := [.slot 0 key1 1 2] } : State).evt = true := by
  decide

/-! ## Witnesses: keys -/

/-- The ACK filter and the SILENCE filter as given, and the chord timer. -/
def keyed (a b : Filter) (c : Option ChordTimer) (s : State) : State := { s with keys := ⟨a, b, c⟩ }
theorem witness_KeySamplesAndPresses :
    (∀ f ∈ [(⟨false, 16, false⟩ : Filter), ⟨true, 16, false⟩, ⟨false, 0, false⟩, ⟨false, 15, false⟩],
      let s := keyed f ⟨true, 0, false⟩ none late
      s.lines.resetLow = false ∧ s.settings.profile.checkTime = 16 ∧
      ((f.pressed = false ∧ 1 ≤ f.run ∧ s.settings.profile.checkTime ≤ f.run) ∨
        (f.pressed = true ∨ f.run = 0 ∨ f.run < s.settings.profile.checkTime))) := by decide
/-- R151, R153, R154: sixteen samples low are a press, and the second key's press starts the chord timer. -/
theorem test_press_recognition :
    (after (.keySample true true) (keyed ⟨false, 15, false⟩ ⟨true, 3, false⟩ (some ⟨2999, 3⟩) late)).keys =
      ⟨⟨false, 16, false⟩, ⟨true, 0, false⟩, some ⟨3000, 3⟩⟩ ∧
    (after (.pressRecognition .ack) (keyed ⟨false, 16, false⟩ ⟨true, 0, false⟩ none late)).keys =
      ⟨⟨true, 0, false⟩, ⟨true, 0, false⟩, some ⟨0, 3⟩⟩ := by decide
theorem witness_KeyReleasesAndTheChord :
    (∀ consumed ∈ [true, false], ∀ st ∈ [SlotState.queued, .sounding, .shown, .pending],
      let s := keyed ⟨true, 16, consumed⟩ ⟨true, 16, consumed⟩ none (withSlot st)
      s.lines.resetLow = false ∧ s.settings.profile.checkTime = 16 ∧ s.keys.ack.pressed = true ∧ 1 ≤ s.keys.ack.run ∧
      s.settings.profile.checkTime ≤ s.keys.ack.run ∧ s.keys.ack.consumed = consumed ∧
      (s.pres.active = some 0 ↔ st = .sounding ∨ st = .shown) ∧ stateAt s 0 = some st ∧
      (s.pres.pendingList = [0] ↔ st = .pending)) ∧
    (∀ preview ∈ [none, some 4], ({ withSlot .queued with pres := ⟨[0], [], none, none, preview⟩ } : State).pres.active = none) ∧
    ∀ n ∈ [2999, 3000], ∀ st ∈ [SlotState.queued, .shown],
      let s := keyed ⟨true, 0, false⟩ ⟨true, 0, false⟩ (some ⟨n, 3⟩) (withSlot st)
      s.lines.resetLow = false ∧ s.keys.chord = some ⟨n, 3⟩ ∧ (n < 3 * 1000 ↔ n = 2999) ∧
      (s.pres.active.toList ++ s.pres.pendingList = [] ↔ st = .queued) := by decide +kernel
/-- R128, R130: a release of ACK acknowledges the oldest PENDING slot; the chord acknowledges too and consumes both. -/
theorem test_release_and_chord :
    stateAt (after (.releaseRecognition .ack) (keyed ⟨true, 16, false⟩ .atReset none (withSlot .pending))) 0 = some .done ∧
    stateAt (after (.releaseRecognition .silence) (keyed .atReset ⟨true, 16, false⟩ none (withSlot .sounding))) 0 = some .shown ∧
    let t := after .chordFires (keyed ⟨true, 0, false⟩ ⟨true, 0, false⟩ (some ⟨3000, 3⟩) (withSlot .shown))
    stateAt t 0 = some .done ∧ t.keys = ⟨⟨true, 0, true⟩, ⟨true, 0, true⟩, none⟩ := by decide +kernel

/-! ## Witnesses: the store and the lines -/

/-- The store in this state, at this write position, with this journal and this many failed erase attempts. -/
def storing (st : StoreState) (writePos fails : Nat) (journal : Vector (BitVec 64) 128) : State :=
  { late with store := ⟨journal, st, writePos, fails⟩, history := [entry key1 1] }
def blank : Vector (BitVec 64) 128 := Vector.replicate 128 (BitVec.allOnes 64)
def zeros : Vector (BitVec 64) 128 := Vector.replicate 128 0

theorem witness_ResetCommandsAndStops :
    ({ late with lines := ⟨true, true⟩ } : State).lines.resetLow = true ∧ late.lines.resetLow = false ∧
    (∀ phase op, late.store.state ≠ .busy phase op) ∧
    (storing (.busy none (.program (entry key1 1) 1 false)) 127 0 blank).store.state = .busy none (.program (entry key1 1) 1 false) ∧
    (storing (.busy none .void) 127 0 blank).store.writePos = (127 : Fin 128).val ∧
    (Operation.prefill 5 ≠ .erase ∧ (∀ e n r, Operation.prefill 5 = .program e n r → 0 ≠ 6) ∧ (Operation.prefill 5 = .void → 0 ≠ 6) ∧
      ∀ q, Operation.prefill 5 = .prefill q → q ≠ 6) :=
  ⟨rfl, rfl, nofun, rfl, rfl, nofun, nofun, nofun, by intro q h; cases h; decide⟩
/-- R157: a reset keeps the journal and the level of SUPPLY_OK, and nothing else. -/
theorem test_reset :
    after .resetRelease (after .hardwareReset (storing .idle 3 0 zeros)) =
      { State.reset with store := ⟨zeros, .loading, 0, 0⟩ } := by decide +kernel

theorem witness_ReloadRebuildsHistory :
    State.reset.lines.resetLow = false ∧ State.reset.store.state = .loading ∧
    ∀ n ∈ [0, 4294967295], ∀ o ∈ [Settled.presented, .cancelled, .expired, .superseded],
      (⟨key1, 1, o, ⟨.wall, n⟩, false⟩ : HistoryEntry).outcome ≠ .rejected ∧ n ≤ 4294967295 := by decide
/-- R103: a WRITTEN record at position 5 and nothing above it. -/
theorem test_reload :
    let t := after .loadDone { base with store := ⟨blank.set 5 (recordOf (entry key1 1)), .loading, 0, 0⟩ }
    t.history = [⟨key1, 1, .presented, ⟨.wall, 5007⟩, true⟩] ∧ t.store.writePos = 6 ∧ t.store.state = .idle ∧
    t.events = [.device .loadDone 1 (.entries 1)] ∧ t.modem.listenStaged = true := by decide +kernel

theorem witness_IdleStoreSelects :
    (∀ pos ∈ [0, 127, 128], ∀ j ∈ [blank, zeros],
      let s := storing .idle pos 0 j
      s.store.state = .idle ∧ s.history = [] ++ entry key1 1 :: [] ∧ (s.lines.supplyOk = true) ∧
      (s.store.writePos < 128 ∨ 128 ≤ s.store.writePos)) ∧
    (entry key1 1).outcome ≠ .rejected ∧ (entry key1 1).expiry.scale = .wall ∧ (entry key1 1).persisted = false ∧
    ({ storing .idle 0 0 blank with lines := ⟨false, false⟩ } : State).lines.supplyOk = false ∧
    (∃ p : Fin 128, blank[p] ≠ 0 ∧ ∀ q : Fin 128, q < p → blank[q] = 0) ∧ ∀ p : Fin 128, zeros[p] = 0 :=
  ⟨fun pos _ _ _ => ⟨rfl, rfl, rfl, Nat.lt_or_ge pos 128⟩, nofun, rfl, rfl, rfl, ⟨0, by decide +kernel⟩, by decide +kernel⟩

theorem witness_StoreOperationsEnd :
    (∀ n ∈ [1, 7, 8], ∀ phase ∈ [none, some Phase.rewriting], ∀ p ∈ [0, 127], ∀ replaced ∈ [true, false],
      let s := storing (.busy phase (.program (entry key1 1) n replaced)) p 0 blank
      s.lines.resetLow = false ∧ s.store.writePos = p ∧ p < 128 ∧ s.lines.supplyOk = true ∧
      s.store.state = .busy phase (.program (entry key1 1) n replaced)) ∧
    (positionOf blank 0 &&& (recordOf (entry key1 1) ||| 0) = recordOf (entry key1 1) ∧
      positionOf blank 0 &&& (recordOf (entry key1 1) ||| BitVec.allOnes 64) ≠ recordOf (entry key1 1)) ∧
    (storing (.busy none .void) 127 0 blank).store.state = .busy none .void ∧
    (∀ h ∈ late.history, h.waiting = false) ∧ (entry key1 1).waiting = true ∧
    ((∀ p j, (storing .idle p 0 j).history = [] ++ entry key1 1 :: [] ∧ (storing .idle p 0 j).store.journal = j) ∧
      126 + 1 < 128 ∧ 127 + 1 = 128) ∧
    (blank[(0 : Fin 128)] ≠ 0 ∧ (∀ r : Fin 128, r < 0 → blank[r] = 0) ∧ ∀ q : Fin 128, zeros[q] = 0) ∧
    (let s := storing (.busy (some .prefill) (.prefill (126 : Fin 128).val)) 128 0 blank
     s.lines.resetLow = false ∧ s.lines.supplyOk = true ∧ s.store.state = .busy (some .prefill) (.prefill (126 : Fin 128).val) ∧
     (126 : Fin 128) < 127 ∧ s.store.journal[(127 : Fin 128)] ≠ 0 ∧
     (∀ r : Fin 128, 126 < r → r < 127 → s.store.journal[r] = 0) ∧ ∀ q : Fin 128, (127 : Fin 128) < q → s.store.journal[q] = 0) ∧
    (∀ fails ∈ [3, 4],
      let s := storing (.busy (some .erasing) .erase) 128 fails zeros
      s.lines.resetLow = false ∧ s.lines.supplyOk = true ∧ s.store.state = .busy (some .erasing) .erase ∧
      (s.store.eraseFails < 4 ↔ fails = 3)) ∧
    (let left := fun (unerased : List (Nat × BitVec 64)) (p : Fin 128) =>
       zeros[p] ||| ~~~(((unerased.find? fun c => decide (c.1 = p.val)).map (·.2)).getD 0)
     (∀ p, left [] p = BitVec.allOnes 64) ∧ left [(0, 1), (127, 8)] 127 ≠ BitVec.allOnes 64) := by
  refine ⟨?_, ?_, ?_, ?_, ?_, ⟨fun _ _ => ⟨rfl, rfl⟩, by decide⟩, ?_, ?_, ?_, ?_⟩ <;> decide +kernel
/-- R94, R97: an equal entry that comes into history while the attempt runs is a new one, and is not marked persisted. -/
theorem test_replaced_subject :
    let s := addHistory (entry key1 1)
      { storing (.busy none (.program (entry key1 1) 1 false)) 7 0 blank with history := [] }
    s.history = [entry key1 1] ∧ (after (.programAttempt 0) s).history = [entry key1 1] ∧
    (after (.programAttempt 0) s).store.state = .busy none (.program (entry key1 1) 1 false) ∧
    (after (.programAttempt 0) s).store.writePos = 8 := by decide +kernel
/-- R105, R106: a program that takes marks the entry persisted; the eighth that does not leads to a void. R109, R111: the
fifth erase attempt that fails leaves the store FAILED. -/
theorem test_store_operations :
    let s := fun n => storing (.busy none (.program (entry key1 1) n false)) 7 0 blank
    (after (.programAttempt 0) (s 1)).history = [{ entry key1 1 with persisted := true }] ∧
    (after (.programAttempt 0) (s 1)).store.writePos = 8 ∧ (after (.programAttempt 0) (s 1)).store.state = .idle ∧
    (after (.programAttempt (BitVec.allOnes 64)) (s 8)).store.state = .busy none .void ∧
    positionOf (after .void (storing (.busy none .void) 7 0 blank)).store.journal 7 = 0 ∧
    (after (.eraseAttempt [(3, 1)]) (storing (.busy (some .erasing) .erase) 128 4 zeros)).store.state = .failed ∧
    (after (.eraseAttempt [(3, 1)]) (storing (.busy (some .erasing) .erase) 128 4 zeros)).events =
      [.device .storeFailed 1 (.entries 1)] := by decide +kernel

theorem witness_SupplyLineDefersAndResumes :
    (late.lines.resetLow = false ∧ late.lines.supplyOk = true ∧ ∀ phase op, late.store.state ≠ .busy phase op) ∧
    (Operation.void ≠ .erase ∧ (storing (.busy none .void) 0 0 blank).store.state = .busy none .void) ∧
    (∀ fails ∈ [3, 4], (storing (.busy (some .erasing) .erase) 128 fails zeros).store.state = .busy (some .erasing) .erase ∧
      ((storing (.busy (some .erasing) .erase) 128 fails zeros).store.eraseFails < 4 ↔ fails = 3)) ∧
    (∀ st ∈ [StoreState.loading, .idle, .failed, .deferred none none, .deferred none (some (.program (entry key1 1) 1 false)),
        .deferred none (some .void), .deferred (some .erasing) (some .erase), .deferred (some .prefill) (some (.prefill 127))],
      let s := { storing st 0 0 blank with lines := ⟨false, false⟩ }
      s.lines.resetLow = false ∧ s.lines.supplyOk = false ∧ s.store.state = st) :=
  ⟨⟨rfl, rfl, nofun⟩, ⟨nofun, rfl⟩, by decide, by decide⟩

end Sys2Proof.Tests
end

/-! What a link receiver makes of a run of octets (R175), said of the receiver alone, and the arrival check of the modem
link (R2, R3). -/

namespace Sys2Proof.Machine

/-! ## A receiver over a run of octets -/

/-- The octets `l` take the receiver on up to the last of them, and that one is received as `r`. -/
inductive Receives : Receiver → List RxOctet → Reception → Prop where
  | last (rx : Receiver) (o : RxOctet) : Receives rx [o] (receive rx o)
  | goesOn {rx rx' : Receiver} {o : RxOctet} {l : List RxOctet} {r : Reception} :
      receive rx o = .goesOn rx' → Receives rx' l r → Receives rx (o :: l) r

/-- The octets after the first do not move the length octet. -/
theorem natAt_one_append {got : List Octet} (h : 2 ≤ got.length) (l : List Octet) :
    natAt (got ++ l) 1 = natAt got 1 := by
  simp only [natAt, octetAt, List.getD_append _ _ _ _ (show 1 < got.length by omega)]

theorem octet_toNat {n : Nat} (h : n ≤ 255) : (octet n).toNat = n := by
  simp only [octet, BitVec.toNat_ofNat]
  omega

/-- A waiting receiver begins a frame at a start octet. -/
theorem receive_waiting_start {o : RxOctet} (h : o.value = 0xC3) :
    receive .waiting o = .goesOn (.inside [] o.badStop) := if_pos h

/-- The kind octet is taken whatever it holds. -/
theorem receive_kind (bad : Bool) (o : RxOctet) :
    receive (.inside [] bad) o = .goesOn (.inside [o.value] (bad || o.badStop)) := rfl

/-- A length octet of 0 or above 250 fails the frame at once; any other is taken. -/
theorem receive_length (kind : Octet) (bad : Bool) (o : RxOctet) :
    receive (.inside [kind] bad) o =
      if o.value.toNat = 0 ∨ 250 < o.value.toNat then .failed
      else .goesOn (.inside [kind, o.value] (bad || o.badStop)) := by
  have hn : natAt [kind, o.value] 1 = o.value.toNat := rfl
  simp only [receive, List.cons_append, List.nil_append, List.length_cons, List.length_nil, hn]
  rw [if_neg (by omega), if_pos (show 0 + 1 + 1 < o.value.toNat + 4 by omega)]

/-- After the length octet, an octet before the last of the frame is taken, and the last ends the frame. -/
theorem receive_inside {got : List Octet} (h2 : 2 ≤ got.length) (h1 : 1 ≤ natAt got 1) (h250 : natAt got 1 ≤ 250)
    (bad : Bool) (o : RxOctet) :
    receive (.inside got bad) o =
      if got.length + 1 < natAt got 1 + 4 then .goesOn (.inside (got ++ [o.value]) (bad || o.badStop))
      else frameEnd (got ++ [o.value]) (bad || o.badStop) := by
  simp only [receive, natAt_one_append h2, List.length_append, List.length_singleton]
  rw [if_neg (by omega), if_neg (by omega)]

/-- After the length octet, exactly the octets still missing end the frame. -/
theorem receives_inside {l : List RxOctet} {got : List Octet} {bad : Bool} (h2 : 2 ≤ got.length) (h1 : 1 ≤ natAt got 1)
    (h250 : natAt got 1 ≤ 250) (hopen : got.length < natAt got 1 + 4) (hl : got.length + l.length = natAt got 1 + 4) :
    Receives (.inside got bad) l (frameEnd (got ++ l.map (·.value)) (bad || l.any (·.badStop))) := by
  induction l generalizing got bad with
  | nil => simp only [List.length_nil] at hl; omega
  | cons o l ih =>
    have ho := receive_inside h2 h1 h250 bad o
    simp only [List.length_cons] at hl
    by_cases hmore : got.length + 1 < natAt got 1 + 4
    · rw [if_pos hmore] at ho
      have hn := natAt_one_append h2 [o.value]
      have hall := Receives.goesOn ho (ih (by simp; omega) (hn ▸ h1) (hn ▸ h250) (by simp [hn, hmore])
        (by simp [hn]; omega))
      simpa [Bool.or_assoc] using hall
    · rw [if_neg hmore] at ho
      obtain rfl : l = [] := List.length_eq_zero_iff.1 (by omega)
      simpa [ho] using Receives.last (.inside got bad) o

/-- The envelope's check, read off a whole frame's octets. -/
theorem frameEnd_whole {payload : List Octet} (h : payload.length ≤ 250) (kind hi lo : Octet) (bad : Bool) :
    frameEnd (kind :: octet payload.length :: payload ++ [hi, lo]) bad =
      if crc16 (kind :: octet payload.length :: payload) = hi ++ lo ∧ bad = false then .passed ⟨kind, payload⟩
      else .failed := by
  have hn : natAt (kind :: octet payload.length :: payload ++ [hi, lo]) 1 = payload.length := octet_toNat (by omega)
  have hhi : octetAt (kind :: octet payload.length :: payload ++ [hi, lo]) (2 + payload.length) = hi := by
    simp [octetAt, Nat.add_comm 2]
  have hlo : octetAt (kind :: octet payload.length :: payload ++ [hi, lo]) (3 + payload.length) = lo := by
    simp [octetAt, Nat.add_comm 3]
  have htake : (kind :: octet payload.length :: payload ++ [hi, lo]).take (2 + payload.length) =
      kind :: octet payload.length :: payload := by simp [Nat.add_comm 2]
  have hdrop : ((kind :: octet payload.length :: payload ++ [hi, lo]).drop 2).take payload.length = payload := by simp
  simp only [frameEnd, hn, hhi, hlo, htake, hdrop]
  rfl

/-- A waiting receiver over a start octet and a kind octet is inside the frame with the rest to come. -/
theorem exists_rest_of_header {octets : List RxOctet} {kind : Octet} {values : List Octet}
    (e : octets.map (·.value) = 0xC3 :: kind :: values) :
    ∃ start k rest, octets = start :: k :: rest ∧ rest.map (·.value) = values ∧
      ∀ r, Receives (.inside [kind] (start.badStop || k.badStop)) rest r → Receives .waiting octets r := by
  obtain ⟨start, l, rfl, hstart, hl⟩ := List.map_eq_cons_iff.1 e
  obtain ⟨k, rest, rfl, rfl, hrest⟩ := List.map_eq_cons_iff.1 hl
  exact ⟨start, k, rest, rfl, hrest, fun _ h => .goesOn (receive_waiting_start hstart) (.goesOn (receive_kind _ k) h)⟩

/-- R175: a waiting receiver over a whole frame: it passes when its check holds and no octet had a bad stop bit. -/
theorem receives_whole {octets : List RxOctet} {payload : List Octet} {kind hi lo : Octet} (h1 : 1 ≤ payload.length)
    (h250 : payload.length ≤ 250)
    (e : octets.map (·.value) = 0xC3 :: kind :: octet payload.length :: payload ++ [hi, lo]) :
    Receives .waiting octets
      (if crc16 (kind :: octet payload.length :: payload) = hi ++ lo ∧ ∀ o ∈ octets, o.badStop = false
        then .passed ⟨kind, payload⟩ else .failed) := by
  obtain ⟨start, k, rest, rfl, e, hheader⟩ := exists_rest_of_header e
  obtain ⟨n, l, rfl, hn, hl⟩ := List.map_eq_cons_iff.1 e
  have hlen : l.length = payload.length + 2 := by simpa using congrArg List.length hl
  have hval : n.value.toNat = payload.length := hn ▸ octet_toNat (by omega)
  have hnat : natAt [kind, n.value] 1 = payload.length := hval
  have hrest := receives_inside (l := l) (got := [kind, n.value]) (bad := start.badStop || k.badStop || n.badStop)
    (by simp) (by omega) (by omega) (by simp [hnat]) (by simp [hnat, hlen]; omega)
  have hoctets : [kind, n.value] ++ l.map (·.value) = kind :: octet payload.length :: payload ++ [hi, lo] := by
    rw [hl, hn]; rfl
  have hstops : (start.badStop || k.badStop || n.badStop || l.any (·.badStop)) = false ↔
      ∀ o ∈ start :: k :: n :: l, o.badStop = false := by simp [and_assoc]
  rw [hoctets, frameEnd_whole h250] at hrest
  simp only [hstops] at hrest
  exact hheader _ (.goesOn ((receive_length kind _ n).trans (if_neg (by omega))) hrest)

/-- R175: a waiting receiver over a start octet, a kind octet and a length octet of 0 or above 250. -/
theorem receives_bad_length {octets : List RxOctet} {kind n : Octet} (h : n.toNat = 0 ∨ 250 < n.toNat)
    (e : octets.map (·.value) = [0xC3, kind, n]) : Receives .waiting octets .failed := by
  obtain ⟨start, k, rest, rfl, e, hheader⟩ := exists_rest_of_header e
  obtain ⟨o, rfl, rfl⟩ := List.map_eq_singleton_iff.1 e
  exact hheader _ ((receive_length kind _ o).trans (if_pos h) ▸ .last _ o)

/-! ## The modem link -/

/-- What the modem port does with the last octet of a run, by how it was received. -/
def modemTakes : Reception → State → State
  | .goesOn rx, s => s.updModem fun m => { m with rx := rx }
  | .failed, s => modemFrameError (s.updModem fun m => { m with rx := .waiting })
  | .passed f, s => modemFrameEnd f (s.updModem fun m => { m with rx := .waiting })

theorem modemOctet_eq (o : RxOctet) (s : State) : modemOctet o s = modemTakes (receive s.modem.rx o) s := by
  unfold modemOctet
  cases receive s.modem.rx o <;> rfl

/-- Every reception sets the receiver anew. -/
theorem modemTakes_goesOn (r : Reception) (rx : Receiver) (s : State) :
    modemTakes r (modemTakes (.goesOn rx) s) = modemTakes r s := by
  cases r <;> rfl

/-- The modem port over a run of octets does what its last octet's reception asks. -/
theorem modemOctets_of_receives {rx : Receiver} {l : List RxOctet} {r : Reception} (h : Receives rx l r) {s : State}
    (hrx : s.modem.rx = rx) : modemOctets l s = modemTakes r s := by
  induction h generalizing s with
  | last rx o => rw [← hrx]; exact modemOctet_eq o s
  | @goesOn rx rx' o l r ho _ ih =>
    calc modemOctets (o :: l) s
        = modemOctets l (modemTakes (.goesOn rx') s) := by rw [← ho, ← hrx, ← modemOctet_eq]; rfl
      _ = modemTakes r (modemTakes (.goesOn rx') s) := ih rfl
      _ = modemTakes r s := modemTakes_goesOn r rx' s

/-- A waiting receiver set to waiting is as it was. -/
theorem updModem_waiting {s : State} (h : s.modem.rx = .waiting) : (s.updModem fun m => { m with rx := .waiting }) = s := by
  simp only [State.updModem, ← h]

theorem exec_modemFrameArrival (octets : List RxOctet) (s : State) :
    exec (.modemFrameArrival octets) s = .next (whenRunning (modemOctets octets) s) := rfl

/-- MODEM_FRAME_ARRIVAL while RESET is high, over octets that a waiting receiver takes up to a reception `r`. -/
theorem exec_modemFrameArrival_of_receives {octets : List RxOctet} {r : Reception} {s : State}
    (hreset : s.lines.resetLow = false) (hrx : s.modem.rx = .waiting) (h : Receives .waiting octets r) :
    exec (.modemFrameArrival octets) s = .next (modemTakes r s) := by
  rw [exec_modemFrameArrival, whenRunning, hreset, if_neg Bool.false_ne_true, modemOctets_of_receives h hrx]

/-- R2: a failed frame, at a receiver that waited for it. -/
theorem modemTakes_failed {s : State} (h : s.modem.rx = .waiting) : modemTakes .failed s = modemFrameError s :=
  congrArg modemFrameError (updModem_waiting h)

/-- R2, R3: a frame that passed the envelope's check, at a receiver that waited for it. -/
theorem modemTakes_passed {s : State} (h : s.modem.rx = .waiting) (f : Frame) :
    modemTakes (.passed f) s = modemFrameEnd f s :=
  congrArg (modemFrameEnd f) (updModem_waiting h)

/-- R3: a frame joins a FIFO of fewer than 8 frames, and is otherwise dropped and counted. -/
theorem offerToFifo_eq (f : Frame) (s : State) :
    offerToFifo f s =
      if s.modem.fifo.length < 8 then { s with modem := { s.modem with fifo := s.modem.fifo ++ [f] } }
      else { s with modem := { s.modem with overflow := bump 65535 s.modem.overflow } } :=
  apply_ite (fun m => { s with modem := m }) _ _ _

/-- Settles O13: a receiver's verdict on the octets (`receives_whole`, `receives_bad_length`), and then what the modem
port does with it. -/
theorem modemFrameArrivalDecides : Obligations.ModemFrameArrivalDecides := by
  intro s octets kind hreset hrx
  refine ⟨fun payload hi lo h1 h250 e => ?_, fun n hn e => ?_⟩
  · rw [exec_modemFrameArrival_of_receives hreset hrx (receives_whole h1 h250 e), ← offerToFifo_eq]
    by_cases hcheck : crc16 (kind :: octet payload.length :: payload) = hi ++ lo ∧ ∀ o ∈ octets, o.badStop = false
    · rw [if_pos hcheck, modemTakes_passed hrx]
      exact congrArg _ (if_congr ⟨fun hkind => ⟨hcheck.1, hcheck.2, hkind⟩, fun ⟨_, _, hkind⟩ => hkind⟩ rfl rfl)
    · rw [if_neg hcheck, if_neg (fun ⟨hcrc, hstops, _⟩ => hcheck ⟨hcrc, hstops⟩), modemTakes_failed hrx]
      rfl
  · rw [exec_modemFrameArrival_of_receives hreset hrx (receives_bad_length hn e), modemTakes_failed hrx]
    rfl

end Sys2Proof.Machine

/-! ## The vote of the combiner -/

namespace Sys2Proof.Machine

theorem zipEntries_getElem {α β γ : Type} {n : Nat} (f : α → β → γ) (v : Vector α n) (w : Vector β n) (k : Fin n) :
    (zipEntries f v w)[k] = f v[k] w[k] := by
  simp [zipEntries]

theorem combined_of_buffer {r : SheetRecord} {b : Buffer} (hb : r.buffer = some b) (body : Vector Pair 48) :
    r.combined body = voteBuffer b body := by
  simp only [SheetRecord.combined, hb]

/-- R20: what a vote leaves in a position is the table of R20 over that position and the copy's pair for it. -/
theorem voteBuffer_getElem (b : Buffer) (body : Vector Pair 48) (k : Fin 48) :
    (voteBuffer b body)[k] = votePosition b[k] body[k] := zipEntries_getElem votePosition b body k

/-- Settles O22: whatever the evaluation makes of the record, its buffer is the vote's (`combine_buffer`), and the vote
folds position by position. -/
theorem voteFoldsEachPosition : Obligations.VoteFoldsEachPosition := by
  intro profile uptime cell body r b hb
  have hbuffer : (r.combine profile uptime cell body).buffer = some (voteBuffer b body) := by
    rw [combine_buffer, combined_of_buffer hb]
  refine ⟨voteBuffer b body, hbuffer, fun k => ?_⟩
  rw [voteBuffer_getElem, votePosition]

end Sys2Proof.Machine

/-! ## Screening: zone codes, the decision, and writes of the location record (R60 to R73) -/

namespace Sys2Proof.Machine

/-! ### Overlap (R60, R61) -/

theorem Zone.path_length (z : Zone) : z.path.length = min 6 z.level.toNat := by
  simp [Zone.path]

theorem Zone.overlaps_iff (a b : Zone) : a.overlaps b = true ↔ a.path <+: b.path ∨ b.path <+: a.path := by
  simp [Zone.overlaps]

theorem Zone.overlaps_comm (a b : Zone) : a.overlaps b = b.overlaps a := Bool.or_comm ..

theorem Zone.overlaps_of_level_zero {a : Zone} (h : a.level = 0) (b : Zone) : a.overlaps b = true := by
  have hpath : a.path = [] := by simp [Zone.path, h]
  exact (a.overlaps_iff b).2 (.inl (hpath ▸ List.nil_prefix))

/-- R61: of two codes that overlap, the one of the lower effective level starts the other. -/
theorem Zone.overlaps_iff_eq_take {a b : Zone} (h : min 6 a.level.toNat ≤ min 6 b.level.toNat) :
    a.overlaps b = true ↔ a.path = b.path.take (min 6 a.level.toNat) := by
  have hlength : a.path.length ≤ b.path.length := by rwa [path_length, path_length]
  have hlower : b.path <+: a.path → a.path <+: b.path := fun hba => (hba.eq_of_length_le hlength) ▸ List.prefix_rfl
  rw [overlaps_iff, or_iff_left_of_imp hlower, List.prefix_iff_eq_take, path_length]

theorem Zone.overlaps_iff_path_eq {a b : Zone} (h : min 6 a.level.toNat = min 6 b.level.toNat) :
    a.overlaps b = true ↔ a.path = b.path := by
  rw [overlaps_iff_eq_take h.le, List.take_of_length_le (by rw [path_length, h])]

/-! ### The decision (R36, R64, R67) -/

theorem leadOf_zones_length (p : List Octet) : (leadOf p).zones.length = min 8 (natAt p 5) := by
  simp [leadOf]

theorem leadOf_zones_getElem? {p : List Octet} {k : Nat} (h : k < min 8 (natAt p 5)) :
    (leadOf p).zones[k]? = some (zoneAt p (6 + 3 * k)) := by
  simp [leadOf, List.getElem?_range h]

theorem leadOf_zones_eq_nil_iff (p : List Octet) : (leadOf p).zones = [] ↔ natAt p 5 = 0 := by
  rw [← List.length_eq_zero_iff, leadOf_zones_length]
  omega

/-- R64: a location that is known holds a zone code. -/
theorem Location.effective_ne_nil {l : Location} {here : List Zone} (h : l.effective = some here) : here ≠ [] := by
  rintro rfl
  unfold Location.effective at h
  split at h
  case isTrue => simp at h
  case isFalse hhost => exact hhost (List.isEmpty_iff.2 (Option.some.inj h))

theorem screensPresent_nationwide {lead : Lead} (h : lead.zones = []) (l : Location) (policy : Policy) :
    screensPresent lead l policy = true := by
  simp [screensPresent, h]

theorem screensPresent_known {lead : Lead} (hz : lead.zones ≠ []) {l : Location} {here : List Zone}
    (h : l.effective = some here) (policy : Policy) :
    screensPresent lead l policy = true ↔ ∃ z ∈ lead.zones, ∃ h ∈ here, z.overlaps h = true := by
  simp [screensPresent, hz, h]

theorem screensPresent_unknown {lead : Lead} (hz : lead.zones ≠ []) {l : Location} (h : l.effective = none)
    (policy : Policy) : screensPresent lead l policy = true ↔ policy = .presentAll := by
  cases policy <;> simp [screensPresent, hz, h]

/-- R67: wherever the location is known, a lead with a zone of level 0 is presented. -/
theorem screensPresent_of_level_zero {lead : Lead} {l : Location} {here : List Zone} (h : l.effective = some here)
    (policy : Policy) (hz : ∃ z ∈ lead.zones, z.level = 0) : screensPresent lead l policy = true := by
  obtain ⟨z, hmem, hlevel⟩ := hz
  obtain ⟨x, hx⟩ := List.exists_mem_of_ne_nil here (Location.effective_ne_nil h)
  exact (screensPresent_known (List.ne_nil_of_mem hmem) h policy).2 ⟨z, hmem, x, hx, z.overlaps_of_level_zero hlevel x⟩

/-- Settles O27: overlap by the lengths of the two paths, and the decision by the lines of R67's table. -/
theorem overlapAndScreeningFollowTheirTables : Obligations.OverlapAndScreeningFollowTheirTables := by
  refine ⟨fun a b => ⟨Zone.overlaps_iff_eq_take, Zone.overlaps_iff_path_eq, fun h => Zone.overlaps_of_level_zero h b,
    a.overlaps_comm b⟩, fun p l policy => ⟨leadOf_zones_length p, fun _ => leadOf_zones_getElem?, fun hcount => ?_,
    fun hcount => ?_⟩⟩
  · exact screensPresent_nationwide ((leadOf_zones_eq_nil_iff p).2 hcount) l policy
  · have hz : (leadOf p).zones ≠ [] := mt (leadOf_zones_eq_nil_iff p).1 hcount
    exact ⟨fun here h => ⟨screensPresent_known hz h policy, screensPresent_of_level_zero h policy⟩,
      fun h => screensPresent_unknown hz h policy⟩

/-! ### A write of the location record (R64, R73) -/

theorem Zone.same_iff (a b : Zone) : a.same b = true ↔ a.path = b.path := beq_iff_eq

theorem zonesWithin_iff (a b : List Zone) : zonesWithin a b = true ↔ ∀ x ∈ a, ∃ y ∈ b, x.path = y.path := by
  simp [zonesWithin, Zone.same_iff]

theorem sameLocation_iff (a b : Option (List Zone)) : sameLocation a b = true ↔ LocationsAgree a b := by
  match a, b with
  | none, none => exact iff_of_true rfl trivial
  | none, some _ | some _, none => exact iff_of_false Bool.false_ne_true id
  | some a, some b =>
    rw [sameLocation, Bool.and_eq_true, zonesWithin_iff, zonesWithin_iff]
    rfl

theorem writeLocation_of_agree {l : Location} {s : State} (h : LocationsAgree s.location.effective l.effective) :
    writeLocation l s = { s with location := l } := if_pos ((sameLocation_iff ..).2 h)

theorem writeLocation_of_not_agree {l : Location} {s : State} (h : ¬ LocationsAgree s.location.effective l.effective) :
    writeLocation l s =
      { s with location := l, history := s.history.filter fun h => h.outcome ≠ .rejected } :=
  if_neg (mt (sameLocation_iff ..).1 h)

theorem setHostZones_eq_writeLocation (l : List Zone) (s : State) :
    setHostZones l s = writeLocation { s.location with hostZones := l } s := rfl

/-! ### CELL and SET-LOCATION (R4, R9, R63, R177) -/

/-- R4: the oldest frame of the intake FIFO, of the kind the command takes, is handled. -/
theorem takeFrame_of_frameReady {kind : Octet} {f : Frame} {rest : List Frame} {s : State}
    (h : FrameReady kind f rest s) (handle : List Octet → State → State) :
    whenRunning (takeFrame kind handle) s = handle f.payload (withFifo rest s) := by
  obtain ⟨hrunning, hloaded, holdest, hkind⟩ := h
  simp [whenRunning, takeFrame, withFifo, hrunning, hloaded, holdest, hkind]

/-- R177: a request that is ready, outside LOADING and of a length that fits, is carried out and answered. -/
theorem takeRequest_of_requestReady {kind : Octet} {f : Frame} {rest : List Frame} {s : State}
    (h : RequestReady kind f rest s) (hloaded : s.store.state ≠ .loading) {fits : List Octet → Bool}
    (hfits : fits f.payload = true) (tail : List Octet) (carry : List Octet → State → State × List Octet) :
    whenRunning (takeRequest kind (whenReady fits tail carry)) s =
      respond f (carry f.payload (withStaging rest s)).2 (carry f.payload (withStaging rest s)).1 := by
  obtain ⟨hrunning, hfree, holdest, hkind⟩ := h
  simp [whenRunning, takeRequest, whenReady, withStaging, hrunning, hfree, holdest, hkind, hloaded, hfits]

theorem exec_cell_of_frameReady {f : Frame} {rest : List Frame} {s : State} (h : FrameReady kindCell f rest s) :
    exec .cell s = .next (takeCell f.payload (withFifo rest s)) :=
  congrArg Host.Outcome.next (takeFrame_of_frameReady h takeCell)

theorem zoneListFits_of_length {p : List Octet} {k : Nat} (hk : k ≤ 4) (h : p.length = 1 + 3 * k) :
    zoneListFits p = true := by
  simp only [zoneListFits, Bool.and_eq_true, beq_iff_eq, decide_eq_true_eq]
  omega

theorem zonesOf_of_length {p : List Octet} {k : Nat} (h : p.length = 1 + 3 * k) :
    zonesOf p = (List.range k).map fun j => zoneAt p (1 + 3 * j) := by
  have hcount : (p.length - 1) / 3 = k := by omega
  rw [zonesOf, hcount]

theorem exec_setLocation_of_requestReady {f : Frame} {rest : List Frame} {s : State} (h : RequestReady 0x03 f rest s)
    (hloaded : s.store.state ≠ .loading) (hfits : zoneListFits f.payload = true) :
    exec .setLocation s = .next (respond f [codeOk] (setHostZones (zonesOf f.payload) (withStaging rest s))) :=
  congrArg Host.Outcome.next
    (takeRequest_of_requestReady h hloaded hfits [] fun p s => (setHostZones (zonesOf p) s, [codeOk]))

/-- Settles O28: both commands come to one write of the location record (`writeLocation_of_agree`,
`writeLocation_of_not_agree`). -/
theorem locationChangesRemoveRejections : Obligations.LocationChangesRemoveRejections := by
  refine ⟨fun f rest s hready => ?_, fun f rest s k hready hloaded hk hlength => ?_⟩
  · rw [exec_cell_of_frameReady hready]
    exact ⟨fun h => congrArg Host.Outcome.next (writeLocation_of_agree h),
      fun h => congrArg Host.Outcome.next (writeLocation_of_not_agree h)⟩
  · rw [exec_setLocation_of_requestReady hready hloaded (zoneListFits_of_length hk hlength), zonesOf_of_length hlength,
      setHostZones_eq_writeLocation]
    exact ⟨fun h => congrArg (Host.Outcome.next ∘ respond f [codeOk]) (writeLocation_of_agree (s := withStaging rest s) h),
      fun h => congrArg (Host.Outcome.next ∘ respond f [codeOk]) (writeLocation_of_not_agree (s := withStaging rest s) h)⟩

end Sys2Proof.Machine

/-! ## Receipts: the dispersal delay (R165) -/

namespace Sys2Proof.Machine

/-! ### The arithmetic -/

/-- R165: the two halves of the handset tag, taken from its number. -/
theorem dispersalHash_eq (tag : BitVec 32) (key : Key) (revision : BitVec 4) :
    dispersalHash tag key revision = (tag.toNat % 65536 * 40503 + tag.toNat / 65536 * 12289 + key.issuer.toNat * 8191
      + key.number.toNat * 127 + revision.toNat) % 65536 := by
  have hlow : (tag.extractLsb' 0 16).toNat = tag.toNat % 65536 := by
    rw [BitVec.extractLsb'_toNat, Nat.shiftRight_zero]
  have hhigh : (tag.extractLsb' 16 16).toNat = tag.toNat / 65536 := by
    rw [BitVec.extractLsb'_toNat, Nat.shiftRight_eq_div_pow]
    exact Nat.mod_eq_of_lt (Nat.div_lt_of_lt_mul tag.isLt)
  rw [dispersalHash, hlow, hhigh]

theorem dispersalHash_lt (tag : BitVec 32) (key : Key) (revision : BitVec 4) : dispersalHash tag key revision < 65536 :=
  Nat.mod_lt _ (by decide)

theorem dispersalDelay_no_window (tag : BitVec 32) (key : Key) (revision : BitVec 4) :
    dispersalDelay tag key revision 0 = 0 := by
  simp [dispersalDelay]

/-- R165: a receipt is due within its window. -/
theorem dispersalDelay_lt (tag : BitVec 32) (key : Key) (revision : BitVec 4) {window : Nat} (h : window ≠ 0) :
    dispersalDelay tag key revision window < window * 10 :=
  Nat.div_lt_of_lt_mul (Nat.mul_lt_mul_of_pos_right (dispersalHash_lt tag key revision) (by omega))

/-! ### The due times do not depend on the kind (R164, R166) -/

/-- R166: an entry's place is chosen by its due time and its entry order alone. -/
theorem Receipt.before_congr_right (x : Receipt) {a b : Receipt} (hdue : a.due = b.due) (horder : a.order = b.order) :
    x.before a = x.before b := by
  rw [Receipt.before, Receipt.before, hdue, horder]

theorem insertReceipt_map_due_congr {a b : Receipt} (hdue : a.due = b.due) (horder : a.order = b.order)
    (l : List Receipt) : (insertReceipt a l).map (·.due) = (insertReceipt b l).map (·.due) := by
  induction l with
  | nil => simp [insertReceipt, hdue]
  | cons x l ih =>
    rw [insertReceipt, insertReceipt, x.before_congr_right hdue horder]
    split
    case isTrue => simp only [List.map_cons, ih]
    case isFalse => simp only [List.map_cons, hdue]

/-- R164, R165: two requests of one slot in one state leave the same due times, whatever their kinds and delays: both are
admitted with one due time and one entry order, both are dropped, or both do nothing. -/
theorem requestReceipt_dues_eq (x : Slot) (kind kind' : ReceiptKind) (delay delay' : Nat) (s : State) :
    (requestReceipt x kind delay s).receipts.queue.map (·.due) =
      (requestReceipt x kind' delay' s).receipts.queue.map (·.due) := by
  unfold requestReceipt
  split
  case h_1 =>
    split
    case isTrue hroom =>
      simp only [State.updReceipts_receipts]
      exact insertReceipt_map_due_congr (by rfl) (by rfl) s.receipts.queue
    case isFalse hfull => rfl
  case h_2 => rfl

/-- Settles O34: the delay from the tag's halves (`dispersalHash_eq`), its bounds, and the due times of the two kinds. -/
theorem dispersalDelayIsExact : Obligations.DispersalDelayIsExact := by
  intro tag key revision window _ low high h d
  have hd : d = h * (window * 10) / 65536 := by
    rw [← show dispersalHash tag key revision = h from dispersalHash_eq tag key revision]
    rfl
  have hzero : window = 0 → d = 0 := by
    rintro rfl
    exact dispersalDelay_no_window tag key revision
  have hwithin : window ≠ 0 → d ≤ window * 10 - 1 := fun hw => Nat.le_sub_one_of_lt (dispersalDelay_lt tag key revision hw)
  exact ⟨hd, hzero, hwithin, fun s x delay => requestReceipt_dues_eq x .presented .acknowledged 0 delay s⟩

end Sys2Proof.Machine

/-! What a command does, told apart by the level of RESET, and what every step keeps (O1, O3, O4, O6 to O11). -/

namespace Sys2Proof.Machine

set_option Elab.async false

/-! ## The effect of a command (R157) -/

/-- What a command does while RESET is low: RESET_RELEASE leaves the blocks at their reset values, and SUPPLY_OK's level
follows its line. -/
def underReset : Instr → State → State
  | .resetRelease, s => blocksAtReset false s
  | .supplyOkFall, s => s.updLines fun l => { l with supplyOk := false }
  | .supplyOkRise, s => s.updLines fun l => { l with supplyOk := true }
  | _, s => s

/-- What a command does while RESET is high. -/
def work : Instr → State → State
  | .modemFrameArrival octets => modemOctets octets
  | .hostFrameArrival octets => hostOctets octets
  | .interOctetTimeout link => linkTimeout link
  | .sheet => takeFrame kindSheet intakeCopy
  | .cell => takeFrame kindCell takeCell
  | .channelState => takeFrame kindChannelState takeChannelState
  | .uplinkResult => takeFrame kindUplinkResult takeUplinkResult
  | .outboundTransmit => transmit
  | .uplinkRequestSent => requestSent
  | .handoff => beginHandoff
  | .resultWaitExpiry => waitExpiry
  | .receiptStale => dropStale
  | .status => takeRequest 0x01 carryStatus
  | .setClock => takeRequest 0x02 (whenReady (lengthIs 5) [] fun p s => (setWallClock (word32At p 1).toNat s, [codeOk]))
  | .setLocation => takeRequest 0x03 (whenReady zoneListFits [] fun p s => (setHostZones (zonesOf p) s, [codeOk]))
  | .setProfile => takeRequest 0x04 (whenReady (lengthIs 22) [] carryProfile)
  | .setTag => takeRequest 0x05 (whenReady (lengthIs 5) [] fun p s =>
      (s.updSettings fun c => { c with tag := word32At p 1 }, [codeOk]))
  | .setCadence => takeRequest 0x06 (whenReady cadenceFits [] carryCadence)
  | .list => takeRequest 0x07 (whenReady (lengthIs 1) [] fun _ s => (s, listBody s))
  | .read => takeRequest 0x08 (whenReady (lengthIs 3) [] fun p s => (s, readBody (natAt p 1) (natAt p 2) s))
  | .ack => takeRequest 0x09 (whenReady (lengthIs 2) [0] carryAck)
  | .release => takeRequest 0x0A (whenReady (lengthIs 2) [] carryRelease)
  | .events => takeRequest 0x0B (whenReady (lengthIs 1) [] fun _ s => (s.updEvents fun _ => [], eventsBody s))
  | .history => takeRequest 0x0C (whenReady (lengthIs 2) [] fun p s => (s, historyBody (natAt p 1) s))
  | .preview => takeRequest 0x0D (whenReady (lengthIs 2) [] carryPreview)
  | .restart => takeRequest 0x0E (whenReady (lengthIs 1) [] fun _ s => (clearAll s, [codeOk]))
  | .unknownRequest => takeUnknown
  | .replySent => fun s => s.updHost fun h => { h with reply := none }
  | .holdExpiry slot index => holdExpiry slot index
  | .gatheringTimeout slot => gatheringTimeout slot
  | .assemblyLimit slot => assemblyLimit slot
  | .slotExpiry => slotExpiries
  | .retentionPruning => pruneHistory
  | .reminderExpiry => reminderExpiry
  | .segmentBoundary => segmentBoundary
  | .pressRecognition key => recognisePress key
  | .releaseRecognition key => recogniseRelease key
  | .chordFires => fireChord
  | .hardwareReset => fun s => blocksAtReset true (stopStore s)
  | .resetRelease => fun s => s
  | .loadDone => finishReload
  | .supplyOkFall => supplyFall
  | .supplyOkRise => supplyRise
  | .programAttempt unset => programAttempt unset
  | .void => voidDone
  | .prefillProgram => prefillDone
  | .eraseAttempt unerased => eraseAttempt unerased
  | .uptimeSecond order => second order
  | .keySample ackLow silenceLow => fun s => s.updKeys (sampleKeys ackLow silenceLow)
  | .startOctet link badStop => linkStart link badStop
  | .listenSetSent => listenSent

theorem supplyFall_of_low {s : State} (h : s.lines.resetLow = true) :
    supplyFall s = s.updLines fun l => { l with supplyOk := false } := by
  unfold supplyFall
  split
  case isTrue => simp [whenRunning, h]
  case isFalse hlow => simp only [State.updLines, ← Bool.not_eq_true _ ▸ hlow]

theorem supplyRise_of_low {s : State} (h : s.lines.resetLow = true) :
    supplyRise s = s.updLines fun l => { l with supplyOk := true } := by
  unfold supplyRise
  split
  case isTrue hhigh => simp only [State.updLines, ← hhigh]
  case isFalse => simp [whenRunning, h]

/-- Every command answers a next state: its effect under RESET, or its work. -/
theorem exec_eq (i : Instr) (s : State) :
    exec i s = .next (if s.lines.resetLow = true then underReset i s else work i s) := by
  cases i
  case supplyOkFall =>
    refine congrArg Host.Outcome.next ?_
    split
    case isTrue h => exact supplyFall_of_low h
    case isFalse => rfl
  case supplyOkRise =>
    refine congrArg Host.Outcome.next ?_
    split
    case isTrue h => exact supplyRise_of_low h
    case isFalse => rfl
  all_goals rfl

theorem exec_of_running {s : State} (h : s.lines.resetLow = false) (i : Instr) : exec i s = .next (work i s) := by
  rw [exec_eq, h, if_neg Bool.false_ne_true]

theorem exec_of_low {s : State} (h : s.lines.resetLow = true) (i : Instr) : exec i s = .next (underReset i s) := by
  rw [exec_eq, if_pos h]

/-- Settles O1: by the definition of a step. -/
theorem stepRunsTheFrontCommand : Obligations.StepRunsTheFrontCommand := by
  intro c rest s h
  simp only [step, h]

/-- Settles O4: under RESET the outputs are held low, and a command's effect is `underReset`. -/
theorem nothingHappensWhileResetIsLow : Obligations.NothingHappensWhileResetIsLow := by
  intro i s h
  refine ⟨⟨by simp [State.tone, h], by simp [State.vib, h], by simp [State.evt, h]⟩, fun hi => ?_⟩
  rw [exec_of_low h]
  cases i
  case resetRelease => exact absurd rfl hi
  all_goals rfl

/-! ## What a step keeps, from what each command's work keeps -/

/-- A predicate is kept by every step when the queue is nothing to it, the idle clock keeps it, it holds of blocks at
their reset values, SUPPLY_OK's level under RESET is nothing to it, and every command's work keeps it. -/
theorem step_keeps {P : State → Prop} {s t : State} (hs : P s) (hstep : step s = .next t)
    (hqueue : ∀ s l, P s → P (s.updPending l)) (hidle : P s → P (idle s)) (hreset : ∀ s, P (blocksAtReset false s))
    (hsupply : ∀ s b, s.lines.resetLow = true → P s → P (s.updLines fun l => { l with supplyOk := b }))
    (hwork : ∀ i s, s.lines.resetLow = false → P s → P (work i s)) : P t := by
  unfold step at hstep
  split at hstep
  case h_1 =>
    cases hstep
    exact hidle hs
  case h_2 c rest _ =>
    have hu := hqueue s (fun _ => rest) hs
    generalize s.updPending (fun _ => rest) = u at hu hstep
    cases hlow : u.lines.resetLow with
    | false =>
      rw [exec_of_running hlow] at hstep
      cases hstep
      exact hwork c u hlow hu
    | true =>
      rw [exec_of_low hlow] at hstep
      cases hstep
      cases c
      case resetRelease => exact hreset u
      case supplyOkFall => exact hsupply u false hlow hu
      case supplyOkRise => exact hsupply u true hlow hu
      all_goals exact hu

/-! ## Frames and forms -/

/-- A change known by its frame and the form of every block after it. -/
theorem Keeps.ofWf {l : List Block} {s t : State} (frame : changesOnly l s t) (w : t.wf) : Keeps l s t :=
  ⟨frame, fun _ => w.modem, fun _ => w.slots, fun _ => w.pool, fun _ => w.location, fun _ => w.time, fun _ => w.history,
    fun _ => w.store, fun _ => w.settings, fun _ _ => w.cycle, fun _ _ => w.keys, fun _ => w.receipts,
    fun _ => w.events, fun _ _ => w.host⟩

/-- A request outside LOADING and of a length that fits, by what its own work keeps. -/
theorem takeReady_keeps {kind : Octet} {fits : List Octet → Bool} {tail : List Octet}
    {carry : List Octet → State → State × List Octet} {l : List Block} {s : State}
    (h : ∀ p t, fits p = true → Keeps l t (carry p t).1) (hb : ∀ p t, EventsWf t.events → fitsReply (carry p t).2)
    (ht : tail.length ≤ 1 := by decide) :
    Keeps (.host :: l) s (takeRequest kind (whenReady fits tail carry) s) :=
  takeRequest_keeps kind (whenReady_keeps fits tail h) (whenReady_fits fits ht hb)

/-- The commands whose work keeps the form of each block whatever the form of the others. -/
def Instr.isPlain : Instr → Bool
  | .sheet | .eraseAttempt _ | .supplyOkFall | .supplyOkRise | .hardwareReset => false
  | _ => true

theorem work_keeps_of_isPlain (i : Instr) (s : State) (h : Instr.isPlain i = true) : Keeps (touches i) s (work i s) := by
  cases i with
  | modemFrameArrival octets => exact modemOctets_keeps octets
  | hostFrameArrival octets => exact hostOctets_keeps octets
  | interOctetTimeout link => exact linkTimeout_keeps link
  | sheet => cases h
  | cell => exact (takeFrame_keeps kindCell fun p _ => takeCell_keeps p).mono
  | channelState => exact (takeFrame_keeps kindChannelState fun p _ => takeChannelState_keeps p).mono
  | uplinkResult => exact (takeFrame_keeps kindUplinkResult fun p _ => takeUplinkResult_keeps p).mono
  | outboundTransmit => exact transmit_keeps
  | uplinkRequestSent => exact requestSent_keeps
  | handoff => exact beginHandoff_keeps
  | resultWaitExpiry => exact waitExpiry_keeps
  | receiptStale => exact dropStale_keeps
  | status => exact takeRequest_keeps 0x01 carryStatus_keeps fun p t _ => carryStatus_fits p t
  | setClock =>
    exact takeReady_keeps (fun p _ _ => setWallClock_keeps (word32At_le p 1))
      fun _ _ _ => fitsReply_one codeOk
  | setLocation =>
    exact takeReady_keeps (fun _ _ hf => setHostZones_keeps (zonesOf_length hf))
      fun _ _ _ => fitsReply_one codeOk
  | setProfile =>
    exact takeReady_keeps (fun p t _ => carryProfile_keeps p t)
      fun p t _ => carryProfile_fits p t
  | setTag =>
    exact takeReady_keeps (fun p _ _ => setTag_keeps (word32At p 1))
      fun _ _ _ => fitsReply_one codeOk
  | setCadence =>
    exact takeReady_keeps (fun p t _ => carryCadence_keeps p t)
      fun p t _ => carryCadence_fits p t
  | list => exact takeReady_keeps (fun _ t _ => .refl [] t) fun _ t _ => listBody_fits t
  | read =>
    exact takeReady_keeps (fun _ t _ => .refl [] t)
      fun p t _ => readBody_fits (natAt p 1) (natAt p 2) t
  | ack =>
    exact takeReady_keeps (fun p t _ => carryAck_keeps p t)
      fun p t _ => carryAck_fits p t
  | release =>
    exact takeReady_keeps (fun p t _ => carryRelease_keeps p t)
      fun p t _ => carryRelease_fits p t
  | events =>
    exact takeReady_keeps (fun _ _ _ => emptyEvents_keeps)
      fun _ _ he => eventsBody_fits he
  | history =>
    exact takeReady_keeps (fun _ t _ => .refl [] t)
      fun p t _ => historyBody_fits (natAt p 1) t
  | preview =>
    exact takeReady_keeps (fun p t _ => carryPreview_keeps p t)
      fun p t _ => carryPreview_fits p t
  | restart =>
    exact takeReady_keeps (fun _ _ _ => clearAll_keeps)
      fun _ _ _ => fitsReply_one codeOk
  | unknownRequest => exact takeUnknown_keeps
  | replySent => exact replySent_keeps
  | holdExpiry slot index => exact holdExpiry_keeps slot index
  | gatheringTimeout slot => exact gatheringTimeout_keeps slot
  | assemblyLimit slot => exact assemblyLimit_keeps slot
  | slotExpiry => exact slotExpiries_keeps
  | retentionPruning => exact pruneHistory_keeps
  | reminderExpiry => exact reminderExpiry_keeps
  | segmentBoundary => exact segmentBoundary_keeps
  | pressRecognition key => exact recognisePress_keeps key
  | releaseRecognition key => exact recogniseRelease_keeps key
  | chordFires => exact fireChord_keeps
  | hardwareReset => cases h
  | resetRelease => exact .refl _ s
  | loadDone => exact finishReload_keeps
  | supplyOkFall => cases h
  | supplyOkRise => cases h
  | programAttempt unset => exact programAttempt_keeps unset
  | void => exact voidDone_keeps
  | prefillProgram => exact prefillDone_keeps
  | eraseAttempt unerased => cases h
  | uptimeSecond order => exact second_keeps order
  | keySample ackLow silenceLow => exact keySample_keeps ackLow silenceLow
  | startOctet link badStop => exact linkStart_keeps link badStop
  | listenSetSent => exact listenSent_keeps

theorem blocksAtReset_frame (low : Bool) (s : State) : changesOnly (touches .resetRelease) s (blocksAtReset low s) :=
  fun b hb => by
    cases b
    case draws | pending => rfl
    all_goals exact absurd hb (by decide)

theorem stopStore_frame (s : State) : changesOnly [.store, .draws] s (stopStore s) := by
  unfold stopStore
  split
  · exact stopOperation_frame _
  · exact .refl _ s

theorem work_frame (i : Instr) (s : State) : changesOnly (touches i) s (work i s) := by
  cases i
  case sheet => exact takeSheet_frame
  case eraseAttempt unerased => exact eraseAttempt_frame unerased
  case supplyOkFall => exact supplyFall_frame
  case supplyOkRise => exact supplyRise_frame
  case hardwareReset => exact (stopStore_frame s).trans (blocksAtReset_frame true _) (by decide) (by decide)
  all_goals exact (work_keeps_of_isPlain _ s rfl).frame

theorem underReset_frame (i : Instr) (s : State) : changesOnly (touches i) s (underReset i s) := by
  have hsupply (b : Bool) : changesOnly [.lines] s (s.updLines fun l => { l with supplyOk := b }) := fun b hb => by
    cases b
    case lines => exact absurd hb (by decide)
    all_goals rfl
  cases i
  case resetRelease => exact blocksAtReset_frame false s
  case supplyOkFall => exact (hsupply false).mono (m := [.lines, .store, .events, .draws]) (by decide)
  case supplyOkRise => exact (hsupply true).mono (m := [.lines, .store, .history]) (by decide)
  all_goals exact .refl _ s

/-- Settles O3: a command's effect is its work or what it does under RESET, and both keep its frame. -/
theorem everyCommandAnswersWithinItsFrame : Obligations.EveryCommandAnswersWithinItsFrame := by
  intro i s
  refine ⟨_, exec_eq i s, ?_⟩
  split
  · exact underReset_frame i s
  · exact work_frame i s

/-- Each command's work keeps every block in its form. -/
theorem work_wf (i : Instr) {s : State} (hreset : s.lines.resetLow = false) (w : s.wf) : (work i s).wf := by
  have hloading : s.lines.resetLow = true → s.store.state = .loading := fun h => nomatch h.symm.trans hreset
  cases i
  case sheet => exact (takeSheet_keeps w.slots w.pool).wf w
  case eraseAttempt unerased => exact (eraseAttempt_keeps unerased w.store).wf w
  case supplyOkFall => exact (supplyFall_keeps hloading).wf w
  case supplyOkRise => exact (supplyRise_keeps hloading).wf w
  case hardwareReset => exact blocksAtReset_wf true
  all_goals exact (work_keeps_of_isPlain _ s rfl).wf w

/-- Only HARDWARE_RESET brings RESET low. -/
theorem work_resetLow {i : Instr} (hi : i ≠ .hardwareReset) {s : State} (hreset : s.lines.resetLow = false) :
    (work i s).lines.resetLow = false := by
  cases i
  case hardwareReset => exact absurd rfl hi
  case resetRelease => exact hreset
  case supplyOkFall =>
    show (supplyFall s).lines.resetLow = false
    unfold supplyFall
    split
    · rw [whenRunning, if_neg (by simp [hreset])]
      exact (congrArg Lines.resetLow (deferOperation_frame .lines (by decide))).trans hreset
    · exact hreset
  case supplyOkRise =>
    show (supplyRise s).lines.resetLow = false
    unfold supplyRise
    split
    · exact hreset
    · rw [whenRunning, if_neg (by simp [hreset])]
      exact (congrArg Lines.resetLow (resumeStore_frame .lines (by decide))).trans hreset
  case interOctetTimeout link =>
    cases link <;> exact (congrArg Lines.resetLow (work_frame _ s .lines (by simp [touches]))).trans hreset
  case startOctet link badStop =>
    cases link <;> exact (congrArg Lines.resetLow (work_frame _ s .lines (by simp [touches]))).trans hreset
  all_goals exact (congrArg Lines.resetLow (work_frame _ s .lines (by simp [touches, tableBlocks]))).trans hreset

theorem blocksAtReset_ok (low : Bool) (s : State) : (blocksAtReset low s).ok :=
  ⟨blocksAtReset_wf low, fun hlow => by cases hlow; rfl⟩

/-- Each command's work keeps every block in its form, and brings RESET low only over blocks at their reset values. -/
theorem work_ok (i : Instr) {s : State} (hreset : s.lines.resetLow = false) (h : s.ok) : (work i s).ok := by
  refine ⟨work_wf i hreset h.blocks, fun hlow => ?_⟩
  by_cases hi : i = .hardwareReset
  · subst hi
    exact (blocksAtReset_ok true (stopStore s)).held hlow
  · exact nomatch hlow.symm.trans (work_resetLow hi hreset)

theorem idle_ok {s : State} (h : s.ok) : (idle s).ok := by
  refine ⟨idle_keeps.wf h.blocks, fun hlow => ?_⟩
  have hlines : (idle s).lines = s.lines := idle_keeps.frame .lines (by decide)
  have hidle : idle s = s := if_pos (hlines ▸ hlow)
  rw [hidle] at hlow ⊢
  exact h.held hlow

theorem updPending_ok {s : State} (h : s.ok) {f : List Instr → List Instr} : (s.updPending f).ok :=
  ⟨(Keeps.updPending (f := f)).wf h.blocks, fun hlow => congrArg (State.updPending · f) (h.held hlow)⟩

theorem setSupply_ok {s : State} (hlow : s.lines.resetLow = true) (h : s.ok) (b : Bool) :
    (s.updLines fun l => { l with supplyOk := b }).ok := by
  have hstands : (s.updLines fun l => { l with supplyOk := b }) =
      blocksAtReset true (s.updLines fun l => { l with supplyOk := b }) :=
    congrArg (State.updLines · fun l => { l with supplyOk := b }) (h.held hlow)
  rw [hstands]
  exact blocksAtReset_ok true _

/-- Settles O6: each command's work keeps the form of the blocks, and under RESET they stand at their reset values. -/
theorem everyStepKeepsEveryBlock : Obligations.EveryStepKeepsEveryBlock := by
  intro s t hs hstep
  exact step_keeps (P := State.ok) hs hstep (fun _ _ h => updPending_ok h) idle_ok (blocksAtReset_ok false)
    (fun _ b hlow h => setSupply_ok hlow h b) fun i _ hreset h => work_ok i hreset h

end Sys2Proof.Machine

/-! ## Presentation, the key law and the slots' fields over a step (O7, O8, O10) -/

namespace Sys2Proof.Machine

set_option Elab.async false

/-! ### The commands that change a slot or presentation -/

/-- The commands whose work may change a slot, presentation or the cycle. -/
def Instr.movesSlots : Instr → Bool
  | .sheet | .setClock | .ack | .release | .preview | .restart | .holdExpiry _ _ | .gatheringTimeout _ | .assemblyLimit _
  | .slotExpiry | .reminderExpiry | .segmentBoundary | .releaseRecognition _ | .chordFires | .hardwareReset
  | .resetRelease => true
  | _ => false

theorem touches_of_not_movesSlots {i : Instr} (h : Instr.movesSlots i = false) :
    .slots ∉ touches i ∧ .pres ∉ touches i ∧ .cycle ∉ touches i := by
  cases i
  case interOctetTimeout link => cases link <;> simp [touches]
  case startOctet link badStop => cases link <;> simp [touches]
  all_goals cases h
  all_goals simp [touches]

theorem work_presSame {i : Instr} (h : Instr.movesSlots i = false) (s : State) : PresSame s (work i s) :=
  have ⟨hslots, hpres, hcycle⟩ := touches_of_not_movesSlots h
  .ofFrame (work_frame i s) hslots hpres hcycle

theorem work_keySame {i : Instr} (h : Instr.movesSlots i = false) (s : State) : KeySame s (work i s) :=
  .ofFrame (work_frame i s) (touches_of_not_movesSlots h).1

theorem FieldsOk.work {i : Instr} (h : Instr.movesSlots i = false) {s : State} (k : FieldsOk s) : FieldsOk (work i s) :=
  k.ofFrame (work_frame i s) (touches_of_not_movesSlots h).1

theorem idle_ownerOf (s : State) : ownerOf (idle s) = ownerOf s := by
  unfold idle whenRunning
  split
  · rfl
  · simp only [ownerOf, State.updCycle_cycle, Option.map_map]
    refine Option.map_congr fun c _ => ?_
    simp only [Function.comp, tickCycle]
    split_ifs <;> rfl

theorem idle_presSame (s : State) : PresSame s (idle s) :=
  .ofSlots (idle_keeps.frame .slots (by decide)) (idle_keeps.frame .pres (by decide)) (idle_ownerOf s)

theorem Story.ofBlocks {s t : State} (w : Story s) (hslots : t.slots = s.slots) (hpres : t.pres = s.pres)
    (hcycle : t.cycle = s.cycle) : Story t :=
  (PresSame.ofSlots hslots hpres (congrArg (Option.map Cycle.owner) hcycle)).story w

theorem KeyLaw.ofSlots {s t : State} (k : KeyLaw s) (hslots : t.slots = s.slots) : KeyLaw t := law_slots hslots k

/-! ### Presentation (O7) -/

theorem blocksAtReset_story (low : Bool) (s : State) : Story (blocksAtReset low s) :=
  story_empty (stateAt_empty rfl) rfl rfl

theorem slotExpiries_story {s : State} (w : Story s) : Story (slotExpiries s) := by
  unfold slotExpiries
  split
  · exact settle_settles (takeSlotExpiries_wf allSlots w.1)
  · exact w

theorem work_story (i : Instr) {s : State} (w : Story s) : Story (work i s) := by
  cases i
  case sheet => exact takeFrame_story w fun p _ hu => intakeCopy_story hu p
  case setClock => exact takeRequest_story w fun p _ hu => setWallClock_story hu (word32At p 1).toNat
  case ack => exact takeRequest_story w fun p _ hu => carryAck_story hu p
  case release => exact takeRequest_story w fun p _ hu => carryRelease_story hu p
  case preview => exact takeRequest_story w fun p _ hu => preview_story hu p
  case restart => exact takeRequest_story w fun _ _ _ => story_empty (stateAt_empty rfl) rfl rfl
  case holdExpiry slot index => exact holdExpiry_story w slot index
  case gatheringTimeout slot => exact gatheringTimeout_story w slot
  case assemblyLimit slot => exact assemblyLimit_story w slot
  case slotExpiry => exact slotExpiries_story w
  case reminderExpiry => exact reminderExpiry_story w
  case segmentBoundary => exact segmentBoundary_story w
  case releaseRecognition key => exact recogniseRelease_story w key
  case chordFires => exact fireChord_story w
  case hardwareReset => exact blocksAtReset_story true _
  case resetRelease => exact w
  all_goals exact (work_presSame rfl s).story w

/-- Settles O7: each command's work leaves presentation in form and settled (`work_story`). -/
theorem everyStepSettlesPresentation : Obligations.EveryStepSettlesPresentation := by
  intro s t hform hsettled hstep
  exact step_keeps (P := Story) ⟨hform, hsettled⟩ hstep (fun _ _ w => w.ofBlocks rfl rfl rfl)
    (idle_presSame s).story (blocksAtReset_story false) (fun _ _ _ w => w.ofBlocks rfl rfl rfl)
    fun i _ _ w => work_story i w

/-! ### The law of a key's two slots (O8) -/

theorem takeFrame_law {s : State} (w : Story s) (k : KeyLaw s) {kind : Octet} {f : List Octet → State → State}
    (h : ∀ p u, Story u → KeyLaw u → KeyLaw (f p u)) : KeyLaw (takeFrame kind f s) := by
  unfold takeFrame
  split
  · exact k
  · split
    · exact k
    · split
      · exact h _ _ (w.ofBlocks rfl rfl rfl) (k.ofSlots rfl)
      · exact k

theorem settle_law {s : State} (w : PresWf s) (k : KeyLaw s) : KeyLaw (settle s) := (settle_same w).law k

theorem acknowledgeOne_law {s : State} (w : PresWf s) (k : KeyLaw s) {i : SlotIndex}
    (h : ∃ st, stateAt s i = some st ∧ st.acknowledgeable = true) (source : AckSource) :
    KeyLaw (settle (acknowledge source i s)) := by
  obtain ⟨st, hst, hack⟩ := h
  exact settle_law (acknowledge_wf w hst hack source).1 ((acknowledge_same hst hack source).law k)

theorem acknowledgeAll_law {s : State} (w : PresWf s) (k : KeyLaw s) {l : List SlotIndex} (hn : l.Nodup)
    (h : ∀ i ∈ l, ∃ st, stateAt s i = some st ∧ st.acknowledgeable = true) (source : AckSource) :
    KeyLaw (settle (acknowledgeAll source l s)) :=
  settle_law (acknowledgeAll_wf source l hn w h) ((acknowledgeAll_same source l hn w h).law k)

theorem stopCycle_becomeShown_same {s : State} {i : SlotIndex} (h : stateAt s i = some .sounding) :
    KeySame s (becomeShown i (stopCycle s)) := by
  have hshown : KeySame (stopCycle s) (enterState .shown i (stopCycle s)) := enter_same (old := .sounding) h rfl
  exact (((KeySame.ofFrame stopCycle_keeps.frame).trans hshown).trans (.ofFrame (postSlot_keeps i .shown).frame)).trans
    (.ofSlots (State.updPres_slots _ _))

theorem stopCycle_becomeShown_law {s : State} (w : PresWf s) (k : KeyLaw s) {i : SlotIndex}
    (h : stateAt s i = some .sounding) : KeyLaw (settle (becomeShown i (stopCycle s))) :=
  settle_law (shown_wf w h) ((stopCycle_becomeShown_same h).law k)

theorem stopPreview_law {s : State} (k : KeyLaw s) : KeyLaw (stopPreview s) := law_slots stopPreview_slots k

theorem holdExpiry_law {s : State} (w : Story s) (k : KeyLaw s) (i : SlotIndex) (n : Nat) : KeyLaw (holdExpiry i n s) := by
  unfold holdExpiry
  split
  · exact k
  · split
    · have hpres (f : SheetRecord → SheetRecord) : PresWf (modSlot i (Slot.withSheet n f) s) :=
        (PresSame.modSlot i _ (by intro _; rfl) (by intro _; rfl) (by intro _; rfl)).wf w.1
      have hlaw (f : SheetRecord → SheetRecord) : KeyLaw (modSlot i (Slot.withSheet n f) s) :=
        (KeySame.modS i _ (by intro _ _; rfl)).law k
      exact settle_law (reportAcceptance_wf (hpres _) i n) (reportAcceptance_law (hpres _) (hlaw _) i n)
    · exact k

theorem gatheringTimeout_law {s : State} (k : KeyLaw s) (i : SlotIndex) : KeyLaw (gatheringTimeout i s) := by
  unfold gatheringTimeout
  split
  · exact k
  · split
    · exact freeSlot_law ((KeySame.ofFrame (postSlot_keeps ..).frame).law k) i
    · exact k

theorem assemblyLimit_law {s : State} (w : Story s) (k : KeyLaw s) (i : SlotIndex) : KeyLaw (assemblyLimit i s) := by
  unfold assemblyLimit
  split
  · exact k
  case h_2 x hx =>
    split
    case isTrue h =>
      have hst := (stateAt_of_slot hx).trans (congrArg some h.1)
      exact settle_law (becomeQueued_wf w.1 hst true) (becomeQueued_law w.1 k hst true)
    case isFalse => exact k

theorem slotExpiries_law {s : State} (w : Story s) (k : KeyLaw s) : KeyLaw (slotExpiries s) := by
  unfold slotExpiries
  split
  · exact settle_law (takeSlotExpiries_wf allSlots w.1) (takeSlotExpiries_law allSlots k)
  · exact k

theorem reminderExpiry_law {s : State} (w : Story s) (k : KeyLaw s) : KeyLaw (reminderExpiry s) := by
  unfold reminderExpiry
  split
  · exact k
  case h_2 i _ =>
    split
    · exact k
    case h_2 x hx =>
      split
      case isFalse => exact k
      case isTrue h =>
        have hst : stateAt s i = some .shown := (stateAt_of_slot hx).trans (congrArg some h.1)
        extract_lets u
        split
        · refine settle_law (remind_wf w.1 hst _ (fun _ => rfl) (fun _ => rfl) fun _ => rfl) (KeySame.law ?_ k)
          have hcount : KeySame s (modSlot i (fun y => { y with reminders := y.reminders + 1 }) u) :=
            (KeySame.ofFrame (Keeps.updPres (s := s)).frame).trans (KeySame.modS i _ (by intro _ _; rfl))
          have hstate : stateAt (modSlot i (fun y => { y with reminders := y.reminders + 1 }) u) i = some .shown := by
            rw [stateAt_modSlot, if_pos rfl, ← hst]
            rfl
          exact ((hcount.trans (enter_same (st := .sounding) hstate rfl)).trans (.ofFrame (startCycle_keeps (.slot i) x.rank).frame)).trans
            (.ofFrame (postSlot_keeps i .presenting).frame)
        · exact settle_law (toPending_wf w.1 hst).1 ((displace_same hst).law k)

theorem segmentBoundary_law {s : State} (w : Story s) (k : KeyLaw s) : KeyLaw (segmentBoundary s) := by
  unfold segmentBoundary
  split
  · exact k
  · split_ifs
    · exact k
    · unfold completion
      split
      · exact k.ofSlots rfl
      · split
        case isTrue h => exact stopCycle_becomeShown_law w.1 k h.2
        case isFalse => exact k.ofSlots rfl
    · exact k.ofSlots rfl

theorem keyAction_law {s : State} (w : Story s) (k : KeyLaw s) (key : KeyLine) : KeyLaw (keyAction key s) := by
  cases key
  case ack =>
    show KeyLaw (ackKeyAction s)
    unfold ackKeyAction
    split
    case h_1 i hi => exact acknowledgeOne_law w.1 k (w.1.active_ack hi) .key
    case h_2 =>
      split
      case h_1 i l hl => exact acknowledgeOne_law w.1 k (w.1.pending_ack (hl ▸ List.mem_cons_self)) .key
      case h_2 => exact stopPreview_law k
  case silence =>
    show KeyLaw (silenceKeyAction s)
    unfold silenceKeyAction
    split
    · exact stopPreview_law k
    · split
      case isTrue h => exact stopCycle_becomeShown_law w.1 k h
      case isFalse => exact k

theorem recogniseRelease_law {s : State} (w : Story s) (k : KeyLaw s) (key : KeyLine) : KeyLaw (recogniseRelease key s) := by
  unfold recogniseRelease
  extract_lets f u
  split
  · split
    · exact k.ofSlots rfl
    · exact keyAction_law ((keys_same _).story w) (k.ofSlots rfl) key
  · exact k

theorem fireChord_law {s : State} (w : Story s) (k : KeyLaw s) : KeyLaw (fireChord s) := by
  unfold fireChord
  split
  · exact k
  · split
    · unfold chordAction
      extract_lets v
      have hstory : Story v := stopPreview_story ((keys_same _).story w)
      have hlaw : KeyLaw v := stopPreview_law (k.ofSlots rfl)
      split
      · exact hlaw
      · exact acknowledgeAll_law hstory.1 hlaw hstory.1.presented.1 hstory.1.presented.2 .chord
    · exact k

theorem ackMany_law {s : State} (w : PresWf s) (k : KeyLaw s) {l : List SlotIndex} (hn : l.Nodup)
    (h : ∀ i ∈ l, ∃ st, stateAt s i = some st ∧ st.acknowledgeable = true) : KeyLaw (ackMany l s).1 := by
  unfold ackMany
  split
  · exact k
  · exact acknowledgeAll_law w k hn h .link

theorem carryAck_law {s : State} (w : Story s) (k : KeyLaw s) (p : List Octet) : KeyLaw (carryAck p s).1 := by
  unfold carryAck
  extract_lets target
  split
  · refine ackMany_law w.1 k ?_ fun i hi => w.1.active_ack (Option.mem_toList.1 hi)
    cases s.pres.active <;> simp
  · split
    · exact ackMany_law w.1 k w.1.presented.1 w.1.presented.2
    · split
      · exact k
      · unfold ackSlot
        split
        · exact k
        case h_2 x hx =>
          split
          case isTrue hack => exact acknowledgeOne_law w.1 k ⟨x.state, stateAt_of_slot hx, hack⟩ .link
          case isFalse => exact k

theorem carryRelease_law {s : State} (k : KeyLaw s) (p : List Octet) : KeyLaw (carryRelease p s).1 := by
  unfold carryRelease
  split
  · exact k
  · split
    · exact k
    · exact freeSlot_law ((KeySame.ofFrame (dropSlotEntry_keeps _).frame).law k) _
    · exact k

theorem work_law (i : Instr) {s : State} (w : Story s) (k : KeyLaw s) : KeyLaw (work i s) := by
  cases i
  case sheet => exact takeFrame_law w k fun p _ hu ku => intakeCopy_law hu ku p
  case setClock => exact takeRequest_law w k fun p _ hu ku => setWallClock_law hu ku (word32At p 1).toNat
  case ack => exact takeRequest_law w k fun p _ hu ku => carryAck_law hu ku p
  case release => exact takeRequest_law w k fun p _ _ ku => carryRelease_law ku p
  case preview => exact takeRequest_law w k fun p _ _ ku => (KeySame.ofFrame (carryPreview_keeps p _).frame).law ku
  case restart => exact takeRequest_law w k fun _ _ _ _ => law_empty (slotOf_empty rfl)
  case holdExpiry slot index => exact holdExpiry_law w k slot index
  case gatheringTimeout slot => exact gatheringTimeout_law k slot
  case assemblyLimit slot => exact assemblyLimit_law w k slot
  case slotExpiry => exact slotExpiries_law w k
  case reminderExpiry => exact reminderExpiry_law w k
  case segmentBoundary => exact segmentBoundary_law w k
  case releaseRecognition key => exact recogniseRelease_law w k key
  case chordFires => exact fireChord_law w k
  case hardwareReset => exact law_empty (slotOf_empty rfl)
  case resetRelease => exact k
  all_goals exact (work_keySame rfl s).law k

/-- Settles O8: each command's work keeps the law from states in which presentation is in form and settled. -/
theorem everyStepKeepsTheKeyLaw : Obligations.EveryStepKeepsTheKeyLaw := by
  intro s t hform hsettled hlaw hstep
  have hstep := step_keeps (P := fun u => Story u ∧ KeyLaw u) ⟨⟨hform, hsettled⟩, hlaw⟩ hstep
    (fun _ _ h => ⟨h.1.ofBlocks rfl rfl rfl, h.2.ofSlots rfl⟩)
    (fun h => ⟨(idle_presSame s).story h.1, law_slots (idle_keeps.frame .slots (by decide)) h.2⟩)
    (fun u => ⟨blocksAtReset_story false u, law_empty (slotOf_empty rfl)⟩)
    (fun _ _ _ h => ⟨h.1.ofBlocks rfl rfl rfl, h.2.ofSlots rfl⟩)
    fun i _ _ h => ⟨work_story i h.1, work_law i h.1 h.2⟩
  exact hstep.2

/-! ### The fields of each slot (O10) -/

theorem gatheringTimeout_fields {s : State} (k : FieldsOk s) (i : SlotIndex) : FieldsOk (gatheringTimeout i s) := by
  unfold gatheringTimeout
  split
  · exact k
  · split
    · exact (k.ofFrame (postSlot_keeps ..).frame).free i
    · exact k

theorem slotExpiries_fields {s : State} (w : Story s) (k : FieldsOk s) : FieldsOk (slotExpiries s) := by
  unfold slotExpiries
  split
  · exact settle_fields (takeSlotExpiries_wf allSlots w.1) (takeSlotExpiries_fields allSlots k)
  · exact k

theorem work_fields (i : Instr) {s : State} (h : s.ok) (w : Story s) (k : FieldsOk s) : FieldsOk (work i s) := by
  cases i
  case sheet => exact takeFrame_fields w k fun p _ hu ku => intakeCopy_fields hu ku p
  case setClock => exact takeRequest_fields w k fun p _ hu ku => setWallClock_fields hu ku (word32At p 1).toNat
  case ack => exact takeRequest_fields w k fun p _ hu ku => carryAck_fields hu ku p
  case release => exact takeRequest_fields w k fun p _ _ ku => carryRelease_fields ku p
  case preview => exact takeRequest_fields w k fun p _ _ ku => ku.ofFrame (carryPreview_keeps p _).frame
  case restart => exact takeRequest_fields w k fun _ _ _ _ => fields_empty rfl
  case holdExpiry slot index => exact holdExpiry_fields w h.blocks.slots k slot index
  case gatheringTimeout slot => exact gatheringTimeout_fields k slot
  case assemblyLimit slot => exact assemblyLimit_fields w k slot
  case slotExpiry => exact slotExpiries_fields w k
  case reminderExpiry => exact reminderExpiry_fields w h.blocks.settings.profile.reminderCount k
  case segmentBoundary => exact segmentBoundary_fields w k
  case releaseRecognition key => exact recogniseRelease_fields w k key
  case chordFires => exact fireChord_fields w k
  case hardwareReset => exact fields_empty rfl
  case resetRelease => exact k
  all_goals exact FieldsOk.work rfl k

/-- Settles O10: each command's work keeps the fields from states in form with presentation settled (`work_fields`). -/
theorem everyStepKeepsTheSlotFields : Obligations.EveryStepKeepsTheSlotFields := by
  intro s t hok hform hsettled hfields hstep
  have hall := step_keeps (P := fun u => u.ok ∧ Story u ∧ FieldsOk u) ⟨hok, ⟨hform, hsettled⟩, hfields⟩ hstep
    (fun _ _ h => ⟨updPending_ok h.1, h.2.1.ofBlocks rfl rfl rfl, h.2.2.ofSlots rfl⟩)
    (fun h => ⟨idle_ok h.1, (idle_presSame s).story h.2.1, h.2.2.ofFrame idle_keeps.frame⟩)
    (fun u => ⟨blocksAtReset_ok false u, blocksAtReset_story false u, fields_empty rfl⟩)
    (fun _ b hlow h => ⟨setSupply_ok hlow h.1 b, h.2.1.ofBlocks rfl rfl rfl, h.2.2.ofSlots rfl⟩)
    fun i _ hreset h => ⟨work_ok i hreset h.1, work_story i h.2.1, work_fields i h.1 h.2.1 h.2.2⟩
  exact hall.2.2

end Sys2Proof.Machine

/-! ## The store over a step, the journal, and the state after reset (O2, O5, O9, O11) -/

namespace Sys2Proof.Machine

set_option Elab.async false

/-! ### The IDLE store (O9) -/

/-- The commands whose work may change the store or history. -/
def Instr.movesStore : Instr → Bool
  | .sheet | .cell | .setClock | .setLocation | .setProfile | .ack | .holdExpiry _ _ | .assemblyLimit _ | .slotExpiry
  | .retentionPruning | .reminderExpiry | .segmentBoundary | .releaseRecognition _ | .chordFires | .hardwareReset
  | .resetRelease | .loadDone | .supplyOkFall | .supplyOkRise | .programAttempt _ | .void | .prefillProgram
  | .eraseAttempt _ | .uptimeSecond _ => true
  | _ => false

theorem touches_of_not_movesStore {i : Instr} (h : Instr.movesStore i = false) :
    .store ∉ touches i ∧ .history ∉ touches i := by
  cases i
  case interOctetTimeout link => cases link <;> simp [touches]
  case startOctet link badStop => cases link <;> simp [touches]
  all_goals cases h
  all_goals simp [touches]

theorem work_settled_of_not_movesStore {i : Instr} (h : Instr.movesStore i = false) {s : State} (k : StoreSettled s) :
    StoreSettled (work i s) :=
  have ⟨hstore, hhistory⟩ := touches_of_not_movesStore h
  k.ofFrame (work_frame i s) hstore hhistory

theorem StoreSettled.of_not_idle {s : State} (h : s.store.state ≠ .idle) : StoreSettled s := fun hidle => absurd hidle h

theorem writeLocation_settled {s : State} (k : StoreSettled s) (l : Location) : StoreSettled (writeLocation l s) := by
  unfold writeLocation
  extract_lets t
  split
  · exact k.same rfl rfl
  · exact dropRejected_settled (k.same rfl rfl)

theorem takeCell_settled {s : State} (k : StoreSettled s) (p : List Octet) : StoreSettled (takeCell p s) := by
  have hu : StoreSettled (s.updModem fun m => { m with servingCell := some (word16At p 0) }) := k.same rfl rfl
  exact writeLocation_settled hu _

theorem replaceProfile_settled {s : State} (k : StoreSettled s) (q : Profile) : StoreSettled (replaceProfile q s) := by
  unfold replaceProfile
  extract_lets old u v w
  have hu : StoreSettled u := k.same rfl rfl
  have hv : StoreSettled v := by
    show StoreSettled (if _ then _ else _)
    split
    · exact hu
    · exact hu.same rfl rfl
  have hw : StoreSettled w := by
    show StoreSettled (if _ then _ else _)
    split
    · exact prune_settled hv
    · exact hv
  split
  · exact hw
  · exact hw.same rfl rfl

theorem carryProfile_settled {s : State} (k : StoreSettled s) (p : List Octet) : StoreSettled (carryProfile p s).1 := by
  unfold carryProfile
  split
  · exact k
  · exact replaceProfile_settled k (profileOf p)

theorem setWallClock_settled {s : State} (k : StoreSettled s) (w : Nat) : StoreSettled (setWallClock w s) := by
  unfold setWallClock
  split
  · exact k
  · exact settle_store

theorem ackMany_settled {s : State} (k : StoreSettled s) (l : List SlotIndex) : StoreSettled (ackMany l s).1 := by
  unfold ackMany
  split
  · exact k
  · exact settle_store

theorem ackSlot_settled {s : State} (k : StoreSettled s) (i : SlotIndex) : StoreSettled (ackSlot i s).1 := by
  unfold ackSlot
  split
  · exact k
  · split
    · exact settle_store
    · exact k

theorem carryAck_settled {s : State} (k : StoreSettled s) (p : List Octet) : StoreSettled (carryAck p s).1 := by
  unfold carryAck
  extract_lets target
  split
  · exact ackMany_settled k _
  · split
    · exact ackMany_settled k _
    · split
      · exact k
      · exact ackSlot_settled k _

theorem holdExpiry_settled {s : State} (k : StoreSettled s) (i : SlotIndex) (n : Nat) : StoreSettled (holdExpiry i n s) := by
  unfold holdExpiry
  split
  · exact k
  · split
    · exact settle_store
    · exact k

theorem assemblyLimit_settled {s : State} (k : StoreSettled s) (i : SlotIndex) : StoreSettled (assemblyLimit i s) := by
  unfold assemblyLimit
  split
  · exact k
  · split
    · exact settle_store
    · exact k

theorem slotExpiries_settled {s : State} (k : StoreSettled s) : StoreSettled (slotExpiries s) := by
  unfold slotExpiries
  split
  · exact settle_store
  · exact k

theorem reminderExpiry_settled {s : State} (k : StoreSettled s) : StoreSettled (reminderExpiry s) := by
  unfold reminderExpiry
  split
  · exact k
  · split
    · exact k
    · split
      · extract_lets u
        split <;> exact settle_store
      · exact k

theorem segmentBoundary_settled {s : State} (k : StoreSettled s) : StoreSettled (segmentBoundary s) := by
  unfold segmentBoundary
  split
  · exact k
  · split_ifs
    · exact k
    · unfold completion
      split
      · exact k.same rfl rfl
      · split
        · exact settle_store
        · exact k.same rfl rfl
    · exact k.same rfl rfl

theorem stopPreview_settled {s : State} (k : StoreSettled s) : StoreSettled (stopPreview s) := k.ofFrame stopPreview_keeps.frame

theorem keyAction_settled {s : State} (k : StoreSettled s) (key : KeyLine) : StoreSettled (keyAction key s) := by
  cases key
  case ack =>
    show StoreSettled (ackKeyAction s)
    unfold ackKeyAction
    split
    · exact settle_store
    · split
      · exact settle_store
      · exact stopPreview_settled k
  case silence =>
    show StoreSettled (silenceKeyAction s)
    unfold silenceKeyAction
    split
    · exact stopPreview_settled k
    · split
      · exact settle_store
      · exact k

theorem recogniseRelease_settled {s : State} (k : StoreSettled s) (key : KeyLine) : StoreSettled (recogniseRelease key s) := by
  unfold recogniseRelease
  extract_lets f u
  have hu : StoreSettled u := k.same rfl rfl
  split
  · split
    · exact hu
    · exact keyAction_settled hu key
  · exact k

theorem fireChord_settled {s : State} (k : StoreSettled s) : StoreSettled (fireChord s) := by
  unfold fireChord
  split
  · exact k
  · split
    · unfold chordAction
      extract_lets v
      split
      · exact stopPreview_settled (k.same rfl rfl)
      · exact settle_store
    · exact k

theorem finishReload_settled {s : State} (k : StoreSettled s) : StoreSettled (finishReload s) := by
  unfold finishReload
  split
  · exact storeSelect_settled
  · exact k

theorem programAttempt_settled {s : State} (k : StoreSettled s) (unset : BitVec 64) : StoreSettled (programAttempt unset s) := by
  unfold programAttempt
  split
  · extract_lets p w t
    split_ifs
    · exact positionDone_settled _
    · exact startOperation_settled _ _
    · exact startOperation_settled _ _
  · exact k

theorem voidDone_settled {s : State} (k : StoreSettled s) : StoreSettled (voidDone s) := by
  unfold voidDone
  split
  · exact positionDone_settled _
  · exact k

theorem prefillDone_settled {s : State} (k : StoreSettled s) : StoreSettled (prefillDone s) := by
  unfold prefillDone
  split
  · exact prefillFrom_settled _
  · exact k

theorem eraseAttempt_settled {s : State} (k : StoreSettled s) (unerased : List (Nat × BitVec 64)) :
    StoreSettled (eraseAttempt unerased s) := by
  unfold eraseAttempt
  split
  · extract_lets v t
    split
    · exact rewriteNext_settled
    · exact eraseFailed_settled
  · exact k

theorem deferOperation_settled {s : State} (k : StoreSettled s) : StoreSettled (deferOperation s) := by
  unfold deferOperation
  split
  · exact eraseFailed_settled
  · exact .of_not_idle nofun
  · exact k

theorem resumeStore_settled {s : State} (k : StoreSettled s) : StoreSettled (resumeStore s) := by
  unfold resumeStore
  split
  · exact storeSelect_settled
  · exact startOperation_settled _ _
  · exact startOperation_settled _ _
  · exact k

theorem supplyFall_settled {s : State} (k : StoreSettled s) : StoreSettled (supplyFall s) := by
  unfold supplyFall
  split
  · have hfallen : StoreSettled (s.updLines fun l => { l with supplyOk := false }) := k.same rfl rfl
    exact whenRunning_settled hfallen (deferOperation_settled hfallen)
  · exact k

theorem supplyRise_settled {s : State} (k : StoreSettled s) : StoreSettled (supplyRise s) := by
  unfold supplyRise
  split
  · exact k
  · have hrisen : StoreSettled (s.updLines fun l => { l with supplyOk := true }) := k.same rfl rfl
    exact whenRunning_settled hrisen (resumeStore_settled hrisen)

theorem second_settled {s : State} (k : StoreSettled s) (order : SecondOrder) : StoreSettled (second order s) := by
  unfold second
  extract_lets u
  have hu : StoreSettled u := prune_settled (k.same rfl rfl)
  cases order
  case staleFirst => exact (hu.ofFrame dropStale_keeps.frame).ofFrame beginHandoff_keeps.frame
  case handoffFirst => exact (hu.ofFrame beginHandoff_keeps.frame).ofFrame dropStale_keeps.frame

theorem work_settled (i : Instr) {s : State} (k : StoreSettled s) : StoreSettled (work i s) := by
  cases i
  case sheet => exact takeFrame_settled k fun p _ hu => intake_settled hu p
  case cell => exact takeFrame_settled k fun p _ hu => takeCell_settled hu p
  case setClock => exact takeRequest_settled k fun p _ hu => setWallClock_settled hu (word32At p 1).toNat
  case setLocation => exact takeRequest_settled k fun p _ hu => writeLocation_settled hu _
  case setProfile => exact takeRequest_settled k fun p _ hu => carryProfile_settled hu p
  case ack => exact takeRequest_settled k fun p _ hu => carryAck_settled hu p
  case holdExpiry slot index => exact holdExpiry_settled k slot index
  case assemblyLimit slot => exact assemblyLimit_settled k slot
  case slotExpiry => exact slotExpiries_settled k
  case retentionPruning => exact prune_settled k
  case reminderExpiry => exact reminderExpiry_settled k
  case segmentBoundary => exact segmentBoundary_settled k
  case releaseRecognition key => exact recogniseRelease_settled k key
  case chordFires => exact fireChord_settled k
  case hardwareReset => exact .of_not_idle nofun
  case resetRelease => exact k
  case loadDone => exact finishReload_settled k
  case supplyOkFall => exact supplyFall_settled k
  case supplyOkRise => exact supplyRise_settled k
  case programAttempt unset => exact programAttempt_settled k unset
  case void => exact voidDone_settled k
  case prefillProgram => exact prefillDone_settled k
  case eraseAttempt unerased => exact eraseAttempt_settled k unerased
  case uptimeSecond order => exact second_settled k order
  all_goals exact work_settled_of_not_movesStore rfl k

/-- Settles O9: a command that gives the store work, or brings it to IDLE, has it select (`work_settled`). -/
theorem everyStepLeavesTheIdleStoreWithoutWork : Obligations.EveryStepLeavesTheIdleStoreWithoutWork := by
  intro s t h hstep
  exact step_keeps (P := StoreSettled) h hstep (fun _ _ k => k.same rfl rfl) (fun k => k.ofFrame idle_keeps.frame)
    (fun _ => .of_not_idle nofun) (fun _ _ _ k => k.same rfl rfl) fun i _ _ k => work_settled i k

/-! ### The journal (O11) -/

theorem SameJournal.ofStore {s t : State} (h : t.store = s.store) : SameJournal s t := congrArg Store.journal h

theorem combineCopy_journal (i : SlotIndex) (c : Copy) (s : State) : SameJournal s (combineCopy i c s) := by
  unfold combineCopy
  extract_lets u
  split
  · exact .refl s
  · split
    · exact (SameJournal.ofStore rfl).trans ((reportAcceptance_journal i c.index u).trans (settle_journal _))
    · exact .refl s

theorem openSlot_journal (existing : Option SlotIndex) (c : Copy) (s : State) : SameJournal s (openSlot existing c s) := by
  unfold openSlot
  split
  · exact .refl s
  case h_2 t ht =>
    have hslot : SameJournal s t := .outside (roomForSlot_keeps ht).frame
    split
    · exact hslot
    · split
      · exact hslot
      case h_2 u hu =>
        have hbuffer : SameJournal t u := .outside (roomForBuffer_spec hu).1.frame
        refine SameJournal.trans ?_ (combineCopy_journal ..)
        exact (hslot.trans hbuffer).trans (.ofStore rfl)

theorem restartSlot_journal (i : SlotIndex) (c : Copy) (s : State) : SameJournal s (restartSlot i c s) := by
  unfold restartSlot
  split
  · exact .refl s
  · extract_lets t
    refine SameJournal.trans ?_ (combineCopy_journal ..)
    split
    · exact SameJournal.trans (u := t) (.ofStore rfl) (.outside (postSlot_keeps i .abandoned).frame)
    · exact .ofStore rfl

theorem routeCopy_journal (i : SlotIndex) (c : Copy) (s : State) : SameJournal s (routeCopy i c s) := by
  unfold routeCopy
  split
  · exact .refl s
  · split
    · exact .refl s
    · extract_lets t
      have ht : SameJournal s t := .refl s
      split
      · exact ht
      · split
        · split
          · exact ht
          case h_2 u hu =>
            have hbuffer : SameJournal t u := .outside (roomForBuffer_spec hu).1.frame
            exact (ht.trans hbuffer).trans (combineCopy_journal ..)
        · exact ht.trans (combineCopy_journal ..)
        · exact ht.trans (combineCopy_journal ..)
        · exact ht

theorem tableDecision_journal (c : Copy) (s : State) : SameJournal s (tableDecision c s) := by
  unfold tableDecision
  split
  · exact .refl s
  · extract_lets held
    split
    · exact routeCopy_journal ..
    · split
      · exact .refl s
      · split
        · exact restartSlot_journal ..
        · exact openSlot_journal ..

theorem intakeCopy_journal (payload : List Octet) (s : State) : SameJournal s (intakeCopy payload s) := by
  unfold intakeCopy
  extract_lets c
  split_ifs
  · exact .refl s
  · exact .refl s
  · exact .refl s
  · exact tableDecision_journal ..

theorem takeFrame_journal (kind : Octet) {handle : List Octet → State → State} (h : ∀ p u, SameJournal u (handle p u))
    (s : State) : SameJournal s (takeFrame kind handle s) := by
  unfold takeFrame
  split
  · exact .refl s
  · split
    · exact .refl s
    · split
      · refine SameJournal.trans ?_ (h _ _)
        rfl
      · exact .refl s

theorem takeRequest_journal (kind : Octet) {carry : List Octet → State → State × List Octet}
    (h : ∀ p u, SameJournal u (carry p u).1) (fits : List Octet → Bool) (tail : List Octet) (s : State) :
    SameJournal s (takeRequest kind (whenReady fits tail carry) s) := by
  unfold takeRequest whenReady
  split
  · exact .refl s
  · split
    · exact .refl s
    · split
      · extract_lets r
        show r.1.store.journal = s.store.journal
        simp only [r]
        split_ifs
        · rfl
        · rfl
        · refine SameJournal.trans ?_ (h _ _)
          rfl
      · exact .refl s

theorem setWallClock_journal (w : Nat) (s : State) : SameJournal s (setWallClock w s) := by
  unfold setWallClock
  split
  · exact .refl s
  · extract_lets t
    have ht : SameJournal s t := by
      show SameJournal s (if _ then _ else _)
      split <;> exact .refl s
    refine SameJournal.trans (SameJournal.trans ?_ (takeReached_journal _)) (settle_journal _)
    exact ht.trans (.ofStore rfl)

theorem ackMany_journal (l : List SlotIndex) (s : State) : SameJournal s (ackMany l s).1 := by
  unfold ackMany
  split
  · exact .refl s
  · exact (acknowledgeAll_journal ..).trans (settle_journal _)

theorem carryAck_journal (p : List Octet) (s : State) : SameJournal s (carryAck p s).1 := by
  unfold carryAck
  extract_lets target
  split_ifs
  · exact ackMany_journal ..
  · exact ackMany_journal ..
  · split
    · exact .refl s
    · unfold ackSlot
      split
      · exact .refl s
      · split
        · exact (acknowledge_journal ..).trans (settle_journal _)
        · exact .refl s

theorem holdExpiry_journal (i : SlotIndex) (n : Nat) (s : State) : SameJournal s (holdExpiry i n s) := by
  unfold holdExpiry
  split
  · exact .refl s
  · split
    · refine SameJournal.trans (SameJournal.trans ?_ (reportAcceptance_journal ..)) (settle_journal _)
      exact .ofStore rfl
    · exact .refl s

theorem assemblyLimit_journal (i : SlotIndex) (s : State) : SameJournal s (assemblyLimit i s) := by
  unfold assemblyLimit
  split
  · exact .refl s
  · split
    · exact (becomeQueued_journal ..).trans (settle_journal _)
    · exact .refl s

theorem slotExpiries_journal (s : State) : SameJournal s (slotExpiries s) := by
  unfold slotExpiries
  split
  · exact (takeSlotExpiries_journal ..).trans (settle_journal _)
  · exact .refl s

theorem reminderExpiry_journal (s : State) : SameJournal s (reminderExpiry s) := by
  unfold reminderExpiry
  split
  · exact .refl s
  case h_2 i _ =>
    split
    · exact .refl s
    · split
      · extract_lets u
        have hu : SameJournal s u := .refl s
        split
        · refine SameJournal.trans (SameJournal.trans ?_ (.outside (postSlot_keeps i .presenting).frame)) (settle_journal _)
          exact hu.trans (.ofStore rfl)
        · refine SameJournal.trans (SameJournal.trans ?_ (.outside (postSlot_keeps i .pending).frame)) (settle_journal _)
          exact hu.trans (.ofStore rfl)
      · exact .refl s

theorem stopCycle_becomeShown_journal (i : SlotIndex) (s : State) :
    SameJournal s (settle (becomeShown i (stopCycle s))) := by
  have hstop : SameJournal s (stopCycle s) := .ofStore rfl
  exact (hstop.trans (.outside (becomeShown_keeps i).frame)).trans (settle_journal _)

theorem segmentBoundary_journal (s : State) : SameJournal s (segmentBoundary s) := by
  unfold segmentBoundary
  split
  · exact .refl s
  · split_ifs
    · exact .refl s
    · unfold completion
      split
      · exact .refl s
      · split
        · exact stopCycle_becomeShown_journal _ s
        · exact .refl s
    · exact .refl s

theorem stopPreview_journal (s : State) : SameJournal s (stopPreview s) := .outside stopPreview_keeps.frame

theorem keyAction_journal (key : KeyLine) (s : State) : SameJournal s (keyAction key s) := by
  cases key
  case ack =>
    show SameJournal s (ackKeyAction s)
    unfold ackKeyAction
    split
    · exact (acknowledge_journal ..).trans (settle_journal _)
    · split
      · exact (acknowledge_journal ..).trans (settle_journal _)
      · exact stopPreview_journal s
  case silence =>
    show SameJournal s (silenceKeyAction s)
    unfold silenceKeyAction
    split
    · exact stopPreview_journal s
    · split
      · exact stopCycle_becomeShown_journal _ s
      · exact .refl s

theorem recogniseRelease_journal (key : KeyLine) (s : State) : SameJournal s (recogniseRelease key s) := by
  unfold recogniseRelease
  extract_lets f u
  split
  · split
    · exact .ofStore rfl
    · exact SameJournal.trans (u := u) (.ofStore rfl) (keyAction_journal key u)
  · exact .refl s

theorem fireChord_journal (s : State) : SameJournal s (fireChord s) := by
  unfold fireChord
  split
  · exact .refl s
  · split
    · unfold chordAction
      extract_lets v
      have hv : SameJournal s v := SameJournal.trans (.ofStore rfl) (stopPreview_journal _)
      split
      · exact hv
      · exact (hv.trans (acknowledgeAll_journal ..)).trans (settle_journal _)
    · exact .refl s

theorem finishReload_journal (s : State) : SameJournal s (finishReload s) := by
  unfold finishReload
  split
  · refine SameJournal.trans ?_ (storeSelect_journal _)
    rfl
  · exact .refl s

theorem resumeStore_journal (s : State) : SameJournal s (resumeStore s) := by
  unfold resumeStore
  split
  · refine SameJournal.trans ?_ (storeSelect_journal _)
    rfl
  · exact .refl s
  · exact .refl s
  · exact .refl s

theorem supplyRise_journal (s : State) : SameJournal s (supplyRise s) := by
  unfold supplyRise
  split
  · exact .refl s
  · refine SameJournal.trans ?_ (SameJournal.whenRunning (resumeStore_journal _))
    rfl

/-- The commands whose work is, or may stop, an operation that writes the journal. -/
def Instr.writesJournal : Instr → Bool
  | .void | .prefillProgram | .hardwareReset | .supplyOkFall | .programAttempt _ | .eraseAttempt _ => true
  | _ => false

theorem work_journal {i : Instr} (h : Instr.writesJournal i = false) (s : State) : SameJournal s (work i s) := by
  cases i
  case sheet => exact takeFrame_journal kindSheet intakeCopy_journal s
  case setClock => exact takeRequest_journal 0x02 (fun p u => setWallClock_journal (word32At p 1).toNat u) (lengthIs 5) [] s
  case ack => exact takeRequest_journal 0x09 carryAck_journal (lengthIs 2) [0] s
  case holdExpiry slot index => exact holdExpiry_journal slot index s
  case assemblyLimit slot => exact assemblyLimit_journal slot s
  case slotExpiry => exact slotExpiries_journal s
  case reminderExpiry => exact reminderExpiry_journal s
  case segmentBoundary => exact segmentBoundary_journal s
  case releaseRecognition key => exact recogniseRelease_journal key s
  case chordFires => exact fireChord_journal s
  case resetRelease => exact .refl s
  case loadDone => exact finishReload_journal s
  case supplyOkRise => exact supplyRise_journal s
  case interOctetTimeout link => cases link <;> exact .outside (work_frame _ s) (by simp [touches])
  case startOctet link badStop => cases link <;> exact .outside (work_frame _ s) (by simp [touches])
  all_goals cases h
  all_goals exact .outside (work_frame _ s) (by simp [touches])

/-- Settles O11: the other commands' work keeps the journal (`work_journal`), and so does whatever is done under RESET. -/
theorem onlyStoreOperationsChangeTheJournal : Obligations.OnlyStoreOperationsChangeTheJournal := by
  intro i s t h hvoid hprefill hreset hfall hprogram herase
  cases hlow : s.lines.resetLow with
  | true =>
    rw [exec_of_low hlow] at h
    cases h
    cases i <;> rfl
  | false =>
    rw [exec_of_running hlow] at h
    cases h
    have hplain : Instr.writesJournal i = false := by
      cases i
      case void => exact absurd rfl hvoid
      case prefillProgram => exact absurd rfl hprefill
      case hardwareReset => exact absurd rfl hreset
      case supplyOkFall => exact absurd rfl hfall
      case programAttempt unset => exact absurd rfl (hprogram unset)
      case eraseAttempt unerased => exact absurd rfl (herase unerased)
      all_goals rfl
    exact work_journal hplain s

/-! ### The idle clock, and reset (O2, O5) -/

/-- Settles O2: a step on an empty queue is `idle`, which ticks the running cycle. -/
theorem emptyQueueIsOneToneClockPeriod : Obligations.EmptyQueueIsOneToneClockPeriod := by
  intro s h
  rw [show step s = .next (idle s) by simp only [step, h]]
  rfl

/-- Settles O5: after reset the blocks stand at their reset values, no slot is occupied, and the store is LOADING. -/
theorem resetMeetsTheInvariants : Obligations.ResetMeetsTheInvariants :=
  ⟨blocksAtReset_ok false State.reset, blocksAtReset_story false State.reset, law_empty (slotOf_empty rfl),
    .of_not_idle nofun, fields_empty rfl⟩

end Sys2Proof.Machine

/-! ## The links: the arrival check of the host link, idle lines and start octets (O14, O15) -/

namespace Sys2Proof.Machine

set_option Elab.async false

/-! ### The host link (R175, R176) -/

/-- What the host port does with the last octet of a run, by how it was received. -/
def hostTakes : Reception → State → State
  | .goesOn rx, s => s.updHost fun h => { h with rx := rx }
  | .failed, s => hostFrameError (s.updHost fun h => { h with rx := .waiting })
  | .passed f, s => offerToStaging f (s.updHost fun h => { h with rx := .waiting })

theorem hostOctet_eq (o : RxOctet) (s : State) : hostOctet o s = hostTakes (receive s.host.rx o) s := by
  unfold hostOctet
  cases receive s.host.rx o <;> rfl

/-- Every reception sets the receiver anew. -/
theorem hostTakes_goesOn (r : Reception) (rx : Receiver) (s : State) :
    hostTakes r (hostTakes (.goesOn rx) s) = hostTakes r s := by
  cases r <;> rfl

/-- The host port over a run of octets does what its last octet's reception asks. -/
theorem hostOctets_of_receives {rx : Receiver} {l : List RxOctet} {r : Reception} (h : Receives rx l r) {s : State}
    (hrx : s.host.rx = rx) : hostOctets l s = hostTakes r s := by
  induction h generalizing s with
  | last rx o => rw [← hrx]; exact hostOctet_eq o s
  | @goesOn rx rx' o l r ho _ ih =>
    calc hostOctets (o :: l) s
        = hostOctets l (hostTakes (.goesOn rx') s) := by rw [← ho, ← hrx, ← hostOctet_eq]; rfl
      _ = hostTakes r (hostTakes (.goesOn rx') s) := ih rfl
      _ = hostTakes r s := hostTakes_goesOn r rx' s

/-- A waiting receiver set to waiting is as it was. -/
theorem updHost_waiting {s : State} (h : s.host.rx = .waiting) : (s.updHost fun l => { l with rx := .waiting }) = s := by
  simp only [State.updHost, ← h]

/-- HOST_FRAME_ARRIVAL while RESET is high, over octets that a waiting receiver takes up to a reception `r`. -/
theorem exec_hostFrameArrival_of_receives {octets : List RxOctet} {r : Reception} {s : State}
    (hreset : s.lines.resetLow = false) (hrx : s.host.rx = .waiting) (h : Receives .waiting octets r) :
    exec (.hostFrameArrival octets) s = .next (hostTakes r s) := by
  rw [exec_of_running hreset]
  exact congrArg Host.Outcome.next (hostOctets_of_receives h hrx)

/-- R176: a failed frame, at a receiver that waited for it. -/
theorem hostTakes_failed {s : State} (h : s.host.rx = .waiting) : hostTakes .failed s = hostFrameError s :=
  congrArg hostFrameError (updHost_waiting h)

/-- R176: a frame that passed the envelope's check, at a receiver that waited for it. -/
theorem hostTakes_passed {s : State} (h : s.host.rx = .waiting) (f : Frame) :
    hostTakes (.passed f) s = offerToStaging f s :=
  congrArg (offerToStaging f) (updHost_waiting h)

/-- R176: a frame takes a staging place while fewer than two are taken, and is otherwise dropped and counted. -/
theorem offerToStaging_eq (f : Frame) (s : State) :
    offerToStaging f s =
      if s.host.staging.length < 2 then { s with host := { s.host with staging := s.host.staging ++ [f] } }
      else { s with host := { s.host with overflow := bump 65535 s.host.overflow } } :=
  apply_ite (fun h => { s with host := h }) _ _ _

/-- Settles O14: a receiver's verdict on the octets (`receives_whole`, `receives_bad_length`), and then what the host
port does with it. -/
theorem hostFrameArrivalDecides : Obligations.HostFrameArrivalDecides := by
  intro s octets kind hreset hrx
  refine ⟨fun payload hi lo h1 h250 e => ?_, fun n hn e => ?_⟩
  · rw [exec_hostFrameArrival_of_receives hreset hrx (receives_whole h1 h250 e), ← offerToStaging_eq]
    split
    case isTrue => rw [hostTakes_passed hrx]
    case isFalse =>
      rw [hostTakes_failed hrx]
      rfl
  · rw [exec_hostFrameArrival_of_receives hreset hrx (receives_bad_length hn e), hostTakes_failed hrx]
    rfl

/-! ### Idle lines and start octets (R175) -/

theorem modemOctet_of_goesOn {s : State} {rx rx' : Receiver} {o : RxOctet} (hrx : s.modem.rx = rx)
    (h : receive rx o = .goesOn rx') : modemOctet o s = { s with modem := { s.modem with rx := rx' } } := by
  rw [modemOctet_eq, hrx, h]
  rfl

theorem hostOctet_of_goesOn {s : State} {rx rx' : Receiver} {o : RxOctet} (hrx : s.host.rx = rx)
    (h : receive rx o = .goesOn rx') : hostOctet o s = { s with host := { s.host with rx := rx' } } := by
  rw [hostOctet_eq, hrx, h]
  rfl

/-- Settles O15: a timeout by the state of the receiver, and a start octet by the receiver's own rule for it
(`receive_waiting_start`, `receive_inside`). -/
theorem idleLinesAndStartOctets : Obligations.IdleLinesAndStartOctets := by
  refine ⟨fun s got bad hreset => ?_, fun s bad hreset => ?_⟩
  · simp only [exec_of_running hreset, work]
    refine ⟨fun hrx => ?_, fun hrx => ?_, fun hrx => ?_, fun hrx => ?_⟩ <;> simp only [linkTimeout, hrx]
    all_goals rfl
  · simp only [exec_of_running hreset, work]
    refine ⟨fun hrx => ?_, fun hrx => ?_, fun got was h2 h1 h250 hmore => ⟨fun hrx => ?_, fun hrx => ?_⟩⟩
    · exact congrArg Host.Outcome.next (modemOctet_of_goesOn hrx (receive_waiting_start rfl))
    · exact congrArg Host.Outcome.next (hostOctet_of_goesOn hrx (receive_waiting_start rfl))
    · exact congrArg Host.Outcome.next
        (modemOctet_of_goesOn hrx ((receive_inside h2 h1 h250 was ⟨0xC3, bad⟩).trans (if_pos hmore)))
    · exact congrArg Host.Outcome.next
        (hostOctet_of_goesOn hrx ((receive_inside h2 h1 h250 was ⟨0xC3, bad⟩).trans (if_pos hmore)))

end Sys2Proof.Machine

/-! ## Intake: the tests in their order, and what a SHEET step counts (O12, O16) -/

namespace Sys2Proof.Machine

set_option Elab.async false

/-! ### The intake tests (R5 to R7) -/

theorem exec_sheet_of_frameReady {f : Frame} {rest : List Frame} {s : State} (h : FrameReady kindSheet f rest s) :
    exec .sheet s = .next (intakeCopy f.payload (withFifo rest s)) :=
  congrArg Host.Outcome.next (takeFrame_of_frameReady h intakeCopy)

/-- R6: class 0 is always wanted, another class when the mute mask does not hold it. -/
theorem classWanted_iff (p : Profile) (cls : BitVec 3) :
    classWanted p cls = true ↔ cls = 0 ∨ p.muteMask.getLsbD cls.toNat = false := by
  have hlt : cls.toNat < 8 := cls.isLt
  have hzero : cls = 0 ↔ cls.toNat = 0 := by rw [← BitVec.toNat_inj]; rfl
  rw [classWanted, wantedSet, BitVec.getLsbD_or, BitVec.getLsbD_not, hzero]
  simp [hlt, or_comm]

theorem knownTo_iff (l : List HistoryEntry) (key : Key) (revision : BitVec 4) :
    knownTo l key revision = true ↔ ∃ h ∈ l, h.key = key ∧ revision.toNat ≤ h.revision.toNat := by
  simp [knownTo]

/-- R5: a copy's sheet count lies in 1 to 12, and its index below it. -/
def Copy.sane (c : Copy) : Prop := 1 ≤ c.count ∧ c.count ≤ 12 ∧ c.index < c.count

theorem Copy.sane_iff (c : Copy) :
    c.sane ↔ ¬ (decide (c.count = 0) || decide (12 < c.count) || decide (c.count ≤ c.index)) = true := by
  simp only [sane, Bool.or_eq_true, decide_eq_true_eq]
  omega

theorem intakeCopy_of_not_sane {p : List Octet} (h : ¬ (copyOf p).sane) (s : State) :
    intakeCopy p s = discardFormat s := if_pos (not_not.1 (mt (copyOf p).sane_iff.2 h))

/-- R5 to R7: a sane copy goes on to the mute test, the history test and the table. -/
theorem intakeCopy_of_sane {p : List Octet} (h : (copyOf p).sane) (s : State) :
    intakeCopy p s =
      if !classWanted s.settings.profile (copyOf p).cls then discardMuted s
      else if knownTo s.history (copyOf p).key (copyOf p).revision then discardKnown s
      else tableDecision (copyOf p).clamped s := if_neg ((copyOf p).sane_iff.1 h)

theorem intakeCopy_of_muted {p : List Octet} (h : (copyOf p).sane) {s : State}
    (hw : classWanted s.settings.profile (copyOf p).cls = false) : intakeCopy p s = discardMuted s := by
  rw [intakeCopy_of_sane h, hw]
  rfl

theorem intakeCopy_of_wanted {p : List Octet} (h : (copyOf p).sane) {s : State}
    (hw : classWanted s.settings.profile (copyOf p).cls = true) :
    intakeCopy p s = if knownTo s.history (copyOf p).key (copyOf p).revision then discardKnown s
      else tableDecision (copyOf p).clamped s := by
  rw [intakeCopy_of_sane h, hw]
  rfl

/-- Settles O16: the three tests of intake, each with its discard. -/
theorem intakeDiscardsInOrder : Obligations.IntakeDiscardsInOrder := by
  intro f rest s h c sane wanted
  rw [exec_sheet_of_frameReady h]
  have hwanted : classWanted (withFifo rest s).settings.profile c.cls = true ↔ wanted := classWanted_iff ..
  refine ⟨fun hsane => ?_, fun hsane hmuted => ?_, fun hsane hw hknown => ?_⟩
  · rw [intakeCopy_of_not_sane hsane]
    rfl
  · rw [intakeCopy_of_muted hsane (Bool.eq_false_iff.2 (mt hwanted.1 hmuted))]
    rfl
  · have hheld : knownTo (withFifo rest s).history c.key c.revision = true := (knownTo_iff ..).2 hknown
    rw [intakeCopy_of_wanted hsane (hwanted.2 hw), if_pos hheld]
    rfl

/-! ### The discard counters (R8, R14) -/

/-- R14: the four discard counters: format, muted, already known, no room. -/
def State.discards (s : State) : Nat × Nat × Nat × Nat :=
  (s.modem.formatDiscards, s.modem.mutedDiscards, s.modem.knownDiscards, s.modem.noRoomDiscards)

/-- From `s` to `t` the discard counters stay, or one discard is counted. -/
inductive CountsAtMostOne (s t : State) : Prop where
  | none (h : t.discards = s.discards)
  | format (h : t.discards = (discardFormat s).discards)
  | muted (h : t.discards = (discardMuted s).discards)
  | known (h : t.discards = (discardKnown s).discards)
  | noRoom (h : t.discards = (discardNoRoom s).discards)

/-- A count after a change that leaves the counters. -/
theorem CountsAtMostOne.after {s u t : State} (h : CountsAtMostOne u t) (k : u.discards = s.discards) :
    CountsAtMostOne s t := by
  simp only [State.discards, Prod.mk.injEq] at k
  obtain ⟨hformat, hmuted, hknown, hroom⟩ := k
  cases h with
  | none h => exact .none (by simpa [State.discards, hformat, hmuted, hknown, hroom] using h)
  | format h => exact .format (by simpa [State.discards, discardFormat, hformat, hmuted, hknown, hroom] using h)
  | muted h => exact .muted (by simpa [State.discards, discardMuted, hformat, hmuted, hknown, hroom] using h)
  | known h => exact .known (by simpa [State.discards, discardKnown, hformat, hmuted, hknown, hroom] using h)
  | noRoom h => exact .noRoom (by simpa [State.discards, discardNoRoom, hformat, hmuted, hknown, hroom] using h)

theorem discards_of_frame {l : List Block} {s t : State} (h : changesOnly l s t) (hl : .modem ∉ l := by decide) :
    t.discards = s.discards := by
  have hmodem : t.modem = s.modem := h .modem hl
  simp only [State.discards, hmodem]

theorem beginHandoff_discards (s : State) : (beginHandoff s).discards = s.discards := by
  unfold beginHandoff
  split
  · split <;> rfl
  · rfl

theorem settle_discards (s : State) : (settle s).discards = s.discards :=
  calc (settle s).discards
      = (beginHandoff (presentationDecision s)).discards := discards_of_frame storeSelect_keeps.frame
    _ = (presentationDecision s).discards := beginHandoff_discards _
    _ = s.discards := discards_of_frame presentationDecision_keeps.frame

theorem combineCopy_discards (i : SlotIndex) (c : Copy) (s : State) : (combineCopy i c s).discards = s.discards := by
  unfold combineCopy
  extract_lets u
  split
  · rfl
  · split
    · have hreport : (reportAcceptance i c.index u).discards = u.discards :=
        discards_of_frame (reportAcceptance_keeps i c.index).frame
      exact (settle_discards _).trans hreport
    · rfl

theorem openSlot_counts (existing : Option SlotIndex) (c : Copy) (s : State) : CountsAtMostOne s (openSlot existing c s) := by
  unfold openSlot
  split
  · exact .noRoom rfl
  case h_2 t ht =>
    have hslot : t.discards = s.discards := discards_of_frame (roomForSlot_keeps ht).frame
    split
    · exact (CountsAtMostOne.noRoom rfl).after hslot
    · split
      · exact (CountsAtMostOne.noRoom rfl).after hslot
      case h_2 u hu =>
        have hbuffer : u.discards = t.discards := discards_of_frame (roomForBuffer_spec hu).1.frame
        exact .none ((combineCopy_discards ..).trans (hbuffer.trans hslot))

theorem restartSlot_counts (i : SlotIndex) (c : Copy) (s : State) : CountsAtMostOne s (restartSlot i c s) := by
  unfold restartSlot
  split
  · exact .none rfl
  · extract_lets t
    refine .none ((combineCopy_discards ..).trans ?_)
    split
    · exact (discards_of_frame (postSlot_keeps i .abandoned).frame).trans rfl
    · rfl

theorem routeCopy_counts (i : SlotIndex) (c : Copy) (s : State) : CountsAtMostOne s (routeCopy i c s) := by
  unfold routeCopy
  split
  · exact .none rfl
  · split
    · exact .format rfl
    · extract_lets t
      split
      · exact .none rfl
      · split
        · split
          · exact .noRoom rfl
          case h_2 u hu =>
            have hbuffer : u.discards = t.discards := discards_of_frame (roomForBuffer_spec hu).1.frame
            exact .none ((combineCopy_discards ..).trans hbuffer)
        · exact .none (combineCopy_discards ..)
        · exact .none (combineCopy_discards ..)
        · exact .known rfl

theorem tableDecision_counts (c : Copy) (s : State) : CountsAtMostOne s (tableDecision c s) := by
  unfold tableDecision
  split
  · exact .known rfl
  · extract_lets held
    split
    · exact routeCopy_counts ..
    · split
      · exact .known rfl
      · split
        · exact restartSlot_counts ..
        · exact openSlot_counts ..

theorem intakeCopy_counts (p : List Octet) (s : State) : CountsAtMostOne s (intakeCopy p s) := by
  unfold intakeCopy
  extract_lets c
  split_ifs
  · exact .format rfl
  · exact .muted rfl
  · exact .known rfl
  · exact tableDecision_counts ..

theorem takeSheet_counts (s : State) : CountsAtMostOne s (takeFrame kindSheet intakeCopy s) := by
  unfold takeFrame
  split
  · exact .none rfl
  · split
    · exact .none rfl
    · split
      · exact (intakeCopy_counts ..).after rfl
      · exact .none rfl

/-- Settles O12: intake and the table count one discard, or none, on each of their paths (`takeSheet_counts`). -/
theorem aSheetIsCountedAtMostOnce : Obligations.ASheetIsCountedAtMostOnce := by
  intro s t h
  have hcounts : CountsAtMostOne s t := by
    cases hlow : s.lines.resetLow with
    | true =>
      rw [exec_of_low hlow] at h
      cases h
      exact .none rfl
    | false =>
      rw [exec_of_running hlow] at h
      cases h
      exact takeSheet_counts s
  cases hcounts with
  | none h => exact .inl (by simpa [State.discards] using h)
  | format h => exact .inr (.inl (by simpa [State.discards, discardFormat] using h))
  | muted h => exact .inr (.inr (.inl (by simpa [State.discards, discardMuted] using h)))
  | known h => exact .inr (.inr (.inr (.inl (by simpa [State.discards, discardKnown] using h))))
  | noRoom h => exact .inr (.inr (.inr (.inr (by simpa [State.discards, discardNoRoom] using h))))

end Sys2Proof.Machine

/-! ## The victim of a reclaim (R47) and what a reclaim does (R48): O21 -/

namespace Sys2Proof.Machine

set_option Elab.async false

/-! ### The best slot by a key -/

/-- Slot `j`, not the requester's own, holds an eligible record `x`. -/
structure Candidate (s : State) (own : Option SlotIndex) (eligible : Slot → Bool) (j : SlotIndex) (x : Slot) : Prop where
  not_own : own ≠ some j
  holds : slotOf s j = some x
  isEligible : eligible x = true

/-- The choice among the slots `seen`: no candidate, or the one of least key and then of lowest index. -/
def BestOf {α : Type} [LinearOrder α] (s : State) (own : Option SlotIndex) (eligible : Slot → Bool) (key : Slot → α)
    (seen : List SlotIndex) : Option SlotIndex → Prop
  | none => ∀ j ∈ seen, ∀ y, ¬ Candidate s own eligible j y
  | some v => ∃ x, Candidate s own eligible v x ∧
      ∀ j ∈ seen, ∀ y, Candidate s own eligible j y → key x < key y ∨ key x = key y ∧ v ≤ j

section
variable {α : Type} [LinearOrder α] {s : State} {own : Option SlotIndex} {eligible : Slot → Bool} {key : Slot → α}
  {seen : List SlotIndex} {best : Option SlotIndex} {i : SlotIndex} {x : Slot}

theorem Candidate.unique {j : SlotIndex} {y z : Slot} (h : Candidate s own eligible j y) (hz : slotOf s j = some z) :
    y = z := Option.some.inj (h.holds.symm.trans hz)

/-- A slot that is no candidate leaves the choice. -/
theorem BestOf.skip (h : BestOf s own eligible key seen best) (hi : ∀ y, ¬ Candidate s own eligible i y) :
    BestOf s own eligible key (seen ++ [i]) best := by
  have hnew : ∀ j ∈ seen ++ [i], j ∉ seen → ∀ y, ¬ Candidate s own eligible j y := fun j hj hold => by
    obtain rfl : j = i := by simpa [hold] using hj
    exact hi
  cases best with
  | none => exact fun j hj y hc => (by_cases (p := j ∈ seen) (h j · y hc) fun hold => hnew j hj hold y hc)
  | some v =>
    obtain ⟨x, hx, hbest⟩ := h
    exact ⟨x, hx, fun j hj y hc => by_cases (p := j ∈ seen) (hbest j · y hc) fun hold => absurd hc (hnew j hj hold y)⟩

/-- A first candidate is chosen. -/
theorem BestOf.first (h : BestOf s own eligible key seen none) (hi : Candidate s own eligible i x) :
    BestOf s own eligible key (seen ++ [i]) (some i) := by
  refine ⟨x, hi, fun j hj y hc => ?_⟩
  rcases List.mem_append.1 hj with hj | hj
  · exact absurd hc (h j hj y)
  · obtain rfl := List.mem_singleton.1 hj
    exact .inr ⟨by rw [hc.unique hi.holds], le_refl _⟩

/-- A candidate of a smaller key is chosen in place of the best so far. -/
theorem BestOf.replace {v : SlotIndex} {z : Slot} (h : BestOf s own eligible key seen (some v)) (hv : slotOf s v = some z)
    (hi : Candidate s own eligible i x) (hlt : key x < key z) : BestOf s own eligible key (seen ++ [i]) (some i) := by
  obtain ⟨w, hw, hbest⟩ := h
  obtain rfl := hw.unique hv
  refine ⟨x, hi, fun j hj y hc => ?_⟩
  rcases List.mem_append.1 hj with hj | hj
  · rcases hbest j hj y hc with hlt' | ⟨heq, _⟩
    · exact .inl (hlt.trans hlt')
    · exact .inl (heq ▸ hlt)
  · obtain rfl := List.mem_singleton.1 hj
    exact .inr ⟨by rw [hc.unique hi.holds], le_refl _⟩

/-- A later candidate of no smaller key leaves the choice. -/
theorem BestOf.keep {v : SlotIndex} {z : Slot} (h : BestOf s own eligible key seen (some v)) (hv : slotOf s v = some z)
    (hi : Candidate s own eligible i x) (hle : ¬ key x < key z) (hvi : v ≤ i) :
    BestOf s own eligible key (seen ++ [i]) (some v) := by
  obtain ⟨w, hw, hbest⟩ := h
  obtain rfl := hw.unique hv
  refine ⟨w, hw, fun j hj y hc => ?_⟩
  rcases List.mem_append.1 hj with hj | hj
  · exact hbest j hj y hc
  · obtain rfl := List.mem_singleton.1 hj
    obtain rfl := hc.unique hi.holds
    exact (lt_or_eq_of_le (not_lt.1 hle)).imp id fun heq => ⟨heq, hvi⟩

/-- `pickSlot` goes on from the best of the slots seen to the best of all, when the rest stand above those seen. -/
theorem pickSlot_bestOf {better : Slot → Slot → Bool} (hbetter : ∀ x y, better x y = true ↔ key x < key y)
    {l : List SlotIndex} (hsorted : l.Pairwise (· < ·)) (habove : ∀ v, best = some v → ∀ j ∈ l, v < j)
    (h : BestOf s own eligible key seen best) : BestOf s own eligible key (seen ++ l) (pickSlot s own eligible better l best) := by
  induction l generalizing seen best with
  | nil => rw [List.append_nil]; exact h
  | cons i l ih =>
    obtain ⟨hi, hl⟩ := List.pairwise_cons.1 hsorted
    have hrest : ∀ v, best = some v → ∀ j ∈ l, v < j := fun v hv j hj => habove v hv j (List.mem_cons_of_mem _ hj)
    have hself : ∀ v, some i = some v → ∀ j ∈ l, v < j := fun v hv => Option.some.inj hv ▸ hi
    rw [List.append_cons]
    unfold pickSlot
    split
    case h_1 hfree => exact ih hl hrest (h.skip fun y hc => nomatch hc.holds.symm.trans hfree)
    case h_2 x hx =>
      split
      case isFalse hnot =>
        refine ih hl hrest (h.skip fun y hc => hnot ?_)
        obtain rfl := hc.unique hx
        simp [hc.not_own, hc.isEligible]
      case isTrue hcand =>
        simp only [Bool.and_eq_true, decide_eq_true_eq, ne_eq] at hcand
        have hx : Candidate s own eligible i x := ⟨hcand.1, hx, hcand.2⟩
        cases best with
        | none => exact ih hl hself (h.first hx)
        | some v =>
          obtain ⟨z, hz, _⟩ := id h
          simp only [Option.bind_some, hz.holds]
          split
          case isTrue hlt => exact ih hl hself (h.replace hz.holds hx ((hbetter x z).1 hlt))
          case isFalse hle =>
            have hvi : v ≤ i := (habove v rfl i List.mem_cons_self).le
            exact ih hl hrest (h.keep hz.holds hx (mt (hbetter x z).2 hle) hvi)

theorem pickSlot_allSlots {better : Slot → Slot → Bool} (hbetter : ∀ x y, better x y = true ↔ key x < key y) :
    BestOf s own eligible key allSlots (pickSlot s own eligible better allSlots none) :=
  pickSlot_bestOf (seen := []) hbetter (by decide) (fun _ h => nomatch h) fun _ h => nomatch h

end

/-! ### The two steps of R47 -/

/-- R47 step 1: slot `j` is DONE and not the requester's own. -/
def IsDone (s : State) (own : Option SlotIndex) (j : SlotIndex) : Prop := own ≠ some j ∧ stateAt s j = some .done

/-- R47 step 2: slot `j` is being assembled, of rank at most the requester's, and not the requester's own. -/
def Assembles (s : State) (rank : Nat) (own : Option SlotIndex) (j : SlotIndex) : Prop :=
  own ≠ some j ∧ rankAt s j ≤ rank ∧ (stateAt s j = some .gathering ∨ stateAt s j = some .admitted)

/-- What R47 step 2 compares: the rank, then the last activity. -/
def assemblyKey (x : Slot) : Nat ×ₗ Nat := toLex (x.rank, x.lastActivity)

theorem rankAt_of_slot {s : State} {i : SlotIndex} {x : Slot} (h : slotOf s i = some x) : rankAt s i = x.rank := by
  rw [rankAt, h]
  rfl

theorem isDone_iff {s : State} {own : Option SlotIndex} {j : SlotIndex} :
    IsDone s own j ↔ ∃ x, Candidate s own (fun x => decide (x.state = .done)) j x := by
  constructor
  · rintro ⟨hown, hst⟩
    obtain ⟨x, hx, hdone⟩ := slot_of_state hst
    exact ⟨x, hown, hx, decide_eq_true hdone⟩
  · rintro ⟨x, hown, hx, hdone⟩
    exact ⟨hown, (stateAt_of_slot hx).trans (congrArg some (of_decide_eq_true hdone))⟩

theorem assembles_iff {s : State} {rank : Nat} {own : Option SlotIndex} {j : SlotIndex} :
    Assembles s rank own j ↔ ∃ x, Candidate s own (fun x =>
      (decide (x.state = .gathering) || decide (x.state = .admitted)) && decide (x.rank ≤ rank)) j x := by
  constructor
  · rintro ⟨hown, hrank, hst⟩
    obtain ⟨x, hx⟩ : ∃ x, slotOf s j = some x := by
      rcases hst with hst | hst <;> exact (slot_of_state hst).imp fun _ h => h.1
    rw [rankAt_of_slot hx] at hrank
    exact ⟨x, hown, hx, by simpa [stateAt_of_slot hx, hrank] using hst⟩
  · rintro ⟨x, hown, hx, helig⟩
    simp only [Bool.and_eq_true, Bool.or_eq_true, decide_eq_true_eq] at helig
    exact ⟨hown, (rankAt_of_slot hx).trans_le helig.2, by simpa [stateAt_of_slot hx] using helig.1⟩

theorem doneVictim_bestOf (s : State) (own : Option SlotIndex) :
    BestOf s own (fun x => decide (x.state = .done)) (fun x => x.doneTime.getD 0) allSlots (doneVictim s own) :=
  pickSlot_allSlots fun _ _ => decide_eq_true_iff

theorem assemblyVictim_bestOf (s : State) (rank : Nat) (own : Option SlotIndex) :
    BestOf s own (fun x => (decide (x.state = .gathering) || decide (x.state = .admitted)) && decide (x.rank ≤ rank))
      assemblyKey allSlots (assemblyVictim s rank own) :=
  pickSlot_allSlots fun x y => by simp [assemblyKey, Prod.Lex.toLex_lt_toLex]

theorem doneVictim_none {s : State} {own : Option SlotIndex} (h : doneVictim s own = none) (j : SlotIndex) :
    ¬ IsDone s own j := fun hj =>
  have hbest := doneVictim_bestOf s own
  have ⟨x, hx⟩ := isDone_iff.1 hj
  (h ▸ hbest : BestOf s own _ _ allSlots none) j (mem_allSlots j) x hx

theorem assemblyVictim_none {s : State} {rank : Nat} {own : Option SlotIndex} (h : assemblyVictim s rank own = none)
    (j : SlotIndex) : ¬ Assembles s rank own j := fun hj =>
  have hbest := assemblyVictim_bestOf s rank own
  have ⟨x, hx⟩ := assembles_iff.1 hj
  (h ▸ hbest : BestOf s own _ _ allSlots none) j (mem_allSlots j) x hx

/-- R35: the done time of slot `j`; 0 when it has none. -/
def doneTimeAt (s : State) (j : SlotIndex) : Nat := ((slotOf s j).bind (·.doneTime)).getD 0

/-- R35: the last activity of slot `j`; 0 when it is FREE. -/
def lastActivityAt (s : State) (j : SlotIndex) : Nat := ((slotOf s j).map (·.lastActivity)).getD 0

/-- R47 step 1: the DONE slot of the oldest done time and then of the lowest index. -/
theorem doneVictim_some {s : State} {own : Option SlotIndex} {v : SlotIndex} (h : doneVictim s own = some v) :
    IsDone s own v ∧
      ∀ j, IsDone s own j → doneTimeAt s v < doneTimeAt s j ∨ doneTimeAt s v = doneTimeAt s j ∧ v ≤ j := by
  have hbest := doneVictim_bestOf s own
  rw [h] at hbest
  obtain ⟨x, hx, hleast⟩ := hbest
  refine ⟨isDone_iff.2 ⟨x, hx⟩, fun j hj => ?_⟩
  obtain ⟨y, hy⟩ := isDone_iff.1 hj
  simpa [doneTimeAt, hx.holds, hy.holds] using hleast j (mem_allSlots j) y hy

/-- R47 step 2: the slot in assembly of the lowest rank, then the oldest last activity, then the lowest index. -/
theorem assemblyVictim_some {s : State} {rank : Nat} {own : Option SlotIndex} {v : SlotIndex}
    (h : assemblyVictim s rank own = some v) :
    Assembles s rank own v ∧ ∀ j, Assembles s rank own j → rankAt s v < rankAt s j ∨ rankAt s v = rankAt s j ∧
      (lastActivityAt s v < lastActivityAt s j ∨ lastActivityAt s v = lastActivityAt s j ∧ v ≤ j) := by
  have hbest := assemblyVictim_bestOf s rank own
  rw [h] at hbest
  obtain ⟨x, hx, hleast⟩ := hbest
  refine ⟨assembles_iff.2 ⟨x, hx⟩, fun j hj => ?_⟩
  obtain ⟨y, hy⟩ := assembles_iff.1 hj
  have horder := hleast j (mem_allSlots j) y hy
  simp only [assemblyKey, Prod.Lex.toLex_lt_toLex, toLex_inj, Prod.mk.injEq] at horder
  simp only [rankAt_of_slot hx.holds, rankAt_of_slot hy.holds, lastActivityAt, hx.holds, hy.holds, Option.map_some,
    Option.getD_some]
  rcases horder with (hrank | ⟨hrank, hlast⟩) | ⟨⟨hrank, hlast⟩, hvj⟩
  · exact .inl hrank
  · exact .inr ⟨hrank, .inl hlast⟩
  · exact .inr ⟨hrank, .inr ⟨hlast, hvj⟩⟩

/-- R47: no slot qualifies exactly when there is no victim. -/
theorem victim_eq_none_iff (s : State) (rank : Nat) (own : Option SlotIndex) :
    victim s rank own = none ↔ ∀ j, ¬ IsDone s own j ∧ ¬ Assembles s rank own j := by
  rw [victim, Option.or_eq_none_iff]
  constructor
  · exact fun ⟨hdone, hassembly⟩ j => ⟨doneVictim_none hdone j, assemblyVictim_none hassembly j⟩
  · refine fun h => ⟨?_, ?_⟩
    · cases hv : doneVictim s own with
      | none => rfl
      | some v => exact absurd (doneVictim_some hv).1 (h v).1
    · cases hv : assemblyVictim s rank own with
      | none => rfl
      | some v => exact absurd (assemblyVictim_some hv).1 (h v).2

/-! ### The reclaim -/

theorem freeSlot_events (i : SlotIndex) (s : State) : (freeSlot i s).events = s.events :=
  (freeSlot_keeps i).frame .events (by decide)

theorem postSlot_of_slot {s : State} {i : SlotIndex} {x : Slot} (h : slotOf s i = some x) (kind : SlotKind) :
    postSlot i kind s = s.updEvents (mergeSlotPosting i x.key x.revision kind) := by
  rw [postSlot, h]

theorem reclaim_of_done {s : State} {v : SlotIndex} (h : stateAt s v = some .done) :
    reclaim v s = freeSlot v (dropSlotEntry v s) := by
  rw [reclaim, if_pos h]

theorem reclaim_of_not_done {s : State} {v : SlotIndex} (h : stateAt s v ≠ some .done) :
    reclaim v s = freeSlot v (postSlot v .abandoned s) := by
  rw [reclaim, if_neg h]

/-- Settles O21: the victim by R47's two steps (`doneVictim_some`, `assemblyVictim_some`, `victim_eq_none_iff`), and the
reclaim's effect on the slots (`slotOf_reclaim`), the pool (`buffersUsed_reclaim`) and the event set. -/
theorem reclaimFreesTheRightVictim : Obligations.ReclaimFreesTheRightVictim := by
  refine ⟨fun s rank own => ?_, fun s v x hx => ?_⟩
  · intro isDone assembles doneAt activeAt
    refine ⟨fun v hv => ?_, victim_eq_none_iff s rank own⟩
    rcases Option.or_eq_some_iff.1 hv with hdone | ⟨hnone, hassembly⟩
    · exact .inl (doneVictim_some hdone)
    · exact .inr ⟨doneVictim_none hnone, assemblyVictim_some hassembly⟩
  · refine ⟨(slotOf_reclaim v v).trans (if_pos rfl), (reclaim_keeps v).frame .history (by decide), ?_, fun hdone => ?_,
      fun hdone => ?_, fun j y hj hy => ?_⟩
    · have hbuffers := buffersUsed_reclaim (s := s) v
      rwa [hx] at hbuffers
    · rw [reclaim_of_done ((stateAt_of_slot hx).trans (congrArg some hdone)), freeSlot_events]
      rfl
    · rw [reclaim_of_not_done (by simpa [stateAt_of_slot hx] using hdone), freeSlot_events, postSlot_of_slot hx]
      rfl
    · rw [slotOf_reclaim, if_neg (Ne.symm hj), hy]
      rfl

end Sys2Proof.Machine

/-! ## The table's decision for a copy that passed intake (R37 to R43): O17 to O20 -/

namespace Sys2Proof.Machine

set_option Elab.async false

/-! ### Writing a slot -/

section
variable {s t : State} {i : SlotIndex}

theorem putSlot_putSlot (o o' : Option Slot) : putSlot i o (putSlot i o' s) = putSlot i o s := by
  simp [putSlot, State.updSlots]

theorem putSlot_updEvents (o : Option Slot) (f : List EventEntry → List EventEntry) :
    putSlot i o (s.updEvents f) = (putSlot i o s).updEvents f := rfl

theorem modSlot_of_slot {x : Slot} (h : slotOf s i = some x) (f : Slot → Slot) :
    modSlot i f s = putSlot i (some (f x)) s := by rw [modSlot, h]; rfl

theorem modify_of_getElem {α : Type} {l : List α} {k : Nat} {a : α} (h : l[k]? = some a) (f : α → α) :
    l.modify k f = l.set k (f a) := by
  rw [List.modify_eq_set_getElem?, h]
  rfl

/-- R30: a copy combined into record `r` of slot `i`. -/
theorem combineCopy_of_slot {c : Copy} {x : Slot} {r r' : SheetRecord} (hx : slotOf s i = some x)
    (hr : x.sheets[c.index]? = some r) (hr' : r' = r.combine s.settings.profile s.time.uptime c.cell c.body) :
    combineCopy i c s =
      afterCombining i c.index r' (putSlot i (some { x with sheets := x.sheets.set c.index r' }) s) := by
  have hlt : c.index < x.sheets.length := (List.getElem?_eq_some_iff.1 hr).1
  rw [combineCopy, modSlot_of_slot hx, Slot.withSheet, modify_of_getElem hr, ← hr']
  simp only [putSlot_same, Option.bind_some, List.getElem?_set_self hlt]
  rfl

/-- R39 step 4: a new slot takes its first copy. -/
theorem combineCopy_newSlot {c : Copy} (hindex : c.index < c.count) (uptime gather : Nat) (p : Option SlotIndex)
    {r' : SheetRecord}
    (hr' : r' = SheetRecord.atCreation.combine s.settings.profile s.time.uptime c.cell c.body) :
    combineCopy i c (putSlot i (some (newSlot c uptime gather p)) s) =
      afterCombining i c.index r' (putSlot i (some
        { newSlot c uptime gather p with sheets := (List.replicate c.count .atCreation).set c.index r' }) s) := by
  rw [combineCopy_of_slot (putSlot_same ..) (newSlot_sheet c uptime gather p hindex) hr', putSlot_putSlot]
  rfl

/-! ### What a reclaim finds -/

theorem pickSlot_congr {own : Option SlotIndex} (h : ∀ j, own ≠ some j → slotOf t j = slotOf s j)
    (eligible : Slot → Bool) (better : Slot → Slot → Bool) (l : List SlotIndex) {best : Option SlotIndex}
    (hbest : ∀ v, best = some v → own ≠ some v) :
    pickSlot t own eligible better l best = pickSlot s own eligible better l best := by
  induction l generalizing best with
  | nil => rfl
  | cons j l ih =>
    by_cases hj : own = some j
    · have hskip : ∀ u : State, pickSlot u own eligible better (j :: l) best = pickSlot u own eligible better l best :=
        fun u => by
          rw [pickSlot]
          split
          · rfl
          · simp [hj]
      rw [hskip, hskip, ih hbest]
    · have hstands : best.bind (slotOf t) = best.bind (slotOf s) := by
        cases best with
        | none => rfl
        | some v => exact h v (hbest v rfl)
      have hself : ∀ v, some j = some v → own ≠ some v := fun v hv => Option.some.inj hv ▸ hj
      have heither : ∀ b : Bool, ∀ v, (if b = true then some j else best) = some v → own ≠ some v := fun b => by
        cases b
        · exact hbest
        · exact hself
      simp only [pickSlot, h j hj, hstands, ih hbest, ih hself, ih (heither _)]

/-- R47: the choice of a victim depends on the slots other than the requester's own alone. -/
theorem victim_congr {own : Option SlotIndex} (h : ∀ j, own ≠ some j → slotOf t j = slotOf s j) (rank : Nat) :
    victim t rank own = victim s rank own := by
  simp only [victim, doneVictim, assemblyVictim, pickSlot_congr h _ _ _ (best := none) nofun]

theorem victim_withFifo (rest : List Frame) (rank : Nat) (own : Option SlotIndex) :
    victim (withFifo rest s) rank own = victim s rank own :=
  have hslots : ∀ j, slotOf (withFifo rest s) j = slotOf s j := fun _ => rfl
  victim_congr (fun j _ => hslots j) rank

/-- R47: where nothing is eligible, nothing is for a requester with a slot of its own. -/
theorem victim_none_of_own {rank : Nat} (h : victim s rank none = none) (own : Option SlotIndex) :
    victim s rank own = none :=
  (victim_eq_none_iff ..).2 fun j =>
    have ⟨hdone, hassembly⟩ := (victim_eq_none_iff ..).1 h j
    ⟨fun hj => hdone ⟨nofun, hj.2⟩, fun hj => hassembly ⟨nofun, hj.2⟩⟩

theorem find_unique {α : Type} {l : List α} {p : α → Bool} {a : α} (ha : a ∈ l) (hp : p a = true)
    (h : ∀ b ∈ l, p b = true → b = a) : l.find? p = some a := by
  cases hf : l.find? p with
  | none => exact absurd hp (List.find?_eq_none.1 hf a ha)
  | some b => rw [h b (List.mem_of_find?_eq_some hf) (List.find?_some hf)]

theorem lowestFree_isSome : (lowestFree s).isSome = true ↔ ∃ j, slotOf s j = none := by
  simp [lowestFree, mem_allSlots]

/-- R39 step 1: the FREE slot of lowest index. -/
theorem lowestFree_of_least (hfree : slotOf s i = none) (hleast : ∀ j, j < i → slotOf s j ≠ none) :
    lowestFree s = some i := by
  refine List.find?_eq_some_iff_append.2 ⟨by rw [hfree]; rfl, ?_⟩
  obtain ⟨before, after, hsplit⟩ := List.append_of_mem (mem_allSlots i)
  refine ⟨before, after, hsplit, fun j hj => ?_⟩
  have hsorted : (before ++ i :: after).Pairwise (· < ·) := hsplit ▸ (by decide : allSlots.Pairwise (· < ·))
  have hlt : j < i := (List.pairwise_append.1 hsorted).2.2 j hj i List.mem_cons_self
  simpa [Option.isSome_iff_ne_none] using hleast j hlt

theorem roomForSlot_of_slotAtHand {rank : Nat} (h : SlotAtHand rank s t) : roomForSlot rank s = some t := by
  rcases h with ⟨hfree, rfl⟩ | ⟨hfull, v, hv, rfl⟩
  · exact if_pos (lowestFree_isSome.2 hfree)
  · rw [roomForSlot, if_neg fun h => (lowestFree_isSome.1 h).elim hfull, hv]
    rfl

theorem roomForBuffer_of_bufferAtHand {rank : Nat} {own : SlotIndex} (h : BufferAtHand rank own s t) :
    roomForBuffer rank own s = some t := by
  rcases h with ⟨hroom, rfl⟩ | ⟨hfull, v, hv, rfl⟩
  · exact if_pos hroom
  · exact (if_neg (not_lt.2 hfull)).trans (congrArg (Option.map (reclaim · s)) hv)

/-! ### The slots of a key -/

theorem mem_slotsOfKey {key : Key} {j : SlotIndex} :
    j ∈ slotsOfKey s key ↔ ∃ y, slotOf s j = some y ∧ y.key = key := by
  simp [slotsOfKey, mem_allSlots]

theorem revisionAt_of_slot {x : Slot} (h : slotOf s i = some x) : revisionAt s i = x.revision.toNat := by
  rw [revisionAt, h]
  rfl

/-- R41: a slot that is GATHERING or ADMITTED. -/
theorem assembling_of_slot {x : Slot} (h : slotOf s i = some x) :
    (decide (stateAt s i = some .gathering) || decide (stateAt s i = some .admitted)) = x.state.assembling := by
  rw [stateAt_of_slot h]
  cases x.state <;> rfl

theorem slotsOfKey_eq_nil {key : Key} (h : ∀ j y, slotOf s j = some y → y.key ≠ key) : slotsOfKey s key = [] :=
  List.eq_nil_iff_forall_not_mem.2 fun j hj =>
    have ⟨y, hy, hkey⟩ := mem_slotsOfKey.1 hj
    h j y hy hkey

theorem slotsOfKey_head {key : Key} {x : Slot} (hx : slotOf s i = some x) (hkey : x.key = key)
    (honly : ∀ k y, k ≠ i → slotOf s k = some y → y.key ≠ key) : (slotsOfKey s key).head? = some i := by
  rw [slotsOfKey, List.head?_filter]
  refine find_unique (mem_allSlots i) (by simp [hx, hkey]) fun k _ hk => ?_
  obtain ⟨y, hy, hykey⟩ : ∃ y, slotOf s k = some y ∧ y.key = key := by simpa using hk
  exact not_imp_comm.1 (honly k y · hy) (not_not.2 hykey)

/-! ### The decision, case by case -/

/-- R7: history holds no entry of the copy's key at its revision or above. -/
def Copy.fresh (c : Copy) (s : State) : Prop := ∀ h ∈ s.history, h.key = c.key → h.revision.toNat < c.revision.toNat

theorem not_known_of_fresh {c : Copy} (h : c.fresh s) : knownTo s.history c.key c.revision = false :=
  Bool.eq_false_iff.2 fun hknown =>
    have ⟨e, he, hkey, hle⟩ := (knownTo_iff ..).1 hknown
    absurd hle (not_le.2 (h e he hkey))

/-- R37: the decision for a copy that history does not know. -/
theorem tableDecision_of_fresh {c : Copy} (h : c.fresh s) :
    tableDecision c s =
      match (slotsOfKey s c.key).find? fun i => decide (revisionAt s i = c.revision.toNat) with
      | some i => routeCopy i c s
      | none =>
        if (slotsOfKey s c.key).any fun i => decide (c.revision.toNat < revisionAt s i) then discardKnown s
        else
          match (slotsOfKey s c.key).find? fun i =>
            decide (stateAt s i = some .gathering) || decide (stateAt s i = some .admitted) with
          | some i => restartSlot i c s
          | none => openSlot (slotsOfKey s c.key).head? c s := by
  rw [tableDecision, not_known_of_fresh h]
  rfl

/-- R40: the slot that holds the copy's revision. -/
theorem tableDecision_of_held {c : Copy} {x : Slot} (h : c.fresh s) (hx : slotOf s i = some x) (hkey : x.key = c.key)
    (hrev : x.revision = c.revision)
    (honly : ∀ j y, j ≠ i → slotOf s j = some y → y.key = c.key → y.revision ≠ c.revision) :
    tableDecision c s = routeCopy i c s := by
  have hfind : ((slotsOfKey s c.key).find? fun j => decide (revisionAt s j = c.revision.toNat)) = some i := by
    refine find_unique (mem_slotsOfKey.2 ⟨x, hx, hkey⟩) (by simp [revisionAt_of_slot hx, hrev]) fun j hj hp => ?_
    obtain ⟨y, hy, hykey⟩ := mem_slotsOfKey.1 hj
    have hyrev : y.revision = c.revision := BitVec.eq_of_toNat_eq (by simpa [revisionAt_of_slot hy] using hp)
    exact not_imp_comm.1 (honly j y · hy hykey) (not_not.2 hyrev)
  rw [tableDecision_of_fresh h, hfind]

theorem find_revision_none {c : Copy} (h : ∀ j y, slotOf s j = some y → y.key = c.key → y.revision ≠ c.revision) :
    ((slotsOfKey s c.key).find? fun j => decide (revisionAt s j = c.revision.toNat)) = none := by
  refine List.find?_eq_none.2 fun j hj hp => ?_
  obtain ⟨y, hy, hkey⟩ := mem_slotsOfKey.1 hj
  exact h j y hy hkey (BitVec.eq_of_toNat_eq (by simpa [revisionAt_of_slot hy] using hp))

/-- R43: a copy below a slot of its key. -/
theorem tableDecision_of_below {c : Copy} (h : c.fresh s)
    (hother : ∀ j y, slotOf s j = some y → y.key = c.key → y.revision ≠ c.revision)
    (habove : ∃ j y, slotOf s j = some y ∧ y.key = c.key ∧ c.revision.toNat < y.revision.toNat) :
    tableDecision c s = discardKnown s := by
  obtain ⟨j, y, hy, hkey, hlt⟩ := habove
  have hany : ((slotsOfKey s c.key).any fun j => decide (c.revision.toNat < revisionAt s j)) = true :=
    List.any_eq_true.2 ⟨j, mem_slotsOfKey.2 ⟨y, hy, hkey⟩, by simpa [revisionAt_of_slot hy] using hlt⟩
  rw [tableDecision_of_fresh h, find_revision_none hother]
  exact if_pos hany

/-- R41, R42: a copy above every slot of its key restarts the one being assembled, or opens a slot. -/
theorem tableDecision_of_above {c : Copy} (h : c.fresh s)
    (habove : ∀ j y, slotOf s j = some y → y.key = c.key → y.revision.toNat < c.revision.toNat) :
    tableDecision c s =
      match (slotsOfKey s c.key).find? fun i =>
        decide (stateAt s i = some .gathering) || decide (stateAt s i = some .admitted) with
      | some i => restartSlot i c s
      | none => openSlot (slotsOfKey s c.key).head? c s := by
  have hany : ((slotsOfKey s c.key).any fun j => decide (c.revision.toNat < revisionAt s j)) = false := by
    refine List.any_eq_false.2 fun j hj hp => ?_
    obtain ⟨y, hy, hkey⟩ := mem_slotsOfKey.1 hj
    have hlt := habove j y hy hkey
    have hge : c.revision.toNat < y.revision.toNat := by simpa [revisionAt_of_slot hy] using hp
    omega
  rw [tableDecision_of_fresh h, find_revision_none fun j y hy hkey heq =>
    absurd (heq ▸ habove j y hy hkey) (lt_irrefl _)]
  simp only [hany]
  rfl

theorem tableDecision_restarts {c : Copy} {x : Slot} (h : c.fresh s) (hx : slotOf s i = some x) (hkey : x.key = c.key)
    (hlt : x.revision.toNat < c.revision.toNat) (hst : x.state.assembling = true)
    (honly : ∀ j y, j ≠ i → slotOf s j = some y → y.key = c.key →
      y.revision.toNat < c.revision.toNat ∧ y.state.assembling = false) :
    tableDecision c s = restartSlot i c s := by
  have habove : ∀ j y, slotOf s j = some y → y.key = c.key → y.revision.toNat < c.revision.toNat := fun j y hy hykey => by
    by_cases hj : j = i
    · subst hj
      exact Option.some.inj (hx.symm.trans hy) ▸ hlt
    · exact (honly j y hj hy hykey).1
  have hfind : ((slotsOfKey s c.key).find? fun j =>
      decide (stateAt s j = some .gathering) || decide (stateAt s j = some .admitted)) = some i := by
    refine find_unique (mem_slotsOfKey.2 ⟨x, hx, hkey⟩) ((assembling_of_slot hx).trans hst) fun j hj hp => ?_
    obtain ⟨y, hy, hykey⟩ := mem_slotsOfKey.1 hj
    rw [assembling_of_slot hy] at hp
    by_contra hne
    exact nomatch hp.symm.trans (honly j y hne hy hykey).2
  rw [tableDecision_of_above h habove, hfind]

theorem tableDecision_opens {c : Copy} {existing : Option SlotIndex} (h : c.fresh s) (ho : OpensFor c s existing) :
    tableDecision c s = openSlot existing c s := by
  rcases ho with ⟨rfl, hnew⟩ | ⟨j, x, rfl, hx, hkey, hlt, hst, honly⟩
  · rw [tableDecision_of_above h fun j y hy hkey => absurd hkey (hnew j y hy), slotsOfKey_eq_nil hnew]
    rfl
  · have hself : ∀ k y, slotOf s k = some y → y.key = c.key → y = x := fun k y hy hykey => by
      obtain rfl : k = j := not_imp_comm.1 (honly k y · hy) (not_not.2 hykey)
      exact Option.some.inj (hy.symm.trans hx)
    have hfind : ((slotsOfKey s c.key).find? fun j =>
        decide (stateAt s j = some .gathering) || decide (stateAt s j = some .admitted)) = none := by
      refine List.find?_eq_none.2 fun k hk hp => ?_
      obtain ⟨y, hy, hykey⟩ := mem_slotsOfKey.1 hk
      rw [assembling_of_slot hy, hself k y hy hykey] at hp
      rcases hst with hst | hst | hst | hst | hst <;> rw [hst] at hp <;> cases hp
    rw [tableDecision_of_above h fun k y hy hykey => hself k y hy hykey ▸ hlt, hfind, slotsOfKey_head hx hkey honly]

/-- R5 to R7, R37: SHEET with a copy that passes intake is the table's decision. -/
theorem exec_sheet_of_passes {f : Frame} {rest : List Frame} (h : FrameReady kindSheet f rest s)
    (hc : CopyPasses (copyOf f.payload) s) :
    exec .sheet s = .next (tableDecision (copyOf f.payload).clamped (withFifo rest s)) := by
  have hsane : (copyOf f.payload).sane := ⟨hc.count_pos, hc.count_le, hc.index_lt⟩
  have hwanted : classWanted (withFifo rest s).settings.profile (copyOf f.payload).cls = true :=
    (classWanted_iff ..).2 hc.wanted
  have hfresh : (copyOf f.payload).fresh (withFifo rest s) := hc.fresh
  rw [exec_sheet_of_frameReady h, intakeCopy_of_wanted hsane hwanted, not_known_of_fresh hfresh]
  rfl

end

/-! ### Opening and restarting: O17, O18 -/

theorem time_of_slotAtHand {rank : Nat} {s t : State} (h : SlotAtHand rank s t) :
    t.time = s.time ∧ t.settings = s.settings :=
  have hkeeps := roomForSlot_keeps (roomForSlot_of_slotAtHand h)
  ⟨hkeeps.frame .time (by decide), hkeeps.frame .settings (by decide)⟩

theorem time_of_bufferAtHand {rank : Nat} {own : SlotIndex} {s t : State} (h : BufferAtHand rank own s t) :
    t.time = s.time ∧ t.settings = s.settings :=
  have hkeeps := (roomForBuffer_spec (roomForBuffer_of_bufferAtHand h)).1
  ⟨hkeeps.frame .time (by decide), hkeeps.frame .settings (by decide)⟩

/-- R39, R42: a slot is opened where a slot and a buffer are at hand. -/
theorem openSlot_of_atHand {s t u : State} {i : SlotIndex} {c : Copy} (existing : Option SlotIndex)
    (hslot : SlotAtHand (rankOfClass c.cls) s t) (hfree : slotOf t i = none) (hleast : ∀ j, j < i → slotOf t j ≠ none)
    (hbuffer : BufferAtHand (rankOfClass c.cls) i t u) :
    openSlot existing c s = combineCopy i c (putSlot i (some (newSlot c s.time.uptime s.settings.profile.gatherTimeout
      (existing.filter fun j => (slotOf u j).isSome))) u) := by
  obtain ⟨htime, hsettings⟩ := time_of_slotAtHand hslot
  obtain ⟨htime', hsettings'⟩ := time_of_bufferAtHand hbuffer
  rw [openSlot, roomForSlot_of_slotAtHand hslot]
  simp only [lowestFree_of_least hfree hleast, roomForBuffer_of_bufferAtHand hbuffer, htime', hsettings', htime, hsettings]

/-- Settles O17: the decision opens a slot (`tableDecision_opens`, `openSlot_of_atHand`), which takes its first copy
(`combineCopy_newSlot`). -/
theorem sheetOpensASlotOrASuccessor : Obligations.SheetOpensASlotOrASuccessor := by
  intro f rest s t u i existing c h hc ho hslot hfree hleast hbuffer r
  obtain ⟨htime, hsettings⟩ := time_of_slotAtHand hslot
  obtain ⟨htime', hsettings'⟩ := time_of_bufferAtHand hbuffer
  have hfresh : c.clamped.fresh (withFifo rest s) := hc.fresh
  have hopens : OpensFor c.clamped (withFifo rest s) existing := ho
  have hr : r = SheetRecord.atCreation.combine u.settings.profile u.time.uptime c.cell c.clamped.body := by
    rw [hsettings', hsettings, htime', htime]
    rfl
  rw [exec_sheet_of_passes h hc, tableDecision_opens hfresh hopens,
    openSlot_of_atHand (c := c.clamped) existing hslot hfree hleast hbuffer,
    combineCopy_newSlot (c := c.clamped) hc.index_lt _ _ _ hr]
  rfl

/-- R41: a slot restarted in place. -/
theorem restartSlot_of_slot {s : State} {i : SlotIndex} {x : Slot} {c : Copy} (hx : slotOf s i = some x)
    (hindex : c.index < c.count) {r : SheetRecord}
    (hr : r = SheetRecord.atCreation.combine s.settings.profile s.time.uptime c.cell c.body) :
    restartSlot i c s = afterCombining i c.index r ((putSlot i (some
      { newSlot c s.time.uptime s.settings.profile.gatherTimeout x.predecessor with
        sheets := (List.replicate c.count .atCreation).set c.index r }) s).updEvents fun l =>
          if x.state = .admitted then mergeSlotPosting i c.key c.revision .abandoned l else l) := by
  rw [restartSlot, hx]
  simp only
  split
  case isTrue hadmitted =>
    have hposted (y : Slot) : slotOf ((putSlot i (some y) s).updEvents
        (mergeSlotPosting i y.key y.revision .abandoned)) i = some y := putSlot_same ..
    rw [postSlot_of_slot (putSlot_same ..), combineCopy_of_slot (hposted _) (newSlot_sheet _ _ _ _ hindex) hr,
      putSlot_updEvents, putSlot_putSlot]
    rfl
  case isFalse hnot => exact combineCopy_newSlot hindex _ _ _ hr

/-- Settles O18: the decision restarts the slot (`tableDecision_restarts`, `restartSlot_of_slot`). -/
theorem sheetRestartsASlotInPlace : Obligations.SheetRestartsASlotInPlace := by
  intro f rest s i x c h hc hx hkey hlt hst honly r
  have hfresh : c.clamped.fresh (withFifo rest s) := hc.fresh
  rw [exec_sheet_of_passes h hc, tableDecision_restarts (c := c.clamped) hfresh hx hkey hlt hst honly,
    restartSlot_of_slot (s := withFifo rest s) (c := c.clamped) (r := r) hx hc.index_lt rfl]
  rfl

/-! ### Routing: O19 -/

section
variable {s t : State} {i v : SlotIndex} {x : Slot} {c : Copy} {r : SheetRecord}

/-- States with the same slots that agree elsewhere. -/
theorem eq_of_slots (hslots : ∀ j, slotOf s j = slotOf t j) (hrest : s.updSlots (fun _ => t.slots) = t) : s = t := by
  have hvector : s.slots = t.slots := Vector.ext fun j hj => hslots ⟨j, hj⟩
  calc s = s.updSlots fun _ => s.slots := rfl
    _ = s.updSlots fun _ => t.slots := by rw [hvector]
    _ = t := hrest

/-- R48: a reclaim of an occupied slot. -/
theorem reclaim_of_slot (hx : slotOf s v = some x) :
    reclaim v s = freeSlot v (s.updEvents fun l =>
      if x.state = .done then l.filter fun e => !e.isOfSlot v else mergeSlotPosting v x.key x.revision .abandoned l) := by
  by_cases hdone : x.state = .done
  · rw [reclaim_of_done ((stateAt_of_slot hx).trans (congrArg some hdone))]
    simp only [hdone, if_true]
    rfl
  · rw [reclaim_of_not_done (by simpa [stateAt_of_slot hx] using hdone), postSlot_of_slot hx]
    simp only [hdone, if_false]

/-- What another slot held before a reclaim does not matter once it is written. -/
theorem putSlot_reclaim_putSlot (hne : i ≠ v) (hx : slotOf s v = some x) (o o' : Option Slot) :
    putSlot i o (reclaim v (putSlot i o' s)) = putSlot i o (reclaim v s) := by
  have hx' : slotOf (putSlot i o' s) v = some x := (putSlot_other o' hne).trans hx
  refine eq_of_slots (fun j => ?_) ?_
  · by_cases hij : i = j
    · subst hij
      rw [putSlot_same, putSlot_same]
    · rw [putSlot_other _ hij, putSlot_other _ hij, slotOf_reclaim, slotOf_reclaim, putSlot_other _ hij]
  · rw [reclaim_of_slot hx, reclaim_of_slot hx']
    rfl

theorem buffersUsed_putSlot {y : Slot} (hx : slotOf s i = some x) (h : y.buffers = x.buffers) :
    buffersUsed (putSlot i (some y) s) = buffersUsed s := by
  have hsum := buffersIn_set s.slots i (some y)
  rw [show s.slots[i.val] = some x from hx, show placeBuffers (some y) = placeBuffers (some x) from h] at hsum
  exact Nat.add_right_cancel hsum

/-- R40: a copy at another sheet count than its slot's. -/
theorem routeCopy_of_count_ne (hx : slotOf s i = some x) (hcount : x.sheets.length ≠ c.count) :
    routeCopy i c s = discardFormat s := by
  rw [routeCopy, hx]
  exact if_pos hcount

/-- R40: slot `i`, holding `x`, touched by a copy that is routed to it. -/
def touched (i : SlotIndex) (x : Slot) (s : State) : State :=
  putSlot i (some (x.touch s.time.uptime s.settings.profile.gatherTimeout)) s

theorem touched_eq_modSlot (hx : slotOf s i = some x) :
    touched i x s = modSlot i (Slot.touch s.time.uptime s.settings.profile.gatherTimeout) s :=
  (modSlot_of_slot hx _).symm

theorem buffersUsed_touched (hx : slotOf s i = some x) : buffersUsed (touched i x s) = buffersUsed s :=
  buffersUsed_putSlot (y := x.touch _ _) hx rfl

theorem touch_sheet {k : Nat} (hr : x.sheets[k]? = some r) (uptime gather : Nat) :
    (x.touch uptime gather).sheets[k]? = some r := hr

theorem slotOf_touched : slotOf (touched i x s) i = some (x.touch s.time.uptime s.settings.profile.gatherTimeout) :=
  putSlot_same ..

/-- R40: a sheet with a buffer that is not ACCEPTED. -/
theorem routeCopy_of_begun (hx : slotOf s i = some x) (hcount : x.sheets.length = c.count)
    (hr : x.sheets[c.index]? = some r) (hst : r.state = .combining ∨ r.state = .held) :
    routeCopy i c s = combineCopy i c (touched i x s) := by
  rw [routeCopy, hx, touched_eq_modSlot hx]
  rcases hst with hst | hst <;> simp [hcount, hr, hst]

/-- R40: an EMPTY sheet that finds a buffer. -/
theorem routeCopy_of_room (hx : slotOf s i = some x) (hcount : x.sheets.length = c.count)
    (hr : x.sheets[c.index]? = some r) (hst : r.state = .empty) (hroom : roomForBuffer x.rank i (touched i x s) = some t) :
    routeCopy i c s = combineCopy i c t := by
  rw [touched_eq_modSlot hx] at hroom
  rw [routeCopy, hx]
  simp [hcount, hr, hst, hroom]

/-- R40, R49: an EMPTY sheet that finds no buffer. -/
theorem routeCopy_of_noRoom (hx : slotOf s i = some x) (hcount : x.sheets.length = c.count)
    (hr : x.sheets[c.index]? = some r) (hst : r.state = .empty) (hroom : roomForBuffer x.rank i (touched i x s) = none) :
    routeCopy i c s = discardNoRoom (touched i x s) := by
  rw [touched_eq_modSlot hx] at hroom ⊢
  rw [routeCopy, hx]
  simp [hcount, hr, hst, hroom]

/-- R27, R40: an ACCEPTED sheet. -/
theorem routeCopy_of_accepted (hx : slotOf s i = some x) (hcount : x.sheets.length = c.count)
    (hr : x.sheets[c.index]? = some r) (hst : r.state = .accepted) :
    routeCopy i c s = discardKnown (putSlot i (some { x.touch s.time.uptime s.settings.profile.gatherTimeout with
      sheets := x.sheets.set c.index { r with copies := bump 255 r.copies } }) s) := by
  have hroute : routeCopy i c s = discardKnown
      (modSlot i (Slot.withSheet c.index fun r => { r with copies := bump 255 r.copies }) (touched i x s)) := by
    rw [routeCopy, hx, touched_eq_modSlot hx]
    simp [hcount, hr, hst]
  rw [hroute, modSlot_of_slot slotOf_touched, Slot.withSheet, modify_of_getElem (touch_sheet hr _ _), touched,
    putSlot_putSlot]
  rfl

/-- R40: with a buffer left in the pool, touching the slot leaves it at hand. -/
theorem roomForBuffer_touched (hx : slotOf s i = some x) (h : buffersUsed s < 48) (rank : Nat) :
    roomForBuffer rank i (touched i x s) = some (touched i x s) :=
  if_pos ((buffersUsed_touched hx).trans_lt h)

theorem roomForBuffer_touched_full (hx : slotOf s i = some x) (h : 48 ≤ buffersUsed s) (rank : Nat) :
    roomForBuffer rank i (touched i x s) = (victim s rank (some i)).map (reclaim · (touched i x s)) := by
  have hvictim : victim (touched i x s) rank (some i) = victim s rank (some i) :=
    victim_congr (fun j hj => putSlot_other _ fun e => hj (congrArg some e)) rank
  have hfull : ¬ buffersUsed (touched i x s) < Config.bufferCount :=
    not_lt.2 (h.trans_eq (buffersUsed_touched hx).symm)
  rw [roomForBuffer, if_neg hfull, hvictim]

/-- R20, R40: the touched slot combines the copy. -/
theorem combineCopy_touched {r' : SheetRecord} (hr : x.sheets[c.index]? = some r)
    (hr' : r' = r.combine s.settings.profile s.time.uptime c.cell c.body) :
    combineCopy i c (touched i x s) = afterCombining i c.index r' (putSlot i (some
      { x.touch s.time.uptime s.settings.profile.gatherTimeout with sheets := x.sheets.set c.index r' }) s) := by
  rw [combineCopy_of_slot slotOf_touched (touch_sheet hr _ _) hr', touched, putSlot_putSlot]
  rfl

/-- R20, R40, R48: the touched slot combines the copy in the buffer of a reclaimed victim. -/
theorem combineCopy_reclaimed {y : Slot} {r' : SheetRecord} (hne : i ≠ v) (hv : slotOf s v = some y)
    (hr : x.sheets[c.index]? = some r) (hr' : r' = r.combine s.settings.profile s.time.uptime c.cell c.body) :
    combineCopy i c (reclaim v (touched i x s)) = afterCombining i c.index r' (putSlot i (some
      { x.touch s.time.uptime s.settings.profile.gatherTimeout with
        sheets := x.sheets.set c.index r'
        predecessor := if x.predecessor = some v then none else x.predecessor }) (reclaim v s)) := by
  have hslot : slotOf (reclaim v (touched i x s)) i =
      some ((x.touch s.time.uptime s.settings.profile.gatherTimeout).forget v) := by
    rw [slotOf_reclaim, if_neg hne.symm, touched, putSlot_same]
    rfl
  have hframe := (reclaim_keeps (s := touched i x s) v).frame
  have htime : (reclaim v (touched i x s)).time = s.time := hframe .time (by decide)
  have hsettings : (reclaim v (touched i x s)).settings = s.settings := hframe .settings (by decide)
  rw [← htime, ← hsettings] at hr'
  rw [combineCopy_of_slot hslot (by simpa using touch_sheet hr _ _) hr', touched, putSlot_reclaim_putSlot hne hv]
  congr 3
  unfold Slot.forget
  split <;> simp_all [Slot.touch]

end

/-- Settles O19: the decision routes the copy (`tableDecision_of_held`), and the sheet's state decides. -/
theorem sheetReachesTheSlotOfItsRevision : Obligations.SheetReachesTheSlotOfItsRevision := by
  intro f rest s i x r c h hc hx hkey hrev hcount honly hr touched
  have hfresh : c.clamped.fresh (withFifo rest s) := hc.fresh
  have hx' : slotOf (withFifo rest s) i = some x := hx
  rw [exec_sheet_of_passes h hc, tableDecision_of_held (c := c.clamped) hfresh hx' hkey hrev honly]
  refine ⟨?_, ?_, fun hst => ?_⟩
  · intro hst hpool r'
    have hcombine := combineCopy_touched (s := withFifo rest s) (i := i) (c := c.clamped) (r' := r') hr rfl
    refine congrArg _ (.trans ?_ hcombine)
    cases hstate : r.state with
    | empty => exact routeCopy_of_room hx' hcount hr hstate (roomForBuffer_touched hx' (hpool hstate) _)
    | combining => exact routeCopy_of_begun hx' hcount hr (.inl hstate)
    | held => exact routeCopy_of_begun hx' hcount hr (.inr hstate)
    | accepted => exact absurd hstate hst
  · intro v hst hfull hv r'
    obtain ⟨hne, y, hy, _⟩ := victim_spec hv
    have hroom := roomForBuffer_touched_full (s := withFifo rest s) hx' hfull x.rank
    rw [victim_withFifo, hv] at hroom
    rw [routeCopy_of_room (c := c.clamped) hx' hcount hr hst hroom]
    exact congrArg _ (combineCopy_reclaimed (s := withFifo rest s) (c := c.clamped) (r' := r')
      (fun e => hne (congrArg some e)) hy hr rfl)
  · rw [routeCopy_of_accepted (c := c.clamped) hx' hcount hr hst]
    rfl

/-! ### Discards: O20 -/

/-- R49: a copy that finds no slot or no buffer, and no victim. -/
theorem openSlot_of_noRoom {s : State} {existing : Option SlotIndex} {c : Copy}
    (hfull : (∀ j, slotOf s j ≠ none) ∨ 48 ≤ buffersUsed s) (hnone : victim s (rankOfClass c.cls) none = none) :
    openSlot existing c s = discardNoRoom s := by
  unfold openSlot roomForSlot
  cases hfree : lowestFree s with
  | none => simp [hnone]
  | some i =>
    have hpool : 48 ≤ buffersUsed s := hfull.resolve_left fun h => h i (lowestFree_spec hfree)
    have hroom : roomForBuffer (rankOfClass c.cls) i s = none :=
      (if_neg (not_lt.2 hpool)).trans (by rw [victim_none_of_own hnone]; rfl)
    simp [hfree, hroom]

/-- Settles O20: the decision's discards (`routeCopy_of_count_ne`, `routeCopy_of_noRoom`, `tableDecision_of_below`,
`openSlot_of_noRoom`). -/
theorem tableDiscards : Obligations.TableDiscards := by
  intro f rest s c h hc
  have hfresh : c.clamped.fresh (withFifo rest s) := hc.fresh
  rw [exec_sheet_of_passes h hc]
  refine ⟨fun i x hx hkey hrev honly => ?_, fun hother habove => ?_, fun existing ho hfull hnone => ?_⟩
  · have hx' : slotOf (withFifo rest s) i = some x := hx
    rw [tableDecision_of_held (c := c.clamped) hfresh hx' hkey hrev honly]
    refine ⟨fun hcount => ?_, fun r hcount hr hst hfull hnone => ?_⟩
    · rw [routeCopy_of_count_ne (c := c.clamped) hx' hcount]
      rfl
    · have hroom := roomForBuffer_touched_full (s := withFifo rest s) hx' hfull x.rank
      rw [victim_withFifo, hnone] at hroom
      rw [routeCopy_of_noRoom (c := c.clamped) hx' hcount hr hst hroom, touched_eq_modSlot hx']
      rfl
  · rw [tableDecision_of_below (c := c.clamped) hfresh hother habove]
    rfl
  · have hopens : OpensFor c.clamped (withFifo rest s) existing := ho
    have hnone' := (victim_withFifo rest ..).trans hnone
    rw [tableDecision_opens hfresh hopens, openSlot_of_noRoom (s := withFifo rest s) (c := c.clamped) hfull hnone']
    rfl

end Sys2Proof.Machine

/-! ## The sheet check and the evaluation of a sheet (R19 to R26): O23, O24, O25 -/

namespace Sys2Proof.Machine

set_option Elab.async false

/-! ### The CRC is linear and loses nothing (R22) -/

theorem crcStep_xor (a b : BitVec 16) : crcStep (a ^^^ b) = crcStep a ^^^ crcStep b := by
  unfold crcStep
  rw [BitVec.msb_xor, BitVec.shiftLeft_xor_distrib]
  cases a.msb <;> cases b.msb
  · rfl
  · exact BitVec.xor_assoc ..
  · show a <<< 1 ^^^ b <<< 1 ^^^ 0x1021#16 = a <<< 1 ^^^ 0x1021#16 ^^^ b <<< 1
    rw [BitVec.xor_assoc, BitVec.xor_assoc, BitVec.xor_comm (b <<< 1)]
  · show a <<< 1 ^^^ b <<< 1 = a <<< 1 ^^^ 0x1021#16 ^^^ (b <<< 1 ^^^ 0x1021#16)
    rw [BitVec.xor_comm (b <<< 1), BitVec.xor_assoc, ← BitVec.xor_assoc 0x1021#16, BitVec.xor_self, BitVec.zero_xor]

theorem crcSteps_xor (n : Nat) (a b : BitVec 16) : crcSteps n (a ^^^ b) = crcSteps n a ^^^ crcSteps n b := by
  induction n generalizing a b with
  | zero => rfl
  | succ n ih => rw [crcSteps, crcStep_xor, ih]; rfl

theorem crcSteps_add (n m : Nat) (a : BitVec 16) : crcSteps (n + m) a = crcSteps m (crcSteps n a) := by
  induction n generalizing a with
  | zero => rw [Nat.zero_add]; rfl
  | succ n ih => rw [Nat.succ_add]; exact ih _

/-- The low bit of the polynomial is set and a shift leaves that bit clear, so a step is 0 for the zero register alone. -/
theorem crcStep_eq_zero_iff (a : BitVec 16) : crcStep a = 0 ↔ a = 0 := by
  refine ⟨fun h => ?_, fun h => by rw [h]; rfl⟩
  unfold crcStep at h
  split at h
  case isTrue hmsb =>
    have hbit := congrArg (·.getLsbD 0) h
    simp at hbit
  case isFalse hmsb =>
    have hlt : a.toNat < 2 ^ 15 := by
      rw [BitVec.msb_eq_decide] at hmsb
      simpa using hmsb
    have hzero : (a <<< 1).toNat = 0 := by rw [h]; rfl
    simp only [BitVec.toNat_shiftLeft, Nat.shiftLeft_eq] at hzero
    exact BitVec.eq_of_toNat_eq (show a.toNat = 0 by omega)

theorem crcSteps_eq_zero_iff (n : Nat) (a : BitVec 16) : crcSteps n a = 0 ↔ a = 0 := by
  induction n generalizing a with
  | zero => exact Iff.rfl
  | succ n ih => exact (ih _).trans (crcStep_eq_zero_iff a)

/-- Steps that meet no set high bit shift. -/
theorem crcSteps_of_small (n : Nat) (a : BitVec 16) (h : a.toNat * 2 ^ n < 2 ^ 16) : crcSteps n a = a <<< n := by
  induction n generalizing a with
  | zero => simp [crcSteps]
  | succ n ih =>
    have hone : 1 ≤ 2 ^ n := Nat.one_le_two_pow
    have hsucc : a.toNat * 2 ^ (n + 1) = a.toNat * 2 * 2 ^ n := by rw [pow_succ]; ring
    have hlt : a.toNat * 2 < 2 ^ 16 := (Nat.le_mul_of_pos_right _ hone).trans_lt (hsucc ▸ h)
    have hmsb : a.msb = false := by
      rw [BitVec.msb_eq_decide]
      simp only [decide_eq_false_iff_not]
      omega
    have hstep : crcStep a = a <<< 1 := by rw [crcStep, hmsb]; rfl
    have hnat : (a <<< 1).toNat = a.toNat * 2 := by
      rw [BitVec.toNat_shiftLeft, Nat.shiftLeft_eq, pow_one, Nat.mod_eq_of_lt hlt]
    rw [crcSteps, hstep, ih _ (by rw [hnat, ← hsucc]; exact h), ← BitVec.shiftLeft_add, Nat.add_comm]

/-- An octet in the low half of the register is in the high half after eight steps. -/
theorem crcSteps_low_octet (o : Octet) : crcSteps 8 ((0 : BitVec 8) ++ o) = o ++ (0 : BitVec 8) := by
  have hlt : o.toNat < 2 ^ 8 := o.isLt
  have hlow : ((0 : BitVec 8) ++ o).toNat = o.toNat := by rw [BitVec.toNat_append]; exact Nat.zero_or _
  rw [crcSteps_of_small _ _ (by rw [hlow]; omega)]
  refine BitVec.eq_of_toNat_eq ?_
  rw [BitVec.toNat_shiftLeft, hlow, BitVec.toNat_append, Nat.shiftLeft_eq, Nat.mod_eq_of_lt (by omega)]
  exact (Nat.or_zero _).symm

/-- Two octets taken into the register are sixteen steps of it with the octets added. -/
theorem crcOctet_crcOctet (c : BitVec 16) (hi lo : Octet) :
    crcOctet (crcOctet c hi) lo = crcSteps 16 (c ^^^ (hi ++ lo)) := by
  have hpair : (hi ++ lo : BitVec 16) = (hi ++ (0 : BitVec 8)) ^^^ ((0 : BitVec 8) ++ lo) := by
    rw [BitVec.xor_append]
    simp
  calc crcOctet (crcOctet c hi) lo
      = crcSteps 8 (crcSteps 8 (c ^^^ (hi ++ (0 : BitVec 8))) ^^^ crcSteps 8 ((0 : BitVec 8) ++ lo)) := by
        rw [crcSteps_low_octet]; rfl
    _ = crcSteps 8 (crcSteps 8 (c ^^^ (hi ++ lo))) := by rw [← crcSteps_xor, BitVec.xor_assoc, ← hpair]
    _ = crcSteps 16 (c ^^^ (hi ++ lo)) := (crcSteps_add 8 8 _).symm

/-- R22, the note: two check octets make the CRC 0 exactly when they are the CRC of the octets before them. -/
theorem crc16_append_eq_zero_iff (l : List Octet) (hi lo : Octet) :
    crc16 (l ++ [hi, lo]) = 0 ↔ crc16 l = hi ++ lo := by
  have happend : crc16 (l ++ [hi, lo]) = crcOctet (crcOctet (crc16 l) hi) lo := by
    rw [crc16, List.foldl_append]
    rfl
  rw [happend, crcOctet_crcOctet, crcSteps_eq_zero_iff]
  exact BitVec.xor_eq_zero_iff

theorem values_split (b : Buffer) : b.values = b.values.take 46 ++ [b[46].value, b[47].value] := by
  have hlength : b.values.length = 48 := by simp [Buffer.values]
  have hdrop : b.values.drop 46 = [b[46].value, b[47].value] := by
    rw [List.drop_eq_getElem_cons (by omega), List.drop_eq_getElem_cons (by omega), List.drop_eq_nil_of_le (by omega)]
    simp [Buffer.values]
  rw [← hdrop, List.take_append_drop]

/-- Settles O24: the two last values are the check octets of the others (`values_split`, `crc16_append_eq_zero_iff`). -/
theorem sheetCheckIsAZeroCrc : Obligations.SheetCheckIsAZeroCrc := by
  intro b
  have hzero := crc16_append_eq_zero_iff (b.values.take 46) b[46].value b[47].value
  rw [← values_split] at hzero
  exact beq_iff_eq.trans hzero.symm

/-! ### The smallest score (R23) -/

theorem foldl_min_le (l : List Position) (m : Nat) :
    l.foldl (fun m q => min m q.score) m ≤ m ∧ ∀ q ∈ l, l.foldl (fun m q => min m q.score) m ≤ q.score := by
  induction l generalizing m with
  | nil => exact ⟨le_refl m, nofun⟩
  | cons p l ih =>
    obtain ⟨hstart, hall⟩ := ih (min m p.score)
    refine ⟨hstart.trans (min_le_left ..), fun q hq => ?_⟩
    rcases List.mem_cons.1 hq with rfl | hq
    · exact hstart.trans (min_le_right ..)
    · exact hall q hq

theorem foldl_min_attained (l : List Position) (m : Nat) :
    l.foldl (fun m q => min m q.score) m = m ∨ ∃ q ∈ l, l.foldl (fun m q => min m q.score) m = q.score := by
  induction l generalizing m with
  | nil => exact .inl rfl
  | cons p l ih =>
    rcases ih (min m p.score) with hstart | ⟨q, hq, hscore⟩
    · rcases min_choice m p.score with hmin | hmin
      · exact .inl (hstart.trans hmin)
      · exact .inr ⟨p, List.mem_cons_self, hstart.trans hmin⟩
    · exact .inr ⟨q, List.mem_cons_of_mem _ hq, hscore⟩

theorem smallestScore_le_score (b : Buffer) (k : Fin 48) : smallestScore b ≤ b[k].score :=
  (foldl_min_le b.toList 63).2 _ (Vector.mem_toList_iff.2 (Vector.getElem_mem k.isLt))

/-- With every score at most 63 the smallest score is that of some position. -/
theorem smallestScore_attained {b : Buffer} (h : ∀ k : Fin 48, b[k].score ≤ 63) :
    ∃ k : Fin 48, smallestScore b = b[k].score := by
  rcases foldl_min_attained b.toList 63 with hstart | ⟨q, hq, hscore⟩
  · exact ⟨0, le_antisymm (smallestScore_le_score b 0) ((h 0).trans_eq hstart.symm)⟩
  · obtain ⟨k, hk, rfl⟩ := List.mem_iff_getElem.1 hq
    exact ⟨⟨k, by simpa using hk⟩, hscore⟩

/-! ### The evaluation (R19 to R25) -/

theorem firstBuffer_getElem (body : Vector Pair 48) (k : Fin 48) :
    (firstBuffer body)[k] = ⟨body[k].value, body[k].confidence⟩ := by
  simp [firstBuffer, mapEntries]

theorem combined_of_empty {r : SheetRecord} (h : r.buffer = none) (body : Vector Pair 48) :
    r.combined body = firstBuffer body := by
  rw [SheetRecord.combined, h]

section
variable {profile : Profile} {uptime : Nat} {cell : BitVec 16} {body : Vector Pair 48} {r : SheetRecord}

theorem combine_of_failed (h : sheetCheck (r.combined body) = false) :
    r.combine profile uptime cell body = { r with
      buffer := some (r.combined body), copies := bump 255 r.copies, state := .combining, holdDeadline := none } := by
  rw [combine_eq, h]
  rfl

theorem combine_of_floor (h : sheetCheck (r.combined body) = true)
    (hfloor : profile.floor ≤ smallestScore (r.combined body)) :
    r.combine profile uptime cell body = { r with
      buffer := some (r.combined body), copies := bump 255 r.copies, margin := some (smallestScore (r.combined body))
      passingCell := some cell, state := .accepted, holdDeadline := none } := by
  rw [combine_eq, if_pos h, if_pos hfloor]

theorem combine_of_held (h : sheetCheck (r.combined body) = true)
    (hfloor : smallestScore (r.combined body) < profile.floor) :
    r.combine profile uptime cell body = { r with
      buffer := some (r.combined body), copies := bump 255 r.copies, margin := some (smallestScore (r.combined body))
      passingCell := some cell, state := .held
      holdDeadline := some (r.holdDeadline.getD (addSeconds uptime profile.holdTime)) } := by
  rw [combine_eq, if_pos h, if_neg (not_le.2 hfloor)]

theorem combine_copies : (r.combine profile uptime cell body).copies = bump 255 r.copies := by
  rw [combine_eq]
  split_ifs <;> rfl

theorem combine_onHold : (r.combine profile uptime cell body).onHold = r.onHold := by
  rw [combine_eq]
  split_ifs <;> rfl

end

/-- Settles O23: the evaluation by its three cases (`combine_of_failed`, `combine_of_floor`, `combine_of_held`). -/
theorem evaluationPlacesTheSheet : Obligations.EvaluationPlacesTheSheet := by
  intro profile uptime cell body r t
  refine ⟨fun hfirst => ⟨_, combine_buffer .., fun k => ?_⟩, combine_copies, combine_onHold, fun b hb => ?_⟩
  · rw [combined_of_empty hfirst, firstBuffer_getElem]
  · obtain rfl : r.combined body = b := Option.some.inj ((combine_buffer profile uptime cell body r).symm.trans hb)
    refine ⟨fun hfailed => ?_, fun hpassed => ?_, fun hscores => ⟨smallestScore_le_score _, smallestScore_attained hscores⟩⟩
    · have ht : t = _ := combine_of_failed hfailed
      exact ⟨by rw [ht], by rw [ht], by rw [ht], by rw [ht]⟩
    · rcases le_or_gt profile.floor (smallestScore (r.combined body)) with hfloor | hfloor
      · have ht : t = _ := combine_of_floor hpassed hfloor
        exact ⟨by rw [ht], by rw [ht], fun _ => ⟨by rw [ht], by rw [ht]⟩, fun hlt => absurd hfloor (not_le.2 hlt)⟩
      · have ht : t = _ := combine_of_held hpassed hfloor
        exact ⟨by rw [ht], by rw [ht], fun hle => absurd hle (not_le.2 hfloor), fun _ => ⟨by rw [ht], by rw [ht]; rfl⟩⟩

/-! ### A hold that runs out (R26) -/

theorem deadlineReached_some {s : State} {d : Nat} : deadlineReached s (some d) = true ↔ d ≤ s.time.uptime :=
  decide_eq_true_iff

/-- Settles O25: the deadline decides whether the record is accepted. -/
theorem holdExpiryAcceptsTheSheet : Obligations.HoldExpiryAcceptsTheSheet := by
  intro s i index d x r hrun hx hr hst hd
  rw [exec_of_running hrun]
  have hwork : work (.holdExpiry i index) s =
      if r.state = .held ∧ deadlineReached s r.holdDeadline = true then
        settle (reportAcceptance i index (modSlot i (Slot.withSheet index fun q =>
          { q with state := .accepted, holdDeadline := none, onHold := true }) s))
      else s := by
    show holdExpiry i index s = _
    rw [holdExpiry, hx]
    simp only [Option.bind_some, hr]
  rw [hwork, hd]
  refine ⟨fun hreached => ?_, fun hearly => ?_⟩
  · rw [if_pos ⟨hst, deadlineReached_some.2 hreached⟩, modSlot_of_slot hx, Slot.withSheet, modify_of_getElem hr]
  · rw [if_neg fun h => absurd (deadlineReached_some.1 h.2) (not_le.2 hearly)]

end Sys2Proof.Machine

/-! ## The endings of a slot (R87, R94, R126), and what the acceptance of a sheet comes to (R50 to R54): O26 -/

namespace Sys2Proof.Machine

set_option Elab.async false

/-! ### Rules: postings, additions to history, leaving presentation -/

section
variable {s : State} {i j : SlotIndex} {x y : Slot}

/-- A posting for a slot whose record is at hand. -/
theorem postSlot_putSlot (kind : SlotKind) :
    postSlot i kind (putSlot i (some x) s) = (putSlot i (some x) s).updEvents (mergeSlotPosting i x.key x.revision kind) :=
  postSlot_of_slot (putSlot_same ..) kind

theorem addSlotHistory_of_expiry {e : Expiry} (h : x.expiry = some e) (outcome : Settled) :
    addSlotHistory x outcome s = addHistory ⟨x.key, x.revision, outcome, e, false⟩ s := by
  rw [addSlotHistory, h]

theorem slotOf_addHistory (e : HistoryEntry) : slotOf (addHistory e s) j = slotOf s j := rfl

theorem slotOf_addSlotHistory (outcome : Settled) : slotOf (addSlotHistory x outcome s) j = slotOf s j :=
  slotOf_of_same ((addSlotHistory_keeps x outcome).frame .slots (by decide)) j

/-- R115 to R117: what a slot in state `st` takes with it when it leaves presentation. -/
def leftPres (st : SlotState) (i : SlotIndex) (p : Presentation) : Presentation :=
  match st with
  | .queued => { p with queue := p.queue.erase i }
  | .pending => { p with pendingList := p.pendingList.erase i }
  | .sounding => { p with active := none }
  | .shown => { p with active := none, reminder := none }
  | _ => p

theorem leavePresentation_of_slot (hx : slotOf s i = some x) :
    leavePresentation i s =
      (s.updCycle fun c => if x.state = .sounding then none else c).updPres (leftPres x.state i) := by
  rw [leavePresentation, stateAt_of_slot hx]
  cases x.state <;> rfl

/-- R87: what a withdrawal is. -/
theorem withdraw_of_slot (hx : slotOf s i = some x) (outcome : Settled) :
    withdraw i outcome s = (addSlotHistory x outcome (putSlot i (some { x with
      state := .done
      withdrawal := some outcome
      doneTime := some s.time.uptime
      lastActivity := s.time.uptime }) (leavePresentation i s))).updEvents
        (mergeSlotPosting i x.key x.revision .withdrawn) := by
  have hleft : slotOf (leavePresentation i s) i = some x :=
    (slotOf_of_same (leavePresentation_slots i s) i).trans hx
  rw [withdraw, hx]
  simp only [modSlot_of_slot hleft]
  rw [postSlot_of_slot ((slotOf_addSlotHistory ..).trans (putSlot_same ..))]

/-! ### The lead (R50, R51, R69, R70) -/

/-- R50: what the lead of a slot comes to, once it is decoded. -/
theorem acceptLead_of_slot {r : SheetRecord} {b : Buffer} (hx : slotOf s i = some x) (hr : x.sheets.head? = some r)
    (hb : r.buffer = some b) :
    acceptLead i s =
      let lead := leadOf b.values
      let t := putSlot i (some { x with lead := some lead }) s
      if lead.cancel then applyCancel i lead t
      else if screensPresent lead s.location s.settings.profile.policy then admitSlot i lead t
      else rejectSlot i lead t := by
  rw [acceptLead, hx]
  simp only [Option.bind_some, hr, hb, modSlot_of_slot hx]
  rfl

/-- R28, R50: the acceptance of sheet 0 of a GATHERING slot. -/
theorem reportAcceptance_lead {r : SheetRecord} (hx : slotOf s i = some x) (hst : x.state = .gathering)
    (hr : x.sheets.head? = some r) :
    reportAcceptance i 0 s = acceptLead i (putSlot i (some { x with leadCell := r.passingCell }) s) := by
  rw [reportAcceptance, if_pos rfl, modSlot_of_slot hx]
  simp only [putSlot_same, hst, hr, Option.bind_some, if_true]

/-- R71: no other slot holds the key in QUEUED to PENDING. -/
theorem cancelOther_of_none {key : Key}
    (h : ∀ j y, j ≠ i → slotOf s j = some y → y.key = key → y.state.withdrawable = false) :
    cancelOther i key s = s := by
  unfold cancelOther
  split
  case h_1 => rfl
  case h_2 j hj =>
    obtain ⟨hne, hkey⟩ : j ≠ i ∧ (slotOf s j).map (·.key) = some key := by simpa using List.find?_some hj
    obtain ⟨y, hy, hykey⟩ := Option.map_eq_some_iff.1 hkey
    rw [stateAt_of_slot hy, Option.any_some, h j y hne hy hykey]
    rfl

/-- R71: the key's only other slot, in QUEUED to PENDING, is withdrawn. -/
theorem cancelOther_of_other {key : Key} (hne : j ≠ i) (hy : slotOf s j = some y) (hkey : y.key = key)
    (honly : ∀ k z, k ≠ i → k ≠ j → slotOf s k = some z → z.key ≠ key) (hst : y.state.withdrawable = true) :
    cancelOther i key s = withdraw j .cancelled s := by
  have hother : otherSlot i key s = some j := by
    refine find_unique (mem_allSlots j) (by simp [hne, hy, hkey]) fun k _ hk => ?_
    obtain ⟨hki, hkey'⟩ : k ≠ i ∧ (slotOf s k).map (·.key) = some key := by simpa using hk
    obtain ⟨z, hz, hzkey⟩ := Option.map_eq_some_iff.1 hkey'
    exact not_imp_comm.1 (honly k z hki · hz) (not_not.2 hzkey)
  rw [cancelOther, hother]
  simp only [stateAt_of_slot hy, Option.any_some, hst, if_true]

/-- R70: the cancel lead makes a CANCELLED entry and frees the slot. -/
theorem applyCancel_of_slot {lead : Lead} (hx : slotOf s i = some x) :
    applyCancel i lead s = freeSlot i (addHistory
      ⟨x.key, x.revision, .cancelled, expiryFrom s.time lead.validity, false⟩ (cancelOther i x.key s)) := by
  rw [applyCancel, hx]

/-- R69: a rejected lead makes a REJECTED entry, posts and frees the slot. -/
theorem rejectSlot_of_slot {lead : Lead} (hx : slotOf s i = some x) :
    rejectSlot i lead s = freeSlot i ((addHistory
      ⟨x.key, x.revision, .rejected, expiryFrom s.time lead.validity, false⟩ s).updEvents
        (mergeSlotPosting i x.key x.revision .rejected)) := by
  rw [rejectSlot, hx]
  simp only
  rw [postSlot_of_slot ((slotOf_addHistory _).trans hx)]

/-- R51: the record of an admitted slot. -/
def Slot.asAdmitted (x : Slot) (uptime : Nat) (expiry : Expiry) : Slot :=
  { x with
    state := .admitted, admission := some uptime, lastActivity := uptime, gatherDeadline := none, expiry := some expiry }

/-- R51: an admission, before the sheets decide. -/
def admittedAt (i : SlotIndex) (x : Slot) (lead : Lead) (s : State) : State :=
  (putSlot i (some (x.asAdmitted s.time.uptime (expiryFrom s.time lead.validity))) s).updEvents
    (mergeSlotPosting i x.key x.revision .admitted)

/-- R51, R52: how an admission at `now` goes on. -/
def admissionGoesOn (i : SlotIndex) (now : Nat) (t : State) : State :=
  if (slotOf t i).any Slot.complete then becomeQueued i false t
  else modSlot i (fun y => { y with assemblyDeadline := some (addSeconds now t.settings.profile.assemblyLimit) }) t

theorem slotOf_admittedAt (lead : Lead) :
    slotOf (admittedAt i x lead s) i = some (x.asAdmitted s.time.uptime (expiryFrom s.time lead.validity)) := putSlot_same ..

/-- R51, R52: an admission goes on to QUEUED when every sheet is ACCEPTED, and waits for the rest otherwise. -/
theorem admitSlot_of_slot {lead : Lead} (hx : slotOf s i = some x) :
    admitSlot i lead s =
      if x.complete then becomeQueued i false (admittedAt i x lead s)
      else modSlot i (fun y =>
        { y with assemblyDeadline := some (addSeconds s.time.uptime s.settings.profile.assemblyLimit) })
        (admittedAt i x lead s) := by
  have hadmitted : postSlot i .admitted (modSlot i (fun y => y.asAdmitted s.time.uptime (expiryFrom s.time lead.validity)) s) =
      admittedAt i x lead s := by
    rw [modSlot_of_slot hx, postSlot_putSlot]
    rfl
  calc admitSlot i lead s
      = admissionGoesOn i s.time.uptime
          (postSlot i .admitted (modSlot i (fun y => y.asAdmitted s.time.uptime (expiryFrom s.time lead.validity)) s)) := rfl
    _ = admissionGoesOn i s.time.uptime (admittedAt i x lead s) := by rw [hadmitted]
    _ = _ := by
      rw [admissionGoesOn, slotOf_admittedAt]
      rfl

theorem complete_iff : x.complete = true ↔ ∀ q ∈ x.sheets, q.state = .accepted := by
  simp [Slot.complete]

theorem not_complete_iff : x.complete = false ↔ ∃ q ∈ x.sheets, q.state ≠ .accepted := by
  simp [← Bool.not_eq_true, complete_iff]

/-! ### The acceptance of another sheet (R52, R54) -/

theorem reportAcceptance_of_pos {index : Nat} (h : index ≠ 0) (hx : slotOf s i = some x) :
    reportAcceptance i index s =
      match x.state with
      | .gathering => s
      | .admitted =>
        if x.complete then becomeQueued i false s else putSlot i (some { x with lastActivity := s.time.uptime }) s
      | .queued | .sounding | .shown | .pending | .done =>
        if x.isPartial then s.updEvents (mergeSlotPosting i x.key x.revision .updated) else s := by
  rw [reportAcceptance, if_neg h, hx]
  cases hst : x.state <;> simp only [hst, h, if_false, modSlot_of_slot hx, postSlot_of_slot hx]

/-- R54: the acceptance of a sheet of a slot past ADMITTED. -/
theorem reportAcceptance_of_late {index : Nat} (h : index ≠ 0) (hx : slotOf s i = some x)
    (hst : x.state.assembling = false) :
    reportAcceptance i index s =
      if x.isPartial then s.updEvents (mergeSlotPosting i x.key x.revision .updated) else s := by
  rw [reportAcceptance_of_pos h hx]
  cases hstate : x.state
  case gathering | admitted => rw [hstate] at hst; cases hst
  all_goals rfl

end

theorem withdrawable_iff {st : SlotState} :
    st.withdrawable = true ↔ st = .queued ∨ st = .sounding ∨ st = .shown ∨ st = .pending := by
  cases st <;> decide

theorem not_withdrawable_iff {st : SlotState} :
    st.withdrawable = false ↔ st = .gathering ∨ st = .admitted ∨ st = .done := by
  cases st <;> decide

/-- Settles O26: the lead of a GATHERING slot (`reportAcceptance_lead`, then the cancel, the rejection or the
admission), another sheet (`reportAcceptance_of_pos`), and a withdrawal (`withdraw_of_slot`). -/
theorem acceptedSheetsDecide : Obligations.AcceptedSheetsDecide := by
  refine ⟨fun s i x r b hx hst hr hb => ?_, fun s i index x hindex hx => ?_, fun s j y e outcome hy he hst => ?_⟩
  · intro lead expiry t
    have hreport : reportAcceptance i 0 s =
        if lead.cancel then applyCancel i lead t
        else if screensPresent lead s.location s.settings.profile.policy then admitSlot i lead t
        else rejectSlot i lead t := by
      have hslot : slotOf (putSlot i (some { x with leadCell := r.passingCell }) s) i =
          some { x with leadCell := r.passingCell } := putSlot_same ..
      rw [reportAcceptance_lead hx hst hr, acceptLead_of_slot hslot hr hb]
      simp only [putSlot_putSlot]
      rfl
    have ht : slotOf t i = some { x with leadCell := r.passingCell, lead := some lead } := putSlot_same ..
    have hother : ∀ j y, j ≠ i → slotOf t j = some y → slotOf s j = some y := fun j y hne hy =>
      (putSlot_other _ hne.symm).symm.trans hy
    refine ⟨fun hcancel => ?_, fun hcancel hscreen => ?_, fun hcancel hscreen => ?_⟩
    · have hact : reportAcceptance i 0 s = applyCancel i lead t := hreport.trans (if_pos hcancel)
      rw [hact, applyCancel_of_slot ht]
      refine ⟨fun hnone => ?_, fun j y hne hy hkey honly hst => ?_⟩
      · rw [cancelOther_of_none fun j y hne hy hkey => not_withdrawable_iff.2 (hnone j y hne (hother j y hne hy) hkey)]
        rfl
      · rw [cancelOther_of_other hne ((putSlot_other _ hne.symm).trans hy) hkey
          (fun k z hki hkj hz => honly k z hki hkj (hother k z hki hz)) (withdrawable_iff.2 hst)]
        rfl
    · have hact : reportAcceptance i 0 s = rejectSlot i lead t :=
        hreport.trans ((if_neg (Bool.eq_false_iff.1 hcancel)).trans
          (if_neg (Bool.eq_false_iff.1 hscreen)))
      rw [hact, rejectSlot_of_slot ht]
      rfl
    · intro admitted
      have hact : reportAcceptance i 0 s = admitSlot i lead t :=
        hreport.trans ((if_neg (Bool.eq_false_iff.1 hcancel)).trans (if_pos hscreen))
      have hadmitted : admittedAt i { x with leadCell := r.passingCell, lead := some lead } lead t =
          (putSlot i (some admitted) s).updEvents (mergeSlotPosting i x.key x.revision .admitted) := by
        rw [admittedAt, putSlot_putSlot]
        rfl
      rw [hact, admitSlot_of_slot ht, hadmitted]
      refine ⟨fun hmissing => ?_, fun hall => ?_⟩
      · have hnot : ({ x with leadCell := r.passingCell, lead := some lead } : Slot).complete = false :=
          not_complete_iff.2 hmissing
        have hslot : slotOf ((putSlot i (some admitted) s).updEvents
            (mergeSlotPosting i x.key x.revision .admitted)) i = some admitted := putSlot_same ..
        rw [hnot, modSlot_of_slot hslot, putSlot_updEvents, putSlot_putSlot]
        rfl
      · exact if_pos (complete_iff.2 hall)
  · have hlate := reportAcceptance_of_late hindex hx
    rw [reportAcceptance_of_pos hindex hx] at hlate ⊢
    refine ⟨fun hst => ?_, fun hst hall => ?_, fun hst hmissing => ?_, fun hst hpart => ?_, fun hst hpart => ?_⟩
    · rw [hst]
    · rw [hst]
      exact if_pos (complete_iff.2 hall)
    · rw [hst]
      simp only [not_complete_iff.2 hmissing]
      rfl
    · exact (hlate hst).trans (if_pos hpart)
    · exact (hlate hst).trans (if_neg (Bool.eq_false_iff.1 hpart))
  · intro u
    have hu : u = _ := withdraw_of_slot hy outcome
    refine ⟨fun k => ?_, ?_⟩
    · rw [show slotOf u k = _ from slotOf_withdraw hy outcome k]
      simp only [eq_comm]
    · rw [hu, addSlotHistory_of_expiry he, leavePresentation_of_slot hy]
      refine ⟨rfl, rfl, rfl, rfl, ?_⟩
      rcases hst with hst | hst | hst | hst <;> rw [hst] <;> rfl

end Sys2Proof.Machine

/-! ## Deadlines, succession, expiries and acknowledgement (R53, R55, R82 to R86, R89, R126): O46, O47, O52 -/

namespace Sys2Proof.Machine

set_option Elab.async false

/-! ### Gathering and assembly deadlines; the end of a predecessor: O46 -/

section
variable {s : State} {i p : SlotIndex} {x y : Slot}

theorem gatheringTimeout_of_slot (hx : slotOf s i = some x) :
    gatheringTimeout i s = if x.state = .gathering ∧ deadlineReached s x.gatherDeadline = true then
      freeSlot i (s.updEvents (mergeSlotPosting i x.key x.revision .abandoned)) else s := by
  rw [gatheringTimeout, hx]
  simp only [postSlot_of_slot hx]

theorem assemblyLimit_of_slot (hx : slotOf s i = some x) :
    assemblyLimit i s = if x.state = .admitted ∧ deadlineReached s x.assemblyDeadline = true then
      settle (becomeQueued i true s) else s := by
  rw [assemblyLimit, hx]

theorem becomeQueued_of_slot (hx : slotOf s i = some x) (isPartial : Bool) :
    becomeQueued i isPartial s = endPredecessor i (joinQueue i (putSlot i (some
      { x with
        state := .queued
        isPartial := isPartial
        assemblyDeadline := none
        lastActivity := s.time.uptime }) s)) := by
  rw [becomeQueued, modSlot_of_slot hx]

/-- R45, R89: the predecessor `p` in its end: a DONE one's entry leaves the event set, another is withdrawn. -/
def predecessorEnded (p : SlotIndex) (y : Slot) (s : State) : State :=
  if y.state = .done then dropSlotEntry p s else withdraw p .superseded s

theorem endPredecessor_of_slot (hx : slotOf s i = some x) (hp : x.predecessor = some p) (hy : slotOf s p = some y)
    (hst : y.state.assembling = false) :
    endPredecessor i s =
      modSlot i (fun x => { x with predecessor := none }) (freeSlot p (predecessorEnded p y s)) := by
  rw [endPredecessor, hx]
  simp only [Option.bind_some, hp, stateAt_of_slot hy, predecessorEnded]
  cases hstate : y.state
  case gathering | admitted => rw [hstate] at hst; cases hst
  all_goals rfl

theorem slotOf_predecessorEnded (hne : p ≠ i) (hy : slotOf s p = some y) :
    slotOf (predecessorEnded p y s) i = slotOf s i := by
  unfold predecessorEnded
  split
  · rfl
  · rw [slotOf_withdraw hy, if_neg hne]

theorem freeSlot_history (i : SlotIndex) (s : State) : (freeSlot i s).history = s.history :=
  (freeSlot_keeps i).frame .history (by decide)

/-- R87: what a withdrawal adds and posts. -/
theorem withdraw_history_events {e : Expiry} (hy : slotOf s p = some y) (he : y.expiry = some e) (outcome : Settled) :
    (withdraw p outcome s).history = (addHistory ⟨y.key, y.revision, outcome, e, false⟩ s).history ∧
      (withdraw p outcome s).events = mergeSlotPosting p y.key y.revision .withdrawn s.events ∧
      (withdraw p outcome s).receipts = s.receipts := by
  rw [withdraw_of_slot hy, addSlotHistory_of_expiry he, leavePresentation_of_slot hy]
  exact ⟨rfl, rfl, rfl⟩

end

/-- Settles O46: the two deadlines (`gatheringTimeout_of_slot`, `assemblyLimit_of_slot`, `becomeQueued_of_slot`) and the
end of a predecessor (`endPredecessor_of_slot`). -/
theorem deadlinesAndSuccession : Obligations.DeadlinesAndSuccession := by
  refine ⟨fun s i x d hrun hx => ⟨fun hst hd => ?_, fun hst hd => ?_⟩, fun s i p x y hx hy hne hp hst => ?_⟩
  · rw [exec_of_running hrun, show work (.gatheringTimeout i) s = gatheringTimeout i s from rfl,
      gatheringTimeout_of_slot hx, hd]
    exact ⟨fun hreached => congrArg _ (if_pos ⟨hst, deadlineReached_some.2 hreached⟩),
      fun hearly => congrArg _ (if_neg fun h => not_le.2 hearly (deadlineReached_some.1 h.2))⟩
  · rw [exec_of_running hrun, show work (.assemblyLimit i) s = assemblyLimit i s from rfl, assemblyLimit_of_slot hx, hd,
      becomeQueued_of_slot hx]
    exact ⟨fun hreached => congrArg _ (if_pos ⟨hst, deadlineReached_some.2 hreached⟩),
      fun hearly => congrArg _ (if_neg fun h => not_le.2 hearly (deadlineReached_some.1 h.2))⟩
  · rw [endPredecessor_of_slot hx hp hy hst]
    refine ⟨?_, ?_, fun hdone => ?_, fun e hdone he => ?_⟩
    · rw [slotOf_modSlot, if_pos rfl, slotOf_freeSlot, if_neg hne, slotOf_predecessorEnded hne hy, hx]
      simp [Slot.forget, hp]
    · rw [slotOf_modSlot, if_neg hne.symm, slotOf_freeSlot, if_pos rfl]
    · rw [predecessorEnded, if_pos hdone]
      exact ⟨freeSlot_history p _, freeSlot_events p _⟩
    · obtain ⟨hhistory, hevents, _⟩ := withdraw_history_events hy he .superseded
      rw [predecessorEnded, if_neg hdone]
      exact ⟨(freeSlot_history p _).trans hhistory, (freeSlot_events p _).trans hevents⟩

/-! ### Expiries are taken and stay taken: O47 -/

/-- The expiry of slot `j`. -/
def expiryAt (s : State) (j : SlotIndex) : Option Expiry := (slotOf s j).bind (·.expiry)

theorem slotReached_eq (s : State) (j : SlotIndex) : slotReached s j = (expiryAt s j).any (reached s.time) := by
  unfold slotReached expiryAt
  cases (slotOf s j).bind (·.expiry) <;> rfl

/-- From `s` to `t` every slot's expiry stays, and so does the time. -/
structure ExpirySame (s t : State) : Prop where
  expiry : ∀ j, expiryAt t j = expiryAt s j
  time : t.time = s.time

section
variable {s t u : State} {i j : SlotIndex} {x y : Slot}

theorem ExpirySame.refl (s : State) : ExpirySame s s := ⟨fun _ => rfl, rfl⟩

theorem ExpirySame.trans (h : ExpirySame s t) (k : ExpirySame t u) : ExpirySame s u :=
  ⟨fun j => (k.expiry j).trans (h.expiry j), k.time.trans h.time⟩

theorem ExpirySame.ofFrame {l : List Block} (h : changesOnly l s t) (hs : .slots ∉ l := by decide)
    (ht : .time ∉ l := by decide) : ExpirySame s t :=
  ⟨fun j => congrArg (Option.bind · _) (slotOf_of_same (h .slots hs) j), h .time ht⟩

/-- A change of slots that leaves each expiry. -/
theorem ExpirySame.ofSlots {f : SlotIndex → Slot → Slot} (h : ∀ j, slotOf t j = (slotOf s j).map (f j))
    (hf : ∀ j x, (f j x).expiry = x.expiry) (ht : t.time = s.time) : ExpirySame s t where
  expiry j := by
    rw [expiryAt, h, expiryAt]
    cases slotOf s j with
    | none => rfl
    | some x => exact hf j x
  time := ht

theorem ExpirySame.slotReached (h : ExpirySame s t) (j : SlotIndex) : slotReached t j = slotReached s j := by
  rw [slotReached_eq, slotReached_eq, h.expiry, h.time]

theorem modSlot_expirySame (i : SlotIndex) (f : Slot → Slot) (hf : ∀ x, (f x).expiry = x.expiry) :
    ExpirySame s (modSlot i f s) := by
  refine .ofSlots (f := fun j => if i = j then f else id) (fun j => ?_) (fun j x => ?_) rfl
  · rw [slotOf_modSlot]
    split
    case isTrue h => rw [h]
    case isFalse => rw [Option.map_id]; rfl
  · split
    · exact hf x
    · rfl

theorem enterState_expirySame (st : SlotState) (i : SlotIndex) : ExpirySame s (enterState st i s) :=
  modSlot_expirySame i _ fun _ => rfl

theorem activate_expirySame (i : SlotIndex) : ExpirySame s (activate i s) := by
  refine .ofSlots (f := fun j => if i = j then fun x => { x with
    state := .sounding
    lastActivity := s.time.uptime
    firstPresentation := some (x.firstPresentation.getD s.time.uptime) } else id) (fun j => ?_) (fun j x => ?_)
    ((activate_keeps i).frame .time (by decide))
  · rw [slotOf_activate]
    split
    case isTrue h => rw [h]
    case isFalse => rw [Option.map_id]; rfl
  · split <;> rfl

theorem interrupt_expirySame (a : SlotIndex) : ExpirySame s (interrupt a s) :=
  have hstopped : ExpirySame s ((stopCycle s).updPres fun p => { p with active := none }) := ⟨fun _ => rfl, rfl⟩
  (hstopped.trans (enterState_expirySame .queued a)).trans (.ofFrame (joinQueue_keeps a).frame)

theorem displace_expirySame (a : SlotIndex) : ExpirySame s (displace a s) :=
  have hleft : ExpirySame s (s.updPres fun p =>
    { p with reminder := none, active := none, pendingList := p.pendingList ++ [a] }) := ⟨fun _ => rfl, rfl⟩
  (hleft.trans (enterState_expirySame .pending a)).trans (.ofFrame (postSlot_keeps a .pending).frame)

theorem decideOnce_expirySame : ExpirySame s (decideOnce s) := by
  unfold decideOnce
  split
  · exact .refl s
  · split
    · exact activate_expirySame _
    · split
      · split
        · exact (interrupt_expirySame _).trans (activate_expirySame _)
        · exact .refl s
      · split
        · exact (displace_expirySame _).trans (activate_expirySame _)
        · exact .refl s
      · exact .refl s

/-- What closes a step leaves every expiry. -/
theorem settle_expirySame : ExpirySame s (settle s) := by
  have hpres : ExpirySame s (presentationDecision s) := by
    unfold presentationDecision
    split
    · exact decideOnce_expirySame.trans decideOnce_expirySame
    · exact decideOnce_expirySame
  exact (hpres.trans (.ofFrame beginHandoff_keeps.frame)).trans (.ofFrame storeSelect_keeps.frame)

theorem expiryAt_freeSlot : expiryAt (freeSlot i s) j = if i = j then none else expiryAt s j := by
  rw [expiryAt, slotOf_freeSlot]
  split
  · rfl
  · rw [expiryAt]
    cases slotOf s j with
    | none => rfl
    | some y =>
      simp only [Option.map_some, Option.bind_some, Slot.forget]
      split <;> rfl

theorem expiryAt_withdraw (hx : slotOf s i = some x) (outcome : Settled) :
    expiryAt (withdraw i outcome s) j = expiryAt s j := by
  rw [expiryAt, slotOf_withdraw hx]
  split
  case isTrue h =>
    subst h
    rw [expiryAt, hx]
    rfl
  case isFalse => rfl

/-- R83, R84: the expiry of a slot in presentation. -/
theorem takeSlotExpiry_of_presented (hx : slotOf s i = some x) (hst : x.state.withdrawable = true) :
    takeSlotExpiry i s = modSlot i (fun y => { y with expiry := none }) (withdraw i .expired s) := by
  rw [takeSlotExpiry, hx]
  cases hstate : x.state
  case gathering | admitted | done => rw [hstate] at hst; cases hst
  all_goals simp only [hstate]

theorem takeSlotExpiry_of_admitted (hx : slotOf s i = some x) (hst : x.state = .admitted) :
    takeSlotExpiry i s = freeSlot i (postSlot i .withdrawn (addSlotHistory x .expired s)) := by
  rw [takeSlotExpiry, hx]
  simp only [hst]

theorem takeSlotExpiry_of_done (hx : slotOf s i = some x) (hst : x.state = .done) :
    takeSlotExpiry i s = freeSlot i (dropSlotEntry i s) := by
  rw [takeSlotExpiry, hx]
  simp only [hst]

/-- R82 to R85: an expiry taken is absent, and the others stay. -/
theorem expiryAt_takeSlotExpiry (hx : slotOf s i = some x) (hst : x.state ≠ .gathering) :
    expiryAt (takeSlotExpiry i s) j = if i = j then none else expiryAt s j := by
  have hpresented : x.state.withdrawable = true →
      expiryAt (takeSlotExpiry i s) j = if i = j then none else expiryAt s j := fun hw => by
    rw [takeSlotExpiry_of_presented hx hw, expiryAt, slotOf_modSlot]
    split
    · rw [slotOf_withdraw hx, if_pos rfl]
      rfl
    · exact expiryAt_withdraw hx .expired
  cases hstate : x.state with
  | gathering => exact absurd hstate hst
  | admitted =>
    rw [takeSlotExpiry_of_admitted hx hstate, expiryAt_freeSlot,
      ((ExpirySame.ofFrame (addSlotHistory_keeps x .expired).frame).trans
        (.ofFrame (postSlot_keeps i .withdrawn).frame)).expiry]
  | done =>
    rw [takeSlotExpiry_of_done hx hstate, expiryAt_freeSlot, (ExpirySame.ofFrame (dropSlotEntry_keeps i).frame).expiry]
  | queued | sounding | shown | pending => exact hpresented (by rw [hstate]; rfl)

/-- A reached slot is occupied, and with the fields in form it is past GATHERING. -/
theorem slot_of_reached (hok : FieldsOk s) (h : slotReached s i = true) :
    ∃ x, slotOf s i = some x ∧ x.state ≠ .gathering := by
  rw [slotReached_eq, expiryAt] at h
  cases hx : slotOf s i with
  | none => rw [hx] at h; cases h
  | some x =>
    refine ⟨x, rfl, fun hst => ?_⟩
    rw [hx, Option.bind_some, (hok i x hx).noExpiry hst] at h
    cases h

theorem takeSlotExpiries_time (l : List SlotIndex) : (takeSlotExpiries l s).time = s.time :=
  (takeSlotExpiries_keeps l).frame .time (by decide)

/-- R86: the slots that are still reached were reached before and are not among those taken. -/
theorem reached_of_takeSlotExpiries {l : List SlotIndex} (hok : FieldsOk s)
    (h : slotReached (takeSlotExpiries l s) j = true) : slotReached s j = true ∧ j ∉ l := by
  induction l generalizing s with
  | nil => exact ⟨h, List.not_mem_nil⟩
  | cons i l ih =>
    rw [takeSlotExpiries] at h
    split at h
    case isTrue hi =>
      obtain ⟨hreached, hnot⟩ := ih (takeSlotExpiry_fields hok i) h
      obtain ⟨x, hx, hst⟩ := slot_of_reached hok hi
      rw [slotReached_eq, expiryAt_takeSlotExpiry hx hst, (takeSlotExpiry_keeps i).frame .time (by decide)] at hreached
      split at hreached
      case isTrue => cases hreached
      case isFalse hne =>
        rw [← slotReached_eq] at hreached
        exact ⟨hreached, by simp [hnot, Ne.symm hne]⟩
    case isFalse hi =>
      obtain ⟨hreached, hnot⟩ := ih hok h
      have hne : j ≠ i := fun e => hi (e ▸ hreached)
      exact ⟨hreached, by simp [hnot, hne]⟩

/-- R86: after the expiries of all slots are taken none is reached. -/
theorem takeSlotExpiries_all (hok : FieldsOk s) (j : SlotIndex) : slotReached (takeSlotExpiries allSlots s) j = false :=
  Bool.eq_false_iff.2 fun h => (reached_of_takeSlotExpiries hok h).2 (mem_allSlots j)

end

/-- Settles O47: the expiry of a slot by its state, and all that are reached, taken in one step (`takeSlotExpiries_all`,
`settle_expirySame`). -/
theorem slotExpiriesAct : Obligations.SlotExpiriesAct := by
  refine ⟨fun s i x e hx he => ⟨fun hst => ?_, fun hst => ?_, fun hst => ?_⟩, fun s hrun hok => ?_⟩
  · rw [takeSlotExpiry_of_admitted hx hst, addSlotHistory_of_expiry he, postSlot_of_slot ((slotOf_addHistory _).trans hx)]
  · obtain ⟨hhistory, hevents, hreceipts⟩ := withdraw_history_events hx he .expired
    rw [takeSlotExpiry_of_presented hx (withdrawable_iff.2 hst)]
    refine ⟨?_, hhistory, hevents, hreceipts⟩
    rw [slotOf_modSlot, if_pos rfl, slotOf_withdraw hx, if_pos rfl]
    rfl
  · rw [takeSlotExpiry_of_done hx hst]
    rfl
  · have hnone : (∀ i, slotReached s i = false) → slotExpiries s = s := fun h =>
      if_neg (by simp [h])
    have hsome : (∃ i, slotReached s i = true) → slotExpiries s = settle (takeSlotExpiries allSlots s) := fun ⟨i, hi⟩ =>
      if_pos (List.any_eq_true.2 ⟨i, mem_allSlots i, hi⟩)
    rw [exec_of_running hrun]
    refine ⟨fun h => congrArg _ (hnone h), fun h => congrArg _ (hsome h), fun t ht j => ?_⟩
    obtain rfl : slotExpiries s = t := by injection ht
    by_cases h : ∃ i, slotReached s i = true
    · rw [hsome h, settle_expirySame.slotReached]
      exact takeSlotExpiries_all hok j
    · have hall : ∀ i, slotReached s i = false := fun i => Bool.eq_false_iff.2 fun hi => h ⟨i, hi⟩
      rw [hnone hall]
      exact hall j

/-! ### Acknowledgement (R126): O52 -/

section
variable {s t : State} {i : SlotIndex} {x : Slot}

/-- A receipt request reads the time, the settings, the queue and the event set alone. -/
theorem requestReceipt_congr (htime : t.time = s.time) (hsettings : t.settings = s.settings)
    (hreceipts : t.receipts = s.receipts) (hevents : t.events = s.events) (x : Slot) (kind : ReceiptKind) (delay : Nat) :
    (requestReceipt x kind delay t).receipts = (requestReceipt x kind delay s).receipts ∧
      (requestReceipt x kind delay t).events = (requestReceipt x kind delay s).events := by
  unfold requestReceipt
  rw [hreceipts, htime, hsettings]
  split
  · split
    · simp only [State.updReceipts, hreceipts, hevents, and_self]
    · simp only [postDevice, State.updEvents, hreceipts, hevents, and_self]
  · exact ⟨hreceipts, hevents⟩

/-- R126 steps 1 to 5: a slot acknowledged, before a receipt is requested. -/
def acknowledged (source : AckSource) (i : SlotIndex) (x : Slot) (delay : Nat) (s : State) : State :=
  (addSlotHistory x .presented (putSlot i (some { x with
    state := .done
    doneTime := some s.time.uptime
    lastActivity := s.time.uptime
    ack := some ⟨s.time.uptime, source, delay⟩ }) (leavePresentation i s))).updEvents
      (mergeSlotPosting i x.key x.revision .acknowledged)

theorem acknowledged_of_expiry (hx : slotOf s i = some x) {e : Expiry} (he : x.expiry = some e) (source : AckSource)
    (delay : Nat) :
    acknowledged source i x delay s =
      (addHistory ⟨x.key, x.revision, .presented, e, false⟩ (putSlot i (some { x with
        state := .done
        doneTime := some s.time.uptime
        lastActivity := s.time.uptime
        ack := some ⟨s.time.uptime, source, delay⟩ })
        ((s.updCycle fun c => if x.state = .sounding then none else c).updPres (leftPres x.state i)))).updEvents
          (mergeSlotPosting i x.key x.revision .acknowledged) := by
  rw [acknowledged, addSlotHistory_of_expiry he, leavePresentation_of_slot hx]

/-- R126: what an acknowledgement is. -/
theorem acknowledge_of_slot (hx : slotOf s i = some x) (source : AckSource) :
    acknowledge source i s =
      let delay := min (s.time.uptime - x.firstPresentation.getD s.time.uptime) 65535
      if x.lead.map (·.mode) = some .onAck then
        requestReceipt x .acknowledged delay (acknowledged source i x delay s)
      else acknowledged source i x delay s := by
  have hleft : slotOf (leavePresentation i s) i = some x :=
    (slotOf_of_same (leavePresentation_slots i s) i).trans hx
  rw [acknowledge, hx]
  simp only [modSlot_of_slot hleft]
  rw [postSlot_of_slot ((slotOf_addSlotHistory ..).trans (putSlot_same ..))]
  rfl

/-- R126: a receipt requested changes the receipts and the event set alone. -/
theorem acknowledge_frame (hx : slotOf s i = some x) {p : Nat} (hp : x.firstPresentation = some p) (source : AckSource) :
    changesOnly [.receipts, .events] (acknowledged source i x (min (s.time.uptime - p) 65535) s)
      (acknowledge source i s) := by
  rw [acknowledge_of_slot hx, hp]
  simp only [Option.getD_some]
  split
  · exact (requestReceipt_keeps x .acknowledged _).frame
  · exact (Keeps.refl _ _).frame

end

/-- Settles O52: the acknowledged slot (`acknowledged`), and the receipt requested under ON_ACK
(`requestReceipt_congr`). -/
theorem acknowledgementEndsTheSlot : Obligations.AcknowledgementEndsTheSlot := by
  intro s i x e p source hx hst he hp now delay t
  have hframe : changesOnly [.receipts, .events] (acknowledged source i x delay s) t := acknowledge_frame hx hp source
  have hbefore := acknowledged_of_expiry hx he source delay
  have hcycle : t.cycle = if x.state = .sounding then none else s.cycle := by
    have hsame : t.cycle = (acknowledged source i x delay s).cycle := hframe .cycle (by decide)
    rw [hsame, hbefore]
    rfl
  have hpres : t.pres = leftPres x.state i s.pres := by
    have hsame : t.pres = (acknowledged source i x delay s).pres := hframe .pres (by decide)
    rw [hsame, hbefore]
    rfl
  refine ⟨?_, ?_, fun hst => ?_, fun hst => ?_, fun hst => ?_, fun hmode => ?_, fun hmode => ?_⟩
  · rw [slotOf_of_same (hframe .slots (by decide)), hbefore]
    exact putSlot_same ..
  · have hsame : t.history = (acknowledged source i x delay s).history := hframe .history (by decide)
    rw [hsame, hbefore]
    rfl
  · rw [hcycle, hpres, hst]
    exact ⟨rfl, rfl⟩
  · rw [hcycle, hpres, hst]
    exact ⟨rfl, rfl⟩
  · rw [hcycle, hpres, hst]
    exact ⟨rfl, rfl⟩
  · have ht : t = acknowledged source i x delay s := by
      show acknowledge source i s = _
      rw [acknowledge_of_slot hx, hp]
      exact if_neg hmode
    rw [ht, hbefore]
    exact ⟨rfl, rfl⟩
  · intro u
    have ht : t = requestReceipt x .acknowledged delay (acknowledged source i x delay s) := by
      show acknowledge source i s = _
      rw [acknowledge_of_slot hx, hp]
      exact if_pos hmode
    rw [ht, hbefore]
    refine requestReceipt_congr ?_ ?_ ?_ ?_ x .acknowledged delay <;> rfl

end Sys2Proof.Machine

/-! ## Additions to history (R94 to R97), and the second (R76, R96): O48, O49 -/

namespace Sys2Proof.Machine

set_option Elab.async false

/-! ### The list with room made and the entry placed: O48 -/

section
variable {e h : HistoryEntry} {l pre post : List HistoryEntry}

/-- The key is new to the list. -/
def NewKey (e : HistoryEntry) (l : List HistoryEntry) : Prop := ∀ h ∈ l, h.key ≠ e.key

theorem outranked_of_new (hnew : NewKey e l) : outranked e l = false :=
  List.any_eq_false.2 fun h hh => by simp [hnew h hh]

theorem makeRoom_of_new (hnew : NewKey e l) : makeRoom e l = if 64 ≤ l.length then l.drop 1 else l := by
  have hany : (l.any fun h => decide (h.key = e.key)) = false :=
    List.any_eq_false.2 fun h hh => by simpa using hnew h hh
  rw [makeRoom, hany]
  rfl

/-- The entry of a key in a list of distinct keys is the only one. -/
theorem others_newKey (hnodup : ((pre ++ h :: post).map (·.key)).Nodup) (hkey : h.key = e.key) :
    NewKey e pre ∧ NewKey e post := by
  rw [List.map_append, List.map_cons] at hnodup
  obtain ⟨_, hcons, hdisjoint⟩ := List.nodup_append.1 hnodup
  have hpost := (List.nodup_cons.1 hcons).1
  refine ⟨fun q hq hqkey => ?_, fun q hq hqkey => ?_⟩
  · exact hdisjoint q.key (List.mem_map_of_mem hq) h.key List.mem_cons_self (hqkey.trans hkey.symm)
  · exact hpost (List.mem_map.2 ⟨q, hq, hqkey.trans hkey.symm⟩)

theorem filter_of_new (hnew : NewKey e l) : (l.filter fun h => decide (h.key ≠ e.key)) = l :=
  List.filter_eq_self.2 fun h hh => decide_eq_true (hnew h hh)

theorem makeRoom_of_held (hnodup : ((pre ++ h :: post).map (·.key)).Nodup) (hkey : h.key = e.key) :
    makeRoom e (pre ++ h :: post) = pre ++ post := by
  obtain ⟨hpre, hpost⟩ := others_newKey hnodup hkey
  have hany : ((pre ++ h :: post).any fun h => decide (h.key = e.key)) = true :=
    List.any_eq_true.2 ⟨h, by simp, decide_eq_true hkey⟩
  rw [makeRoom, if_pos hany, List.filter_append, List.filter_cons_of_neg (by simpa using hkey), filter_of_new hpre,
    filter_of_new hpost]

theorem outranked_of_held (hnodup : ((pre ++ h :: post).map (·.key)).Nodup) (hkey : h.key = e.key) :
    outranked e (pre ++ h :: post) = decide (e.revision.toNat < h.revision.toNat) := by
  obtain ⟨hpre, hpost⟩ := others_newKey hnodup hkey
  have hsplit : outranked e (pre ++ h :: post) =
      (outranked e pre || ((decide (h.key = e.key) && decide (e.revision.toNat < h.revision.toNat)) ||
        outranked e post)) := by
    simp [outranked]
  rw [hsplit, outranked_of_new hpre, outranked_of_new hpost]
  simp [hkey]

/-- R94: the list that an addition leaves when the entry does not stay (R96). -/
theorem room_of_new (hnew : NewKey e l) :
    (if outranked e l then l else makeRoom e l) = if 64 ≤ l.length then l.drop 1 else l := by
  rw [outranked_of_new hnew, makeRoom_of_new hnew]
  rfl

theorem room_of_held (hnodup : ((pre ++ h :: post).map (·.key)).Nodup) (hkey : h.key = e.key) :
    (if outranked e (pre ++ h :: post) then pre ++ h :: post else makeRoom e (pre ++ h :: post)) =
      if e.revision.toNat < h.revision.toNat then pre ++ h :: post else pre ++ post := by
  rw [outranked_of_held hnodup hkey, makeRoom_of_held hnodup hkey]
  simp only [decide_eq_true_eq]

theorem placeEntry_of_new (hnew : NewKey e l) :
    placeEntry e l = (if 64 ≤ l.length then l.drop 1 else l) ++ [e] := by
  rw [placeEntry, outranked_of_new hnew, makeRoom_of_new hnew]
  rfl

theorem placeEntry_of_held (hnodup : ((pre ++ h :: post).map (·.key)).Nodup) (hkey : h.key = e.key) :
    placeEntry e (pre ++ h :: post) =
      if e.revision.toNat < h.revision.toNat then pre ++ h :: post else pre ++ post ++ [e] := by
  rw [placeEntry, outranked_of_held hnodup hkey, makeRoom_of_held hnodup hkey]
  simp only [decide_eq_true_eq]

end

/-- R94, R96 and log 14: an addition leaves a list and notes the entry in the store. -/
def historyAdded (e : HistoryEntry) (l : List HistoryEntry) (s : State) : State :=
  (s.updHistory fun _ => l).updStore (Store.noteAddition e)

section
variable {e : HistoryEntry} {s : State}

theorem addHistory_of_kept (h : retentionReached s.time s.settings.profile.retention e = false) :
    addHistory e s = historyAdded e (placeEntry e s.history) s := by
  rw [addHistory, h]
  rfl

theorem addHistory_of_ended (h : retentionReached s.time s.settings.profile.retention e = true) :
    addHistory e s =
      historyAdded e (if outranked e s.history then s.history else makeRoom e s.history) s := by
  rw [addHistory, h]
  rfl

/-- Log 14: a program attempt that runs for an equal entry has lost its subject. -/
theorem noteAddition_eq (t : Store) :
    t.noteAddition e = { t with state := match t.state with
      | .busy phase (.program subject n replaced) =>
        .busy phase (.program subject n (if subject = e then true else replaced))
      | st => st } := by
  obtain ⟨journal, state, writePos, eraseFails⟩ := t
  cases state with
  | busy phase op =>
    cases op with
    | program subject n replaced => by_cases heq : subject = e <;> simp [Store.noteAddition, heq]
    | void | prefill | erase => rfl
  | loading | idle | deferred | failed => rfl

theorem historyAdded_eq (l : List HistoryEntry) :
    historyAdded e l s = { s with
      history := l
      store := { s.store with state := match s.store.state with
        | .busy phase (.program subject n replaced) =>
          .busy phase (.program subject n (if subject = e then true else replaced))
        | st => st } } := by
  rw [historyAdded, State.updStore, noteAddition_eq]
  rfl

end

/-- Settles O48: the placing of an entry by its cases (`placeEntry_of_new`, `placeEntry_of_held`), and what an addition
leaves (`addHistory_of_kept`, `addHistory_of_ended`). -/
theorem historyAddition : Obligations.HistoryAddition := by
  refine ⟨fun e l hnodup hle => ⟨fun hnew hlt => ?_, fun head tail hnew hl hfull => ?_, fun pre h post hl hkey => ?_⟩,
    fun e s hnodup hle => ?_⟩
  · rw [placeEntry_of_new hnew, if_neg (not_le.2 hlt)]
  · rw [placeEntry_of_new hnew, if_pos hfull.ge, hl, List.drop_one, List.tail_cons]
  · subst hl
    rw [placeEntry_of_held hnodup hkey]
    exact ⟨fun h => if_neg (not_lt.2 h), fun h => if_pos h⟩
  · intro added ended
    have hadded : ∀ l, historyAdded e l s = added l := fun l => historyAdded_eq l
    refine ⟨fun hkept => (addHistory_of_kept hkept).trans (hadded _), fun hended => ?_⟩
    rw [addHistory_of_ended hended, hadded]
    refine ⟨fun hnew hlt => ?_, fun head tail hnew hl hfull => ?_, fun pre h post hl hkey => ?_⟩
    · rw [room_of_new hnew, if_neg (not_le.2 hlt)]
    · rw [room_of_new hnew, if_pos hfull.ge, hl, List.drop_one, List.tail_cons]
    · rw [hl] at hnodup
      rw [hl, room_of_held hnodup hkey]
      exact ⟨fun h => congrArg _ (if_neg (not_lt.2 h)), fun h => congrArg _ (if_pos h)⟩

/-! ### The second: O49 -/

/-- R76: each count goes on by one second, and stops at its maximum. -/
theorem countSecond_eq (t : Timebase) :
    countSecond t = if t.uptime < 4294967295 then
        ⟨t.uptime + 1, if t.clockSet then min (t.wall + 1) 4294967295 else t.wall, t.clockSet⟩
      else t := rfl

/-- Settles O49: the second is the count (`countSecond_eq`), the pruning, and the two tests in their order. -/
theorem uptimeSecondCounts : Obligations.UptimeSecondCounts := by
  intro s hrun time kept
  have htime : countSecond s.time = time := countSecond_eq s.time
  rw [exec_of_running hrun, exec_of_running hrun, exec_of_running hrun]
  refine ⟨rfl, ?_, ?_⟩
  · rw [← htime]
    rfl
  · rw [← htime]
    rfl

end Sys2Proof.Machine

/-! ## Presentation and attention (R117 to R124, R132 to R134, R141 to R146): O44, O50, O51, O53 -/

namespace Sys2Proof.Machine

set_option Elab.async false

/-! ### The decision (R117) -/

section
variable {s : State} {a h i : SlotIndex} {x : Slot}

/-- R117: where the decision has nothing left to do it does nothing. -/
theorem decideOnce_of_settled (hsettled : PresSettled s) : decideOnce s = s := by
  unfold decideOnce
  split
  case h_1 => rfl
  case h_2 h hhead =>
    split
    case h_1 hactive =>
      rw [hsettled.none hactive] at hhead
      cases hhead
    case h_2 a hactive =>
      split
      case h_1 hst => exact if_neg (not_lt.2 (hsettled.sounding a h hactive hst hhead))
      case h_2 hst => exact if_neg (not_le.2 (hsettled.shown a h hactive hst hhead))
      case h_3 => rfl

/-- R117: once is enough. -/
theorem presentationDecision_eq (w : PresWf s) : presentationDecision s = decideOnce s := by
  obtain ⟨_, hsettled⟩ := decideOnce_settles w
  unfold presentationDecision
  split
  · exact decideOnce_of_settled hsettled
  · rfl

theorem decideOnce_of_sounding (hhead : s.pres.queue.head? = some h) (hactive : s.pres.active = some a)
    (hst : stateAt s a = some .sounding) :
    decideOnce s = if rankAt s a < rankAt s h then activate h (interrupt a s) else s := by
  rw [decideOnce, hhead]
  simp only [hactive, hst]

theorem decideOnce_of_shown (hhead : s.pres.queue.head? = some h) (hactive : s.pres.active = some a)
    (hst : stateAt s a = some .shown) :
    decideOnce s = if rankAt s a ≤ rankAt s h then activate h (displace a s) else s := by
  rw [decideOnce, hhead]
  simp only [hactive, hst]

/-! ### Activation (R118, R119, R142) -/

/-- R134: a cycle that starts takes the place of a running preview's. -/
theorem startCycle_stopPreview (owner : Owner) (rank : Nat) (s : State) :
    startCycle owner rank (stopPreview s) = startCycle owner rank (s.updPres fun p => { p with preview := none }) := by
  unfold stopPreview
  split
  case isTrue => rfl
  case isFalse hnone =>
    have hpreview : s.pres.preview = none := by simpa using hnone
    have hsame : (s.updPres fun p => { p with preview := none }) = s := by
      rw [State.updPres, ← hpreview]
    rw [hsame]

/-- R35: a change of state, after a change of presentation. -/
theorem enterState_updPres (hx : slotOf s i = some x) (st : SlotState) (f : Presentation → Presentation) :
    enterState st i (s.updPres f) =
      putSlot i (some { x with state := st, lastActivity := s.time.uptime }) (s.updPres f) := by
  have hslot : slotOf (s.updPres f) i = some x := hx
  rw [enterState, modSlot_of_slot hslot]
  rfl

theorem updPres_putSlot (o : Option Slot) (f : Presentation → Presentation) :
    (putSlot i o s).updPres f = putSlot i o (s.updPres f) := rfl

theorem postSlot_startCycle_putSlot (kind : SlotKind) (owner : Owner) (rank : Nat) :
    postSlot i kind (startCycle owner rank (putSlot i (some x) s)) =
      (startCycle owner rank (putSlot i (some x) s)).updEvents (mergeSlotPosting i x.key x.revision kind) :=
  postSlot_of_slot (show slotOf (startCycle owner rank (putSlot i (some x) s)) i = some x from putSlot_same ..) kind

/-- R118: a slot activated, before its first presentation is looked at. -/
def activated (i : SlotIndex) (x : Slot) (s : State) : State :=
  (startCycle (.slot i) x.rank (putSlot i (some { x with state := .sounding, lastActivity := s.time.uptime })
    (s.updPres fun p => { p with queue := p.queue.erase i, active := some i, preview := none }))).updEvents
      (mergeSlotPosting i x.key x.revision .presenting)

theorem activate_of_slot (hx : slotOf s i = some x) : activate i s = presentFirst i (activated i x s) := by
  unfold activate
  simp only [enterState_updPres hx]
  have hslot : ∀ t : State, slotOf (stopPreview (putSlot i (some { x with
      state := .sounding, lastActivity := s.time.uptime }) t)) i =
        some { x with state := .sounding, lastActivity := s.time.uptime } := fun t =>
    (slotOf_of_same stopPreview_slots i).trans (putSlot_same ..)
  rw [rankAt_of_slot (hslot _), startCycle_stopPreview, updPres_putSlot, postSlot_startCycle_putSlot]
  rfl

theorem presentFirst_of_presented (hx : slotOf s i = some x) (h : x.firstPresentation ≠ none) : presentFirst i s = s := by
  rw [presentFirst, hx]
  exact if_pos (Option.isSome_iff_ne_none.2 h)

theorem presentFirst_of_first (hx : slotOf s i = some x) (h : x.firstPresentation = none) :
    presentFirst i s =
      let t := putSlot i (some { x with firstPresentation := some s.time.uptime }) s
      if x.lead.map (·.mode) = some .onPresent then requestReceipt x .presented 0 t else t := by
  rw [presentFirst, hx]
  simp only [h, modSlot_of_slot hx]
  rfl

/-- R119: no receipt is asked for, but at the first presentation under ON_PRESENT. -/
theorem presentFirst_silent (hx : slotOf s i = some x)
    (h : x.firstPresentation ≠ none ∨ x.lead.map (·.mode) ≠ some .onPresent) :
    (presentFirst i s).receipts = s.receipts ∧ (presentFirst i s).events = s.events := by
  by_cases hfirst : x.firstPresentation = none
  · rw [presentFirst_of_first hx hfirst]
    simp only [h.resolve_left (not_not.2 hfirst), if_false]
    exact ⟨rfl, rfl⟩
  · rw [presentFirst_of_presented hx hfirst]
    exact ⟨rfl, rfl⟩

theorem presentFirst_requests (hx : slotOf s i = some x) (hfirst : x.firstPresentation = none)
    (hmode : x.lead.map (·.mode) = some .onPresent) :
    (presentFirst i s).receipts = (requestReceipt x .presented 0 s).receipts ∧
      (presentFirst i s).events = (requestReceipt x .presented 0 s).events := by
  rw [presentFirst_of_first hx hfirst]
  simp only [hmode, if_true]
  refine requestReceipt_congr ?_ ?_ ?_ ?_ x .presented 0 <;> rfl

theorem interrupt_of_slot (hx : slotOf s a = some x) :
    interrupt a s = joinQueue a (putSlot a (some { x with state := .queued, lastActivity := s.time.uptime })
      ((stopCycle s).updPres fun p => { p with active := none })) :=
  congrArg (joinQueue a) (enterState_updPres (s := stopCycle s) hx .queued _)

theorem mem_joinQueue (i : SlotIndex) (s : State) : i ∈ (joinQueue i s).pres.queue :=
  List.mem_append_right _ List.mem_cons_self

theorem displace_of_slot (hx : slotOf s a = some x) :
    displace a s = (putSlot a (some { x with state := .pending, lastActivity := s.time.uptime })
      (s.updPres fun p => { p with reminder := none, active := none, pendingList := p.pendingList ++ [a] })).updEvents
        (mergeSlotPosting a x.key x.revision .pending) := by
  rw [displace, enterState_updPres hx, postSlot_putSlot]

/-- R142: the cycle that starts from a table. -/
theorem startCycle_of_table {owner : Owner} {rank : Nat} {first : Segment} {others : List Segment}
    (h : s.settings.cadences.ofRank rank = first :: others) :
    startCycle owner rank s = { s with
      cycle := some
        { owner := owner
          rank := rank
          segments := first :: others
          toneA := s.settings.toneA
          toneB := s.settings.toneB
          attentionTime := s.settings.profile.attentionTime
          index := 0
          counter := first.length
          elapsed := 0
          quiet := s.settings.profile.quiet
          phase := 0 } } := by
  rw [startCycle, h]
  rfl

end

/-- Settles O50: the decision's lines (`presentationDecision_eq`), a cycle's start (`startCycle_of_table`), and what
activation, interruption and displacement leave. -/
theorem presentationDecides : Obligations.PresentationDecides := by
  refine ⟨fun s w => ?_, fun s h x hx => ?_⟩
  · rw [presentationDecision_eq w]
    refine ⟨fun hempty => by rw [decideOnce, hempty]; rfl, fun h l hqueue => ?_⟩
    have hhead : s.pres.queue.head? = some h := by rw [hqueue]; rfl
    refine ⟨fun hactive => ?_, fun a hactive => ⟨fun hst hlt => ?_, fun hst hle => ?_, fun hst hle => ?_, fun hst hlt => ?_⟩⟩
    · rw [decideOnce, hhead]
      simp only [hactive]
    · rw [decideOnce_of_sounding hhead hactive hst, if_pos hlt]
    · rw [decideOnce_of_shown hhead hactive hst, if_pos hle]
    · rw [decideOnce_of_sounding hhead hactive hst, if_neg (not_lt.2 hle)]
    · rw [decideOnce_of_shown hhead hactive hst, if_neg (not_le.2 hlt)]
  · intro now tableOf freshCycle
    refine ⟨fun owner rank first others htable => startCycle_of_table htable, ?_, ?_, ?_⟩
    · have hpres : (activate h s).pres = (activated h x s).pres := by
        rw [activate_of_slot hx]
        exact (presentFirst_keeps h).frame .pres (by decide)
      have hcycle : (activate h s).cycle = (activated h x s).cycle := by
        rw [activate_of_slot hx]
        exact (presentFirst_keeps h).frame .cycle (by decide)
      have hslot : slotOf (activated h x s) h = some { x with state := .sounding, lastActivity := now } := putSlot_same ..
      refine ⟨?_, ?_, ?_, ?_, fun first others htable => ?_, fun hsilent => ?_, fun hfirst hmode => ?_⟩
      · rw [slotOf_activate, if_pos rfl, hx]
        rfl
      · rw [hpres]
        rfl
      · rw [hpres]
        rfl
      · rw [hpres]
        rfl
      · rw [hcycle]
        exact congrArg State.cycle (startCycle_of_table htable)
      · obtain ⟨hreceipts, hevents⟩ := presentFirst_silent hslot hsilent
        rw [activate_of_slot hx]
        exact ⟨hreceipts, hevents⟩
      · intro u
        obtain ⟨hreceipts, hevents⟩ := presentFirst_requests hslot hfirst hmode
        obtain ⟨hreceipts', hevents'⟩ := requestReceipt_congr (t := activated h x s)
          (s := s.updEvents (mergeSlotPosting h x.key x.revision .presenting)) rfl rfl rfl rfl x .presented 0
        rw [activate_of_slot hx]
        exact ⟨hreceipts.trans hreceipts', hevents.trans hevents'⟩
    · rw [interrupt_of_slot hx]
      exact ⟨putSlot_same .., rfl, rfl, mem_joinQueue .., rfl⟩
    · rw [displace_of_slot hx]
      exact ⟨putSlot_same .., rfl, rfl⟩

/-! ### Reminders and completions: O51 -/

section
variable {s : State} {i : SlotIndex} {x : Slot}

/-- R124: the reminder timer of the SHOWN active slot. -/
theorem reminderExpiry_of_shown {d : Nat} (hactive : s.pres.active = some i) (hx : slotOf s i = some x)
    (hst : x.state = .shown) (hd : s.pres.reminder = some d) :
    reminderExpiry s =
      if d ≤ s.time.uptime then
        let t := s.updPres fun p => { p with reminder := none }
        if x.reminders < s.settings.profile.reminderCount then
          settle (postSlot i .presenting (startCycle (.slot i) x.rank (enterState .sounding i
            (modSlot i (fun y => { y with reminders := y.reminders + 1 }) t))))
        else
          settle (postSlot i .pending (enterState .pending i (t.updPres fun p =>
            { p with active := none, pendingList := p.pendingList ++ [i] })))
      else s := by
  rw [reminderExpiry, hactive]
  simp only [hx, hst, hd, deadlineReached_some, true_and]
  rfl

/-- R124: another reminder sounds. -/
theorem reminder_sounds (hx : slotOf s i = some x) :
    postSlot i .presenting (startCycle (.slot i) x.rank (enterState .sounding i
        (modSlot i (fun y => { y with reminders := y.reminders + 1 }) s))) =
      (startCycle (.slot i) x.rank (putSlot i (some { x with
        state := .sounding
        lastActivity := s.time.uptime
        reminders := x.reminders + 1 }) s)).updEvents (mergeSlotPosting i x.key x.revision .presenting) := by
  rw [modSlot_of_slot hx, enterState, modSlot_putSlot, postSlot_startCycle_putSlot]
  rfl

/-- R124: after the last reminder the slot becomes PENDING. -/
theorem reminder_ends (hx : slotOf s i = some x) :
    postSlot i .pending (enterState .pending i (s.updPres fun p =>
        { p with active := none, pendingList := p.pendingList ++ [i] })) =
      (putSlot i (some { x with state := .pending, lastActivity := s.time.uptime }) (s.updPres fun p =>
        { p with active := none, pendingList := p.pendingList ++ [i] })).updEvents
          (mergeSlotPosting i x.key x.revision .pending) := by
  rw [enterState_updPres hx, postSlot_putSlot]

/-- R123, R131: a SOUNDING slot becomes SHOWN. -/
theorem becomeShown_of_slot (hx : slotOf s i = some x) :
    becomeShown i s = ((putSlot i (some { x with state := .shown, lastActivity := s.time.uptime }) s).updEvents
      (mergeSlotPosting i x.key x.revision .shown)).updPres fun p =>
        { p with reminder := some (addSeconds s.time.uptime s.settings.profile.reminderInterval) } := by
  have hentered : enterState .shown i s = putSlot i (some { x with state := .shown, lastActivity := s.time.uptime }) s :=
    modSlot_of_slot hx _
  rw [becomeShown, hentered, postSlot_putSlot]

theorem segmentBoundary_of_cycle {c : Cycle} (hc : s.cycle = some c) :
    segmentBoundary s =
      if c.counter ≠ 0 then s
      else if c.attentionTime * 100 ≤ c.elapsed then completion c.owner (stopCycle s)
      else s.updCycle fun _ => some (nextSegment s.settings.profile.quiet c) := by
  rw [segmentBoundary, hc]

end

/-- Settles O51: the reminder timer (`reminderExpiry_of_shown`), and the segment boundary (`segmentBoundary_of_cycle`). -/
theorem remindersAndCompletions : Obligations.RemindersAndCompletions := by
  refine ⟨fun s i x d hrun hactive hx hst hd => ?_, fun s c hrun hc => ?_⟩
  · rw [exec_of_running hrun, show work .reminderExpiry s = reminderExpiry s from rfl,
      reminderExpiry_of_shown hactive hx hst hd]
    refine ⟨fun hearly => ?_, fun hreached hleft => ?_, fun hreached hlast => ?_⟩
    · rw [if_neg (not_le.2 hearly)]
    · rw [if_pos hreached]
      simp only [hleft, if_true]
      rw [reminder_sounds (s := s.updPres fun p => { p with reminder := none }) hx]
      rfl
    · rw [if_pos hreached]
      simp only [not_lt.2 hlast, if_false]
      rw [reminder_ends (s := s.updPres fun p => { p with reminder := none }) hx]
      rfl
  · rw [exec_of_running hrun, show work .segmentBoundary s = segmentBoundary s from rfl, segmentBoundary_of_cycle hc]
    refine ⟨fun hinside => ?_, fun hzero hgoes g hg => ?_, fun hzero hended => ?_⟩
    · rw [if_pos hinside]
    · rw [if_neg (not_not.2 hzero), if_neg (not_le.2 hgoes), nextSegment, hg]
      rfl
    · rw [if_neg (not_not.2 hzero), if_pos hended]
      refine ⟨fun howner => ?_, fun i x howner hactive hx hst => ?_⟩
      · rw [howner]
        rfl
      · have hsounding : stateAt (stopCycle s) i = some .sounding := (stateAt_of_slot hx).trans (congrArg some hst)
        have hstopped : slotOf (stopCycle s) i = some x := hx
        rw [howner, completion]
        simp only [show (stopCycle s).pres.active = some i from hactive, hsounding, and_self, if_true]
        rw [becomeShown_of_slot hstopped]
        rfl

/-! ### PREVIEW: O44 -/

theorem lengthIs_of_length {p : List Octet} {n : Nat} (h : p.length = n) : lengthIs n p = true := by
  rw [lengthIs, h]
  exact beq_self_eq_true n

/-- Settles O44: the request is taken (`takeRequest_of_requestReady`), and its cycle starts (`startCycle_stopPreview`,
`startCycle_of_table`). -/
theorem previewStartsACycle : Obligations.PreviewStartsACycle := by
  intro f rest s h hloaded hlength rank
  have hexec : exec .preview s = .next (respond f (carryPreview f.payload (withStaging rest s)).2
      (carryPreview f.payload (withStaging rest s)).1) :=
    congrArg Host.Outcome.next (takeRequest_of_requestReady h hloaded (lengthIs_of_length hlength) [] carryPreview)
  rw [hexec]
  refine ⟨fun hrank => ?_, fun hlow hhigh hactive => ?_, fun hlow hhigh hactive first others htable => ?_⟩
  · rw [carryPreview, if_pos hrank]
    rfl
  · have hrank : ¬ (rank < 1 ∨ 4 < rank) := by omega
    have hbusy : (withStaging rest s).pres.active.isSome = true := Option.isSome_iff_ne_none.2 hactive
    rw [carryPreview, if_neg hrank, if_pos hbusy]
    rfl
  · have hrank : ¬ (rank < 1 ∨ 4 < rank) := by omega
    have hfree : ¬ (withStaging rest s).pres.active.isSome = true := by
      rw [show (withStaging rest s).pres.active = none from hactive]
      exact Bool.false_ne_true
    have hstart : carryPreview f.payload (withStaging rest s) =
        (startCycle .preview rank ((stopPreview (withStaging rest s)).updPres fun q => { q with preview := some rank }),
          [codeOk]) := by
      rw [carryPreview, if_neg hrank, if_neg hfree]
    have hpreview : startCycle .preview rank
        ((stopPreview (withStaging rest s)).updPres fun q => { q with preview := some rank }) =
          startCycle .preview rank ((withStaging rest s).updPres fun q => { q with preview := some rank }) := by
      unfold stopPreview
      split <;> rfl
    rw [hstart, hpreview,
      startCycle_of_table (s := (withStaging rest s).updPres fun q => { q with preview := some rank }) htable]
    rfl

/-! ### The output lines: O53 -/

section
variable {s : State} {c : Cycle} {g : Segment}

theorem tone_of_cycle (hrun : s.lines.resetLow = false) (hc : s.cycle = some c) : s.tone = c.tone := by
  rw [State.tone, hrun, hc]
  rfl

theorem vib_of_cycle (hrun : s.lines.resetLow = false) (hc : s.cycle = some c) : s.vib = c.vib := by
  rw [State.vib, hrun, hc]
  rfl

theorem Cycle.vib_of_segment (hg : c.segments[c.index]? = some g) : c.vib = g.vibrate := by
  rw [Cycle.vib, Cycle.segment, hg]

theorem Cycle.tone_of_segment (hg : c.segments[c.index]? = some g) :
    c.tone = if c.counter = 0 || (c.quiet && c.rank ≤ 3) then false
      else match g.kind with
        | .toneA => waveHigh c.toneA c.phase
        | .toneB => waveHigh c.toneB c.phase
        | .pause => false := by
  rw [Cycle.tone, Cycle.segment, hg] <;> rfl

theorem Cycle.tone_of_pause (hg : c.segments[c.index]? = some g) (hkind : g.kind = .pause) : c.tone = false := by
  rw [Cycle.tone_of_segment hg, hkind]
  exact ite_self _

theorem Cycle.tone_of_quiet (hg : c.segments[c.index]? = some g) (hquiet : c.quiet = true) (hrank : c.rank ≤ 3) :
    c.tone = false := by
  rw [Cycle.tone_of_segment hg]
  exact if_pos (by simp [hquiet, hrank])

theorem Cycle.tone_of_sound (hg : c.segments[c.index]? = some g) (hinside : c.counter ≠ 0)
    (hloud : c.quiet = false ∨ 4 ≤ c.rank) :
    c.tone = match g.kind with
      | .toneA => waveHigh c.toneA c.phase
      | .toneB => waveHigh c.toneB c.phase
      | .pause => false := by
  rw [Cycle.tone_of_segment hg]
  refine if_neg fun h => ?_
  simp only [hinside, decide_false, Bool.false_or, Bool.and_eq_true, decide_eq_true_eq] at h
  obtain ⟨hquiet, hrank⟩ := h
  rcases hloud with hloud | hloud
  · exact Bool.false_ne_true (hloud.symm.trans hquiet)
  · omega

end

theorem and_ne_zero_iff {w : Nat} (a b : BitVec w) :
    a &&& b ≠ 0 ↔ ∃ n, n < w ∧ a.getLsbD n = true ∧ b.getLsbD n = true := by
  constructor
  · intro hne
    by_contra hnone
    refine hne (BitVec.eq_of_getLsbD_eq fun n hn => ?_)
    have hbit : (a.getLsbD n && b.getLsbD n) = false :=
      Bool.eq_false_iff.2 fun h => hnone ⟨n, hn, (Bool.and_eq_true ..).mp h⟩
    rw [BitVec.getLsbD_and, hbit]
    exact BitVec.getLsbD_zero.symm
  · rintro ⟨n, _, ha, hb⟩ hzero
    have hbit := congrArg (·.getLsbD n) hzero
    simp [ha, hb] at hbit

/-- R185: which entries hold EVT high. -/
theorem wakes_iff (wake : BitVec 13) (e : EventEntry) :
    e.wakes wake = true ↔ match e with
      | .slot _ _ _ kinds => kinds.getLsbD 1 = true ∨ ∃ n, n < 13 ∧ kinds.getLsbD n = true ∧ wake.getLsbD n = true
      | .device kind _ _ => wake.getLsbD (match kind with
          | .receiptSent => 9 | .receiptDropped => 10 | .storeFailed => 11 | .loadDone => 12) = true := by
  cases e with
  | slot i key revision kinds =>
    simp only [EventEntry.wakes, SlotKind.position, Bool.or_eq_true, bne_iff_ne]
    exact or_congr Iff.rfl (and_ne_zero_iff kinds wake)
  | device kind count detail => cases kind <;> exact Iff.rfl

/-- Settles O53: the level of each line from the segment (`Cycle.tone_of_segment`, `Cycle.vib_of_segment`) and from the
event set (`wakes_iff`). -/
theorem outputLinesFollowTheState : Obligations.OutputLinesFollowTheState := by
  refine ⟨fun s hrun => ⟨fun hnone => ?_, fun c g hc hg => ?_⟩, fun s hrun => ?_⟩
  · rw [State.tone, State.vib, hnone]
    exact ⟨Bool.and_false _, Bool.and_false _⟩
  · rw [tone_of_cycle hrun hc, vib_of_cycle hrun hc]
    refine ⟨Cycle.vib_of_segment hg, Cycle.tone_of_pause hg, Cycle.tone_of_quiet hg, fun hinside hloud => ?_⟩
    rw [Cycle.tone_of_sound hg hinside hloud]
    refine ⟨fun hkind => ?_, fun hkind => ?_⟩ <;> rw [hkind] <;> exact decide_eq_true_iff
  · rw [State.evt, hrun]
    simp only [Bool.not_false, Bool.true_and, List.any_eq_true]
    exact exists_congr fun e => and_congr Iff.rfl (wakes_iff _ e)

end Sys2Proof.Machine

/-! ## The keys (R128 to R131, R151 to R155): O54, O55 -/

namespace Sys2Proof.Machine

set_option Elab.async false

/-! ### Samples and presses: O54 -/

theorem sampleFilter_eq (low : Bool) (f : Filter) :
    sampleFilter low f = { f with run := if low = f.pressed then 0 else min (f.run + 1) 64 } := by
  unfold sampleFilter
  split <;> rfl

theorem recognitionDue_iff {checkTime : Nat} {f : Filter} :
    recognitionDue checkTime f = true ↔ 1 ≤ f.run ∧ checkTime ≤ f.run := by
  simp [recognitionDue, Nat.one_le_iff_ne_zero, Nat.pos_iff_ne_zero]

/-- The filter of the other key. -/
def Keys.other (k : Keys) : KeyLine → Filter
  | .ack => k.silence
  | .silence => k.ack

/-- R154: a press starts the chord timer when the other key is PRESSED and not consumed. -/
theorem startChord_pressed (k : Keys) (key : KeyLine) (chordTime : Nat) :
    startChord chordTime (k.withFilter key ⟨true, 0, false⟩) =
      { k.withFilter key ⟨true, 0, false⟩ with chord :=
        if (k.other key).pressed = true ∧ (k.other key).consumed = false then some ⟨0, chordTime⟩ else k.chord } := by
  have hboth : ∀ p : Keys, p = k.withFilter key ⟨true, 0, false⟩ →
      ((p.ack.pressed && p.silence.pressed && !p.ack.consumed && !p.silence.consumed) = true ↔
        (k.other key).pressed = true ∧ (k.other key).consumed = false) := by
    rintro p rfl
    cases key <;> simp [Keys.withFilter, Keys.other]
  by_cases hother : (k.other key).pressed = true ∧ (k.other key).consumed = false
  · rw [if_pos hother]
    exact if_pos ((hboth _ rfl).2 hother)
  · rw [if_neg hother]
    refine (if_neg (mt (hboth _ rfl).1 hother)).trans ?_
    cases key <;> rfl

theorem recognisePress_of_due {s : State} {key : KeyLine} (hreleased : (s.keys.filter key).pressed = false)
    (hrun : 1 ≤ (s.keys.filter key).run) (hcheck : s.settings.profile.checkTime ≤ (s.keys.filter key).run) :
    recognisePress key s =
      s.updKeys fun k => startChord s.settings.profile.chordTime (k.withFilter key ⟨true, 0, false⟩) :=
  if_pos (by rw [hreleased, recognitionDue_iff.2 ⟨hrun, hcheck⟩]; rfl)

theorem recognisePress_of_not_due {s : State} {key : KeyLine}
    (h : (s.keys.filter key).pressed = true ∨ (s.keys.filter key).run = 0 ∨
      (s.keys.filter key).run < s.settings.profile.checkTime) : recognisePress key s = s := by
  refine if_neg fun hdue => ?_
  simp only [Bool.and_eq_true, Bool.not_eq_true', recognitionDue_iff] at hdue
  obtain ⟨hreleased, hrun, hcheck⟩ := hdue
  rcases h with h | h | h
  · exact Bool.false_ne_true (hreleased.symm.trans h)
  · omega
  · omega

/-- Settles O54: the sample of each filter (`sampleFilter_eq`), and the press recognition (`recognisePress_of_due`,
`startChord_pressed`, `recognisePress_of_not_due`). -/
theorem keySamplesAndPresses : Obligations.KeySamplesAndPresses := by
  refine fun s hrun => ⟨?_, ?_⟩
  · intro ackLow silenceLow sampled
    have hsampled : ∀ low f, sampleFilter low f = sampled low f := sampleFilter_eq
    have hkeys : sampleKeys ackLow silenceLow s.keys = ⟨sampled ackLow s.keys.ack, sampled silenceLow s.keys.silence,
        s.keys.chord.map fun c => { c with elapsed := min (c.elapsed + 1) (c.chordTime * 1000) }⟩ := by
      rw [← hsampled, ← hsampled]
      rfl
    rw [exec_of_running hrun]
    exact congrArg (fun k => Host.Outcome.next { s with keys := k }) hkeys
  · intro key f other pressed
    have hf : s.keys.filter key = f := by cases key <;> rfl
    rw [exec_of_running hrun]
    refine ⟨fun hreleased hone hcheck => congrArg Host.Outcome.next ?_, fun h => congrArg Host.Outcome.next ?_⟩
    · rw [← hf] at hreleased hone hcheck
      refine (recognisePress_of_due hreleased hone hcheck).trans ?_
      rw [State.updKeys, startChord_pressed]
      cases key <;> rfl
    · rw [← hf] at h
      exact recognisePress_of_not_due h

/-! ### Releases and the chord: O55 -/

section
variable {s : State}

theorem stopPreview_of_none (h : s.pres.preview = none) : stopPreview s = s :=
  if_neg (by rw [h]; exact Bool.false_ne_true)

theorem stopPreview_of_some (h : s.pres.preview ≠ none) :
    stopPreview s = (stopCycle s).updPres fun p => { p with preview := none } :=
  if_pos (Option.isSome_iff_ne_none.2 h)

/-- R151, R155: a release recognised: the filter is RELEASED, and a running chord timer stops. -/
def released (key : KeyLine) (s : State) : State :=
  s.updKeys fun k => { k.withFilter key ⟨false, 0, false⟩ with chord := none }

theorem recogniseRelease_of_due {key : KeyLine} (hpressed : (s.keys.filter key).pressed = true)
    (hrun : 1 ≤ (s.keys.filter key).run) (hcheck : s.settings.profile.checkTime ≤ (s.keys.filter key).run) :
    recogniseRelease key s =
      if (s.keys.filter key).consumed then released key s else keyAction key (released key s) :=
  if_pos (by rw [hpressed, recognitionDue_iff.2 ⟨hrun, hcheck⟩]; rfl)

theorem ackKeyAction_of_active {a : SlotIndex} (h : s.pres.active = some a) :
    ackKeyAction s = settle (acknowledge .key a s) := by
  rw [ackKeyAction, h]

theorem ackKeyAction_of_pending {a : SlotIndex} {l : List SlotIndex} (h : s.pres.active = none)
    (hpending : s.pres.pendingList = a :: l) : ackKeyAction s = settle (acknowledge .key a s) := by
  rw [ackKeyAction, h, hpending]

theorem silenceKeyAction_of_active {a : SlotIndex} (h : s.pres.active = some a) :
    silenceKeyAction s = if stateAt s a = some .sounding then settle (becomeShown a (stopCycle s)) else s := by
  rw [silenceKeyAction, h]

/-- R128, R131: with nothing to act on, a key stops a preview. -/
theorem keyAction_of_idle {key : KeyLine} (h : s.pres.active = none) (hpending : key = .ack → s.pres.pendingList = []) :
    keyAction key s = stopPreview s := by
  cases key with
  | ack =>
    show ackKeyAction s = _
    rw [ackKeyAction, h, hpending rfl]
  | silence =>
    show silenceKeyAction s = _
    rw [silenceKeyAction, h]

theorem acknowledgeAll_eq_foldl (source : AckSource) (l : List SlotIndex) (s : State) :
    acknowledgeAll source l s = l.foldl (fun v i => acknowledge source i v) s := by
  induction l generalizing s with
  | nil => rfl
  | cons i l ih => exact ih _

/-- R130: the chord's presses are consumed, and its timer stops. -/
def chordConsumed (s : State) : State :=
  s.updKeys fun k =>
    { ack := { k.ack with consumed := true }, silence := { k.silence with consumed := true }, chord := none }

theorem fireChord_of_chord {c : ChordTimer} (h : s.keys.chord = some c) :
    fireChord s = if c.chordTime * 1000 ≤ c.elapsed then chordAction (chordConsumed s) else s := by
  rw [fireChord, h]
  rfl

theorem stopPreview_presented (s : State) : presentedSlots (stopPreview s) = presentedSlots s := by
  unfold stopPreview
  split <;> rfl

theorem chordAction_of_empty (h : presentedSlots s = []) : chordAction s = stopPreview s :=
  if_pos (by rw [stopPreview_presented, h]; rfl)

theorem chordAction_of_presented (h : presentedSlots s ≠ []) :
    chordAction s = settle (acknowledgeAll .chord (presentedSlots s) (stopPreview s)) := by
  have hne : ¬ (presentedSlots (stopPreview s)).isEmpty = true := by
    rw [stopPreview_presented, List.isEmpty_iff]
    exact h
  refine (if_neg hne).trans ?_
  rw [stopPreview_presented]

end

/-- Settles O55: the release of each key (`recogniseRelease_of_due` and the actions), and the chord
(`fireChord_of_chord`, `chordAction_of_empty`, `chordAction_of_presented`). -/
theorem keyReleasesAndTheChord : Obligations.KeyReleasesAndTheChord := by
  refine ⟨?_, ?_⟩
  · intro s key hrun f released t quieted hpressed hone hcheck
    have hf : s.keys.filter key = f := by cases key <;> rfl
    have ht : Machine.released key s = t := by cases key <;> rfl
    have hrelease : exec (.releaseRecognition key) s = .next (if f.consumed then t else keyAction key t) := by
      rw [exec_of_running hrun, ← hf, ← ht]
      rw [← hf] at hpressed hone hcheck
      exact congrArg _ (recogniseRelease_of_due hpressed hone hcheck)
    rw [hrelease]
    refine ⟨fun hconsumed => by rw [if_pos hconsumed], fun hfresh => ?_⟩
    rw [if_neg (Bool.eq_false_iff.1 hfresh)]
    refine ⟨fun a hactive => ⟨fun hkey => ?_, fun x hkey hx hst => ?_, fun hkey hst => ?_⟩,
      fun a l hkey hactive hpending => ?_, fun hactive hpending => ⟨fun hpreview => ?_, fun hpreview => ?_⟩⟩
    · subst hkey
      exact congrArg _ (ackKeyAction_of_active hactive)
    · subst hkey
      have hsounding : stateAt t a = some .sounding := (stateAt_of_slot hx).trans (congrArg some hst)
      refine congrArg _ ((silenceKeyAction_of_active (s := t) hactive).trans ((if_pos hsounding).trans ?_))
      rw [becomeShown_of_slot (s := stopCycle t) hx]
      rfl
    · subst hkey
      have hnot : ¬ stateAt t a = some .sounding := by
        rw [show stateAt t a = stateAt s a from rfl, hst]
        exact nofun
      exact congrArg _ ((silenceKeyAction_of_active (s := t) hactive).trans (if_neg hnot))
    · subst hkey
      exact congrArg _ (ackKeyAction_of_pending hactive hpending)
    · rw [keyAction_of_idle (s := t) hactive hpending, stopPreview_of_some (s := t) hpreview]
      rfl
    · rw [keyAction_of_idle (s := t) hactive hpending, stopPreview_of_none (s := t) hpreview]
  · intro s c hrun hc t u l
    have ht : chordConsumed s = t := rfl
    have hu : stopPreview t = u := by
      by_cases hpreview : s.pres.preview = none
      · exact (stopPreview_of_none (s := t) hpreview).trans (if_pos hpreview).symm
      · exact (stopPreview_of_some (s := t) hpreview).trans (if_neg hpreview).symm
    rw [exec_of_running hrun, show work .chordFires s = fireChord s from rfl, fireChord_of_chord hc, ht]
    refine ⟨fun hearly => by rw [if_neg (not_le.2 hearly)], fun hreached => ?_⟩
    rw [if_pos hreached]
    refine ⟨fun hempty => ?_, fun hne => ?_⟩
    · rw [chordAction_of_empty (s := t) hempty, hu]
    · rw [chordAction_of_presented (s := t) hne, hu, acknowledgeAll_eq_foldl]
      rfl

end Sys2Proof.Machine

/-! ## The modem's frames and the receipt scheduler (R10 to R13, R163 to R172): O29 to O33 -/

namespace Sys2Proof.Machine

set_option Elab.async false

/-! ### The first of a list -/

section
variable {α : Type} {p : α → Bool} {pre post : List α} {r : α}

theorem find_of_first (hr : p r = true) (hpre : ∀ x ∈ pre, p x = false) : (pre ++ r :: post).find? p = some r := by
  rw [List.find?_append, List.find?_eq_none.2 fun x hx => Bool.eq_false_iff.1 (hpre x hx), List.find?_cons_of_pos hr]
  rfl

theorem eraseP_of_first (hr : p r = true) (hpre : ∀ x ∈ pre, p x = false) :
    (pre ++ r :: post).eraseP p = pre ++ post := by
  rw [List.eraseP_append_right _ fun x hx => Bool.eq_false_iff.1 (hpre x hx), List.eraseP_cons_of_pos hr]

end

/-! ### CHANNEL STATE and the start of a handoff: O29 -/

section
variable {s : State} {pre post : List Receipt} {r : Receipt}

/-- R167: the entry is WAITING and due. -/
theorem isDue_iff {uptime : Nat} : r.isDue uptime = true ↔ r.inFlight = false ∧ r.due ≤ uptime := by
  simp [Receipt.isDue]

theorem markFirstDue_of_first {uptime : Nat} (hr : r.isDue uptime = true) (hpre : ∀ x ∈ pre, x.isDue uptime = false) :
    markFirstDue uptime (pre ++ r :: post) = pre ++ { r with inFlight := true } :: post := by
  induction pre with
  | nil => exact if_pos hr
  | cons x pre ih =>
    have hx : ¬ x.isDue uptime = true := Bool.eq_false_iff.1 (hpre x List.mem_cons_self)
    exact (if_neg hx).trans (congrArg (x :: ·) (ih fun y hy => hpre y (List.mem_cons_of_mem _ hy)))

/-- R167: the first due entry is handed off. -/
theorem beginHandoff_of_first (hq : s.receipts.queue = pre ++ r :: post) (huplink : s.modem.uplink = true)
    (hfree : ∀ x ∈ s.receipts.queue, x.inFlight = false) (hdue : r.due ≤ s.time.uptime)
    (hpre : ∀ x ∈ pre, s.time.uptime < x.due) :
    beginHandoff s = { s with
      modem := { s.modem with
        uplinkStaged := some ⟨r.key, r.revision, r.kind, r.tag, r.cell, r.ackDelay, s.receipts.nextFrame⟩ }
      receipts := { s.receipts with
        queue := pre ++ { r with inFlight := true } :: post
        wait := none
        frame := some s.receipts.nextFrame
        nextFrame := s.receipts.nextFrame + 1 } } := by
  have hr : r.isDue s.time.uptime = true := isDue_iff.2 ⟨hfree r (by simp [hq]), hdue⟩
  have hnot : ∀ x ∈ pre, x.isDue s.time.uptime = false := fun x hx =>
    Bool.eq_false_iff.2 fun h => not_le.2 (hpre x hx) (isDue_iff.1 h).2
  have hnone : s.receipts.queue.any (·.inFlight) = false :=
    List.any_eq_false.2 fun x hx => Bool.eq_false_iff.1 (hfree x hx)
  rw [beginHandoff, if_pos (by rw [huplink, hnone]; rfl), hq, find_of_first hr hnot]
  simp only [State.updModem, State.updReceipts, hq, markFirstDue_of_first hr hnot]

/-- R167, R171: with no uplink, an entry in flight or none due, no handoff begins. -/
theorem beginHandoff_of_none (h : s.modem.uplink = false ∨ (∃ x ∈ s.receipts.queue, x.inFlight = true) ∨
    ∀ x ∈ s.receipts.queue, s.time.uptime < x.due) : beginHandoff s = s := by
  unfold beginHandoff
  split
  case isFalse => rfl
  case isTrue hbegins =>
    simp only [Bool.and_eq_true, Bool.not_eq_true'] at hbegins
    obtain ⟨huplink, hnone⟩ := hbegins
    have hnodue : s.receipts.queue.find? (Receipt.isDue s.time.uptime) = none := by
      rcases h with h | ⟨x, hx, hflight⟩ | h
      · exact nomatch huplink.symm.trans h
      · exact absurd hflight (List.any_eq_false.1 hnone x hx)
      · exact List.find?_eq_none.2 fun x hx hdue => not_le.2 (h x hx) (isDue_iff.1 hdue).2
    rw [hnodue]

theorem staged_iff (staged was now : Bool) :
    (staged || (!was && now)) = if was = false ∧ now = true then true else staged := by
  cases staged <;> cases was <;> cases now <;> rfl

end

/-- Settles O29: the frame is taken (`takeFrame_of_frameReady`), and the handoff begins or not
(`beginHandoff_of_first`, `beginHandoff_of_none`). -/
theorem channelStateAndHandoff : Obligations.ChannelStateAndHandoff := by
  refine ⟨?_, fun s hrun => ?_⟩
  · intro f rest s h broadcast
    have htaken : exec .channelState s = .next (takeChannelState f.payload (withFifo rest s)) :=
      congrArg Host.Outcome.next (takeFrame_of_frameReady h takeChannelState)
    have hstaged := staged_iff s.modem.listenStaged s.modem.broadcast broadcast
    rw [htaken, ← hstaged]
    rfl
  · rw [exec_of_running hrun]
    exact ⟨rfl, fun pre r post hq huplink hfree hdue hpre =>
      congrArg Host.Outcome.next (beginHandoff_of_first hq huplink hfree hdue hpre),
      fun h => congrArg Host.Outcome.next (beginHandoff_of_none h)⟩

/-! ### The transmitter: O30 -/

/-- Settles O30: what the transmitter takes, and what its two reports do. -/
theorem outboundFramesAreSent : Obligations.OutboundFramesAreSent := by
  refine ⟨fun s hrun => ?_, ?_⟩
  · rw [exec_of_running hrun, exec_of_running hrun, show work .outboundTransmit s = transmit s from rfl,
      show work .listenSetSent s = listenSent s from rfl]
    refine ⟨fun hidle hstaged => ?_, fun r hidle hnone hstaged => ?_, fun hbusy => ?_, fun w hw => ?_⟩
    · rw [transmit, hidle]
      simp only [hstaged, if_true]
      rfl
    · rw [transmit, hidle]
      refine congrArg _ ((if_neg (Bool.eq_false_iff.1 hnone)).trans ?_)
      rw [hstaged] <;> rfl
    · obtain ⟨frame, hframe⟩ := Option.ne_none_iff_exists'.1 hbusy
      rw [transmit, hframe]
    · rw [listenSent, hw]
      rfl
  · intro s r hrun hsending t acts
    have hsent : exec .uplinkRequestSent s = .next (reportSent r.frame t) := by
      rw [exec_of_running hrun, show work .uplinkRequestSent s = requestSent s from rfl, requestSent, hsending]
      rfl
    have hacts : (t.receipts.frame = some r.frame ∧ t.receipts.wait = none ∧
        (t.receipts.queue.any (·.inFlight)) = true) ↔ acts := by
      simp [acts, t]
    have hreport : reportSent r.frame t = if acts then
        { t with receipts := { s.receipts with wait := some (min (s.time.uptime + 20) maxSeconds) } } else t :=
      if_congr hacts rfl rfl
    rw [hsent, hreport]
    exact ⟨fun h => by rw [if_pos h], fun h => by rw [if_neg h]⟩

/-! ### A failed handoff: O32 -/

section
variable {s : State} {pre post : List Receipt} {r : Receipt}

theorem endHandoff_of_first (hq : s.receipts.queue = pre ++ r :: post) (hr : r.inFlight = true)
    (hpre : ∀ x ∈ pre, x.inFlight = false) :
    endHandoff s = { s with receipts := { s.receipts with queue := pre ++ post, wait := none, frame := none } } := by
  rw [endHandoff, State.updReceipts, hq, eraseP_of_first hr hpre]

/-- R170: at the fourth failure the entry is dropped. -/
theorem failHandoff_of_last (h : 3 ≤ r.attempts) :
    failHandoff r s =
      postDevice .receiptDropped (.dropped r.key r.revision r.kind .attempts) (endHandoff s) :=
  if_pos (Nat.succ_le_succ h)

theorem expired_iff {t : Timebase} : r.expired t = true ↔ r.expiryReached = true ∨ reached t r.expiry = true :=
  Bool.or_eq_true_iff ..

/-- R170, R172: with the expiry reached it is dropped as stale. -/
theorem failHandoff_of_stale (h : r.attempts < 3) (hstale : r.expired s.time = true) :
    failHandoff r s = postDevice .receiptDropped (.dropped r.key r.revision r.kind .stale) (endHandoff s) := by
  have hearly : ¬ Config.handoffAttempts ≤ r.attempts + 1 := not_le.2 (Nat.succ_lt_succ h)
  exact (if_neg hearly).trans (if_pos hstale)

/-- R170: it waits again. -/
theorem failHandoff_of_retry (h : r.attempts < 3) (hfresh : r.expired s.time = false) :
    failHandoff r s = (endHandoff s).updReceipts fun q => { q with
      queue := insertReceipt { r with
        attempts := r.attempts + 1
        inFlight := false
        due := addSeconds s.time.uptime (retryDelay (r.attempts + 1)) } q.queue } := by
  have hearly : ¬ Config.handoffAttempts ≤ r.attempts + 1 := not_le.2 (Nat.succ_lt_succ h)
  exact (if_neg hearly).trans (if_neg (Bool.eq_false_iff.1 hfresh))

theorem waitExpiry_of_first {d : Nat} (hq : s.receipts.queue = pre ++ r :: post) (hr : r.inFlight = true)
    (hpre : ∀ x ∈ pre, x.inFlight = false) (hd : s.receipts.wait = some d) :
    waitExpiry s = if d ≤ s.time.uptime then beginHandoff (failHandoff r s) else s := by
  rw [waitExpiry, hd, hq, find_of_first hr hpre]

end

/-- Settles O32: the failure by the attempts and the expiry (`failHandoff_of_last`, `failHandoff_of_stale`,
`failHandoff_of_retry`), and the result wait (`waitExpiry_of_first`). -/
theorem handoffFailureRetriesOrDrops : Obligations.HandoffFailureRetriesOrDrops := by
  refine ⟨?_, fun s pre post r d hrun hq hr hpre hd => ?_⟩
  · intro s pre post r hq hr hpre t dropped waiting retried
    have hend : endHandoff s = t := endHandoff_of_first hq hr hpre
    have hretry : r.expiryReached = false → reached s.time r.expiry = false → r.attempts < 3 →
        failHandoff r s = retried (retryDelay (r.attempts + 1)) := fun hkept hnow hlt => by
      have hfresh : r.expired s.time = false := by rw [Receipt.expired, hkept, hnow]; rfl
      rw [failHandoff_of_retry hlt hfresh, hend]
      rfl
    refine ⟨fun hlast => ?_, fun hlt hstale => ?_, fun hkept hnow => ⟨fun hn => ?_, fun hn => ?_, fun hn => ?_⟩⟩
    · rw [failHandoff_of_last hlast, hend]
      rfl
    · rw [failHandoff_of_stale hlt (expired_iff.2 hstale), hend]
      rfl
    · rw [hretry hkept hnow (by omega), hn]
      rfl
    · rw [hretry hkept hnow (by omega), hn]
      rfl
    · rw [hretry hkept hnow (by omega), hn]
      rfl
  · rw [exec_of_running hrun, show work .resultWaitExpiry s = waitExpiry s from rfl, waitExpiry_of_first hq hr hpre hd]
    exact ⟨fun hreached => by rw [if_pos hreached], fun hearly => by rw [if_neg (not_le.2 hearly)]⟩

/-! ### UPLINK RESULT: O31 -/

/-- R11: the octets that name no receipt kind or no result. -/
theorem uplinkAnswerOf_malformed {p : List Octet} (h : ¬ ((octetAt p 4 = 0 ∨ octetAt p 4 = 1) ∧
    (octetAt p 5 = 0 ∨ octetAt p 5 = 1 ∨ octetAt p 5 = 2))) : uplinkAnswerOf p = none := by
  have hnone : receiptKindOf (octetAt p 4) = none ∨ resultCodeOf (octetAt p 5) = none := by
    by_cases hkind : octetAt p 4 = 0 ∨ octetAt p 4 = 1
    · have hresult := not_or.1 fun hresult => h ⟨hkind, hresult⟩
      obtain ⟨hzero, hrest⟩ := hresult
      obtain ⟨hone, htwo⟩ := not_or.1 hrest
      exact .inr (by rw [resultCodeOf, if_neg hzero, if_neg hone, if_neg htwo])
    · obtain ⟨hzero, hone⟩ := not_or.1 hkind
      exact .inl (by rw [receiptKindOf, if_neg hzero, if_neg hone])
  unfold uplinkAnswerOf
  split
  case h_1 kind result hkind hresult => rcases hnone with h | h <;> simp [h] at hkind hresult
  case h_2 => rfl

/-- R11: a well-formed answer. -/
theorem uplinkAnswerOf_formed {p : List Octet} (hkind : octetAt p 4 = 0 ∨ octetAt p 4 = 1)
    (hresult : octetAt p 5 = 0 ∨ octetAt p 5 = 1 ∨ octetAt p 5 = 2) :
    ∃ result, uplinkAnswerOf p = some ⟨keyAt p 0, (octetAt p 3).extractLsb' 0 4,
      if octetAt p 4 = 0 then .presented else .acknowledged, result⟩ ∧ (result = .sent ↔ octetAt p 5 = 0) := by
  have hk : receiptKindOf (octetAt p 4) = some (if octetAt p 4 = 0 then .presented else .acknowledged) := by
    rcases hkind with h | h <;> rw [h] <;> rfl
  have hr : ∃ result, resultCodeOf (octetAt p 5) = some result ∧ (result = .sent ↔ octetAt p 5 = 0) := by
    rcases hresult with h | h | h <;> rw [h]
    · exact ⟨.sent, rfl, by decide⟩
    · exact ⟨.refused, rfl, by decide⟩
    · exact ⟨.noService, rfl, by decide⟩
  obtain ⟨result, hr, hsent⟩ := hr
  exact ⟨result, by rw [uplinkAnswerOf, hk, hr], hsent⟩

section
variable {s : State} {a : UplinkAnswer} {pre post : List Receipt} {r : Receipt}

/-- R169: an answer that matches no entry in flight is ignored. -/
theorem takeAnswer_of_none (h : ∀ r ∈ s.receipts.queue, r.inFlight = true →
    ¬ (r.key = a.key ∧ r.revision = a.revision ∧ r.kind = a.kind)) : takeAnswer a s = s := by
  unfold takeAnswer
  split
  case h_1 => rfl
  case h_2 r hr => exact if_neg (h r (List.mem_of_find?_eq_some hr) (List.find?_some hr))

/-- R169, R170: an answer to the entry in flight. -/
theorem takeAnswer_of_first (hq : s.receipts.queue = pre ++ r :: post) (hr : r.inFlight = true)
    (hpre : ∀ x ∈ pre, x.inFlight = false) (hmatch : r.key = a.key ∧ r.revision = a.revision ∧ r.kind = a.kind) :
    (a.result = .sent → takeAnswer a s =
      beginHandoff (postDevice .receiptSent (.sent r.key r.revision r.kind r.attempts) (endHandoff s))) ∧
    (a.result ≠ .sent → takeAnswer a s = beginHandoff (failHandoff r s)) := by
  rw [takeAnswer, hq, find_of_first hr hpre]
  simp only [hmatch, and_self, if_true]
  cases a.result with
  | sent => exact ⟨fun _ => rfl, fun h => absurd rfl h⟩
  | refused | noService => exact ⟨nofun, fun _ => rfl⟩

end

/-- Settles O31: the octets (`uplinkAnswerOf_malformed`, `uplinkAnswerOf_formed`), and what the scheduler does with the
answer (`takeAnswer_of_none`, `takeAnswer_of_first`). -/
theorem uplinkResultEndsTheHandoff : Obligations.UplinkResultEndsTheHandoff := by
  intro f rest s h p t formed matching
  have htaken : exec .uplinkResult s = .next (takeUplinkResult p t) :=
    congrArg Host.Outcome.next (takeFrame_of_frameReady h takeUplinkResult)
  rw [htaken, takeUplinkResult]
  refine ⟨fun hbad => ?_, fun hformed hnone => ?_, fun pre r post hformed hq hr hpre hmatch => ?_⟩
  · rw [uplinkAnswerOf_malformed hbad]
    rfl
  · obtain ⟨result, hanswer, _⟩ := uplinkAnswerOf_formed hformed.1 hformed.2
    rw [hanswer]
    exact congrArg _ (takeAnswer_of_none hnone)
  · obtain ⟨result, hanswer, hsent⟩ := uplinkAnswerOf_formed hformed.1 hformed.2
    have hend : endHandoff t = _ := endHandoff_of_first (s := t) hq hr hpre
    rw [hanswer]
    obtain ⟨hok, hfailed⟩ := takeAnswer_of_first (s := t) (a := ⟨keyAt p 0, (octetAt p 3).extractLsb' 0 4,
      if octetAt p 4 = 0 then .presented else .acknowledged, result⟩) hq hr hpre hmatch
    refine ⟨fun hcode => congrArg _ ((hok (hsent.2 hcode)).trans ?_), fun hcode => congrArg _ (hfailed (mt hsent.1 hcode))⟩
    rw [hend]
    rfl

/-! ### Requests and stale receipts: O33 -/

section
variable {s : State} {x : Slot} {lead : Lead} {e : Expiry}

theorem requestReceipt_of_lead (hlead : x.lead = some lead) (he : x.expiry = some e) (kind : ReceiptKind) (delay : Nat) :
    requestReceipt x kind delay s =
      if s.receipts.queue.length < 8 then
        s.updReceipts fun q => { q with
          queue := insertReceipt ⟨x.key, x.revision, kind, s.settings.tag, x.leadCell.getD 0, delay, e, false,
            addSeconds s.time.uptime (dispersalDelay s.settings.tag x.key x.revision lead.dispersal), 0, false,
            q.nextOrder⟩ q.queue
          nextOrder := q.nextOrder + 1 }
      else postDevice .receiptDropped (.dropped x.key x.revision kind .full) s := by
  rw [requestReceipt, hlead, he]
  rfl

theorem postStale_eq (l : List Receipt) (s : State) :
    postStale l s = s.updEvents fun events => l.foldl
      (fun l r => mergeDevicePosting .receiptDropped (.dropped r.key r.revision r.kind .stale) l) events := by
  induction l generalizing s with
  | nil => rfl
  | cons r l ih => exact ih _

end

/-- Settles O33: a request is admitted or dropped (`requestReceipt_of_lead`), and the stale entries leave
(`postStale_eq`). -/
theorem receiptsAreAdmittedAndDropped : Obligations.ReceiptsAreAdmittedAndDropped := by
  refine ⟨fun s x lead e cell kind delay hlead he hcell => ?_, fun s hrun => ?_⟩
  · rw [requestReceipt_of_lead hlead he, hcell]
    exact ⟨fun hroom => (if_pos hroom).trans rfl, fun hfull => (if_neg (not_lt.2 hfull)).trans rfl⟩
  · intro stale
    rw [exec_of_running hrun, show work .receiptStale s = dropStale s from rfl, dropStale, postStale_eq]
    rfl

end Sys2Proof.Machine

/-! ## Host requests: tests, settings, RESTART, ACK and RELEASE (R129, R140, R152, R177 to R180, R183): O35, O38, O39,
O42, O45 -/

namespace Sys2Proof.Machine

set_option Elab.async false

/-! ### Requests turned away: O35 -/

section
variable {kind : Octet} {f : Frame} {rest : List Frame} {s : State}

/-- R177: a request that is ready is carried out and answered. -/
theorem takeRequest_of_ready (h : RequestReady kind f rest s) (carry : List Octet → State → State × List Octet) :
    takeRequest kind carry s =
      respond f (carry f.payload (withStaging rest s)).2 (carry f.payload (withStaging rest s)).1 := by
  obtain ⟨_, hfree, holdest, hkind⟩ := h
  rw [takeRequest, hfree, holdest]
  exact if_pos hkind

theorem work_of_whenRunning (h : RequestReady kind f rest s) (carry : List Octet → State → State × List Octet) :
    whenRunning (takeRequest kind carry) s =
      respond f (carry f.payload (withStaging rest s)).2 (carry f.payload (withStaging rest s)).1 :=
  (if_neg (Bool.eq_false_iff.1 h.running)).trans (takeRequest_of_ready h carry)

/-- R177 test 2: a reply that leaves the state as it is. -/
theorem whenReady_of_loading {fits : List Octet → Bool} {tail : List Octet}
    {carry : List Octet → State → State × List Octet} {p : List Octet} (h : s.store.state = .loading) :
    whenReady fits tail carry p s = (s, codeBusy :: tail) := if_pos h

theorem whenReady_of_unfit {fits : List Octet → Bool} {tail : List Octet}
    {carry : List Octet → State → State × List Octet} {p : List Octet} (h : s.store.state ≠ .loading)
    (hfits : fits p = false) : whenReady fits tail carry p s = (s, codeBadLength :: tail) :=
  (if_neg h).trans (if_pos (by rw [hfits]; rfl))

theorem lengthIs_iff {n : Nat} {p : List Octet} : lengthIs n p = true ↔ p.length = n := beq_iff_eq

theorem zoneListFits_iff {p : List Octet} : zoneListFits p = true ↔ ∃ k, k ≤ 4 ∧ p.length = 1 + 3 * k := by
  refine ⟨fun h => ?_, fun ⟨k, hk, hlength⟩ => zoneListFits_of_length hk hlength⟩
  simp only [zoneListFits, Bool.and_eq_true, beq_iff_eq, decide_eq_true_eq] at h
  exact ⟨p.length / 3, by omega, by omega⟩

theorem cadenceFits_iff {p : List Octet} : cadenceFits p = true ↔ p.length = 7 + 3 * natAt p 2 := by
  simp only [cadenceFits, Bool.and_eq_true, beq_iff_eq, decide_eq_true_eq]
  omega

/-- R177: a request other than STATUS is its test of the store, its test of the length, and what it carries out. -/
theorem exec_request {i : Instr} (h : (kind, i) ∈ requestKinds) (hi : i ≠ .status) (s : State) :
    ∃ fits carry, (∀ p, fits p = true ↔ fitsRequest i p) ∧
      exec i s = .next (whenRunning (takeRequest kind (whenReady fits (if i = .ack then [0] else []) carry)) s) := by
  simp only [requestKinds, List.mem_cons, Prod.mk.injEq, List.not_mem_nil, or_false] at h
  rcases h with ⟨rfl, rfl⟩ | ⟨rfl, rfl⟩ | ⟨rfl, rfl⟩ | ⟨rfl, rfl⟩ | ⟨rfl, rfl⟩ | ⟨rfl, rfl⟩ | ⟨rfl, rfl⟩ | ⟨rfl, rfl⟩ |
    ⟨rfl, rfl⟩ | ⟨rfl, rfl⟩ | ⟨rfl, rfl⟩ | ⟨rfl, rfl⟩ | ⟨rfl, rfl⟩ | ⟨rfl, rfl⟩
  · exact absurd rfl hi
  · exact ⟨_, _, fun _ => lengthIs_iff, rfl⟩
  · exact ⟨_, _, fun _ => zoneListFits_iff, rfl⟩
  · exact ⟨_, _, fun _ => lengthIs_iff, rfl⟩
  · exact ⟨_, _, fun _ => lengthIs_iff, rfl⟩
  · exact ⟨_, _, fun _ => cadenceFits_iff, rfl⟩
  · exact ⟨_, _, fun _ => lengthIs_iff, rfl⟩
  · exact ⟨_, _, fun _ => lengthIs_iff, rfl⟩
  · exact ⟨_, _, fun _ => lengthIs_iff, rfl⟩
  · exact ⟨_, _, fun _ => lengthIs_iff, rfl⟩
  · exact ⟨_, _, fun _ => lengthIs_iff, rfl⟩
  · exact ⟨_, _, fun _ => lengthIs_iff, rfl⟩
  · exact ⟨_, _, fun _ => lengthIs_iff, rfl⟩
  · exact ⟨_, _, fun _ => lengthIs_iff, rfl⟩

theorem exec_status_of_ready (h : RequestReady 0x01 f rest s) :
    exec .status s = .next (answered f rest
      (if f.payload.length = 1 then statusBody (withStaging rest s) else [codeBadLength]) s) := by
  have hexec : exec .status s = _ := congrArg Host.Outcome.next (work_of_whenRunning h carryStatus)
  rw [hexec]
  by_cases hlength : f.payload.length = 1
  · rw [carryStatus, lengthIs_iff.2 hlength, if_pos hlength]
    rfl
  · rw [carryStatus, Bool.eq_false_iff.2 (mt lengthIs_iff.1 hlength), if_neg hlength]
    rfl

theorem namesRequest_eq_false (h : kind = 0 ∨ 0x0E < kind.toNat) : namesRequest kind = false := by
  rcases h with rfl | h
  · rfl
  · simp only [namesRequest, Bool.and_eq_false_iff, decide_eq_false_iff_not]
    omega

end

/-- Settles O35: the two tests of every request (`exec_request`, `whenReady_of_loading`, `whenReady_of_unfit`), unknown
kinds (`namesRequest_eq_false`), and the sent reply. -/
theorem requestsAreTurnedAwayOrEnded : Obligations.RequestsAreTurnedAwayOrEnded := by
  refine ⟨?_, fun s hrun => ⟨fun f rest hfree holdest hkind => ?_, ?_⟩⟩
  · intro kind i f rest s hmem h tail
    by_cases hi : i = .status
    · subst hi
      have hkind : kind = 0x01 := by simpa [requestKinds] using hmem
      subst hkind
      refine ⟨fun _ hne => absurd rfl hne, fun _ hunfit => ?_⟩
      rw [exec_status_of_ready h]
      exact congrArg (fun body => Host.Outcome.next (answered f rest body s)) (if_neg hunfit)
    · obtain ⟨fits, carry, hfits, hexec⟩ := exec_request hmem hi s
      rw [hexec, work_of_whenRunning h]
      refine ⟨fun hloading _ => ?_, fun hloaded hunfit => ?_⟩
      · rw [whenReady_of_loading (s := withStaging rest s) hloading]
        rfl
      · rw [whenReady_of_unfit (s := withStaging rest s) (hloaded.resolve_right hi)
          (Bool.eq_false_iff.2 (mt (hfits f.payload).1 hunfit))]
        rfl
  · rw [exec_of_running hrun, show work .unknownRequest s = takeUnknown s from rfl, takeUnknown, hfree, holdest]
    simp only [namesRequest_eq_false hkind]
    rfl
  · rw [exec_of_running hrun]
    rfl

/-! ### A request of a length that fits: O45, O42 -/

section
variable {f : Frame} {rest : List Frame} {s : State}

/-- R183: what RESTART clears. -/
theorem exec_restart_of_ready (h : RequestReady 0x0E f rest s) (hloaded : s.store.state ≠ .loading)
    (hlength : f.payload.length = 1) :
    exec .restart s = .next (respond f [codeOk] (clearAll (withStaging rest s))) :=
  congrArg Host.Outcome.next (takeRequest_of_requestReady h hloaded (lengthIs_of_length hlength) []
    fun _ s => (clearAll s, [codeOk]))

/-- Settles O45: the request is carried out (`exec_restart_of_ready`). -/
theorem restartClears : Obligations.RestartClears := by
  intro f rest s h hloaded hlength
  rw [exec_restart_of_ready h hloaded hlength]
  rfl

theorem exec_ack_of_ready (h : RequestReady 0x09 f rest s) (hloaded : s.store.state ≠ .loading)
    (hlength : f.payload.length = 2) :
    exec .ack s = .next (respond f (carryAck f.payload (withStaging rest s)).2
      (carryAck f.payload (withStaging rest s)).1) :=
  congrArg Host.Outcome.next (takeRequest_of_requestReady h hloaded (lengthIs_of_length hlength) [0] carryAck)

theorem slotIndexOf_val (i : SlotIndex) : slotIndexOf i.val = some i := dif_pos i.isLt

theorem slotIndexOf_of_le {n : Nat} (h : 16 ≤ n) : slotIndexOf n = none := dif_neg (not_lt.2 h)

theorem carryAck_of_slot {p : List Octet} {i : SlotIndex} (h : natAt p 1 = i.val) : carryAck p s = ackSlot i s := by
  have hlt : i.val < 16 := i.isLt
  rw [carryAck, h, if_neg (by omega), if_neg (by omega), slotIndexOf_val]

theorem carryAck_of_unknown {p : List Octet} (h : 16 ≤ natAt p 1) (hactive : natAt p 1 ≠ 0xFE) (hall : natAt p 1 ≠ 0xFF) :
    carryAck p s = (s, [codeNoSuchSlot, 0]) := by
  rw [carryAck, if_neg hactive, if_neg hall, slotIndexOf_of_le h]

theorem carryAck_of_active {p : List Octet} (h : natAt p 1 = 0xFE) : carryAck p s = ackMany s.pres.active.toList s :=
  if_pos h

theorem carryAck_of_all {p : List Octet} (h : natAt p 1 = 0xFF) : carryAck p s = ackMany (presentedSlots s) s :=
  (if_neg (by rw [h]; decide)).trans (if_pos h)

/-- R129: a slot named, by its state. -/
theorem ackSlot_of_state {i : SlotIndex} {st : SlotState} (h : stateAt s i = some st) :
    ackSlot i s = if st.acknowledgeable then (settle (acknowledge .link i s), [codeOk, 1])
      else (s, [codeWrongState, 0]) := by
  obtain ⟨x, hx, rfl⟩ := slot_of_state h
  rw [ackSlot, hx]

theorem ackSlot_of_free {i : SlotIndex} (h : stateAt s i = none) : ackSlot i s = (s, [codeNoSuchSlot, 0]) := by
  have hfree : slotOf s i = none := Option.map_eq_none_iff.1 h
  rw [ackSlot, hfree]

theorem ackMany_nil : ackMany [] s = (s, [codeOk, 0]) := rfl

theorem ackMany_of_ne_nil {l : List SlotIndex} (h : l ≠ []) :
    ackMany l s = (settle (l.foldl (fun u i => acknowledge .link i u) s), [codeOk, octet l.length]) := by
  rw [← acknowledgeAll_eq_foldl]
  exact if_neg (mt List.isEmpty_iff.1 h)

end

/-- Settles O42: the target (`carryAck_of_slot` and its siblings), the slot's state (`ackSlot_of_state`), and the slots
acknowledged in one step (`ackMany_of_ne_nil`). -/
theorem ackRequestAcknowledges : Obligations.AckRequestAcknowledges := by
  intro f rest s h hloaded hlength target t
  rw [exec_ack_of_ready h hloaded hlength]
  refine ⟨fun i hi => ?_, fun hle hactive hall => ?_, fun htarget => ?_, fun htarget => ?_⟩
  · rw [carryAck_of_slot hi]
    refine ⟨fun hfree => ?_, fun st hst hack => ?_, fun st hst hnot => ?_⟩
    · rw [ackSlot_of_free (s := withStaging rest s) hfree]
      rfl
    · have hyes : st.acknowledgeable = true := by rcases hack with rfl | rfl | rfl <;> rfl
      rw [ackSlot_of_state (s := withStaging rest s) hst, if_pos hyes]
    · have hno : st.acknowledgeable = false := by rcases hnot with rfl | rfl | rfl | rfl <;> rfl
      rw [ackSlot_of_state (s := withStaging rest s) hst, if_neg (Bool.eq_false_iff.1 hno)]
      rfl
  · rw [carryAck_of_unknown hle hactive hall]
    rfl
  · rw [carryAck_of_active htarget]
    refine ⟨fun a ha => ?_, fun hnone => ?_⟩
    · rw [show (withStaging rest s).pres.active.toList = [a] from congrArg Option.toList ha]
      rfl
    · rw [show (withStaging rest s).pres.active.toList = [] from congrArg Option.toList hnone]
      rfl
  · intro l
    have hl : presentedSlots (withStaging rest s) = l := rfl
    rw [carryAck_of_all htarget, hl]
    refine ⟨fun hne => ?_, fun hempty => ?_⟩
    · rw [ackMany_of_ne_nil hne]
    · rw [hempty]
      rfl

/-! ### SET-PROFILE and SET-TAG: O38 -/

section
variable {f : Frame} {rest : List Frame} {s : State}

/-- R179: what a new profile changes with it. -/
theorem replaceProfile_eq (q : Profile) (s : State) :
    replaceProfile q s = { s with
      settings := { s.settings with profile := q }
      modem := { s.modem with
        listenStaged := s.modem.listenStaged || decide (wantedSet s.settings.profile ≠ wantedSet q) }
      history := if q.retention < s.settings.profile.retention then
        s.history.filter fun h => !retentionReached s.time q.retention h else s.history
      keys := if s.settings.profile.checkTime = q.checkTime then s.keys else restartFilters s.keys } := by
  have hstage : ∀ t : State, (if wantedSet s.settings.profile = wantedSet q then t
      else t.updModem fun m => { m with listenStaged := true }) = t.updModem fun m => { m with
        listenStaged := m.listenStaged || decide (wantedSet s.settings.profile ≠ wantedSet q) } := fun t => by
    by_cases hsame : wantedSet s.settings.profile = wantedSet q
    · rw [if_pos hsame, decide_eq_false (not_not.2 hsame)]
      simp only [Bool.or_false]
      rfl
    · rw [if_neg hsame, decide_eq_true hsame]
      simp only [Bool.or_true]
  have hprune : ∀ t : State, (if q.retention < s.settings.profile.retention then pruneHistory t else t) =
      t.updHistory fun l => if q.retention < s.settings.profile.retention then
        l.filter fun h => !retentionReached t.time t.settings.profile.retention h else l := fun t => by
    split <;> rfl
  have hkeys : ∀ t : State, (if s.settings.profile.checkTime = q.checkTime then t else t.updKeys restartFilters) =
      t.updKeys fun k => if s.settings.profile.checkTime = q.checkTime then k else restartFilters k := fun t => by
    split <;> rfl
  unfold replaceProfile
  simp only [hstage, hprune, hkeys]
  rfl

theorem exec_setProfile_of_ready (h : RequestReady 0x04 f rest s) (hloaded : s.store.state ≠ .loading)
    (hlength : f.payload.length = 22) :
    exec .setProfile s = .next (respond f (carryProfile f.payload (withStaging rest s)).2
      (carryProfile f.payload (withStaging rest s)).1) :=
  congrArg Host.Outcome.next (takeRequest_of_requestReady h hloaded (lengthIs_of_length hlength) [] carryProfile)

theorem profileSensible_iff {p : List Octet} : profileSensible p = true ↔ natAt p 16 ≤ 1 ∧ natAt p 17 ≤ 1 := by
  simp [profileSensible]

theorem exec_setTag_of_ready (h : RequestReady 0x05 f rest s) (hloaded : s.store.state ≠ .loading)
    (hlength : f.payload.length = 5) :
    exec .setTag s = .next (respond f [codeOk]
      ((withStaging rest s).updSettings fun c => { c with tag := word32At f.payload 1 })) :=
  congrArg Host.Outcome.next (takeRequest_of_requestReady h hloaded (lengthIs_of_length hlength) [] fun p s =>
    (s.updSettings fun c => { c with tag := word32At p 1 }, [codeOk]))

end

/-! The numbers of a profile. -/

theorem clampTo_eq_iff {low high n : Nat} (h : low ≤ high) : clampTo low high n = n ↔ low ≤ n ∧ n ≤ high := by
  unfold clampTo
  omega

theorem clampTo_zero_eq_iff {high n : Nat} : clampTo 0 high n = n ↔ n ≤ high :=
  (clampTo_eq_iff (Nat.zero_le _)).trans (and_iff_right (Nat.zero_le _))

/-- R152: the check time taken is the least of the five that is not below the one given, or 64. -/
theorem takenCheckTime_le {n c : Nat} (hc : c ∈ [0, 8, 16, 32, 64]) (h : n ≤ c) : takenCheckTime n ≤ c := by
  simp only [List.mem_cons, List.not_mem_nil, or_false] at hc
  unfold takenCheckTime
  split_ifs <;> omega

theorem le_takenCheckTime {n : Nat} (h : n ≤ 64) : n ≤ takenCheckTime n := by
  unfold takenCheckTime
  split_ifs <;> omega

theorem takenCheckTime_of_above {n : Nat} (h : 64 < n) : takenCheckTime n = 64 := by
  unfold takenCheckTime
  split_ifs <;> omega

theorem takenCheckTime_eq_iff {n : Nat} : takenCheckTime n = n ↔ n ∈ [0, 8, 16, 32, 64] := by
  simp only [List.mem_cons, List.not_mem_nil, or_false]
  unfold takenCheckTime
  split_ifs <;> omega

theorem muteMask_getLsbD (o : Octet) {n : Nat} (h : n < 8) :
    (o &&& 0b11111110).getLsbD n = (o.getLsbD n && decide (n ≠ 0)) := by
  have hmask : ∀ n : Fin 8, (0b11111110 : BitVec 8).getLsbD n = decide (n.val ≠ 0) := by decide
  rw [BitVec.getLsbD_and, hmask ⟨n, h⟩]

theorem wakeMask_getLsbD (w : BitVec 16) {n : Nat} (h : n < 13) : (w.extractLsb' 0 13).getLsbD n = w.getLsbD n := by
  simp [h]

theorem profileClamped_eq_false_iff (p : List Octet) :
    profileClamped p = false ↔
      (1 ≤ natAt p 1 ∧ natAt p 1 ≤ 63) ∧ (5 ≤ natAt p 2 ∧ natAt p 2 ≤ 255) ∧
      (10 ≤ (word16At p 3).toNat ∧ (word16At p 3).toNat ≤ 600) ∧
      (30 ≤ (word16At p 5).toNat ∧ (word16At p 5).toNat ≤ 3600) ∧ (word32At p 7).toNat ≤ 86400 ∧
      (4 ≤ natAt p 11 ∧ natAt p 11 ≤ 30) ∧ (30 ≤ (word16At p 12).toNat ∧ (word16At p 12).toNat ≤ 900) ∧
      natAt p 14 ≤ 5 ∧ natAt p 20 ∈ [0, 8, 16, 32, 64] ∧ (1 ≤ natAt p 21 ∧ natAt p 21 ≤ 10) := by
  simp only [profileClamped, profileOf, Bool.not_eq_false', Bool.and_eq_true, beq_iff_eq, and_assoc]
  rw [clampTo_eq_iff (by decide), clampTo_eq_iff (by decide), clampTo_eq_iff (by decide), clampTo_eq_iff (by decide),
    clampTo_zero_eq_iff, clampTo_eq_iff (by decide), clampTo_eq_iff (by decide), clampTo_zero_eq_iff,
    takenCheckTime_eq_iff, clampTo_eq_iff (by decide)]
  simp only [and_assoc]

/-- Settles O38: the profile taken with what follows from it (`replaceProfile_eq`), the tag, and the numbers of the profile
(`clampTo_eq_iff`, the lemmas on `takenCheckTime`, `profileClamped_eq_false_iff`). -/
theorem setProfileAndSetTagReplace : Obligations.SetProfileAndSetTagReplace := by
  refine ⟨fun f rest s hloaded => ⟨?_, fun h hlength => ?_⟩, ?_⟩
  · intro h hlength p old
    rw [exec_setProfile_of_ready h hloaded hlength]
    refine ⟨fun hbad => ?_, ?_⟩
    · have hnot : profileSensible p = false := Bool.eq_false_iff.2 fun hok => by
        obtain ⟨hquiet, hpolicy⟩ := profileSensible_iff.1 hok
        omega
      rw [carryProfile, show profileSensible f.payload = false from hnot]
      rfl
    · intro hquiet hpolicy q
      rw [carryProfile, show profileSensible f.payload = true from profileSensible_iff.2 ⟨hquiet, hpolicy⟩]
      simp only [Bool.not_true, Bool.false_eq_true, if_false, replaceProfile_eq]
      rfl
  · rw [exec_setTag_of_ready h hloaded hlength]
    rfl
  · intro p q
    refine ⟨⟨rfl, rfl, rfl, rfl, Nat.zero_max _, rfl, rfl, Nat.zero_max _, rfl⟩, profileOf_wf p, ?_, fun n hone hlt => ?_,
      fun n hn => wakeMask_getLsbD _ hn, rfl, ?_, fun c hc hle => takenCheckTime_le hc hle, le_takenCheckTime,
      takenCheckTime_of_above, profileClamped_eq_false_iff p⟩
    · rw [show q.muteMask = octetAt p 15 &&& 0b11111110 from rfl, muteMask_getLsbD _ (by decide)]
      exact Bool.and_false _
    · rw [show q.muteMask = octetAt p 15 &&& 0b11111110 from rfl, muteMask_getLsbD _ hlt, decide_eq_true (by omega)]
      exact Bool.and_true _
    · show (if octetAt p 17 = 1 then Policy.nationwideOnly else Policy.presentAll) = .nationwideOnly ↔ _
      split
      case isTrue hone => exact ⟨fun _ => hone, fun _ => rfl⟩
      case isFalse hnot => exact ⟨nofun, fun hone => absurd hone hnot⟩

/-! ### SET-CADENCE: O39 -/

/-- R140: the octets from `i` on are a segment's. -/
def LegalSegment (p : List Octet) (i : Nat) : Prop :=
  (octetAt p i = 0 ∨ octetAt p i = 1 ∨ octetAt p i = 2) ∧ (octetAt p (i + 1) = 0 ∨ octetAt p (i + 1) = 1)

/-- R140: the segment from octet `i` on. -/
def segmentOf (p : List Octet) (i : Nat) : Segment :=
  ⟨if octetAt p i = 0 then .pause else if octetAt p i = 1 then .toneA else .toneB, decide (octetAt p (i + 1) = 1),
    max 1 (natAt p (i + 2))⟩

theorem toNat_le_one_iff (o : Octet) : o.toNat ≤ 1 ↔ o = 0 ∨ o = 1 := by
  rw [← BitVec.toNat_inj, ← BitVec.toNat_inj]
  show o.toNat ≤ 1 ↔ o.toNat = 0 ∨ o.toNat = 1
  omega

theorem segmentKindOf_of_legal {o : Octet} (h : o = 0 ∨ o = 1 ∨ o = 2) :
    segmentKindOf o = some (if o = 0 then .pause else if o = 1 then .toneA else .toneB) := by
  rcases h with rfl | rfl | rfl <;> rfl

theorem segmentKindOf_of_illegal {o : Octet} (h : ¬ (o = 0 ∨ o = 1 ∨ o = 2)) : segmentKindOf o = none := by
  obtain ⟨hzero, hrest⟩ := not_or.1 h
  obtain ⟨hone, htwo⟩ := not_or.1 hrest
  rw [segmentKindOf, if_neg hzero, if_neg hone, if_neg htwo]

section
variable {p : List Octet} {i n : Nat}

theorem segmentAt_of_legal (h : LegalSegment p i) : segmentAt p i = some (segmentOf p i) := by
  obtain ⟨hkind, hvibrate⟩ := h
  rw [segmentAt, segmentKindOf_of_legal hkind]
  exact if_pos ((toNat_le_one_iff _).2 hvibrate)

theorem segmentAt_of_illegal (h : ¬ LegalSegment p i) : segmentAt p i = none := by
  rw [segmentAt]
  by_cases hkind : octetAt p i = 0 ∨ octetAt p i = 1 ∨ octetAt p i = 2
  · rw [segmentKindOf_of_legal hkind]
    exact if_neg fun hle => h ⟨hkind, (toNat_le_one_iff _).1 hle⟩
  · rw [segmentKindOf_of_illegal hkind]

theorem segmentsAt_of_legal (h : ∀ j, j < n → LegalSegment p (i + 3 * j)) :
    segmentsAt p i n = some ((List.range n).map fun j => segmentOf p (i + 3 * j)) := by
  induction n generalizing i with
  | zero => rfl
  | succ n ih =>
    have hstep : ∀ j, i + 3 * (j + 1) = i + 3 + 3 * j := fun j => by omega
    have hrest := ih (i := i + 3) fun j hj => hstep j ▸ h (j + 1) (Nat.succ_lt_succ hj)
    have hfirst : LegalSegment p i := h 0 (Nat.succ_pos n)
    rw [segmentsAt, segmentAt_of_legal hfirst, hrest, List.range_succ_eq_map, List.map_cons, List.map_map]
    simp only [Function.comp_def, Nat.succ_eq_add_one, hstep]
    rfl

theorem segmentsAt_of_illegal (h : ¬ ∀ j, j < n → LegalSegment p (i + 3 * j)) : segmentsAt p i n = none := by
  induction n generalizing i with
  | zero => exact absurd (fun j hj => absurd hj (Nat.not_lt_zero j)) h
  | succ n ih =>
    have hstep : ∀ j, i + 3 * (j + 1) = i + 3 + 3 * j := fun j => by omega
    rw [segmentsAt]
    by_cases hfirst : LegalSegment p i
    · have hrest := ih (i := i + 3) fun hrest => h fun j hj => by
        cases j with
        | zero => exact hfirst
        | succ j => exact hstep j ▸ hrest j (Nat.lt_of_succ_lt_succ hj)
      rw [segmentAt_of_legal hfirst, hrest]
    · rw [segmentAt_of_illegal hfirst]

end

theorem withRank_eq {rank : Nat} (hlow : 1 ≤ rank) (hhigh : rank ≤ 4) (c : Cadences) (l : List Segment) :
    c.withRank rank l =
      { rank1 := if rank = 1 then l else c.rank1
        rank2 := if rank = 2 then l else c.rank2
        rank3 := if rank = 3 then l else c.rank3
        rank4 := if rank = 4 then l else c.rank4 } := by
  obtain rfl | rfl | rfl | rfl : rank = 1 ∨ rank = 2 ∨ rank = 3 ∨ rank = 4 := by omega
  all_goals rfl

theorem cadenceClamped_iff (p : List Octet) (n : Nat) :
    cadenceClamped p n = true ↔
      (∃ j, j < n ∧ octetAt p (5 + 3 * j) = 0) ∨ ∃ j, j < 4 ∧ octetAt p (3 + 3 * n + j) = 0 := by
  simp only [cadenceClamped, Bool.or_eq_true, List.any_eq_true, List.mem_range, beq_iff_eq]

section
variable {f : Frame} {rest : List Frame} {s : State}

theorem exec_setCadence_of_ready (h : RequestReady 0x06 f rest s) (hloaded : s.store.state ≠ .loading)
    (hlength : f.payload.length = 7 + 3 * natAt f.payload 2) :
    exec .setCadence s = .next (respond f (carryCadence f.payload (withStaging rest s)).2
      (carryCadence f.payload (withStaging rest s)).1) :=
  congrArg Host.Outcome.next (takeRequest_of_requestReady h hloaded (cadenceFits_iff.2 hlength) [] carryCadence)

/-- R140: a rank, a count or a segment that is not legal. -/
theorem carryCadence_of_bad {p : List Octet} (h : (natAt p 1 < 1 ∨ 4 < natAt p 1) ∨ (natAt p 2 = 0 ∨ 8 < natAt p 2) ∨
    ¬ ∀ j, j < natAt p 2 → LegalSegment p (3 + 3 * j)) : carryCadence p s = (s, [codeBadValue]) := by
  unfold carryCadence
  extract_lets rank n
  split
  · rfl
  case isFalse hrank =>
    split
    · rfl
    case isFalse hcount => rw [segmentsAt_of_illegal ((h.resolve_left hrank).resolve_left hcount)]

/-- R140: a legal table. -/
theorem carryCadence_of_legal {p : List Octet} (hrank : ¬ (natAt p 1 < 1 ∨ 4 < natAt p 1))
    (hcount : ¬ (natAt p 2 = 0 ∨ 8 < natAt p 2)) (hlegal : ∀ j, j < natAt p 2 → LegalSegment p (3 + 3 * j)) :
    carryCadence p s =
      (s.updSettings fun c =>
        { c with
          cadences := c.cadences.withRank (natAt p 1) ((List.range (natAt p 2)).map fun j => segmentOf p (3 + 3 * j))
          toneA := (tonesAt p (natAt p 2)).1
          toneB := (tonesAt p (natAt p 2)).2 },
       [if cadenceClamped p (natAt p 2) then codeClamped else codeOk]) := by
  rw [carryCadence, if_neg hrank, if_neg hcount, segmentsAt_of_legal hlegal]

end

/-- Settles O39: the tests (`carryCadence_of_bad`), and the table replaced (`carryCadence_of_legal`, `withRank_eq`). -/
theorem setCadenceReplacesATable : Obligations.SetCadenceReplacesATable := by
  intro f rest s rank n h hloaded hrank hn hlength p legal table clamped
  have hoctets : ∀ j, 3 + 3 * j + 1 = 4 + 3 * j ∧ 3 + 3 * j + 2 = 5 + 3 * j := fun j => ⟨by omega, by omega⟩
  have hlegal : legal ↔ ∀ j, j < natAt p 2 → LegalSegment p (3 + 3 * j) := by
    simp only [legal, LegalSegment, hoctets, hn, p]
  have htable : table = (List.range n).map fun j => segmentOf p (3 + 3 * j) := by
    simp only [table, segmentOf, hoctets]
  have hclamped : cadenceClamped p n = true ↔ clamped := cadenceClamped_iff p n
  rw [exec_setCadence_of_ready h hloaded (by rw [hn]; exact hlength)]
  refine ⟨fun hbad => ?_, fun hlow hhigh hone hle hok => ?_⟩
  · have hbad' : (natAt p 1 < 1 ∨ 4 < natAt p 1) ∨ (natAt p 2 = 0 ∨ 8 < natAt p 2) ∨
        ¬ ∀ j, j < natAt p 2 → LegalSegment p (3 + 3 * j) := by
      rw [hlegal] at hbad
      simp only [p] at hbad ⊢
      rw [hrank, hn] at *
      tauto
    rw [carryCadence_of_bad hbad']
    rfl
  · have hranks : ¬ (natAt p 1 < 1 ∨ 4 < natAt p 1) := by simp only [p, hrank]; omega
    have hcounts : ¬ (natAt p 2 = 0 ∨ 8 < natAt p 2) := by simp only [p, hn]; omega
    refine ⟨if cadenceClamped p n then codeClamped else codeOk, fun hc => if_pos (hclamped.2 hc),
      fun hc => if_neg (mt hclamped.1 hc), ?_⟩
    rw [carryCadence_of_legal hranks hcounts (hlegal.1 hok), show natAt f.payload 1 = rank from hrank,
      show natAt f.payload 2 = n from hn, ← htable]
    simp only [withRank_eq hlow hhigh]
    rfl

end Sys2Proof.Machine

/-! ## The reports of the host link, octet by octet (R178, R181, R182, R186): O36, O40, O41, O43 -/

namespace Sys2Proof.Machine

set_option Elab.async false

/-! ### Numbers and lists in octets (R187) -/

theorem octet_append (n : Nat) : (octet (n / 256) ++ octet n : BitVec 16) = BitVec.ofNat 16 n := by
  refine BitVec.eq_of_toNat_eq ?_
  simp only [octet, BitVec.toNat_append, BitVec.toNat_ofNat]
  rw [← Nat.shiftLeft_add_eq_or_of_lt (Nat.mod_lt _ (by decide)), Nat.shiftLeft_eq]
  omega

section
variable {p q : List Octet} {n v : Nat}

theorem octetAt_of {o : Octet} (h : p[n]? = some o) : octetAt p n = o := by
  rw [octetAt, List.getD_eq_getElem?_getD, h]
  rfl

/-- R187: a 16-bit number is written high octet first. -/
theorem word16At_of (hhigh : p[n]? = some (octet (v / 256))) (hlow : p[n + 1]? = some (octet v)) :
    word16At p n = BitVec.ofNat 16 v := by
  rw [word16At, octetAt_of hhigh, octetAt_of hlow, octet_append]

/-- R187: a 32-bit number is written high octet first. -/
theorem word32At_of (h0 : p[n]? = some (octet (v / 16777216))) (h1 : p[n + 1]? = some (octet (v / 65536)))
    (h2 : p[n + 2]? = some (octet (v / 256))) (h3 : p[n + 3]? = some (octet v)) :
    word32At p n = BitVec.ofNat 32 v := by
  have hhigh : word16At p n = BitVec.ofNat 16 (v / 65536) :=
    word16At_of (by rw [h0, Nat.div_div_eq_div_mul]) h1
  have hlow : word16At p (n + 2) = BitVec.ofNat 16 v := word16At_of h2 h3
  rw [word32At, hhigh, hlow]
  refine BitVec.eq_of_toNat_eq ?_
  rw [BitVec.toNat_append]
  simp only [BitVec.toNat_ofNat]
  rw [← Nat.shiftLeft_add_eq_or_of_lt (Nat.mod_lt _ (by decide)), Nat.shiftLeft_eq]
  omega

theorem octetAt_append_left (h : n < p.length) : octetAt (p ++ q) n = octetAt p n := by
  simp only [octetAt, List.getD_eq_getElem?_getD, List.getElem?_append_left h]

theorem octetAt_append_right (m : Nat) (h : p.length = m) : octetAt (p ++ q) (m + n) = octetAt q n := by
  subst h
  simp only [octetAt, List.getD_eq_getElem?_getD, List.getElem?_append_right (Nat.le_add_right _ _),
    Nat.add_sub_cancel_left]

theorem slice_append_left {k : Nat} (h : n + k ≤ p.length) : ((p ++ q).drop n).take k = (p.drop n).take k := by
  rw [List.drop_append_of_le_length (by omega), List.take_append_of_le_length (by rw [List.length_drop]; omega)]

theorem slice_append_right {k : Nat} (m : Nat) (h : p.length = m) :
    ((p ++ q).drop (m + n)).take k = (q.drop n).take k := by
  subst h
  rw [List.drop_append, List.drop_eq_nil_of_le (Nat.le_add_right _ _), Nat.add_sub_cancel_left, List.nil_append]

end

/-- Lines of one width: line `n` stands at `n` widths. -/
theorem slice_flatten {α : Type} {g : α → List Octet} {w : Nat} (h : ∀ a, (g a).length = w) {l : List α} {n : Nat} {a : α}
    (hn : l[n]? = some a) : ((l.map g).flatten.drop (w * n)).take w = g a := by
  induction l generalizing n with
  | nil => cases hn
  | cons b l ih =>
    rw [List.map_cons, List.flatten_cons]
    cases n with
    | zero =>
      obtain rfl : b = a := Option.some.inj hn
      rw [Nat.mul_zero, List.drop_zero, List.take_left' (h b)]
    | succ n =>
      rw [Nat.mul_succ, Nat.add_comm, slice_append_right w (h b)]
      exact ih hn

/-! ### STATUS: O36 -/

theorem statusFlags_getLsbD (a b c d : Bool) :
    let flags := bitOctet 0 a ||| bitOctet 1 b ||| bitOctet 2 c ||| bitOctet 3 d
    flags.getLsbD 0 = a ∧ flags.getLsbD 1 = b ∧ flags.getLsbD 2 = c ∧ flags.getLsbD 3 = d := by
  revert a b c d
  decide

/-- Settles O36: the reply (`exec_status_of_ready`), read at its places. -/
theorem statusReportsThePart : Obligations.StatusReportsThePart := by
  intro f rest s h hlength
  refine ⟨statusBody s, ?_, ?_⟩
  · rw [exec_status_of_ready h, if_pos hlength]
    rfl
  · intro b
    have hcell := BitVec.ofNat_toNat 16 (s.modem.servingCell.getD 0)
    revert b
    simp only [statusBody, octets16, octets32, List.cons_append, List.nil_append]
    refine ⟨rfl, rfl, word16At_of (v := 216) rfl rfl, rfl, ?_, ?_,
      statusFlags_getLsbD s.time.clockSet s.modem.broadcast s.modem.uplink s.modem.servingCell.isSome,
      word32At_of (v := s.time.wall) rfl rfl rfl rfl, word32At_of (v := s.time.uptime) rfl rfl rfl rfl,
      (word16At_of rfl rfl).trans hcell, rfl, rfl, rfl, rfl,
      word16At_of rfl rfl, word16At_of rfl rfl, word16At_of rfl rfl, word16At_of rfl rfl,
      word16At_of rfl rfl, word16At_of rfl rfl, word16At_of rfl rfl, word16At_of rfl rfl⟩
    · show s.store.state.code = _
      cases s.store.state with
      | busy phase op => cases phase <;> rfl
      | loading | idle | deferred | failed => rfl
    · show s.store.state.phaseCode = _
      cases s.store.state with
      | busy phase op =>
        cases phase with
        | none => rfl
        | some phase => cases phase <;> rfl
      | deferred phase op =>
        cases phase with
        | none => rfl
        | some phase => cases phase <;> rfl
      | loading | idle | failed => rfl

/-! ### LIST and HISTORY: O40 -/

section
variable {f : Frame} {rest : List Frame} {s : State}

theorem exec_list_of_ready (h : RequestReady 0x07 f rest s) (hloaded : s.store.state ≠ .loading)
    (hlength : f.payload.length = 1) : exec .list s = .next (answered f rest (listBody s) s) :=
  congrArg Host.Outcome.next (takeRequest_of_requestReady h hloaded (lengthIs_of_length hlength) []
    fun _ s => (s, listBody s))

theorem exec_history_of_ready (h : RequestReady 0x0C f rest s) (hloaded : s.store.state ≠ .loading)
    (hlength : f.payload.length = 2) :
    exec .history s = .next (answered f rest (historyBody (natAt f.payload 1) s) s) :=
  congrArg Host.Outcome.next (takeRequest_of_requestReady h hloaded (lengthIs_of_length hlength) []
    fun p s => (s, historyBody (natAt p 1) s))

theorem historyFlags (scale : Scale) (persisted : Bool) :
    scale.code ||| bitOctet 1 persisted = (if scale = .wall then 1 else 0) ||| (if persisted then 2 else 0) := by
  cases scale <;> cases persisted <;> rfl

end

/-- Settles O40: the two bodies are lines of one width (`slice_flatten`). -/
theorem listAndHistoryReportTheirLines : Obligations.ListAndHistoryReportTheirLines := by
  intro f rest s hloaded
  refine ⟨?_, ?_⟩
  · intro h hlength occupied
    have hwidth : ∀ a : SlotIndex × Slot, (listLine a.1 a.2).length = 11 := fun _ => rfl
    refine ⟨(occupied.map fun a : SlotIndex × Slot => listLine a.1 a.2).flatten, exec_list_of_ready h hloaded hlength,
      flatten_length _ 11 hwidth _, fun n i x hn => ?_⟩
    rw [slice_flatten (g := fun a : SlotIndex × Slot => listLine a.1 a.2) hwidth hn]
    rfl
  · intro h hlength first
    have hwidth : ∀ a : HistoryEntry, (historyOctets a).length = 10 := fun _ => rfl
    refine ⟨(((s.history.drop first).take 24).map historyOctets).flatten, ?_, ?_, fun n e hn he => ?_⟩
    · rw [exec_history_of_ready h hloaded hlength, historyBody]
      have hfirst : octet first = octetAt f.payload 1 := BitVec.ofNat_toNat ..
      exact congrArg (fun o => Host.Outcome.next (answered f rest (codeOk :: octet s.history.length :: o ::
        (((s.history.drop first).take 24).map historyOctets).flatten) s)) hfirst
    · rw [flatten_length _ 10 hwidth, List.length_take, List.length_drop]
    · have hline : ((s.history.drop first).take 24)[n]? = some e := by
        rw [List.getElem?_take_of_lt hn, List.getElem?_drop, he]
      rw [slice_flatten hwidth hline, historyOctets, historyFlags]
      rfl

/-! ### READ: O41 -/

section
variable {p q : List Octet} {m n : Nat}

theorem octetAt_of_drop (h : p.drop m = q) : octetAt p (m + n) = octetAt q n := by
  simp only [octetAt, List.getD_eq_getElem?_getD, ← h, List.getElem?_drop]

theorem slice_of_drop {k : Nat} (h : p.drop m = q) : (p.drop (m + n)).take k = (q.drop n).take k := by
  rw [← h, List.drop_drop]

end

section
variable {f : Frame} {rest : List Frame} {s : State} {i : SlotIndex} {x : Slot}

theorem exec_read_of_ready (h : RequestReady 0x08 f rest s) (hloaded : s.store.state ≠ .loading)
    (hlength : f.payload.length = 3) :
    exec .read s = .next (answered f rest (readBody (natAt f.payload 1) (natAt f.payload 2) s) s) :=
  congrArg Host.Outcome.next (takeRequest_of_requestReady h hloaded (lengthIs_of_length hlength) []
    fun p s => (s, readBody (natAt p 1) (natAt p 2) s))

theorem readBody_of_unknown {named part : Nat} (h : 16 ≤ named) : readBody named part s = [codeNoSuchSlot] := by
  rw [readBody, slotIndexOf_of_le h]

theorem readBody_of_free {part : Nat} (h : slotOf s i = none) : readBody i.val part s = [codeNoSuchSlot] := by
  simp only [readBody, slotIndexOf_val, h]

theorem readBody_of_slot {part : Nat} (h : slotOf s i = some x) :
    readBody i.val part s = if x.sheets.length < part then [codeBadValue]
      else if part = 0 then readHeader i x part ++ slotSection x
      else match x.sheets[part - 1]? with
        | none => [codeBadValue]
        | some r => readHeader i x part ++ sheetSection (part - 1) r := by
  simp only [readBody, slotIndexOf_val, h] <;> rfl

theorem readBody_of_sheet {r : SheetRecord} (h : slotOf s i = some x) (hr : x.sheets[n]? = some r) :
    readBody i.val (n + 1) s = readHeader i x (n + 1) ++ sheetSection n r := by
  have hlt : n < x.sheets.length := (List.getElem?_eq_some_iff.1 hr).1
  rw [readBody_of_slot h, if_neg (by omega), if_neg (by omega), Nat.add_sub_cancel, hr]

end

/-- The presence mask holds the bit of each optional field. -/
theorem presenceMask_getLsbD (x : Slot) (n : Nat) : (presenceMask x).getLsbD n =
    (decide (n = 0) && x.predecessor.isSome || decide (n = 1) && x.withdrawal.isSome ||
      decide (n = 2) && x.admission.isSome || decide (n = 3) && x.expiry.isSome ||
      decide (n = 4) && x.firstPresentation.isSome || decide (n = 5) && x.doneTime.isSome ||
      decide (n = 6) && x.ack.isSome || decide (n = 7) && x.leadCell.isSome || decide (n = 8) && x.lead.isSome) := by
  have hbit : ∀ k < 16, ∀ b : Bool, (if b then BitVec.twoPow 16 k else 0).getLsbD n = (decide (n = k) && b) := by
    intro k hk b
    cases b <;> simp [BitVec.getLsbD_twoPow, eq_comm]
    omega
  simp (disch := decide) only [presenceMask, BitVec.getLsbD_or, hbit]

section
variable {l : Lead} {j : Nat}

/-- R181: the eight zones of section 0. -/
def zoneLines (l : Lead) : List Octet :=
  ((List.range 8).map fun j => (l.zones[j]?.map zoneOctets).getD [0, 0, 0]).flatten

/-- R181: the sixteen octets of the lead's text in section 0. -/
def textLine (l : Lead) : List Octet := (List.range 16).map fun j => octetAt l.text j

/-- R181: the seven octets of the lead before its zones. -/
theorem leadOctets_drop : (leadOctets (some l)).drop 7 = zoneLines l ++ textLine l := rfl

theorem zoneLine_length (a : Nat) : ((l.zones[a]?.map zoneOctets).getD [0, 0, 0]).length = 3 := by
  cases l.zones[a]? <;> rfl

theorem zoneLines_length : (zoneLines l).length = 24 := flatten_length _ 3 zoneLine_length _

theorem zoneLines_slice (h : j < 8) : ((zoneLines l).drop (3 * j)).take 3 = (l.zones[j]?.map zoneOctets).getD [0, 0, 0] :=
  slice_flatten zoneLine_length (List.getElem?_range h)

theorem octetAt_textLine (h : j < 16) : octetAt (textLine l) j = octetAt l.text j := by
  refine octetAt_of ?_
  rw [textLine, List.getElem?_map, List.getElem?_range h]
  rfl

theorem leadOctets_length (lead : Option Lead) : (leadOctets lead).length = 47 := by
  cases lead with
  | none => rfl
  | some l =>
    rw [← List.take_append_drop 7 (leadOctets (some l)), leadOctets_drop, List.length_append, List.length_append,
      zoneLines_length]
    rfl

theorem sheetMapEntry_length (r : Option SheetRecord) : (sheetMapEntry r).length = 4 := by
  cases r <;> rfl

end

/-! #### The record, with its header -/

/-- R181: octets 99 to 146 of section 0, the sheet map. -/
def sheetMap (x : Slot) : List Octet := ((List.range 12).map fun j => sheetMapEntry x.sheets[j]?).flatten

/-- R181: a READ reply of section 0 from its kind octet `o` on. -/
def slotRecord (o : Octet) (i : SlotIndex) (x : Slot) (part : Nat) : List Octet :=
  o :: (readHeader i x part ++ slotSection x)

section
variable (o : Octet) (i : SlotIndex) {x : Slot} (part : Nat)

theorem slotRecord_length : (slotRecord o i x part).length = 147 := by
  rw [slotRecord, List.length_cons, List.length_append, slotSection_length]
  rfl

theorem slotRecord_presence : let mask := word16At (slotRecord o i x part) 8
    mask.getLsbD 0 = x.predecessor.isSome ∧ mask.getLsbD 1 = x.withdrawal.isSome ∧
      mask.getLsbD 2 = x.admission.isSome ∧ mask.getLsbD 3 = x.expiry.isSome ∧
      mask.getLsbD 4 = x.firstPresentation.isSome ∧ mask.getLsbD 5 = x.doneTime.isSome ∧
      mask.getLsbD 6 = x.ack.isSome ∧ mask.getLsbD 7 = x.leadCell.isSome ∧ mask.getLsbD 8 = x.lead.isSome ∧
      ∀ n, 9 ≤ n → mask.getLsbD n = false := by
  have hmask : word16At (slotRecord o i x part) 8 = presenceMask x :=
    (word16At_of (v := (presenceMask x).toNat) rfl rfl).trans (BitVec.ofNat_toNat ..)
  intro mask
  have hbit : ∀ n, mask.getLsbD n = _ := fun n => (congrArg (·.getLsbD n) hmask).trans (presenceMask_getLsbD x n)
  refine ⟨?_, ?_, ?_, ?_, ?_, ?_, ?_, ?_, ?_, fun n hn => ?_⟩
  case refine_10 =>
    rw [hbit]
    have hne : ∀ k < 9, decide (n = k) = false := fun k hk => decide_eq_false (by omega)
    simp (disch := decide) only [hne, Bool.false_and, Bool.or_false]
  all_goals rw [hbit]; simp

/-- The record is 52 octets, the lead and the sheet map. -/
theorem slotRecord_drop : (slotRecord o i x part).drop 52 = leadOctets x.lead ++ sheetMap x := by
  simp only [slotRecord, readHeader, keyOctets, octets24, slotSection, octets16, octets32, timeOctets, List.cons_append,
    List.nil_append, List.drop_succ_cons, List.drop_zero, sheetMap]

theorem slotRecord_sheetMap {j : Nat} (h : j < 12) :
    ((slotRecord o i x part).drop (99 + 4 * j)).take 4 = sheetMapEntry x.sheets[j]? := by
  have hdrop : (slotRecord o i x part).drop 99 = sheetMap x := by
    rw [show 99 = 52 + 47 from rfl, ← List.drop_drop, slotRecord_drop, List.drop_left' (leadOctets_length _)]
  rw [slice_of_drop hdrop]
  exact slice_flatten (g := fun j : Nat => sheetMapEntry x.sheets[j]?) (fun _ => sheetMapEntry_length _)
    (List.getElem?_range h)

theorem slotRecord_of_no_lead (hl : x.lead = none) {n : Nat} (hn : 52 ≤ n) (hn' : n ≤ 98) :
    octetAt (slotRecord o i x part) n = 0 := by
  obtain ⟨k, rfl⟩ := Nat.exists_eq_add_of_le hn
  have hk : k < 47 := by omega
  rw [octetAt_of_drop (slotRecord_drop ..), hl, leadOctets, octetAt_append_left (by simpa using hk)]
  exact octetAt_of (by rw [List.getElem?_replicate, if_pos hk])

section
variable {l : Lead}

theorem octetAt_slotRecord_of_lead (hl : x.lead = some l) {n : Nat} (h : n < 47) :
    octetAt (slotRecord o i x part) (52 + n) = octetAt (leadOctets (some l)) n := by
  rw [octetAt_of_drop (slotRecord_drop ..), hl, octetAt_append_left (by rw [leadOctets_length]; exact h)]

theorem slotRecord_zones (hl : x.lead = some l) {j : Nat} (h : j < 8) :
    ((slotRecord o i x part).drop (59 + 3 * j)).take 3 = (l.zones[j]?.map zoneOctets).getD [0, 0, 0] := by
  have hdrop : (slotRecord o i x part).drop 59 = zoneLines l ++ (textLine l ++ sheetMap x) := by
    rw [show 59 = 52 + 7 from rfl, ← List.drop_drop, slotRecord_drop, hl,
      List.drop_append_of_le_length (by rw [leadOctets_length]; decide), leadOctets_drop, List.append_assoc]
  rw [slice_of_drop hdrop, slice_append_left (by rw [zoneLines_length]; omega), zoneLines_slice h]

theorem slotRecord_text (hl : x.lead = some l) {j : Nat} (h : j < 16) :
    octetAt (slotRecord o i x part) (83 + j) = octetAt l.text j := by
  have hdrop : (leadOctets (some l)).drop 31 = textLine l := by
    rw [show 31 = 7 + 24 from rfl, ← List.drop_drop, leadOctets_drop, List.drop_left' zoneLines_length]
  rw [show 83 + j = 52 + (31 + j) by omega, octetAt_slotRecord_of_lead o i part hl (by omega), octetAt_of_drop hdrop,
    octetAt_textLine h]

theorem slotRecord_lead (hl : x.lead = some l) : let b := slotRecord o i x part
    word16At b 52 = BitVec.ofNat 16 l.validity ∧
      octetAt b 54 = (match l.mode with | .none => 0 | .onPresent => 1 | .onAck => 2) ∧
      octetAt b 55 = (if l.cancel = true then 1 else 0) ∧ octetAt b 56 = l.language ∧ octetAt b 57 = octet l.dispersal ∧
      octetAt b 58 = octet l.zones.length ∧
      (∀ j, j < 8 → (b.drop (59 + 3 * j)).take 3 = (l.zones[j]?.map zoneOctets).getD [0, 0, 0]) ∧
      ∀ j, j < 16 → octetAt b (83 + j) = octetAt l.text j := by
  have hat : ∀ n < 47, octetAt (slotRecord o i x part) (52 + n) = octetAt (leadOctets (some l)) n :=
    fun n => octetAt_slotRecord_of_lead o i part hl
  have hmode : l.mode.code = (match l.mode with | .none => 0 | .onPresent => 1 | .onAck => 2) := by
    cases l.mode <;> rfl
  refine ⟨?_, (hat 2 (by decide)).trans hmode, hat 3 (by decide), hat 4 (by decide), hat 5 (by decide), hat 6 (by decide),
    fun j hj => slotRecord_zones o i part hl hj, fun j hj => slotRecord_text o i part hl hj⟩
  have hvalidity : word16At (leadOctets (some l)) 0 = BitVec.ofNat 16 l.validity := word16At_of rfl rfl
  rw [← hvalidity, word16At, word16At, hat 0 (by decide), hat 1 (by decide)]

end
end

/-- Settles O41: the record and the sheet sections (`readBody_of_slot`, `readBody_of_sheet`), read at their places. -/
theorem readReportsASlot : Obligations.ReadReportsASlot := by
  intro f rest s h hloaded hlength part
  rw [exec_read_of_ready h hloaded hlength]
  refine ⟨fun hle => ?_, fun i hi => ?_⟩
  · rw [readBody_of_unknown hle]
  · have hpart : octet part = octetAt f.payload 2 := BitVec.ofNat_toNat ..
    have hheader : ∀ x, readHeader i x part =
        codeOk :: octet i.val :: keyOctets x.key ++ [x.revision.setWidth 8, octetAt f.payload 2] := fun x => by
      rw [← hpart]
      rfl
    rw [hi]
    refine ⟨fun hfree => ?_, fun x hx => ?_⟩
    · rw [readBody_of_free hfree]
    · intro header sheetCode yes
      have hcode : ∀ st : SheetState, st.code = sheetCode st := fun st => by cases st <;> rfl
      refine ⟨fun hmany => ?_, fun hzero => ?_, fun n r b hn hr hst hb => ?_, fun n r hn hr hst => ?_⟩
      · rw [readBody_of_slot hx, if_pos hmany]
      · refine ⟨slotSection x, ?_, ?_⟩
        · rw [readBody_of_slot hx, if_neg (by omega), if_pos hzero, hheader]
        · have hrecord : octetAt f.payload 0 :: header ++ slotSection x = slotRecord (octetAt f.payload 0) i x part := by
            rw [slotRecord, hheader]
            rfl
          rw [hrecord]
          intro b mask
          have hcell : BitVec.ofNat 16 (x.leadCell.getD 0).toNat = x.leadCell.getD 0 := BitVec.ofNat_toNat ..
          have hwithdrawal : (x.withdrawal.map Settled.code).getD 0 = (match x.withdrawal with
              | some .rejected => 1 | some .cancelled => 2 | some .expired => 3 | some .superseded => 4
              | some .presented => 0 | none => 0) := by
            rcases x.withdrawal with _ | w
            · rfl
            · cases w <;> rfl
          have hscale : (x.expiry.map (·.scale.code)).getD 0 = yes (decide (x.expiry.map (·.scale) = some .wall)) := by
            rcases x.expiry with _ | ⟨scale, v⟩
            · rfl
            · cases scale <;> rfl
          have hsource : (x.ack.map (·.source.code)).getD 0 = (match x.ack.map (·.source) with
              | some .link => 1 | some .chord => 2 | some .key => 0 | none => 0) := by
            rcases x.ack with _ | ⟨uptime, source, delay⟩
            · rfl
            · cases source <;> rfl
          refine ⟨slotRecord_length .., slotRecord_presence .., ?_, ?_, ?_, ?_, ?_, ?_, ?_, ?_, ?_, ?_, ?_, ?_, ?_, ?_, ?_,
            ?_, ?_, ?_, ?_, fun hl n hn hn' => slotRecord_of_no_lead _ i part hl hn hn', fun l hl => ?_, fun j hj => ?_⟩
          case refine_20 => exact slotRecord_lead _ i part hl
          case refine_21 =>
            refine (slotRecord_sheetMap _ i part hj).trans ?_
            cases x.sheets[j]? with
            | none => rfl
            | some r => exact congrArg (fun c => [c, octet r.copies, (r.margin.map octet).getD 0xFF, yes r.onHold]) (hcode r.state)
          all_goals simp only [b, slotRecord, readHeader, keyOctets, octets24, slotSection, octets16, octets32, timeOctets,
            List.cons_append, List.nil_append]
          exacts [rfl, rfl, rfl, rfl, rfl, rfl, rfl, hwithdrawal, word32At_of rfl rfl rfl rfl, word32At_of rfl rfl rfl rfl,
            word32At_of rfl rfl rfl rfl, word32At_of rfl rfl rfl rfl, hscale, word32At_of rfl rfl rfl rfl,
            word32At_of rfl rfl rfl rfl, word32At_of rfl rfl rfl rfl, hsource, word16At_of rfl rfl,
            (word16At_of rfl rfl).trans hcell]
      · have hsection : sheetSection n r =
            3 :: (if n = 0 then ((b.toList.map (·.value)).take 46).drop 30 else (b.toList.map (·.value)).take 46) := by
          rw [sheetSection, hst, hb]
          rfl
        rw [show natAt f.payload 2 = n + 1 from hn, readBody_of_sheet hx hr, ← hn, hheader, hsection]
      · have hsection : sheetSection n r = [sheetCode r.state] := by
          rw [sheetSection, ← hcode]
          split
          · exact absurd ‹_› hst
          · rfl
        rw [show natAt f.payload 2 = n + 1 from hn, readBody_of_sheet hx hr, ← hn, hheader, hsection]

/-! ### RELEASE and EVENTS: O43 -/

section
variable {f : Frame} {rest : List Frame} {s : State}

theorem exec_release_of_ready (h : RequestReady 0x0A f rest s) (hloaded : s.store.state ≠ .loading)
    (hlength : f.payload.length = 2) :
    exec .release s = .next (respond f (carryRelease f.payload (withStaging rest s)).2
      (carryRelease f.payload (withStaging rest s)).1) :=
  congrArg Host.Outcome.next (takeRequest_of_requestReady h hloaded (lengthIs_of_length hlength) [] carryRelease)

theorem exec_events_of_ready (h : RequestReady 0x0B f rest s) (hloaded : s.store.state ≠ .loading)
    (hlength : f.payload.length = 1) :
    exec .events s = .next (answered f rest (eventsBody s) { s with events := [] }) :=
  congrArg Host.Outcome.next (takeRequest_of_requestReady h hloaded (lengthIs_of_length hlength) []
    fun _ s => (s.updEvents fun _ => [], eventsBody s))

theorem carryRelease_of_slot {p : List Octet} {i : SlotIndex} (h : natAt p 1 = i.val) :
    carryRelease p s = match stateAt s i with
      | none => (s, [codeNoSuchSlot])
      | some .done => (freeSlot i (dropSlotEntry i s), [codeOk])
      | some _ => (s, [codeWrongState]) := by
  rw [carryRelease, h, slotIndexOf_val] <;> rfl

theorem carryRelease_of_unknown {p : List Octet} (h : 16 ≤ natAt p 1) : carryRelease p s = (s, [codeNoSuchSlot]) := by
  rw [carryRelease, slotIndexOf_of_le h]

theorem eventOctets_length (e : EventEntry) : (eventOctets s e).length = 8 := by
  cases e with
  | slot => rfl
  | device kind count detail => cases detail <;> rfl

end

/-- Settles O43: RELEASE by the slot named, and the event lines, which are of one width (`slice_flatten`). -/
theorem releaseAndEventsGiveUpWhatTheyReport : Obligations.ReleaseAndEventsGiveUpWhatTheyReport := by
  intro f rest s hloaded
  refine ⟨fun h hlength => ?_, fun h hlength => ?_⟩
  · rw [exec_release_of_ready h hloaded hlength]
    refine ⟨fun hle => ?_, fun i hi => ?_⟩
    · rw [carryRelease_of_unknown hle]
      rfl
    · have hstate : stateAt (withStaging rest s) i = stateAt s i := rfl
      rw [carryRelease_of_slot hi, hstate]
      refine ⟨fun hfree => ?_, fun hdone => ?_, fun st hst hne => ?_⟩
      · rw [hfree]
        rfl
      · rw [hdone]
        rfl
      · rw [hst]
        cases st
        case done => exact absurd rfl hne
        all_goals rfl
  · refine ⟨(s.events.map (eventOctets s)).flatten, exec_events_of_ready h hloaded hlength,
      flatten_length _ 8 eventOctets_length _, fun n e hn => ?_⟩
    rw [slice_flatten eventOctets_length hn]
    clear hn
    cases e with
    | slot i key revision kinds =>
      have hstate : reportedState s i key revision = (match slotOf s i with
          | some x => if x.key = key ∧ x.revision = revision then x.state.code else 0
          | none => 0) := by
        unfold reportedState
        cases slotOf s i <;> rfl
      exact congrArg (fun o => [indexOctet i] ++ keyOctets key ++ [revisionOctet revision, o] ++ octets16 kinds.toNat)
        hstate
    | device kind count detail =>
      have hkind : (0x80 : Octet) ||| octet kind.position = (match kind with
          | .receiptSent => 0x89 | .receiptDropped => 0x8A | .storeFailed => 0x8B | .loadDone => 0x8C) := by
        cases kind <;> rfl
      have hreceipt : ∀ k : ReceiptKind, k.code = (match k with | .presented => 0 | .acknowledged => 1) := fun k => by
        cases k <;> rfl
      have hreason : ∀ r : DropReason, r.code = (match r with | .full => 0 | .attempts => 1 | .stale => 2) := fun r => by
        cases r <;> rfl
      refine congrArg₂ (fun o l => o :: octet count :: l) hkind ?_
      cases detail with
      | entries n => rfl
      | sent key revision kind attempts =>
        exact congrArg (fun o => keyOctets key ++ [revisionOctet revision, o, octet attempts]) (hreceipt kind)
      | dropped key revision kind reason =>
        exact congrArg₂ (fun o o' => keyOctets key ++ [revisionOctet revision, o, o']) (hreceipt kind) (hreason reason)

end Sys2Proof.Machine

/-! ## The journal store (R104 to R113): O58, O60 -/

namespace Sys2Proof.Machine

set_option Elab.async false

/-! ### Positions of the journal -/

section
variable {v : Vector (BitVec 64) 128} {p q : Nat}

theorem positionOf_of_lt (h : p < 128) : positionOf v p = v[p] := dif_pos h

theorem positionOf_fin (p : Fin 128) : positionOf v p.val = v[p] := positionOf_of_lt p.isLt

theorem setPosition_of_lt {w : BitVec 64} (h : p < 128) : setPosition p w v = v.set p w := dif_pos h

theorem setPosition_other {w : BitVec 64} {p : Fin 128} (h : q ≠ p.val) : (setPosition q w v)[p] = v[p] := by
  unfold setPosition
  split
  · exact Vector.getElem_set_ne _ _ h
  · rfl

theorem setPosition_same {w : BitVec 64} (p : Fin 128) : (setPosition p.val w v)[p] = w := by
  rw [setPosition_of_lt p.isLt]
  exact Vector.getElem_set_self _

theorem getElem_tabulate {α : Type} {n : Nat} (f : Nat → α) (p : Fin n) : (tabulate n f)[p] = f p.val := by
  simp [tabulate]

theorem exists_first_position (h : ∃ p : Fin 128, v[p] ≠ 0) :
    ∃ p : Fin 128, v[p] ≠ 0 ∧ ∀ q : Fin 128, q < p → v[q] = 0 := by
  obtain ⟨p, hp, hmin⟩ := WellFounded.has_min wellFounded_lt {p : Fin 128 | v[p] ≠ 0} h
  exact ⟨p, hp, fun q hq => by_contra fun hne => hmin q hne hq⟩

theorem nextToPrefill_eq_some_iff :
    nextToPrefill v p = some q ↔ p ≤ q ∧ positionOf v q ≠ 0 ∧ q < 128 ∧ ∀ r < q, p ≤ r → positionOf v r = 0 := by
  simp only [nextToPrefill, Config.journalPositions, List.find?_range_eq_some, List.mem_range, Bool.and_eq_true,
    decide_eq_true_eq, bne_iff_ne, Bool.not_eq_true', Bool.and_eq_false_iff, decide_eq_false_iff_not, bne_eq_false_iff_eq,
    and_assoc, ← imp_iff_not_or]

/-- R108: the first position from `p` on that does not read all zeros. -/
theorem nextToPrefill_of_first {q : Fin 128} (hle : p ≤ q.val) (hq : v[q] ≠ 0)
    (hbefore : ∀ r : Fin 128, p ≤ r.val → r < q → v[r] = 0) : nextToPrefill v p = some q.val := by
  refine nextToPrefill_eq_some_iff.2 ⟨hle, by rwa [positionOf_fin], q.isLt, fun r hr hp => ?_⟩
  rw [← hbefore ⟨r, hr.trans q.isLt⟩ hp hr]
  exact positionOf_fin ⟨r, _⟩

theorem nextToPrefill_of_zeros (h : ∀ q : Fin 128, p ≤ q.val → v[q] = 0) : nextToPrefill v p = none := by
  refine Option.eq_none_iff_forall_ne_some.2 fun q hq => ?_
  obtain ⟨hle, hne, hlt, -⟩ := nextToPrefill_eq_some_iff.1 hq
  exact hne ((positionOf_fin ⟨q, hlt⟩).trans (h ⟨q, hlt⟩ hle))

end

/-! ### The store's work -/

theorem waiting_iff {h : HistoryEntry} :
    h.waiting = true ↔ h.outcome ≠ .rejected ∧ h.expiry.scale = .wall ∧ h.persisted = false := by
  simp only [HistoryEntry.waiting, HistoryEntry.eligible, Bool.and_eq_true, decide_eq_true_eq, Bool.not_eq_true', and_assoc]

section
variable {s : State} {pre post : List HistoryEntry} {e : HistoryEntry} {phase : Option Phase} {op : Operation}

theorem oldestWaiting_of_first (hs : s.history = pre ++ e :: post) (he : e.waiting = true)
    (hpre : ∀ h ∈ pre, h.waiting = false) : oldestWaiting s = some e := by
  rw [oldestWaiting, hs, find_of_first he hpre]

theorem oldestWaiting_of_none (h : ∀ e ∈ s.history, e.waiting = false) : oldestWaiting s = none :=
  List.find?_eq_none.2 fun e he => Bool.eq_false_iff.1 (h e he)

/-! ### Operations -/

theorem startOperation_of_high (h : s.lines.supplyOk = true) :
    startOperation phase op s = { s with store := { s.store with state := .busy phase op } } := by
  rw [startOperation, h]
  rfl

theorem startOperation_of_low (h : s.lines.supplyOk = false) :
    startOperation phase op s = { s with store := { s.store with state := .deferred phase (some op) } } := by
  rw [startOperation, h]
  rfl

theorem prefillFrom_of_first {p : Nat} {q : Fin 128} (h : s.lines.supplyOk = true) (hle : p ≤ q.val)
    (hq : s.store.journal[q] ≠ 0) (hbefore : ∀ r : Fin 128, p ≤ r.val → r < q → s.store.journal[r] = 0) :
    prefillFrom p s = { s with store := { s.store with state := .busy (some .prefill) (.prefill q.val) } } := by
  simp only [prefillFrom, nextToPrefill_of_first hle hq hbefore]
  exact startOperation_of_high h

theorem prefillFrom_of_zeros {p : Nat} (h : s.lines.supplyOk = true)
    (hz : ∀ q : Fin 128, p ≤ q.val → s.store.journal[q] = 0) :
    prefillFrom p s = { s with store := { s.store with state := .busy (some .erasing) .erase } } := by
  simp only [prefillFrom, nextToPrefill_of_zeros hz]
  exact startOperation_of_high h

/-- R107, R108: the state in which a compaction looks for its first position. -/
def compacting (s : State) : State :=
  { s with
    history := s.history.map fun h => { h with persisted := false }
    store := { s.store with eraseFails := 0 } }

theorem startCompaction_eq : startCompaction s = prefillFrom 0 (compacting s) := rfl

theorem startCompaction_of_first {q : Fin 128} (h : s.lines.supplyOk = true) (hq : s.store.journal[q] ≠ 0)
    (hbefore : ∀ r : Fin 128, r < q → s.store.journal[r] = 0) : startCompaction s =
      { compacting s with store := { (compacting s).store with state := .busy (some .prefill) (.prefill q.val) } } :=
  prefillFrom_of_first (s := compacting s) h (Nat.zero_le _) hq fun r _ => hbefore r

theorem startCompaction_of_zeros (h : s.lines.supplyOk = true) (hz : ∀ q : Fin 128, s.store.journal[q] = 0) :
    startCompaction s =
      { compacting s with store := { (compacting s).store with state := .busy (some .erasing) .erase } } :=
  prefillFrom_of_zeros (s := compacting s) h fun q _ => hz q

theorem startCompaction_eraseFails : (startCompaction s).store.eraseFails = 0 := by
  rw [startCompaction_eq, prefillFrom]
  split <;> rfl

/-! ### Selections -/

theorem storeSelect_of_none (h : oldestWaiting s = none) : storeSelect s = s := by
  unfold storeSelect
  split
  · rw [h]
  · rfl

theorem storeSelect_of_low (hidle : s.store.state = .idle) (h : oldestWaiting s = some e) (hlow : s.lines.supplyOk = false) :
    storeSelect s = { s with store := { s.store with state := .deferred none none } } := by
  simp only [storeSelect, hidle, h, hlow]
  rfl

theorem storeSelect_of_position (hidle : s.store.state = .idle) (h : oldestWaiting s = some e)
    (hhigh : s.lines.supplyOk = true) (hpos : s.store.writePos < 128) :
    storeSelect s = { s with store := { s.store with state := .busy none (.program e 1 false) } } := by
  simp only [storeSelect, hidle, h, hhigh, Bool.not_true, Bool.false_eq_true, if_false]
  exact (if_pos hpos).trans (startOperation_of_high hhigh)

theorem storeSelect_of_full (hidle : s.store.state = .idle) (h : oldestWaiting s = some e)
    (hhigh : s.lines.supplyOk = true) (hpos : 128 ≤ s.store.writePos) : storeSelect s = startCompaction s := by
  simp only [storeSelect, hidle, h, hhigh, Bool.not_true, Bool.false_eq_true, if_false]
  exact if_neg (Nat.not_lt.2 hpos)

theorem rewriteNext_of_none (h : oldestWaiting s = none) :
    rewriteNext s = { s with store := { s.store with state := .idle } } := by
  simp only [rewriteNext, h]
  rfl

theorem rewriteNext_of_position (h : oldestWaiting s = some e) (hhigh : s.lines.supplyOk = true)
    (hpos : s.store.writePos < 128) : rewriteNext s =
      { s with store := { s.store with state := .busy (some .rewriting) (.program e 1 false) } } := by
  simp only [rewriteNext, h]
  exact (if_pos hpos).trans (startOperation_of_high hhigh)

theorem rewriteNext_of_full (h : oldestWaiting s = some e) (hpos : 128 ≤ s.store.writePos) :
    rewriteNext s = startCompaction s := by
  simp only [rewriteNext, h]
  exact if_neg (Nat.not_lt.2 hpos)

end

/-- Settles O58: the three branches of `storeSelect_of_waiting`. -/
theorem idleStoreSelects : Obligations.IdleStoreSelects := by
  intro s pre post e hidle hs hout hscale hpersisted hpre
  have hwaiting : oldestWaiting s = some e := by
    refine oldestWaiting_of_first hs (waiting_iff.2 ⟨hout, hscale, hpersisted⟩) fun h hh => ?_
    refine Bool.eq_false_iff.2 fun hw => ?_
    obtain ⟨hne, hwall, hnot⟩ := waiting_iff.1 hw
    rcases hpre h hh with hr | hu | hp
    · exact hne hr
    · cases hu.symm.trans hwall
    · cases hp.symm.trans hnot
  refine ⟨storeSelect_of_low hidle hwaiting, storeSelect_of_position hidle hwaiting, fun hhigh hpos => ?_⟩
  rw [storeSelect_of_full hidle hwaiting hhigh hpos]
  refine ⟨startCompaction_history, startCompaction_eraseFails, fun hany => ?_, fun hz => ?_⟩
  · obtain ⟨p, hp, hfirst⟩ := exists_first_position hany
    refine ⟨p, hp, hfirst, ?_⟩
    rw [startCompaction_of_first hhigh hp hfirst]
  · rw [startCompaction_of_zeros hhigh hz]

/-! ### The supply line: O60 -/

section
variable {s : State} {phase : Option Phase} {op : Operation}

theorem deferOperation_of_quiet (h : ∀ phase op, s.store.state ≠ .busy phase op) : deferOperation s = s := by
  unfold deferOperation
  split
  · exact absurd ‹_› (h _ _)
  · exact absurd ‹_› (h _ _)
  · rfl

theorem deferOperation_of_erase (h : s.store.state = .busy phase .erase) :
    deferOperation s = eraseFailed (stopOperation .erase s) := by
  simp only [deferOperation, h]

theorem deferOperation_of_busy (h : s.store.state = .busy phase op) (hop : op ≠ .erase) :
    deferOperation s = (stopOperation op s).updStore fun t => { t with state := .deferred phase (some op) } := by
  cases op with
  | erase => exact absurd rfl hop
  | program | void | prefill => simp only [deferOperation, h]

/-- R109: an erase attempt that failed, but not the fifth: the next one starts. -/
theorem eraseFailed_of_lt (h : s.store.eraseFails < 4) : eraseFailed s =
    startOperation (some .erasing) .erase (s.updStore fun t => { t with eraseFails := t.eraseFails + 1 }) :=
  if_neg (Nat.not_le.2 (Nat.succ_lt_succ h))

/-- R111: after the fifth the store is FAILED. -/
theorem eraseFailed_of_le (h : 4 ≤ s.store.eraseFails) : eraseFailed s =
    { s with
      store := { s.store with eraseFails := s.store.eraseFails + 1, state := .failed }
      events := mergeDevicePosting .storeFailed (.entries (s.history.countP HistoryEntry.waiting)) s.events } :=
  if_pos (Nat.succ_le_succ h)

theorem resumeStore_of_idle (h : s.store.state = .deferred phase none) :
    resumeStore s = storeSelect { s with store := { s.store with state := .idle } } := by
  simp only [resumeStore, h]
  rfl

theorem resumeStore_of_program {e : HistoryEntry} {n : Nat} {replaced : Bool}
    (h : s.store.state = .deferred phase (some (.program e n replaced))) :
    resumeStore s = startOperation phase .void s := by
  simp only [resumeStore, h]

theorem resumeStore_of_noted (h : s.store.state = .deferred phase (some op))
    (hop : op = .void ∨ op = .erase ∨ ∃ p, op = .prefill p) : resumeStore s = startOperation phase op s := by
  rcases hop with rfl | rfl | ⟨p, rfl⟩ <;> simp only [resumeStore, h]

theorem resumeStore_of_quiet (h : s.store.state = .loading ∨ s.store.state = .idle ∨ s.store.state = .failed) :
    resumeStore s = s := by
  rcases h with h | h | h <;> simp only [resumeStore, h]

theorem exec_supplyOkFall (hrun : s.lines.resetLow = false) (h : s.lines.supplyOk = true) :
    exec .supplyOkFall s = .next (deferOperation { s with lines := { s.lines with supplyOk := false } }) := by
  refine congrArg Host.Outcome.next ((if_pos h).trans ?_)
  exact if_neg (Bool.eq_false_iff.1 hrun)

theorem exec_supplyOkRise (hrun : s.lines.resetLow = false) (h : s.lines.supplyOk = false) :
    exec .supplyOkRise s = .next (resumeStore { s with lines := { s.lines with supplyOk := true } }) := by
  refine congrArg Host.Outcome.next ((if_neg (Bool.eq_false_iff.1 h)).trans ?_)
  exact if_neg (Bool.eq_false_iff.1 hrun)

end

/-- Settles O60: the falls by the operation that runs, the returns by the operation noted. -/
theorem supplyLineDefersAndResumes : Obligations.SupplyLineDefersAndResumes := by
  intro s hrun fallen risen entering
  refine ⟨fun hhigh => ?_, fun hlow => ?_⟩
  · rw [exec_supplyOkFall hrun hhigh]
    refine ⟨fun hquiet => ?_, fun phase op hop hbusy => ?_, fun phase hbusy hfails => ?_, fun phase hbusy hfails => ?_, ?_⟩
    · rw [deferOperation_of_quiet (s := fallen) hquiet]
    · rw [deferOperation_of_busy (s := fallen) hbusy hop]
      rfl
    · rw [deferOperation_of_erase (s := fallen) hbusy, eraseFailed_of_lt (s := stopOperation .erase fallen) hfails,
        startOperation_of_low rfl]
    · rw [deferOperation_of_erase (s := fallen) hbusy, eraseFailed_of_le (s := stopOperation .erase fallen) hfails]
      rfl
    · exact congrArg Host.Outcome.next (if_pos hhigh)
  · rw [exec_supplyOkRise hrun hlow]
    refine ⟨congrArg Host.Outcome.next (if_neg (Bool.eq_false_iff.1 hlow)), fun hquiet => ?_, fun phase hst => ?_,
      fun phase e n replaced hst => ?_, fun phase op hop hst => ?_⟩
    · rw [resumeStore_of_quiet (s := risen) hquiet]
    · rw [resumeStore_of_idle (s := risen) hst]
    · rw [resumeStore_of_program (s := risen) hst, startOperation_of_high rfl]
    · rw [resumeStore_of_noted (s := risen) hst hop, startOperation_of_high rfl]

end Sys2Proof.Machine

/-! ## The ends of the store's operations (R105 to R111): O59 -/

namespace Sys2Proof.Machine

set_option Elab.async false

/-! ### A position dealt with -/

/-- R105, R106: the write position one further on. -/
def advanced (s : State) : State := { s with store := { s.store with writePos := s.store.writePos + 1 } }

section
variable {s : State} {phase : Option Phase}

theorem positionDone_appending (h : s.store.writePos < 128) : positionDone none s =
    storeSelect { s with store := { s.store with state := .idle, writePos := s.store.writePos + 1 } } := by
  have hbump : bump Config.journalPositions s.store.writePos = s.store.writePos + 1 := Nat.min_eq_left h
  rw [← hbump]
  rfl

theorem positionDone_rewriting {ph : Phase} (h : s.store.writePos < 128) : positionDone (some ph) s =
    rewriteNext (advanced s) := by
  have hbump : bump Config.journalPositions s.store.writePos = s.store.writePos + 1 := Nat.min_eq_left h
  rw [advanced, ← hbump]
  rfl

/-! ### Programs, voids and prefills -/

theorem markPersisted_eq (e : HistoryEntry) (replaced : Bool) : markPersisted e replaced s = { s with
    history := if replaced then s.history else
      s.history.map fun h => if h = e then { h with persisted := true } else h } := by
  cases replaced <;> rfl

/-- The journal with `w` at the write position. -/
def programming (w : BitVec 64) (s : State) : State :=
  { s with store := { s.store with journal := setPosition s.store.writePos w s.store.journal } }

theorem exec_programAttempt (hrun : s.lines.resetLow = false) {e : HistoryEntry} {n : Nat} {replaced : Bool}
    {unset : BitVec 64} (h : s.store.state = .busy phase (.program e n replaced)) :
    let w := positionOf s.store.journal s.store.writePos &&& (recordOf e ||| unset)
    exec (.programAttempt unset) s = .next (
      if w = recordOf e then positionDone phase (markPersisted e replaced (programming w s))
      else if n < 8 then startOperation phase (.program e (n + 1) replaced) (programming w s)
      else startOperation phase .void (programming w s)) := by
  rw [exec_of_running hrun]
  simp only [work, programAttempt, h]
  rfl

theorem exec_void (hrun : s.lines.resetLow = false) (h : s.store.state = .busy phase .void) :
    exec .void s = .next (positionDone phase (programming 0 s)) := by
  rw [exec_of_running hrun]
  simp only [work, voidDone, h]
  rfl

theorem exec_prefillProgram (hrun : s.lines.resetLow = false) {p : Fin 128}
    (h : s.store.state = .busy phase (.prefill p.val)) : exec .prefillProgram s = .next (prefillFrom (p.val + 1)
      { s with store := { s.store with journal := s.store.journal.set p 0 } }) := by
  rw [exec_of_running hrun]
  simp only [work, prefillDone, h, State.updStore, setPosition_of_lt p.isLt]

/-! ### Erases -/

/-- R109: what the erase attempt leaves in the journal. -/
def erasedJournal (unerased : List (Nat × BitVec 64)) (v : Vector (BitVec 64) 128) : Vector (BitVec 64) 128 :=
  tabulate 128 fun p => erased (positionOf v p) (uneraseAt unerased p)

theorem erasedJournal_getElem (unerased : List (Nat × BitVec 64)) (v : Vector (BitVec 64) 128) (p : Fin 128) :
    (erasedJournal unerased v)[p] =
      v[p] ||| ~~~(((unerased.find? fun c => decide (c.1 = p.val)).map (·.2)).getD 0) := by
  rw [erasedJournal, getElem_tabulate, positionOf_fin]
  rfl

theorem all_readsErased_iff {v : Vector (BitVec 64) 128} :
    v.toList.all readsErased = true ↔ ∀ p : Fin 128, v[p] = BitVec.allOnes 64 := by
  simp only [List.all_eq_true, Vector.mem_toList_iff, Vector.mem_iff_getElem, readsErased, beq_iff_eq]
  exact ⟨fun h p => h _ ⟨p.val, p.isLt, rfl⟩, fun h w ⟨i, hi, hw⟩ => hw ▸ h ⟨i, hi⟩⟩

theorem exec_eraseAttempt_of_all (hrun : s.lines.resetLow = false) {unerased : List (Nat × BitVec 64)}
    (h : s.store.state = .busy phase .erase)
    (hall : ∀ p : Fin 128, (erasedJournal unerased s.store.journal)[p] = BitVec.allOnes 64) :
    exec (.eraseAttempt unerased) s = .next (rewriteNext
      { s with store := { s.store with journal := erasedJournal unerased s.store.journal, writePos := 0 } }) := by
  rw [exec_of_running hrun]
  simp only [work, eraseAttempt, h]
  exact congrArg Host.Outcome.next (if_pos (all_readsErased_iff.2 hall))

/-- The journal after an erase attempt. -/
def erasing (unerased : List (Nat × BitVec 64)) (s : State) : State :=
  { s with store := { s.store with journal := erasedJournal unerased s.store.journal } }

theorem exec_eraseAttempt_of_not_all (hrun : s.lines.resetLow = false) {unerased : List (Nat × BitVec 64)}
    (h : s.store.state = .busy phase .erase)
    (hnot : ∃ p : Fin 128, (erasedJournal unerased s.store.journal)[p] ≠ BitVec.allOnes 64) :
    exec (.eraseAttempt unerased) s = .next (eraseFailed (erasing unerased s)) := by
  obtain ⟨p, hp⟩ := hnot
  rw [exec_of_running hrun]
  simp only [work, eraseAttempt, h]
  exact congrArg Host.Outcome.next (if_neg fun hall => hp (all_readsErased_iff.1 hall p))

end

/-- Settles O59: the attempts by what they leave, and what follows them (`positionDone_appending`,
`positionDone_rewriting`, `prefillFrom_of_first`, `rewriteNext_of_position`). -/
theorem storeOperationsEnd : Obligations.StoreOperationsEnd := by
  refine ⟨?_, ?_, ?_⟩
  · rintro s phase p hrun rfl hlt hhigh
    have hwaiting : ∀ {pre e post}, e.waiting = true → s.history = pre ++ e :: post →
        (∀ h ∈ pre, h.waiting = false) → oldestWaiting (advanced s) = some e := fun he hs =>
      oldestWaiting_of_first (s := advanced s) hs he
    refine ⟨fun e n replaced unset hst => ?_, exec_void hrun, positionDone_appending hlt, fun hnone => ?_,
      fun pre e post hs he hpre => ⟨fun hnext => ?_, fun hfull => ?_⟩⟩
    · rw [exec_programAttempt hrun hst]
      refine ⟨fun hw => ?_, fun hw hn => ?_, fun hw hn => ?_⟩
      · rw [if_pos hw, markPersisted_eq]
        rfl
      · rw [if_neg hw, if_pos hn, startOperation_of_high (s := programming _ s) hhigh]
        rfl
      · rw [if_neg hw, if_neg (Nat.not_lt.2 hn), startOperation_of_high (s := programming _ s) hhigh]
        rfl
    · rw [positionDone_rewriting hlt, rewriteNext_of_none (s := advanced s) (oldestWaiting_of_none hnone)]
      rfl
    · rw [positionDone_rewriting hlt, rewriteNext_of_position (s := advanced s) (hwaiting he hs hpre) hhigh hnext]
      rfl
    · intro t
      have ht : compacting (advanced s) = t := by
        simp only [compacting, advanced, hfull, t]
      rw [positionDone_rewriting hlt, rewriteNext_of_full (s := advanced s) (hwaiting he hs hpre) hfull.ge, ← ht]
      exact ⟨fun q => startCompaction_of_first (s := advanced s) hhigh, startCompaction_of_zeros (s := advanced s) hhigh⟩
  · intro s phase p hrun hhigh hst t
    have hlater : ∀ q : Fin 128, p < q → t.store.journal[q] = s.store.journal[q] := fun q hq =>
      Vector.getElem_set_ne p.isLt _ (Nat.ne_of_lt hq)
    rw [exec_prefillProgram hrun hst]
    refine ⟨fun q hq hne hbefore => ?_, fun hz => ?_⟩
    · refine congrArg Host.Outcome.next (prefillFrom_of_first (s := t) hhigh hq (by rwa [hlater q hq]) fun r hr hrq => ?_)
      rw [hlater r hr, hbefore r hr hrq]
    · refine congrArg Host.Outcome.next (prefillFrom_of_zeros (s := t) hhigh fun r hr => ?_)
      rw [hlater r hr, hz r hr]
  · intro s phase unerased hrun hhigh hst
    refine ⟨erasedJournal unerased s.store.journal, erasedJournal_getElem _ _, ?_, ?_⟩
    · intro hall t
      rw [exec_eraseAttempt_of_all hrun hst hall]
      refine ⟨fun hnone => ?_, fun pre e post hs he hpre => ?_⟩
      · rw [rewriteNext_of_none (s := t) (oldestWaiting_of_none hnone)]
      · rw [rewriteNext_of_position (s := t) (oldestWaiting_of_first hs he hpre) hhigh (Nat.zero_lt_succ _)]
    · intro hnot t
      rw [exec_eraseAttempt_of_not_all hrun hst hnot]
      refine ⟨fun hfails => ?_, fun hfails => ?_⟩
      · refine congrArg Host.Outcome.next ((eraseFailed_of_lt (s := erasing unerased s) hfails).trans ?_)
        exact startOperation_of_high (s := t) hhigh
      · exact congrArg Host.Outcome.next (eraseFailed_of_le (s := erasing unerased s) hfails)

end Sys2Proof.Machine

/-! ## Reset and reload (R102, R103, R113, R157): O56, O57 -/

namespace Sys2Proof.Machine

set_option Elab.async false

/-! ### Operations stopped part way: O56 -/

section
variable (old written kept : BitVec 64)

/-- R100: a program stopped part way sets no bit. -/
theorem programmed_and_old : programmed old written kept &&& old = programmed old written kept := by
  refine BitVec.eq_of_getLsbD_eq fun i _ => ?_
  simp only [programmed, BitVec.getLsbD_and]
  cases old.getLsbD i <;> simp

/-- R100: and it clears only bits it was to clear. -/
theorem and_programmed : (old &&& written) &&& programmed old written kept = old &&& written := by
  refine BitVec.eq_of_getLsbD_eq fun i _ => ?_
  simp only [programmed, BitVec.getLsbD_and, BitVec.getLsbD_or]
  cases old.getLsbD i <;> cases written.getLsbD i <;> rfl

/-- R100: an erase stopped part way clears no bit. -/
theorem erased_and_old : erased old kept &&& old = old := by
  refine BitVec.eq_of_getLsbD_eq fun i _ => ?_
  simp only [erased, BitVec.getLsbD_and, BitVec.getLsbD_or]
  cases old.getLsbD i <;> simp

end

section
variable {s : State} {p : Fin 128}

theorem stopOperation_program {e : HistoryEntry} {n : Nat} {replaced : Bool} (h : s.store.writePos = p.val) :
    (stopOperation (.program e n replaced) s).store.journal[p] =
      programmed s.store.journal[p] (recordOf e) (Config.unchangedBits s.draws p.val) := by
  have hold : positionOf s.store.journal s.store.writePos = s.store.journal[p] := by rw [h, positionOf_fin]
  have hjournal : (stopOperation (.program e n replaced) s).store.journal = setPosition p.val
      (programmed s.store.journal[p] (recordOf e) (Config.unchangedBits s.draws p.val)) s.store.journal := by
    rw [← hold, ← h]
    rfl
  rw [hjournal, setPosition_same]

theorem stopOperation_erase : (stopOperation .erase s).store.journal[p] =
    erased s.store.journal[p] (Config.unchangedBits s.draws p.val) := by
  rw [← positionOf_fin (v := s.store.journal)]
  exact getElem_tabulate _ p

end

/-- Settles O56: the reset values are those of `blocksAtReset`; a stop writes at most its own position. -/
theorem resetCommandsAndStops : Obligations.ResetCommandsAndStops := by
  refine ⟨fun s => ?_, fun s p => ⟨fun e n replaced hpos => ?_, fun op herase hprogram hvoid hprefill => ?_, ?_⟩⟩
  · intro cleared
    refine ⟨fun hlow => ⟨congrArg Host.Outcome.next (if_pos hlow), congrArg Host.Outcome.next (if_pos hlow)⟩, fun hrun => ?_⟩
    have hfall : exec .hardwareReset s = .next (blocksAtReset true (stopStore s)) :=
      congrArg Host.Outcome.next (if_neg (Bool.eq_false_iff.1 hrun))
    refine ⟨congrArg Host.Outcome.next (if_neg (Bool.eq_false_iff.1 hrun)), fun hquiet => ?_, fun phase op hbusy => ?_⟩
    · have hstop : stopStore s = s := by
        unfold stopStore
        split
        · exact absurd ‹_› (hquiet _ _)
        · rfl
      rw [hfall, hstop]
      rfl
    · have hstop : stopStore s = stopOperation op s := by
        simp only [stopStore, hbusy]
      rw [hfall, hstop]
      rfl
  · intro w
    have hw : w = _ := stopOperation_program hpos
    rw [hw]
    exact ⟨programmed_and_old .., and_programmed ..⟩
  · cases op with
    | program e n replaced => exact setPosition_other (hprogram e n replaced rfl)
    | void => exact setPosition_other (hvoid rfl)
    | prefill q => exact setPosition_other (hprefill q rfl)
    | erase => exact absurd rfl herase
  · rw [stopOperation_erase, erased_and_old]

/-! ### The reload: O57 -/

theorem replay_eq_foldl (ws : List (BitVec 64)) (l : List HistoryEntry) :
    replay ws l = (ws.filter readsWritten).foldl (fun l w => placeEntry (entryOfRecord w) l) l := by
  induction ws generalizing l with
  | nil => rfl
  | cons w ws ih =>
    rw [replay, ih]
    cases h : readsWritten w with
    | true => rw [List.filter_cons_of_pos h, if_pos rfl, List.foldl_cons]
    | false => rw [List.filter_cons_of_neg (Bool.eq_false_iff.1 h), if_neg Bool.false_ne_true]

/-- R103: every entry that a reload gives back is persisted. -/
theorem replay_persisted (ws : List (BitVec 64)) {l : List HistoryEntry} (h : ∀ e ∈ l, e.persisted = true) :
    ∀ e ∈ replay ws l, e.persisted = true := by
  induction ws generalizing l with
  | nil => exact h
  | cons w ws ih =>
    refine ih fun e he => ?_
    split at he
    · unfold placeEntry at he
      split at he
      · exact h e he
      · rcases List.mem_append.1 he with hold | hnew
        · exact h e ((makeRoom_sublist _ _).subset hold)
        · rw [List.mem_singleton.1 hnew]
          rfl
    · exact h e he

/-- R103: the write position found among the first `n` positions. -/
def writePositionBelow (v : Vector (BitVec 64) 128) (n : Nat) : Nat :=
  (List.range n).foldl (fun n p => if readsErased (positionOf v p) then n else p + 1) 0

theorem writePositionBelow_succ (v : Vector (BitVec 64) 128) (n : Nat) : writePositionBelow v (n + 1) =
    if readsErased (positionOf v n) then writePositionBelow v n else n + 1 := by
  rw [writePositionBelow, List.range_succ, List.foldl_append]
  rfl

/-- R103: the positions from the write position on are ERASED, and the one before it is not. -/
theorem writePositionBelow_spec (v : Vector (BitVec 64) 128) (n : Nat) :
    (∀ p, writePositionBelow v n ≤ p → p < n → readsErased (positionOf v p) = true) ∧
      ∀ p, writePositionBelow v n = p + 1 → readsErased (positionOf v p) = false := by
  induction n with
  | zero => exact ⟨fun p _ hp => absurd hp (Nat.not_lt_zero p), fun p hp => absurd hp.symm (Nat.succ_ne_zero p)⟩
  | succ n ih =>
    obtain ⟨herased, hlast⟩ := ih
    rw [writePositionBelow_succ]
    cases hn : readsErased (positionOf v n) with
    | true =>
      refine ⟨fun p hle hlt => ?_, hlast⟩
      rcases Nat.lt_succ_iff_lt_or_eq.1 hlt with hp | rfl
      · exact herased p hle hp
      · exact hn
    | false =>
      refine ⟨fun p hle hlt => absurd hlt (Nat.not_lt.2 hle), fun p hp => ?_⟩
      obtain rfl : n = p := Nat.succ.inj hp
      exact hn

/-! #### Records (R100) -/

section
variable {h : HistoryEntry}

theorem recordOf_check : (recordOf h).extractLsb' 0 8 = checkOctet (recordBody h) := BitVec.extractLsb'_append_eq_right

theorem recordOf_body : (recordOf h).extractLsb' 8 56 = recordBody h := BitVec.extractLsb'_append_eq_left

/-- R100: the check octet of 56 ones is not 0xFF. -/
theorem readsErased_recordOf : readsErased (recordOf h) = false := by
  refine beq_eq_false_iff_ne.2 fun hones => ?_
  have hbody : recordBody h = BitVec.allOnes 56 := by
    rw [← recordOf_body, hones]
    decide
  have hcheck : checkOctet (recordBody h) = BitVec.allOnes 8 := by
    rw [← recordOf_check, hones]
    decide
  rw [hbody] at hcheck
  exact absurd hcheck (by decide)

theorem readsWritten_recordOf : readsWritten (recordOf h) = true := by
  rw [readsWritten, readsErased_recordOf, recordOf_check, recordOf_body, beq_self_eq_true]
  rfl

theorem outcomeOfCode_outcomeCode {o : Settled} (ho : o ≠ .rejected) : outcomeOfCode (outcomeCode o) = o := by
  cases o with
  | rejected => exact absurd rfl ho
  | presented | cancelled | expired | superseded => rfl

theorem entryOfRecord_recordOf (hout : h.outcome ≠ .rejected) (hexpiry : h.expiry.value ≤ 4294967295) :
    entryOfRecord (recordOf h) =
      { h with expiry := ⟨.wall, 16 * (h.expiry.value / 16) + 15⟩, persisted := true } := by
  have hfield : (BitVec.ofNat 28 (h.expiry.value / 16)).toNat = h.expiry.value / 16 :=
    (BitVec.toNat_ofNat ..).trans (Nat.mod_eq_of_lt (by omega))
  simp (disch := decide) only [entryOfRecord, recordOf, recordBody, BitVec.extractLsb'_append_eq_of_le,
    BitVec.extractLsb'_append_eq_of_add_le, Nat.reduceSub, BitVec.extractLsb'_eq_self, hfield, outcomeOfCode_outcomeCode hout]

end

/-- Settles O57: the replay is a fold (`replay_eq_foldl`) whose entries are all persisted, so that nothing is selected;
the records by `entryOfRecord_recordOf`. -/
theorem reloadRebuildsHistory : Obligations.ReloadRebuildsHistory := by
  refine ⟨?_, fun h hout hscale hexpiry => ⟨readsWritten_recordOf, readsErased_recordOf,
    entryOfRecord_recordOf hout hexpiry, by decide, by decide⟩⟩
  intro s hrun hloading written history
  have hhistory : replay s.store.journal.toList [] = history := replay_eq_foldl ..
  obtain ⟨herased, hlast⟩ := writePositionBelow_spec s.store.journal 128
  refine ⟨nextWritePosition s.store.journal, ?_, nextWritePosition_le _, fun p hp => ?_, fun p hp => ?_⟩
  · have hpersisted := replay_persisted s.store.journal.toList (l := []) (fun e he => absurd he List.not_mem_nil)
    rw [exec_of_running hrun]
    simp only [work, finishReload, hloading, if_true]
    rw [storeSelect_of_none, ← hhistory]
    · rfl
    · refine oldestWaiting_of_none fun e he => Bool.eq_false_iff.2 fun hw => ?_
      obtain ⟨-, -, hnot⟩ := waiting_iff.1 hw
      cases (hpersisted e he).symm.trans hnot
  · rw [← positionOf_fin]
    exact beq_iff_eq.1 (herased p.val hp p.isLt)
  · rw [← positionOf_fin]
    exact beq_eq_false_iff_ne.1 (hlast p.val hp)

end Sys2Proof.Machine

/-! ## SET-CLOCK (R78 to R80, R172): O37 -/

namespace Sys2Proof.Machine

set_option Elab.async false

/-! ### What presentation does to expiries and receipts -/

section
variable {s t u : State} {i : SlotIndex} {x : Slot} {r : Receipt}

theorem mem_insertReceipt {q : Receipt} {l : List Receipt} : q ∈ insertReceipt r l ↔ q = r ∨ q ∈ l := by
  rw [(insertReceipt_perm r l).mem_iff, List.mem_cons]

/-- From `s` to `t` every slot's expiry and history stay, every receipt stays, and a new one has a slot's expiry. -/
structure Presents (s t : State) : Prop where
  expiry : ExpirySame s t
  history : t.history = s.history
  kept : ∀ r ∈ s.receipts.queue, r ∈ t.receipts.queue
  origin : ∀ r ∈ t.receipts.queue, r ∈ s.receipts.queue ∨ ∃ i, expiryAt s i = some r.expiry

theorem Presents.of_same (h : ExpirySame s t) (hhistory : t.history = s.history) (hreceipts : t.receipts = s.receipts) :
    Presents s t :=
  ⟨h, hhistory, fun r hr => by rwa [hreceipts], fun r hr => .inl (by rwa [← hreceipts])⟩

theorem Presents.refl (s : State) : Presents s s := .of_same (.refl s) rfl rfl

theorem Presents.trans (h : Presents s t) (k : Presents t u) : Presents s u where
  expiry := h.expiry.trans k.expiry
  history := k.history.trans h.history
  kept r hr := k.kept r (h.kept r hr)
  origin r hr := by
    rcases k.origin r hr with hold | ⟨i, hi⟩
    · exact h.origin r hold
    · exact .inr ⟨i, (h.expiry.expiry i).symm.trans hi⟩

/-- R164: a receipt joins the others, with the slot's expiry. -/
theorem requestReceipt_queue (kind : ReceiptKind) (delay : Nat) :
    (∀ r ∈ s.receipts.queue, r ∈ (requestReceipt x kind delay s).receipts.queue) ∧
      ∀ r ∈ (requestReceipt x kind delay s).receipts.queue, r ∈ s.receipts.queue ∨ x.expiry = some r.expiry := by
  unfold requestReceipt
  split
  case h_1 he =>
    split
    · refine ⟨fun r hr => mem_insertReceipt.2 (.inr hr), fun r hr => ?_⟩
      rcases mem_insertReceipt.1 hr with rfl | hold
      · exact .inr he
      · exact .inl hold
    · exact ⟨fun _ hr => hr, fun _ hr => .inl hr⟩
  case h_2 => exact ⟨fun _ hr => hr, fun _ hr => .inl hr⟩

theorem presentFirst_presents (i : SlotIndex) : Presents s (presentFirst i s) := by
  unfold presentFirst
  split
  case h_1 => exact .refl s
  case h_2 x hx =>
    split
    · exact .refl s
    · extract_lets v
      have hv : Presents s v := .of_same (modSlot_expirySame i _ fun _ => rfl) rfl rfl
      split
      · obtain ⟨hkept, horigin⟩ := requestReceipt_queue (s := v) (x := x) .presented 0
        have hframe := (requestReceipt_keeps (s := v) x .presented 0).frame
        refine hv.trans ⟨.ofFrame hframe, hframe .history (by decide), hkept, fun r hr => ?_⟩
        refine (horigin r hr).imp_right fun he => ⟨i, ?_⟩
        rw [hv.expiry.expiry, expiryAt, hx]
        exact he
      · exact hv

theorem activate_presents (i : SlotIndex) : Presents s (activate i s) := by
  unfold activate
  extract_lets a b
  have ha : Presents s a := .of_same
    ((show ExpirySame s (s.updPres fun p => { p with queue := p.queue.erase i, active := some i }) from
      ⟨fun _ => rfl, rfl⟩).trans (enterState_expirySame .sounding i)) rfl rfl
  have hb := (stopPreview_keeps (s := a)).frame
  have hc := (startCycle_keeps (.slot i) (rankAt b i) (s := b)).frame
  have hd := (postSlot_keeps i .presenting (s := startCycle (.slot i) (rankAt b i) b)).frame
  have hab : Presents a b := .of_same (.ofFrame hb) (hb .history (by decide)) (hb .receipts (by decide))
  have hbc : Presents b _ := .of_same (.ofFrame hc) (hc .history (by decide)) (hc .receipts (by decide))
  have hcd : Presents _ _ := .of_same (.ofFrame hd) (hd .history (by decide)) (hd .receipts (by decide))
  exact (((ha.trans hab).trans hbc).trans hcd).trans (presentFirst_presents i)

theorem interrupt_presents (a : SlotIndex) : Presents s (interrupt a s) := .of_same (interrupt_expirySame a) rfl rfl

theorem displace_presents (a : SlotIndex) : Presents s (displace a s) := by
  have hpost := (postSlot_keeps a .pending (s := enterState .pending a (s.updPres fun p =>
    { p with reminder := none, active := none, pendingList := p.pendingList ++ [a] }))).frame
  exact .of_same (displace_expirySame a) (hpost .history (by decide)) (hpost .receipts (by decide))

theorem decideOnce_presents : Presents s (decideOnce s) := by
  unfold decideOnce
  split
  · exact .refl s
  · split
    · exact activate_presents _
    · split
      · split
        · exact (interrupt_presents _).trans (activate_presents _)
        · exact .refl s
      · split
        · exact (displace_presents _).trans (activate_presents _)
        · exact .refl s
      · exact .refl s

theorem presentationDecision_presents : Presents s (presentationDecision s) := by
  unfold presentationDecision
  split
  · exact decideOnce_presents.trans decideOnce_presents
  · exact decideOnce_presents

/-! ### Every expiry on the wall scale -/

/-- Every expiry of slots, history and receipts stands on the wall scale. -/
structure AllWall (s : State) : Prop where
  slots : ∀ i e, expiryAt s i = some e → e.scale = .wall
  history : ∀ h ∈ s.history, h.expiry.scale = .wall
  receipts : ∀ r ∈ s.receipts.queue, r.expiry.scale = .wall

theorem AllWall.presents (h : AllWall s) (k : Presents s t) : AllWall t where
  slots i e he := h.slots i e ((k.expiry.expiry i).symm.trans he)
  history x hx := h.history x (by rwa [← k.history])
  receipts r hr := (k.origin r hr).elim (h.receipts r) fun ⟨i, hi⟩ => h.slots i _ hi

theorem pruneHistory_allWall (h : AllWall s) : AllWall (pruneHistory s) where
  slots := h.slots
  history x hx := h.history x (List.mem_of_mem_filter hx)
  receipts := h.receipts

theorem mem_addHistory {e h : HistoryEntry} (hh : h ∈ (addHistory e s).history) : h ∈ s.history ∨ h = e := by
  rw [addHistory, State.updStore_history, State.updHistory_history] at hh
  have hroom : h ∈ makeRoom e s.history → h ∈ s.history := fun hm => (makeRoom_sublist e _).subset hm
  split at hh
  · exact .inl hh
  · split at hh
    · exact .inl (hroom hh)
    · exact (List.mem_append.1 hh).imp hroom List.mem_singleton.1

theorem takeSlotExpiry_of_gathering (hx : slotOf s i = some x) (hst : x.state = .gathering) : takeSlotExpiry i s = s := by
  rw [takeSlotExpiry, hx]
  simp only [hst]

/-- R83 to R85: what the expiry of a slot adds to history has that expiry, and receipts stay. -/
theorem takeSlotExpiry_history {e : Expiry} (hx : slotOf s i = some x) (he : x.expiry = some e) :
    (takeSlotExpiry i s).receipts = s.receipts ∧
      ∀ h ∈ (takeSlotExpiry i s).history, h ∈ s.history ∨ h.expiry = e := by
  have hadded : ∀ outcome, ∀ h ∈ (addHistory ⟨x.key, x.revision, outcome, e, false⟩ s).history,
      h ∈ s.history ∨ h.expiry = e := fun outcome h hh => (mem_addHistory hh).imp_right fun heq => by rw [heq]
  have hpresented : x.state.withdrawable = true → (takeSlotExpiry i s).receipts = s.receipts ∧
      ∀ h ∈ (takeSlotExpiry i s).history, h ∈ s.history ∨ h.expiry = e := fun hw => by
    obtain ⟨hhistory, -, hreceipts⟩ := withdraw_history_events hx he .expired
    rw [takeSlotExpiry_of_presented hx hw]
    exact ⟨hreceipts, fun h hh => hadded .expired h (hhistory ▸ hh)⟩
  cases hstate : x.state with
  | gathering =>
    rw [takeSlotExpiry_of_gathering hx hstate]
    exact ⟨rfl, fun h hh => .inl hh⟩
  | admitted =>
    rw [takeSlotExpiry_of_admitted hx hstate, addSlotHistory_of_expiry he, freeSlot_history]
    have hpost := (postSlot_keeps i .withdrawn (s := addHistory ⟨x.key, x.revision, .expired, e, false⟩ s)).frame
    refine ⟨((freeSlot_keeps i).frame .receipts (by decide)).trans (hpost .receipts (by decide)), fun h hh => ?_⟩
    exact hadded .expired h (hpost .history (by decide) ▸ hh)
  | done =>
    rw [takeSlotExpiry_of_done hx hstate]
    exact ⟨(freeSlot_keeps i).frame .receipts (by decide), fun h hh => .inl hh⟩
  | queued | sounding | shown | pending => exact hpresented (by rw [hstate]; rfl)

theorem expiry_of_slotReached (h : slotReached s i = true) : ∃ x e, slotOf s i = some x ∧ x.expiry = some e := by
  rw [slotReached_eq, expiryAt] at h
  cases hx : slotOf s i with
  | none => rw [hx] at h; cases h
  | some x =>
    cases he : x.expiry with
    | none => rw [hx, Option.bind_some, he] at h; cases h
    | some e => exact ⟨x, e, rfl, he⟩

theorem takeSlotExpiry_allWall (h : AllWall s) (hreached : slotReached s i = true) : AllWall (takeSlotExpiry i s) := by
  obtain ⟨x, e, hx, he⟩ := expiry_of_slotReached hreached
  obtain ⟨hreceipts, hhistory⟩ := takeSlotExpiry_history hx he
  have hwall : e.scale = .wall := h.slots i e (by rw [expiryAt, hx]; exact he)
  refine ⟨fun j e' he' => ?_, fun y hy => (hhistory y hy).elim (h.history y) fun heq => heq ▸ hwall,
    fun r hr => h.receipts r (by rwa [← hreceipts])⟩
  by_cases hst : x.state = .gathering
  · rw [takeSlotExpiry_of_gathering hx hst] at he'
    exact h.slots j e' he'
  · rw [expiryAt_takeSlotExpiry hx hst] at he'
    split at he'
    · cases he'
    · exact h.slots j e' he'

theorem takeSlotExpiries_allWall (l : List SlotIndex) (h : AllWall s) : AllWall (takeSlotExpiries l s) := by
  induction l generalizing s with
  | nil => exact h
  | cons i l ih =>
    rw [takeSlotExpiries]
    split
    case isTrue hi => exact ih (takeSlotExpiry_allWall h hi)
    case isFalse => exact ih h

theorem takeSlotExpiries_receipts (l : List SlotIndex) : (takeSlotExpiries l s).receipts = s.receipts := by
  induction l generalizing s with
  | nil => rfl
  | cons i l ih =>
    rw [takeSlotExpiries, ih]
    split
    case isTrue hi =>
      obtain ⟨x, e, hx, he⟩ := expiry_of_slotReached hi
      exact (takeSlotExpiry_history hx he).1
    case isFalse => rfl

/-- R172: the receipts that are left are those not stale. -/
theorem dropStale_queue : (dropStale s).receipts.queue = s.receipts.queue.filter fun r => !r.isStale s.time := by
  rw [dropStale, State.updReceipts_receipts, postStale_eq]
  rfl

theorem dropStale_allWall (h : AllWall s) : AllWall (dropStale s) := by
  have hframe := (dropStale_keeps (s := s)).frame
  refine ⟨fun i e he => h.slots i e ?_, fun x hx => h.history x ?_, fun r hr => h.receipts r ?_⟩
  · rwa [← (ExpirySame.ofFrame hframe).expiry i]
  · rwa [← hframe .history (by decide)]
  · rw [dropStale_queue] at hr
    exact List.mem_of_mem_filter hr

theorem takeReached_allWall (h : AllWall s) : AllWall (takeReached s) :=
  dropStale_allWall (takeSlotExpiries_allWall _ (pruneHistory_allWall h))

/-- R167: a handoff leaves each receipt's expiry. -/
theorem beginHandoff_expiries :
    (beginHandoff s).receipts.queue.map (·.expiry) = s.receipts.queue.map (·.expiry) := by
  unfold beginHandoff
  split
  · split
    · rfl
    · exact markFirstDue_map _ _ (fun _ _ => rfl) _
  · rfl

theorem beginHandoff_allWall (h : AllWall s) : AllWall (beginHandoff s) := by
  have hframe := (beginHandoff_keeps (s := s)).frame
  refine ⟨fun i e he => h.slots i e ?_, fun x hx => h.history x ?_, fun r hr => ?_⟩
  · rwa [← (ExpirySame.ofFrame hframe).expiry i]
  · rwa [← hframe .history (by decide)]
  · have hmem := List.mem_map_of_mem (f := Receipt.expiry) hr
    rw [beginHandoff_expiries] at hmem
    obtain ⟨q, hq, heq⟩ := List.mem_map.1 hmem
    exact heq ▸ h.receipts q hq

/-- R104, R107: the selection leaves each history entry's expiry. -/
theorem storeSelect_expiries : (storeSelect s).history.map (·.expiry) = s.history.map (·.expiry) := by
  unfold storeSelect
  split
  · split
    · rfl
    · split
      · rfl
      · split
        · rfl
        · rw [startCompaction_history, List.map_map]
          rfl
  · rfl

theorem storeSelect_allWall (h : AllWall s) : AllWall (storeSelect s) := by
  have hframe := (storeSelect_keeps (s := s)).frame
  refine ⟨fun i e he => h.slots i e ?_, fun x hx => ?_, fun r hr => h.receipts r ?_⟩
  · rwa [← (ExpirySame.ofFrame hframe).expiry i]
  · have hmem := List.mem_map_of_mem (f := HistoryEntry.expiry) hx
    rw [storeSelect_expiries] at hmem
    obtain ⟨y, hy, heq⟩ := List.mem_map.1 hmem
    exact heq ▸ h.history y hy
  · rwa [← hframe .receipts (by decide)]

theorem settle_allWall (h : AllWall s) : AllWall (settle s) :=
  storeSelect_allWall (beginHandoff_allWall (h.presents presentationDecision_presents))

/-! ### An IN_FLIGHT receipt -/

theorem takeReached_inFlight (hr : r ∈ s.receipts.queue) (hflight : r.inFlight = true) :
    r ∈ (takeReached s).receipts.queue := by
  rw [takeReached, dropStale_queue, takeSlotExpiries_receipts]
  refine List.mem_filter.2 ⟨hr, ?_⟩
  rw [Receipt.isStale, hflight]
  rfl

theorem settle_inFlight (hr : r ∈ s.receipts.queue) (hflight : r.inFlight = true) : r ∈ (settle s).receipts.queue := by
  have hpres := presentationDecision_presents.kept r hr
  rw [settle, storeSelect_keeps.frame .receipts (by decide),
    beginHandoff_of_none (.inr (.inl ⟨r, hpres, hflight⟩))]
  exact hpres

end

/-! ### The clock set -/

section
variable {s : State} {w : Nat}

theorem mapEntries_eq_map {α β : Type} {n : Nat} (f : α → β) (v : Vector α n) : mapEntries f v = v.map f :=
  Vector.toList_inj.1 (by rw [mapEntries_toList, Vector.toList_map])

theorem convertExpiry_eq (u w : Nat) (e : Expiry) : convertExpiry u w e =
    if e.scale = .wall then e else ⟨.wall, if u < e.value then min (w + (e.value - u)) maxSeconds else w⟩ := by
  obtain ⟨scale, value⟩ := e
  cases scale <;> rfl

theorem convertExpiry_scale (u w : Nat) (e : Expiry) : (convertExpiry u w e).scale = .wall := by
  rw [convertExpiry_eq]
  split
  · assumption
  · rfl

/-- The state with its clock set to `w`, and every expiry as that leaves it. -/
def clockAt (w : Nat) (s : State) : State :=
  (if s.time.clockSet then keepReached s else convertAll w s).updTime fun c => { c with wall := w, clockSet := true }

theorem setWallClock_of_same (hset : s.time.clockSet = true) (hwall : s.time.wall = w) : setWallClock w s = s := by
  rw [setWallClock, hset, hwall, beq_self_eq_true]
  rfl

theorem setWallClock_of_moved (h : s.time.clockSet = true → s.time.wall ≠ w) :
    setWallClock w s = settle (takeReached (clockAt w s)) := by
  rw [setWallClock]
  refine if_neg fun hboth => ?_
  obtain ⟨hset, hwall⟩ := Bool.and_eq_true_iff.1 hboth
  exact h hset (beq_iff_eq.1 hwall)

theorem clockAt_of_set (hset : s.time.clockSet = true) : clockAt w s = { s with
    time := { s.time with wall := w }
    receipts := { s.receipts with queue := s.receipts.queue.map fun r =>
      { r with expiryReached := r.expiryReached || reached s.time r.expiry } } } := by
  have htime : ({ s.time with wall := w, clockSet := true } : Timebase) = { s.time with wall := w } := by rw [← hset]
  rw [clockAt, if_pos hset, ← htime]
  rfl

theorem clockAt_of_unset (hunset : s.time.clockSet = false) : clockAt w s = { s with
    time := ⟨s.time.uptime, w, true⟩
    slots := s.slots.map (Option.map fun x => { x with expiry := x.expiry.map (convertExpiry s.time.uptime w) })
    history := s.history.map fun h => { h with expiry := convertExpiry s.time.uptime w h.expiry }
    receipts := { s.receipts with queue := s.receipts.queue.map fun r =>
      { r with expiry := convertExpiry s.time.uptime w r.expiry } } } := by
  rw [clockAt, if_neg (Bool.eq_false_iff.1 hunset), ← mapEntries_eq_map]
  rfl

theorem clockAt_time : (clockAt w s).time = ⟨s.time.uptime, w, true⟩ := by
  unfold clockAt
  split <;> rfl

theorem clockAt_allWall (hunset : s.time.clockSet = false) : AllWall (clockAt w s) := by
  rw [clockAt_of_unset hunset]
  refine ⟨fun i e he => ?_, fun h hh => ?_, fun r hr => ?_⟩
  · simp only [expiryAt, slotOf, Vector.getElem_map] at he
    obtain ⟨x, hx, hxe⟩ := Option.bind_eq_some_iff.1 he
    obtain ⟨y, -, rfl⟩ := Option.map_eq_some_iff.1 hx
    obtain ⟨e', -, rfl⟩ := Option.map_eq_some_iff.1 hxe
    exact convertExpiry_scale ..
  · obtain ⟨h', -, rfl⟩ := List.mem_map.1 hh
    exact convertExpiry_scale ..
  · obtain ⟨r', -, rfl⟩ := List.mem_map.1 hr
    exact convertExpiry_scale ..

/-- R79, R172: an expiry reached before the first setting is reached after it. -/
theorem reached_convertExpiry {t : Timebase} (hunset : t.clockSet = false) {e : Expiry} (h : reached t e = true) :
    reached ⟨t.uptime, w, true⟩ (convertExpiry t.uptime w e) = true := by
  obtain ⟨scale, value⟩ := e
  cases scale with
  | wall =>
    simp only [reached, hunset, Bool.false_and] at h
    cases h
  | uptime =>
    have hle : value ≤ t.uptime := of_decide_eq_true h
    simp only [convertExpiry, if_neg (Nat.not_lt.2 hle), reached]
    exact decide_eq_true (Nat.le_refl w)

/-- R172: a receipt whose expiry was reached keeps this when the clock is set. -/
theorem clockAt_inFlight {r : Receipt} (hr : r ∈ s.receipts.queue) (hreached : r.expired s.time = true) :
    ∃ x ∈ (clockAt w s).receipts.queue, x = { r with expiry := x.expiry, expiryReached := x.expiryReached } ∧
      x.expired (clockAt w s).time = true := by
  rw [clockAt_time]
  cases hset : s.time.clockSet with
  | true =>
    rw [clockAt_of_set hset]
    refine ⟨_, List.mem_map_of_mem hr, rfl, ?_⟩
    rw [Receipt.expired, show (r.expiryReached || reached s.time r.expiry) = true from hreached]
    rfl
  | false =>
    rw [clockAt_of_unset hset]
    refine ⟨_, List.mem_map_of_mem hr, rfl, ?_⟩
    rw [Receipt.expired]
    rcases (Bool.or_eq_true_iff.1 hreached) with hkept | hnow
    · exact Bool.or_eq_true_iff.2 (.inl hkept)
    · exact Bool.or_eq_true_iff.2 (.inr (reached_convertExpiry hset hnow))

theorem takeReached_settle_time (t : State) : (settle (takeReached t)).time = t.time :=
  settle_expirySame.time.trans (takeReached_keeps.frame .time (by decide))

theorem exec_setClock_of_ready {f : Frame} {rest : List Frame} (h : RequestReady 0x02 f rest s)
    (hloaded : s.store.state ≠ .loading) (hlength : f.payload.length = 5) : exec .setClock s =
      .next (respond f [codeOk] (setWallClock (word32At f.payload 1).toNat (withStaging rest s))) :=
  congrArg Host.Outcome.next (takeRequest_of_requestReady h hloaded (lengthIs_of_length hlength) []
    fun p s => (setWallClock (word32At p 1).toNat s, [codeOk]))

end

/-- Settles O37: the three forms of `setWallClock`; that every expiry is then on the wall scale (`AllWall`), and that an
IN_FLIGHT receipt stays (`takeReached_inFlight`, `settle_inFlight`). -/
theorem setClockMovesTheWallClock : Obligations.SetClockMovesTheWallClock := by
  refine ⟨fun f rest s h hloaded hlength => ?_, fun f rest s t h hloaded hlength hunset ht => ?_,
    fun f rest s t r h hloaded hlength ht hr hflight hreached => ?_⟩
  · intro w t
    rw [exec_setClock_of_ready h hloaded hlength]
    refine ⟨fun hset hwall => ?_, fun hset hwall => ?_, fun hunset => ?_⟩
    · rw [setWallClock_of_same (s := withStaging rest s) hset hwall]
      rfl
    · rw [setWallClock_of_moved (s := withStaging rest s) fun _ => hwall, clockAt_of_set (s := withStaging rest s) hset]
      rfl
    · intro moved
      have hmoved : convertExpiry s.time.uptime w = moved := funext (convertExpiry_eq s.time.uptime w)
      rw [setWallClock_of_moved (s := withStaging rest s) fun hset => (Bool.eq_false_iff.1 hunset hset).elim,
        clockAt_of_unset (s := withStaging rest s) hunset, ← hmoved]
      rfl
  · rw [exec_setClock_of_ready h hloaded hlength,
      setWallClock_of_moved (s := withStaging rest s) fun hset => (Bool.eq_false_iff.1 hunset hset).elim] at ht
    have hwall := settle_allWall (takeReached_allWall
      (clockAt_allWall (w := (word32At f.payload 1).toNat) (s := withStaging rest s) hunset))
    have htime := takeReached_settle_time (clockAt (word32At f.payload 1).toNat (withStaging rest s))
    rw [clockAt_time, show (withStaging rest s).time = s.time from rfl] at htime
    generalize settle (takeReached (clockAt (word32At f.payload 1).toNat (withStaging rest s))) = u at ht hwall htime
    cases ht
    have huptime : u.time.uptime = s.time.uptime := by rw [htime]
    refine ⟨congrArg Timebase.clockSet htime, huptime, congrArg Timebase.wall htime,
      fun i x e hx he => hwall.slots i e ?_, hwall.history, hwall.receipts⟩
    exact Option.bind_eq_some_iff.2 ⟨x, hx, he⟩
  · rw [exec_setClock_of_ready h hloaded hlength] at ht
    have hexpired : r.expired s.time = true := Bool.or_eq_true_iff.2 hreached
    by_cases hsame : s.time.clockSet = true ∧ s.time.wall = (word32At f.payload 1).toNat
    · obtain ⟨hset, hwall⟩ := hsame
      rw [setWallClock_of_same (s := withStaging rest s) hset hwall] at ht
      cases ht
      exact ⟨r, hr, rfl, hreached⟩
    · rw [setWallClock_of_moved (s := withStaging rest s) fun hset hwall => hsame ⟨hset, hwall⟩] at ht
      obtain ⟨x, hx, heq, hx'⟩ := clockAt_inFlight (w := (word32At f.payload 1).toNat) (s := withStaging rest s) hr hexpired
      have hxflight : x.inFlight = true := by
        rw [heq]
        exact hflight
      have hmem := settle_inFlight (takeReached_inFlight hx hxflight) hxflight
      have htime := takeReached_settle_time (clockAt (word32At f.payload 1).toNat (withStaging rest s))
      rw [← htime] at hx'
      generalize settle (takeReached (clockAt (word32At f.payload 1).toNat (withStaging rest s))) = u at ht hmem hx'
      cases ht
      exact ⟨x, hmem, heq, Bool.or_eq_true_iff.1 hx'⟩

end Sys2Proof.Machine
